-- ==== Sys2Proof/Word.lean ====
section
/-! DEFINITION. The words of the block: the 32-bit port word, the PCM byte, the f32 bit pattern and the unit id
(spec/20_memory.md R71, spec/00_scope.md R9). -/

namespace Sys2Proof

/-- A command, operand or response word: 32 bits (R71, R100). -/
abbrev Word := BitVec 32

/-- A u8 PCM element (R70). It never crosses a port. -/
abbrev Byte := BitVec 8

/-- An `f32`, held as its IEEE 754 binary32 bit pattern (R9, R71): sign bit 31, exponent bits 30:23, fraction
bits 22:0. It is the same type as `Word`; its arithmetic is `Machine.fadd` and its companions, never `+` on bits. -/
abbrev F32 := BitVec 32

/-- A unit id (R77): 0 addresses the block-wide registers, 1 to 255 the units of the instance table. -/
abbrev UnitId := BitVec 8

end Sys2Proof
end

