-- ==== Sys2Proof/Config.lean ====
section
/-! DEFINITION. Configuration: what an implementation fixes for the life of the block (spec/00_scope.md R8,
spec/10_state.md R22, R38, R42) and the open values of the spec, as constants with no body. The numeric parameters and
the instance table are plain data carried read-only in State (log entry 2), so every claim is about every
configuration. The transcendental functions and the NaN payload have no default in the spec and are opaque. -/

namespace Sys2Proof

/-! ## Open values (opaque: no proof can see a value) -/

/-- `sin32` (R8, U10): any deterministic function. Log entry 5. -/
opaque Config.sin32 : F32 → F32
/-- `cos32` (R8, U10). Log entry 5. -/
opaque Config.cos32 : F32 → F32
/-- `tan32` (R8, U10). Log entry 5. -/
opaque Config.tan32 : F32 → F32
/-- `sqrt32` (R8, U10). Log entry 5. -/
opaque Config.sqrt32 : F32 → F32
/-- `exp10_32`, 10 to the power of its argument (R8, U10). Log entry 5. -/
opaque Config.exp10 : F32 → F32

/-- The four rounded arithmetic operations of R9. -/
inductive FOp where
  | add | sub | mul | div
  deriving DecidableEq, Repr

/-- Sign and payload of the NaN an operation returns (R9: "which NaN payload results is left open"; U5). Only the sign
bit and the fraction bits are used, see `Machine.nanResult`. Log entry 4. -/
opaque Config.nanBits : FOp → F32 → F32 → F32

/-- The implementation's own `prng_to_float`, where it does not take the default (R8, D19). Log entry 6. -/
opaque Config.implPrngToFloat : BitVec 31 → F32
/-- The implementation's own `pcm_to_float`, where it does not take the default (R8, D22). Log entry 6. -/
opaque Config.implPcmToFloat : Byte → F32
/-- The implementation's own `note_freq`, where it does not take the default (R8, D26). Log entry 6. -/
opaque Config.implNoteFreq : BitVec 7 → F32

/-! ## Coefficient records -/

/-- The coefficient record of a biquad (R25), already divided by `a0`. It moves as a whole (R74). -/
structure BqCoef where
  b0 : F32
  b1 : F32
  b2 : F32
  a1 : F32
  a2 : F32
  deriving DecidableEq, Repr

/-- The coefficient record of a first-order section (R26). -/
structure FoCoef where
  b0 : F32
  b1 : F32
  a1 : F32
  deriving DecidableEq, Repr

/-! ## The instance table -/

/-- The unit classes (R16, R106); class SYS is not a unit. -/
inductive UnitClass where
  | bq | fo | fir | dl | fd | ws | ts | pa | apf | cmb | rv | ks | vb | dm
  deriving DecidableEq, Repr

/-- One pattern of a drum machine's ROM (R38): `DPB[p]` and `STEPS[p]`, whose length is `PLEN[p]`. -/
structure Pattern where
  dpb   : Word
  steps : List Word
  deriving DecidableEq, Repr

/-- The ROM of a drum machine (R38, R70): one PCM table per voice (`V` is their number, `LEN[v]` a table's length), the
patterns (`NPAT` is their number) and the sixteen coefficient records. -/
structure DmRom where
  pcm      : List (List Byte)
  patterns : List Pattern
  bank     : List BqCoef
  deriving DecidableEq, Repr

/-- An entry of the instance table (R22): class, static parameters and children in the order of R31 to R38. `N` of a
VB is the number of its children. -/
inductive InstEntry where
  | bq
  | fo
  | fir (o p : Nat)
  | dl (l : Nat)
  | fd (l : Nat)
  | ws (tmax : Nat)
  | ts (inp curve fb dc : UnitId)
  | pa (stage0 stage1 stage2 : UnitId)
  | apf (dl : UnitId)
  | cmb (dl : UnitId)
  | rv (apf0 apf1 apf2 cmb0 cmb1 cmb2 cmb3 : UnitId)
  | ks (delay damp : UnitId)
  | vb (voices : List UnitId)
  | dm (rom : DmRom) (lp : UnitId)
  deriving DecidableEq, Repr

/-- The class of an entry. -/
def InstEntry.cls : InstEntry → UnitClass
  | .bq => .bq
  | .fo => .fo
  | .fir _ _ => .fir
  | .dl _ => .dl
  | .fd _ => .fd
  | .ws _ => .ws
  | .ts _ _ _ _ => .ts
  | .pa _ _ _ => .pa
  | .apf _ => .apf
  | .cmb _ => .cmb
  | .rv _ _ _ _ _ _ _ => .rv
  | .ks _ _ => .ks
  | .vb _ => .vb
  | .dm _ _ => .dm

/-- The children of an entry, each with the class the spec gives it (R31 to R38). -/
def InstEntry.children : InstEntry → List (UnitId × UnitClass)
  | .bq => []
  | .fo => []
  | .fir _ _ => []
  | .dl _ => []
  | .fd _ => []
  | .ws _ => []
  | .ts inp curve fb dc => [(inp, .bq), (curve, .ws), (fb, .fo), (dc, .fo)]
  | .pa s0 s1 s2 => [(s0, .ts), (s1, .ts), (s2, .ts)]
  | .apf d => [(d, .dl)]
  | .cmb d => [(d, .dl)]
  | .rv a0 a1 a2 c0 c1 c2 c3 =>
    [(a0, .apf), (a1, .apf), (a2, .apf), (c0, .cmb), (c1, .cmb), (c2, .cmb), (c3, .cmb)]
  | .ks delay damp => [(delay, .fd), (damp, .fo)]
  | .vb voices => voices.map fun v => (v, .ks)
  | .dm _ lp => [(lp, .bq)]

/-- The ROM constraints of R38. The upper bounds make `cursor` (u32), `step_idx` and `pattern` (u16) wide enough. -/
def Pattern.wf (v : Nat) (p : Pattern) : Bool :=
  decide (1 ≤ p.dpb.toNat) && decide (1 ≤ p.steps.length) && decide (p.steps.length ≤ 65536)
    && decide (p.steps.length % p.dpb.toNat = 0) && p.steps.all fun m => decide (m.toNat < 2 ^ v)

/-- The ROM constraints of R38. -/
def DmRom.wf (r : DmRom) : Bool :=
  decide (1 ≤ r.pcm.length) && decide (r.pcm.length ≤ 32)
    && (r.pcm.all fun t => decide (64 ≤ t.length) && decide (t.length + 191 < 2 ^ 32))
    && decide (1 ≤ r.patterns.length) && decide (r.patterns.length ≤ 65536)
    && (r.patterns.all fun p => p.wf r.pcm.length)
    && decide (r.bank.length = 16)

/-- The constraints on an entry's static parameters (R27, R28, R29, R30, R37, R38). An FD holds `nint` in 16 bits (R29),
so its capacity fits them. R27 gives the FIR order `O` no upper bound and none is asked here, although R100 says that a
command is at most 65538 words long: the model's choice, log entry 26. -/
def InstEntry.wf : InstEntry → Bool
  | .bq => true
  | .fo => true
  | .fir o p => decide (1 ≤ o) && decide (o ≤ p)
  | .dl l => decide (1 ≤ l)
  | .fd l => decide (1 ≤ l) && decide (l < 65536)
  | .ws tmax => decide (2 ≤ tmax)
  | .ts _ _ _ _ => true
  | .pa _ _ _ => true
  | .apf _ => true
  | .cmb _ => true
  | .rv _ _ _ _ _ _ _ => true
  | .ks _ _ => true
  | .vb voices => decide (1 ≤ voices.length)
  | .dm rom _ => rom.wf

/-- The instance table `INST` (R22): ids 1 to 255 in rising order, an absent id being unmapped. -/
abbrev InstTable := List (UnitId × InstEntry)

/-- The class the table gives a unit id, if any (R22, R109 check 2). -/
def InstTable.classOf (t : InstTable) (u : UnitId) : Option UnitClass :=
  (t.lookup u).map InstEntry.cls

/-- All children named in the table, with the class each must have. -/
def InstTable.children (t : InstTable) : List (UnitId × UnitClass) :=
  t.flatMap fun e => e.2.children

/-- What R22 asks of the table: ids rising and not 0, legal static parameters, every child present with its class and
named by one parent once. There are no cycles because a child's class always lies below its parent's. -/
def InstTable.wf (t : InstTable) : Bool :=
  decide ((t.map fun e => e.1.toNat).Pairwise (· < ·))
    && (t.all fun e => decide (e.1 ≠ 0) && e.2.wf)
    && (t.children.all fun c => decide (t.classOf c.1 = some c.2))
    && decide ((t.children.map fun c => c.1).Nodup)

/-! ## Numeric parameters -/

/-- Whether a mapping of R8 is the spec's default or the implementation's own. -/
inductive MapChoice where
  | standard
  | implementation
  deriving DecidableEq, Repr

/-- The numeric parameters of R8. -/
structure Params where
  /-- `MBOX_DEPTH` -/
  mboxDepth : Nat
  /-- `AGE_W` -/
  ageW : Nat
  /-- `KS_EXCITE_LEN` -/
  ksExciteLen : BitVec 16
  /-- `KS_SUSTAIN_GAIN` -/
  ksSustainGain : F32
  /-- `KS_MUTE_GAIN` -/
  ksMuteGain : F32
  /-- `KS_TUNE_CONST` -/
  ksTuneConst : F32
  /-- `DM_DEFAULT_BPM` -/
  dmDefaultBpm : Word
  /-- `DM_DEFAULT_PATTERN` -/
  dmDefaultPattern : BitVec 16
  /-- which `prng_to_float` -/
  prngMap : MapChoice
  /-- which `pcm_to_float` -/
  pcmMap : MapChoice
  /-- which `note_freq` -/
  noteMap : MapChoice
  deriving DecidableEq, Repr

/-- A finite f32 pattern: the exponent field is not all ones. R310 lets a model assume this of the KS constants. -/
def f32Finite (x : F32) : Bool := decide (x.extractLsb' 23 8 ≠ 0xFF#8)

/-- What the spec asks of the parameters: finite KS constants (R310), an age width of at least one bit, a channel that
the 16-bit occupancy of the status word can count (R145). -/
def Params.wf (p : Params) : Bool :=
  decide (1 ≤ p.ageW) && decide (p.mboxDepth < 65536) && f32Finite p.ksSustainGain && f32Finite p.ksMuteGain
    && f32Finite p.ksTuneConst

/-- The defaults of R8, and for the three KS constants, which have none, the test values of spec/95_test_vectors.md
section 2.3. Log entry 3. -/
def Params.reference : Params where
  mboxDepth := 16
  ageW := 32
  ksExciteLen := 128
  ksSustainGain := 0x3F7F0000
  ksMuteGain := 0x3F000000
  ksTuneConst := 0x3F000000
  dmDefaultBpm := 120
  dmDefaultPattern := 0
  prngMap := .standard
  pcmMap := .standard
  noteMap := .standard

/-! ## The reference instance table (spec/95_test_vectors.md sections 2.1 and 2.2, log entry 3) -/

/-- The test ROM of unit 53. -/
def DmRom.reference : DmRom where
  pcm := [(List.range 64).map fun i => BitVec.ofNat 8 (64 - i),
    (List.range 96).map fun i => BitVec.ofNat 8 (256 - 2 * ((5 * i) % 32))]
  patterns := [⟨2, [0b01, 0b10, 0b11, 0b00]⟩, ⟨1, [0b11, 0b01]⟩]
  bank := [
    ⟨0x3E800000, 0x3F000000, 0x3E800000, 0x00000000, 0x00000000⟩,
    ⟨0x3E880000, 0x3EF00000, 0x3E880000, 0xBE000000, 0x00000000⟩,
    ⟨0x3E900000, 0x3EE00000, 0x3E900000, 0xBE800000, 0x00000000⟩,
    ⟨0x3E980000, 0x3ED00000, 0x3E980000, 0xBEC00000, 0x00000000⟩,
    ⟨0x3EA00000, 0x3EC00000, 0x3EA00000, 0x00000000, 0x00000000⟩,
    ⟨0x3EA80000, 0x3EB00000, 0x3EA80000, 0xBE000000, 0x00000000⟩,
    ⟨0x3EB00000, 0x3EA00000, 0x3EB00000, 0xBE800000, 0x00000000⟩,
    ⟨0x3EB80000, 0x3E900000, 0x3EB80000, 0xBEC00000, 0x00000000⟩,
    ⟨0x3EC00000, 0x3E800000, 0x3EC00000, 0x00000000, 0x00000000⟩,
    ⟨0x3EC80000, 0x3E600000, 0x3EC80000, 0xBE000000, 0x00000000⟩,
    ⟨0x3ED00000, 0x3E400000, 0x3ED00000, 0xBE800000, 0x00000000⟩,
    ⟨0x3ED80000, 0x3E200000, 0x3ED80000, 0xBEC00000, 0x00000000⟩,
    ⟨0x3EE00000, 0x3E000000, 0x3EE00000, 0x00000000, 0x00000000⟩,
    ⟨0x3EE80000, 0x3DC00000, 0x3EE80000, 0xBE000000, 0x00000000⟩,
    ⟨0x3EF00000, 0x3D800000, 0x3EF00000, 0xBE800000, 0x00000000⟩,
    ⟨0x3EF80000, 0x3D000000, 0x3EF80000, 0xBEC00000, 0x00000000⟩]

/-- The instance table the spec's vectors run on. -/
def InstTable.reference : InstTable :=
  [(1, .bq), (2, .fo), (3, .fir 4 8), (4, .dl 8), (5, .fd 8), (6, .ws 16),
   (7, .ts 8 9 10 11), (8, .bq), (9, .ws 16), (10, .fo), (11, .fo),
   (12, .pa 13 18 23), (13, .ts 14 15 16 17), (14, .bq), (15, .ws 16), (16, .fo), (17, .fo)] ++
  [(18, .ts 19 20 21 22), (19, .bq), (20, .ws 16), (21, .fo), (22, .fo),
   (23, .ts 24 25 26 27), (24, .bq), (25, .ws 16), (26, .fo), (27, .fo),
   (28, .rv 29 31 33 35 37 39 41), (29, .apf 30), (30, .dl 347), (31, .apf 32), (32, .dl 113), (33, .apf 34),
   (34, .dl 37)] ++
  [(35, .cmb 36), (36, .dl 1601), (37, .cmb 38), (38, .dl 1867), (39, .cmb 40), (40, .dl 2053), (41, .cmb 42),
   (42, .dl 2251), (43, .ks 44 45), (44, .fd 2048), (45, .fo), (46, .vb [47, 50]), (47, .ks 48 49)] ++
  [(48, .fd 2048), (49, .fo), (50, .ks 51 52), (51, .fd 2048), (52, .fo), (53, .dm DmRom.reference 54), (54, .bq),
   (55, .apf 56), (56, .dl 8), (57, .cmb 58), (58, .dl 8)]

end Sys2Proof
end

