-- ==== Sys2Proof/Syntax.lean ====
section
/-! DEFINITION. The commands of the block (spec/30_encoding.md R108, spec/opcode_table.json): one constructor per row of
the opcode table, with the operands of its format as data. A sample list or a table carries its own count, which the
encoding puts into `imm` (R102). -/

namespace Sys2Proof

/-- A command of OXD-CS 1.0. `u` is the unit id; `x`, `f`, `q`, … are f32 operand words. -/
inductive Instr where
  -- class SYS (R140 to R149)
  | sysNop
  | sysSetfs (fs : Word)
  | sysRdfs
  | sysDrain
  | sysRaw (imm : BitVec 16)
  | sysRdstat
  | sysSeed (seed : Word)
  | sysRand
  | sysRandf
  -- class BQ (R161 to R174)
  | bqStep (u : UnitId) (x : F32)
  | bqProc (u : UnitId) (xs : List F32)
  | bqFlush (u : UnitId)
  | bqLdc (u : UnitId) (b0 b1 b2 a1 a2 : F32)
  | bqLp (u : UnitId) (f q : F32)
  | bqHp (u : UnitId) (f q : F32)
  | bqBp (u : UnitId) (f q : F32)
  | bqBs (u : UnitId) (f q : F32)
  | bqAp (u : UnitId) (f q : F32)
  | bqPk (u : UnitId) (f gain q : F32)
  | bqLs (u : UnitId) (f gain q : F32)
  | bqHs (u : UnitId) (f gain q : F32)
  | bqRdc (u : UnitId)
  -- class FO (R191 to R197)
  | foStep (u : UnitId) (x : F32)
  | foProc (u : UnitId) (xs : List F32)
  | foFlush (u : UnitId)
  | foLdc (u : UnitId) (b0 b1 a1 : F32)
  | foLp (u : UnitId) (f : F32)
  | foHp (u : UnitId) (f : F32)
  | foRdc (u : UnitId)
  -- class FIR (R201 to R204)
  | firStep (u : UnitId) (x : F32)
  | firProc (u : UnitId) (xs : List F32)
  | firFlush (u : UnitId)
  | firLdc (u : UnitId) (cs : List F32)
  -- class DL (R211 to R215)
  | dlStep (u : UnitId) (x : F32)
  | dlProc (u : UnitId) (xs : List F32)
  | dlFlush (u : UnitId)
  | dlSetup (u : UnitId) (n : BitVec 16)
  | dlPeek (u : UnitId)
  -- class FD (R219 to R223)
  | fdStep (u : UnitId) (x : F32)
  | fdProc (u : UnitId) (xs : List F32)
  | fdFlush (u : UnitId)
  | fdSetup (u : UnitId) (n : F32)
  | fdPeek (u : UnitId)
  -- class WS (R231 to R234)
  | wsStep (u : UnitId) (x : F32)
  | wsProc (u : UnitId) (xs : List F32)
  | wsFlush (u : UnitId)
  | wsSetup (u : UnitId) (min max : F32) (tab : List F32)
  -- class TS (R240 to R245)
  | tsStep (u : UnitId) (x : F32)
  | tsProc (u : UnitId) (xs : List F32)
  | tsFlush (u : UnitId)
  | tsSetup (u : UnitId) (gain supply rk rp : F32)
  | tsGain (u : UnitId) (gain : F32)
  | tsRdgain (u : UnitId)
  -- class PA (R250 to R252)
  | paStep (u : UnitId) (x : F32)
  | paProc (u : UnitId) (xs : List F32)
  | paFlush (u : UnitId)
  -- class APF (R261 to R264)
  | apfStep (u : UnitId) (x : F32)
  | apfProc (u : UnitId) (xs : List F32)
  | apfFlush (u : UnitId)
  | apfSetup (u : UnitId) (n : BitVec 16) (gb gf : F32)
  -- class CMB (R265 to R268)
  | cmbStep (u : UnitId) (x : F32)
  | cmbProc (u : UnitId) (xs : List F32)
  | cmbFlush (u : UnitId)
  | cmbSetup (u : UnitId) (n : BitVec 16) (gb : F32)
  -- class RV (R270 to R273)
  | rvStep (u : UnitId) (x : F32)
  | rvProc (u : UnitId) (xs : List F32)
  | rvFlush (u : UnitId)
  | rvSetup (u : UnitId)
  -- class KS (R311 to R316)
  | ksStep (u : UnitId)
  | ksProc (u : UnitId) (n : BitVec 16)
  | ksFlush (u : UnitId)
  | ksTune (u : UnitId) (freq : F32)
  | ksTrig (u : UnitId)
  | ksMute (u : UnitId)
  -- class VB (R321 to R325)
  | vbStep (u : UnitId)
  | vbProc (u : UnitId) (n : BitVec 16)
  | vbFlush (u : UnitId)
  | vbNoteon (u : UnitId) (note velocity : BitVec 7)
  | vbNoteoff (u : UnitId) (note velocity : BitVec 7)
  -- class DM (R283 to R293)
  | dmStep (u : UnitId)
  | dmProc (u : UnitId) (n : BitVec 16)
  | dmFlush (u : UnitId)
  | dmSetup (u : UnitId)
  | dmCfg (u : UnitId) (pattern : BitVec 16) (bpm : Word)
  | dmRdcfg (u : UnitId)
  deriving DecidableEq, Repr

end Sys2Proof
end

