-- ==== Sys2Proof/WellFormed.lean ====
section
/-! DEFINITION. Which commands have an encoding (spec/30_encoding.md R102, R104): a count travels in the 16-bit `imm`, and
a `FIR.LDC` carries exactly the `O` words of the addressed unit. -/

namespace Sys2Proof

/-- A sample list or table whose length the 16-bit `imm` can carry (R102). -/
def countFits (xs : List F32) : Bool := decide (xs.length < 65536)

/-- Well-formedness as syntax. `orders u` is the parameter `O` of a FIR unit `u`, 0 for any other id (R104). -/
def Instr.wf (orders : UnitId → Nat) : Instr → Bool
  | .sysNop => true
  | .sysSetfs _ => true
  | .sysRdfs => true
  | .sysDrain => true
  | .sysRaw _ => true
  | .sysRdstat => true
  | .sysSeed _ => true
  | .sysRand => true
  | .sysRandf => true
  | .bqStep _ _ => true
  | .bqProc _ xs => countFits xs
  | .bqFlush _ => true
  | .bqLdc _ _ _ _ _ _ => true
  | .bqLp _ _ _ => true
  | .bqHp _ _ _ => true
  | .bqBp _ _ _ => true
  | .bqBs _ _ _ => true
  | .bqAp _ _ _ => true
  | .bqPk _ _ _ _ => true
  | .bqLs _ _ _ _ => true
  | .bqHs _ _ _ _ => true
  | .bqRdc _ => true
  | .foStep _ _ => true
  | .foProc _ xs => countFits xs
  | .foFlush _ => true
  | .foLdc _ _ _ _ => true
  | .foLp _ _ => true
  | .foHp _ _ => true
  | .foRdc _ => true
  | .firStep _ _ => true
  | .firProc _ xs => countFits xs
  | .firFlush _ => true
  | .firLdc u cs => decide (cs.length = orders u)
  | .dlStep _ _ => true
  | .dlProc _ xs => countFits xs
  | .dlFlush _ => true
  | .dlSetup _ _ => true
  | .dlPeek _ => true
  | .fdStep _ _ => true
  | .fdProc _ xs => countFits xs
  | .fdFlush _ => true
  | .fdSetup _ _ => true
  | .fdPeek _ => true
  | .wsStep _ _ => true
  | .wsProc _ xs => countFits xs
  | .wsFlush _ => true
  | .wsSetup _ _ _ tab => countFits tab
  | .tsStep _ _ => true
  | .tsProc _ xs => countFits xs
  | .tsFlush _ => true
  | .tsSetup _ _ _ _ _ => true
  | .tsGain _ _ => true
  | .tsRdgain _ => true
  | .paStep _ _ => true
  | .paProc _ xs => countFits xs
  | .paFlush _ => true
  | .apfStep _ _ => true
  | .apfProc _ xs => countFits xs
  | .apfFlush _ => true
  | .apfSetup _ _ _ _ => true
  | .cmbStep _ _ => true
  | .cmbProc _ xs => countFits xs
  | .cmbFlush _ => true
  | .cmbSetup _ _ _ => true
  | .rvStep _ _ => true
  | .rvProc _ xs => countFits xs
  | .rvFlush _ => true
  | .rvSetup _ => true
  | .ksStep _ => true
  | .ksProc _ _ => true
  | .ksFlush _ => true
  | .ksTune _ _ => true
  | .ksTrig _ => true
  | .ksMute _ => true
  | .vbStep _ => true
  | .vbProc _ _ => true
  | .vbFlush _ => true
  | .vbNoteon _ _ _ => true
  | .vbNoteoff _ _ _ => true
  | .dmStep _ => true
  | .dmProc _ _ => true
  | .dmFlush _ => true
  | .dmSetup _ => true
  | .dmCfg _ _ _ => true
  | .dmRdcfg _ => true

end Sys2Proof
end

