-- ==== Sys2Proof/Decode.lean ====
section
/-! DEFINITION. The command decoder and encoder (spec/30_encoding.md R100 to R115). The decoder reads one command from a
stream of 32-bit words: its length by R104, its fields by R101, its checks (1) and (3) of R109. Check (2), that the
instance table has a unit of the class at that id, is made by the instruction's meaning (`Machine.command`). -/

namespace Sys2Proof

/-! ## Fields (R101) -/

/-- `cw[31:24]`, the opcode `op8`. -/
def opField (cw : Word) : BitVec 8 := cw.extractLsb' 24 8

/-- `cw[23:16]`, the unit id. -/
def unitField (cw : Word) : UnitId := cw.extractLsb' 16 8

/-- `cw[15:0]`, the immediate. -/
def immField (cw : Word) : BitVec 16 := cw.extractLsb' 0 16

/-- A command word from its fields. -/
def mkCw (op : BitVec 8) (u : UnitId) (imm : BitVec 16) : Word := op ++ u ++ imm

/-- `note = imm[6:0]` (R115). -/
def noteField (imm : BitVec 16) : BitVec 7 := imm.extractLsb' 0 7

/-- `velocity = imm[14:8]` (R115). -/
def velocityField (imm : BitVec 16) : BitVec 7 := imm.extractLsb' 8 7

/-- The immediate of a note operation: bits 7 and 15 are 0 (R109, R115). -/
def noteImm (note velocity : BitVec 7) : BitVec 16 := 0#1 ++ velocity ++ 0#1 ++ note

/-- The count of a sample list or table as `imm` (R102). -/
def countImm (xs : List F32) : BitVec 16 := BitVec.ofNat 16 xs.length

/-! ## The opcode map (R108) -/

/-- The formats of R102. -/
inductive Format where
  | z | i | w (k : Nat) | iw (k : Nat) | s | g | t | c
  deriving DecidableEq, Repr

/-- A row of the opcode map: mnemonic, format, and whether a message may carry it (R108, R111). -/
structure OpRow where
  mnemonic : String
  format   : Format
  mailable : Bool
  deriving DecidableEq, Repr

/-- The opcode map, by `op8`. An absent code is reserved (R110). -/
def opRow (op : BitVec 8) : Option OpRow :=
  match op.toNat with
  | 0x00 => some ⟨"SYS.NOP", .z, false⟩
  | 0x01 => some ⟨"SYS.SETFS", .w 1, false⟩
  | 0x02 => some ⟨"SYS.RDFS", .z, false⟩
  | 0x03 => some ⟨"SYS.DRAIN", .z, false⟩
  | 0x04 => some ⟨"SYS.RAW", .i, true⟩
  | 0x05 => some ⟨"SYS.RDSTAT", .z, false⟩
  | 0x06 => some ⟨"SYS.SEED", .w 1, false⟩
  | 0x07 => some ⟨"SYS.RAND", .z, false⟩
  | 0x08 => some ⟨"SYS.RANDF", .z, false⟩
  | 0x10 => some ⟨"BQ.STEP", .w 1, false⟩
  | 0x11 => some ⟨"BQ.PROC", .s, false⟩
  | 0x12 => some ⟨"BQ.FLUSH", .z, false⟩
  | 0x13 => some ⟨"BQ.LDC", .w 5, true⟩
  | 0x14 => some ⟨"BQ.LP", .w 2, true⟩
  | 0x15 => some ⟨"BQ.HP", .w 2, true⟩
  | 0x16 => some ⟨"BQ.BP", .w 2, true⟩
  | 0x17 => some ⟨"BQ.BS", .w 2, true⟩
  | 0x18 => some ⟨"BQ.AP", .w 2, true⟩
  | 0x19 => some ⟨"BQ.PK", .w 3, true⟩
  | 0x1A => some ⟨"BQ.LS", .w 3, true⟩
  | 0x1B => some ⟨"BQ.HS", .w 3, true⟩
  | 0x1C => some ⟨"BQ.RDC", .z, false⟩
  | 0x20 => some ⟨"FO.STEP", .w 1, false⟩
  | 0x21 => some ⟨"FO.PROC", .s, false⟩
  | 0x22 => some ⟨"FO.FLUSH", .z, false⟩
  | 0x23 => some ⟨"FO.LDC", .w 3, true⟩
  | 0x24 => some ⟨"FO.LP", .w 1, true⟩
  | 0x25 => some ⟨"FO.HP", .w 1, true⟩
  | 0x2C => some ⟨"FO.RDC", .z, false⟩
  | 0x30 => some ⟨"FIR.STEP", .w 1, false⟩
  | 0x31 => some ⟨"FIR.PROC", .s, false⟩
  | 0x32 => some ⟨"FIR.FLUSH", .z, false⟩
  | 0x33 => some ⟨"FIR.LDC", .c, false⟩
  | 0x40 => some ⟨"DL.STEP", .w 1, false⟩
  | 0x41 => some ⟨"DL.PROC", .s, false⟩
  | 0x42 => some ⟨"DL.FLUSH", .z, false⟩
  | 0x43 => some ⟨"DL.SETUP", .i, false⟩
  | 0x44 => some ⟨"DL.PEEK", .z, false⟩
  | 0x50 => some ⟨"FD.STEP", .w 1, false⟩
  | 0x51 => some ⟨"FD.PROC", .s, false⟩
  | 0x52 => some ⟨"FD.FLUSH", .z, false⟩
  | 0x53 => some ⟨"FD.SETUP", .w 1, false⟩
  | 0x54 => some ⟨"FD.PEEK", .z, false⟩
  | 0x60 => some ⟨"WS.STEP", .w 1, false⟩
  | 0x61 => some ⟨"WS.PROC", .s, false⟩
  | 0x62 => some ⟨"WS.FLUSH", .z, false⟩
  | 0x63 => some ⟨"WS.SETUP", .t, false⟩
  | 0x70 => some ⟨"TS.STEP", .w 1, false⟩
  | 0x71 => some ⟨"TS.PROC", .s, false⟩
  | 0x72 => some ⟨"TS.FLUSH", .z, false⟩
  | 0x73 => some ⟨"TS.SETUP", .w 4, false⟩
  | 0x74 => some ⟨"TS.GAIN", .w 1, true⟩
  | 0x75 => some ⟨"TS.RDGAIN", .z, false⟩
  | 0x80 => some ⟨"PA.STEP", .w 1, false⟩
  | 0x81 => some ⟨"PA.PROC", .s, false⟩
  | 0x82 => some ⟨"PA.FLUSH", .z, false⟩
  | 0x90 => some ⟨"APF.STEP", .w 1, false⟩
  | 0x91 => some ⟨"APF.PROC", .s, false⟩
  | 0x92 => some ⟨"APF.FLUSH", .z, false⟩
  | 0x93 => some ⟨"APF.SETUP", .iw 2, false⟩
  | 0xA0 => some ⟨"CMB.STEP", .w 1, false⟩
  | 0xA1 => some ⟨"CMB.PROC", .s, false⟩
  | 0xA2 => some ⟨"CMB.FLUSH", .z, false⟩
  | 0xA3 => some ⟨"CMB.SETUP", .iw 1, false⟩
  | 0xB0 => some ⟨"RV.STEP", .w 1, false⟩
  | 0xB1 => some ⟨"RV.PROC", .s, false⟩
  | 0xB2 => some ⟨"RV.FLUSH", .z, false⟩
  | 0xB3 => some ⟨"RV.SETUP", .z, false⟩
  | 0xC0 => some ⟨"KS.STEP", .z, false⟩
  | 0xC1 => some ⟨"KS.PROC", .g, false⟩
  | 0xC2 => some ⟨"KS.FLUSH", .z, false⟩
  | 0xC4 => some ⟨"KS.TUNE", .w 1, false⟩
  | 0xC5 => some ⟨"KS.TRIG", .z, false⟩
  | 0xC6 => some ⟨"KS.MUTE", .z, false⟩
  | 0xD0 => some ⟨"VB.STEP", .z, false⟩
  | 0xD1 => some ⟨"VB.PROC", .g, false⟩
  | 0xD2 => some ⟨"VB.FLUSH", .z, false⟩
  | 0xD4 => some ⟨"VB.NOTEON", .i, true⟩
  | 0xD5 => some ⟨"VB.NOTEOFF", .i, true⟩
  | 0xE0 => some ⟨"DM.STEP", .z, false⟩
  | 0xE1 => some ⟨"DM.PROC", .g, false⟩
  | 0xE2 => some ⟨"DM.FLUSH", .z, false⟩
  | 0xE3 => some ⟨"DM.SETUP", .z, false⟩
  | 0xE4 => some ⟨"DM.CFG", .iw 1, true⟩
  | 0xE5 => some ⟨"DM.RDCFG", .z, false⟩
  | _ => none

/-- `op8` is mailable (R111). -/
def mailable (cw : Word) : Bool := match opRow (opField cw) with
  | some r => r.mailable
  | none => false

/-- The number of operand words of a format (R102). -/
def Format.operands (o imm : Nat) : Format → Nat
  | .z => 0
  | .i => 0
  | .w k => k
  | .iw k => k
  | .s => imm
  | .g => 0
  | .t => 2 + imm
  | .c => o

/-- How many operand words follow a command word (R104). `orders u` is the parameter `O` of a FIR unit `u` and 0 for
any other id. A reserved `op8` has none. -/
def operandCount (orders : UnitId → Nat) (cw : Word) : Nat :=
  match opRow (opField cw) with
  | none => 0
  | some r => r.format.operands (orders (unitField cw)) (immField cw).toNat

/-! ## Decoding -/

/-- Why a stream gives no command. -/
inductive DecodeError where
  /-- the stream ends before the command does; the port waits for more words -/
  | incomplete
  /-- `op8` is no row of R108 (R109 check 1) -/
  | reservedOpcode
  /-- class SYS with a unit id that is not 0 (R109 check 2) -/
  | unitNotZero
  /-- a format that carries no immediate with `imm` not 0 (R109 check 3) -/
  | immNotZero
  /-- `imm[7]` or `imm[15]` of a note operation is 1 (R109 check 3) -/
  | noteBitsNotZero
  deriving DecidableEq, Repr

/-- Class SYS: the unit field is 0. -/
def noUnit (u : UnitId) (r : Except DecodeError Instr) : Except DecodeError Instr :=
  if u = 0 then r else .error .unitNotZero

/-- Formats Z, Wk and C: the immediate is 0. -/
def noImm (imm : BitVec 16) (i : Instr) : Except DecodeError Instr :=
  if imm = 0 then .ok i else .error .immNotZero

/-- The note operations: `imm[7] = 0` and `imm[15] = 0`. -/
def noteBits (imm : BitVec 16) (i : Instr) : Except DecodeError Instr :=
  if imm.getLsbD 7 = false ∧ imm.getLsbD 15 = false then .ok i else .error .noteBitsNotZero

/-- The command a command word and its operand words stand for (R108, R109 checks 1 and 3, R115). -/
def decodeCommand (cw : Word) (xs : List Word) : Except DecodeError Instr :=
  let u := unitField cw
  let imm := immField cw
  let w := fun k => xs.getD k 0
  match (opField cw).toNat with
  | 0x00 => noUnit u (noImm imm (.sysNop))
  | 0x01 => noUnit u (noImm imm (.sysSetfs (w 0)))
  | 0x02 => noUnit u (noImm imm (.sysRdfs))
  | 0x03 => noUnit u (noImm imm (.sysDrain))
  | 0x04 => noUnit u (.ok (.sysRaw imm))
  | 0x05 => noUnit u (noImm imm (.sysRdstat))
  | 0x06 => noUnit u (noImm imm (.sysSeed (w 0)))
  | 0x07 => noUnit u (noImm imm (.sysRand))
  | 0x08 => noUnit u (noImm imm (.sysRandf))
  | 0x10 => noImm imm (.bqStep u (w 0))
  | 0x11 => .ok (.bqProc u xs)
  | 0x12 => noImm imm (.bqFlush u)
  | 0x13 => noImm imm (.bqLdc u (w 0) (w 1) (w 2) (w 3) (w 4))
  | 0x14 => noImm imm (.bqLp u (w 0) (w 1))
  | 0x15 => noImm imm (.bqHp u (w 0) (w 1))
  | 0x16 => noImm imm (.bqBp u (w 0) (w 1))
  | 0x17 => noImm imm (.bqBs u (w 0) (w 1))
  | 0x18 => noImm imm (.bqAp u (w 0) (w 1))
  | 0x19 => noImm imm (.bqPk u (w 0) (w 1) (w 2))
  | 0x1A => noImm imm (.bqLs u (w 0) (w 1) (w 2))
  | 0x1B => noImm imm (.bqHs u (w 0) (w 1) (w 2))
  | 0x1C => noImm imm (.bqRdc u)
  | 0x20 => noImm imm (.foStep u (w 0))
  | 0x21 => .ok (.foProc u xs)
  | 0x22 => noImm imm (.foFlush u)
  | 0x23 => noImm imm (.foLdc u (w 0) (w 1) (w 2))
  | 0x24 => noImm imm (.foLp u (w 0))
  | 0x25 => noImm imm (.foHp u (w 0))
  | 0x2C => noImm imm (.foRdc u)
  | 0x30 => noImm imm (.firStep u (w 0))
  | 0x31 => .ok (.firProc u xs)
  | 0x32 => noImm imm (.firFlush u)
  | 0x33 => noImm imm (.firLdc u xs)
  | 0x40 => noImm imm (.dlStep u (w 0))
  | 0x41 => .ok (.dlProc u xs)
  | 0x42 => noImm imm (.dlFlush u)
  | 0x43 => .ok (.dlSetup u imm)
  | 0x44 => noImm imm (.dlPeek u)
  | 0x50 => noImm imm (.fdStep u (w 0))
  | 0x51 => .ok (.fdProc u xs)
  | 0x52 => noImm imm (.fdFlush u)
  | 0x53 => noImm imm (.fdSetup u (w 0))
  | 0x54 => noImm imm (.fdPeek u)
  | 0x60 => noImm imm (.wsStep u (w 0))
  | 0x61 => .ok (.wsProc u xs)
  | 0x62 => noImm imm (.wsFlush u)
  | 0x63 => .ok (.wsSetup u (w 0) (w 1) (xs.drop 2))
  | 0x70 => noImm imm (.tsStep u (w 0))
  | 0x71 => .ok (.tsProc u xs)
  | 0x72 => noImm imm (.tsFlush u)
  | 0x73 => noImm imm (.tsSetup u (w 0) (w 1) (w 2) (w 3))
  | 0x74 => noImm imm (.tsGain u (w 0))
  | 0x75 => noImm imm (.tsRdgain u)
  | 0x80 => noImm imm (.paStep u (w 0))
  | 0x81 => .ok (.paProc u xs)
  | 0x82 => noImm imm (.paFlush u)
  | 0x90 => noImm imm (.apfStep u (w 0))
  | 0x91 => .ok (.apfProc u xs)
  | 0x92 => noImm imm (.apfFlush u)
  | 0x93 => .ok (.apfSetup u imm (w 0) (w 1))
  | 0xA0 => noImm imm (.cmbStep u (w 0))
  | 0xA1 => .ok (.cmbProc u xs)
  | 0xA2 => noImm imm (.cmbFlush u)
  | 0xA3 => .ok (.cmbSetup u imm (w 0))
  | 0xB0 => noImm imm (.rvStep u (w 0))
  | 0xB1 => .ok (.rvProc u xs)
  | 0xB2 => noImm imm (.rvFlush u)
  | 0xB3 => noImm imm (.rvSetup u)
  | 0xC0 => noImm imm (.ksStep u)
  | 0xC1 => .ok (.ksProc u imm)
  | 0xC2 => noImm imm (.ksFlush u)
  | 0xC4 => noImm imm (.ksTune u (w 0))
  | 0xC5 => noImm imm (.ksTrig u)
  | 0xC6 => noImm imm (.ksMute u)
  | 0xD0 => noImm imm (.vbStep u)
  | 0xD1 => .ok (.vbProc u imm)
  | 0xD2 => noImm imm (.vbFlush u)
  | 0xD4 => noteBits imm (.vbNoteon u (noteField imm) (velocityField imm))
  | 0xD5 => noteBits imm (.vbNoteoff u (noteField imm) (velocityField imm))
  | 0xE0 => noImm imm (.dmStep u)
  | 0xE1 => .ok (.dmProc u imm)
  | 0xE2 => noImm imm (.dmFlush u)
  | 0xE3 => noImm imm (.dmSetup u)
  | 0xE4 => .ok (.dmCfg u imm (w 0))
  | 0xE5 => noImm imm (.dmRdcfg u)
  | _ => .error .reservedOpcode

/-- Read one command from a word stream: the command and the rest of the stream, or the reason there is none. -/
def decode (orders : UnitId → Nat) : List Word → Except DecodeError (Instr × List Word)
  | [] => .error .incomplete
  | cw :: rest =>
    let n := operandCount orders cw
    if rest.length < n then .error .incomplete
    else match decodeCommand cw (rest.take n) with
      | .ok i => .ok (i, rest.drop n)
      | .error e => .error e

/-! ## Encoding -/

/-- The words of a command (R101, R102, R108). -/
def encode : Instr → List Word
  | .sysNop => [mkCw 0x00 0 0]
  | .sysSetfs fs => [mkCw 0x01 0 0, fs]
  | .sysRdfs => [mkCw 0x02 0 0]
  | .sysDrain => [mkCw 0x03 0 0]
  | .sysRaw imm => [mkCw 0x04 0 imm]
  | .sysRdstat => [mkCw 0x05 0 0]
  | .sysSeed seed => [mkCw 0x06 0 0, seed]
  | .sysRand => [mkCw 0x07 0 0]
  | .sysRandf => [mkCw 0x08 0 0]
  | .bqStep u x => [mkCw 0x10 u 0, x]
  | .bqProc u xs => mkCw 0x11 u (countImm xs) :: xs
  | .bqFlush u => [mkCw 0x12 u 0]
  | .bqLdc u b0 b1 b2 a1 a2 => [mkCw 0x13 u 0, b0, b1, b2, a1, a2]
  | .bqLp u f q => [mkCw 0x14 u 0, f, q]
  | .bqHp u f q => [mkCw 0x15 u 0, f, q]
  | .bqBp u f q => [mkCw 0x16 u 0, f, q]
  | .bqBs u f q => [mkCw 0x17 u 0, f, q]
  | .bqAp u f q => [mkCw 0x18 u 0, f, q]
  | .bqPk u f gain q => [mkCw 0x19 u 0, f, gain, q]
  | .bqLs u f gain q => [mkCw 0x1A u 0, f, gain, q]
  | .bqHs u f gain q => [mkCw 0x1B u 0, f, gain, q]
  | .bqRdc u => [mkCw 0x1C u 0]
  | .foStep u x => [mkCw 0x20 u 0, x]
  | .foProc u xs => mkCw 0x21 u (countImm xs) :: xs
  | .foFlush u => [mkCw 0x22 u 0]
  | .foLdc u b0 b1 a1 => [mkCw 0x23 u 0, b0, b1, a1]
  | .foLp u f => [mkCw 0x24 u 0, f]
  | .foHp u f => [mkCw 0x25 u 0, f]
  | .foRdc u => [mkCw 0x2C u 0]
  | .firStep u x => [mkCw 0x30 u 0, x]
  | .firProc u xs => mkCw 0x31 u (countImm xs) :: xs
  | .firFlush u => [mkCw 0x32 u 0]
  | .firLdc u cs => mkCw 0x33 u 0 :: cs
  | .dlStep u x => [mkCw 0x40 u 0, x]
  | .dlProc u xs => mkCw 0x41 u (countImm xs) :: xs
  | .dlFlush u => [mkCw 0x42 u 0]
  | .dlSetup u n => [mkCw 0x43 u n]
  | .dlPeek u => [mkCw 0x44 u 0]
  | .fdStep u x => [mkCw 0x50 u 0, x]
  | .fdProc u xs => mkCw 0x51 u (countImm xs) :: xs
  | .fdFlush u => [mkCw 0x52 u 0]
  | .fdSetup u n => [mkCw 0x53 u 0, n]
  | .fdPeek u => [mkCw 0x54 u 0]
  | .wsStep u x => [mkCw 0x60 u 0, x]
  | .wsProc u xs => mkCw 0x61 u (countImm xs) :: xs
  | .wsFlush u => [mkCw 0x62 u 0]
  | .wsSetup u min max tab => mkCw 0x63 u (countImm tab) :: min :: max :: tab
  | .tsStep u x => [mkCw 0x70 u 0, x]
  | .tsProc u xs => mkCw 0x71 u (countImm xs) :: xs
  | .tsFlush u => [mkCw 0x72 u 0]
  | .tsSetup u gain supply rk rp => [mkCw 0x73 u 0, gain, supply, rk, rp]
  | .tsGain u gain => [mkCw 0x74 u 0, gain]
  | .tsRdgain u => [mkCw 0x75 u 0]
  | .paStep u x => [mkCw 0x80 u 0, x]
  | .paProc u xs => mkCw 0x81 u (countImm xs) :: xs
  | .paFlush u => [mkCw 0x82 u 0]
  | .apfStep u x => [mkCw 0x90 u 0, x]
  | .apfProc u xs => mkCw 0x91 u (countImm xs) :: xs
  | .apfFlush u => [mkCw 0x92 u 0]
  | .apfSetup u n gb gf => [mkCw 0x93 u n, gb, gf]
  | .cmbStep u x => [mkCw 0xA0 u 0, x]
  | .cmbProc u xs => mkCw 0xA1 u (countImm xs) :: xs
  | .cmbFlush u => [mkCw 0xA2 u 0]
  | .cmbSetup u n gb => [mkCw 0xA3 u n, gb]
  | .rvStep u x => [mkCw 0xB0 u 0, x]
  | .rvProc u xs => mkCw 0xB1 u (countImm xs) :: xs
  | .rvFlush u => [mkCw 0xB2 u 0]
  | .rvSetup u => [mkCw 0xB3 u 0]
  | .ksStep u => [mkCw 0xC0 u 0]
  | .ksProc u n => [mkCw 0xC1 u n]
  | .ksFlush u => [mkCw 0xC2 u 0]
  | .ksTune u freq => [mkCw 0xC4 u 0, freq]
  | .ksTrig u => [mkCw 0xC5 u 0]
  | .ksMute u => [mkCw 0xC6 u 0]
  | .vbStep u => [mkCw 0xD0 u 0]
  | .vbProc u n => [mkCw 0xD1 u n]
  | .vbFlush u => [mkCw 0xD2 u 0]
  | .vbNoteon u note velocity => [mkCw 0xD4 u (noteImm note velocity)]
  | .vbNoteoff u note velocity => [mkCw 0xD5 u (noteImm note velocity)]
  | .dmStep u => [mkCw 0xE0 u 0]
  | .dmProc u n => [mkCw 0xE1 u n]
  | .dmFlush u => [mkCw 0xE2 u 0]
  | .dmSetup u => [mkCw 0xE3 u 0]
  | .dmCfg u n bpm => [mkCw 0xE4 u n, bpm]
  | .dmRdcfg u => [mkCw 0xE5 u 0]

/-! ## The textual form (R113) and the pseudo-instructions (R114) -/

/-- A word as `0x` and eight hexadecimal digits, the exact form R113 gives for an f32 and for a u32. -/
def hexText (w : Word) : String :=
  "0x" ++ String.ofList ((List.range 8).map fun k => "0123456789ABCDEF".toList.getD (w.toNat >>> (4 * (7 - k)) % 16) '0')

/-- A list of samples or a table in square brackets. -/
def listText (ws : List Word) : String := "[" ++ ", ".intercalate (ws.map hexText) ++ "]"

/-- What `imm` shows in the text: the value, for a note operation note and velocity. A count of a list shows nothing. -/
def immText (cw : Word) : Format → List String
  | .i | .iw _ | .g =>
    if opField cw = 0xD4 ∨ opField cw = 0xD5 then
      [toString (noteField (immField cw)).toNat, toString (velocityField (immField cw)).toNat]
    else [toString (immField cw).toNat]
  | .z | .w _ | .s | .t | .c => []

/-- What the operand words show in the text. -/
def operandText : Format → List Word → List String
  | .s, ws => [listText ws]
  | .t, ws => (ws.take 2).map hexText ++ [listText (ws.drop 2)]
  | .z, ws | .i, ws | .w _, ws | .iw _, ws | .g, ws | .c, ws => ws.map hexText

/-- The textual form of a command (R113): mnemonic, the unit but for class SYS, what `imm` carries, the operand words. -/
def Instr.text (i : Instr) : String := match encode i with
  | [] => ""
  | cw :: ws => match opRow (opField cw) with
    | none => ""
    | some row =>
      let unit := if (opField cw).toNat < 16 then [] else ["u" ++ toString (unitField cw).toNat]
      let args := unit ++ immText cw row.format ++ operandText row.format ws
      if args = [] then row.mnemonic else row.mnemonic ++ " " ++ ", ".intercalate args

/-- `BQ.NOTCH u, f, Q` is `BQ.BS u, f, Q` (R114). -/
def pseudoBqNotch (u : UnitId) (f q : F32) : Instr := .bqBs u f q

/-- `FO.DCBLOCK u` is `FO.HP u, 31.0` (R114). -/
def pseudoFoDcblock (u : UnitId) : Instr := .foHp u 0x41F80000

/-- `BUFFER` is `SYS.DRAIN` (R114). -/
def pseudoBuffer : Instr := .sysDrain

/-- `POST <command>` denotes offering the command to the control port (R114): the words offered. -/
def pseudoPost (i : Instr) : List Word := encode i

/-! ## The words of a table row -/

/-- The parameter `O` the reference instance table gives a unit (R104). -/
def InstTable.firOrder (t : InstTable) (u : UnitId) : Nat :=
  match t.lookup u with
  | some (.fir o _) => o
  | _ => 0

/-- The words of an instruction whose bits are `w`, numbered as the opcode table numbers them: word `k` is bits
`32 k + 31` to `32 k`, every bit from `nbits` up being 0. As many words as R104 gives the command. -/
def tableWords (orders : UnitId → Nat) (nbits w : Nat) : List Word :=
  let bits := w % 2 ^ nbits
  let cw := BitVec.ofNat 32 bits
  cw :: (List.range (operandCount orders cw)).map fun k => BitVec.ofNat 32 (bits >>> (32 * (k + 1)))

/-- The instruction the decoder reads from those words, on the reference instance table. -/
def decodeTableWord (nbits w : Nat) : Option Instr :=
  let orders := InstTable.firOrder InstTable.reference
  match decode orders (tableWords orders nbits w) with
  | .ok (i, _) => some i
  | .error _ => none

end Sys2Proof
end

