-- ==== Sys2Proof/Machine/State.lean ====
section
/-! DEFINITION. The state of the block as plain data (spec/10_state.md R20 to R43), the reasons a step can stop, and the
state after reset (spec/70_reset_and_hazards.md R390, R391). A unit's record holds its registers and memories and,
read-only, the static parameters and children the instance table gives it (R22); the table is read back by
`UnitRec.entry`. -/

namespace Sys2Proof.Machine

/-- A unit-local memory (R70): `cap` elements, element-addressed. An element not listed in `cells` holds `+0.0`, its
value after reset (R43); the list is canonical (`Memory.wf`): indices strictly rising, below `cap`, no `+0.0` listed. -/
structure Memory where
  cap   : Nat
  cells : List (Nat × F32)
  deriving DecidableEq, Repr

/-- A memory of `cap` elements, all `+0.0`. -/
def Memory.empty (cap : Nat) : Memory := ⟨cap, []⟩

/-- Class BQ (R25). -/
structure Bq where
  coef : BqCoef
  s0   : F32
  s1   : F32
  cfg  : Bool
  deriving DecidableEq, Repr

/-- Class FO (R26). -/
structure Fo where
  coef : FoCoef
  s0   : F32
  cfg  : Bool
  deriving DecidableEq, Repr

/-- Class FIR (R27). `O` is `c.cap`, `P` is `h.cap`. -/
structure Fir where
  c   : Memory
  h   : Memory
  pos : Nat
  cfg : Bool
  deriving DecidableEq, Repr

/-- Class DL (R28). `L` is `buf.cap`. -/
structure Dl where
  buf         : Memory
  insertAt    : Nat
  extractFrom : Nat
  n           : Nat
  cfg         : Bool
  deriving DecidableEq, Repr

/-- Class FD (R29). `L` is `buf.cap`; `n` and `w` are f32, `nint` is u16. -/
structure Fd where
  buf         : Memory
  insertAt    : Nat
  extractFrom : Nat
  n           : F32
  nint        : BitVec 16
  w           : F32
  cfg         : Bool
  deriving DecidableEq, Repr

/-- Class WS (R30). `TMAX` is `tab.cap`; `len` is the table length `T`. -/
structure Ws where
  tab : Memory
  len : Nat
  min : F32
  max : F32
  cfg : Bool
  deriving DecidableEq, Repr

/-- Class TS (R31): its children, its configuration and the carried `bias`. -/
structure Ts where
  inp    : UnitId
  curve  : UnitId
  fb     : UnitId
  dc     : UnitId
  gain   : F32
  supply : F32
  rk     : F32
  rp     : F32
  bias   : F32
  cfg    : Bool
  deriving DecidableEq, Repr

/-- Class PA (R32): three stages and no register. -/
structure Pa where
  stage0 : UnitId
  stage1 : UnitId
  stage2 : UnitId
  deriving DecidableEq, Repr

/-- Class APF (R33). -/
structure Apf where
  dl  : UnitId
  gb  : F32
  gf  : F32
  cfg : Bool
  deriving DecidableEq, Repr

/-- Class CMB (R34). -/
structure Cmb where
  dl  : UnitId
  gb  : F32
  cfg : Bool
  deriving DecidableEq, Repr

/-- Class RV (R35): three allpass and four comb sections. -/
structure Rv where
  apf0 : UnitId
  apf1 : UnitId
  apf2 : UnitId
  cmb0 : UnitId
  cmb1 : UnitId
  cmb2 : UnitId
  cmb3 : UnitId
  cfg  : Bool
  deriving DecidableEq, Repr

/-- Class KS (R36). -/
structure Ks where
  delay  : UnitId
  damp   : UnitId
  gain   : F32
  excite : BitVec 16
  deriving DecidableEq, Repr

/-- One voice of a VB (R37): the child, `note[i]` (0 = unbound) and the stamp `age[i]`, a signed number of `AGE_W` bits. -/
structure Voice where
  unit : UnitId
  note : BitVec 8
  age  : Int
  deriving DecidableEq, Repr

/-- Class VB (R37): `N` is the number of voices; `now` is a signed number of `AGE_W` bits. -/
structure Vb where
  voices : List Voice
  now    : Int
  deriving DecidableEq, Repr

/-- One sample voice of a DM (R38): its PCM table (ROM) and `cursor[v]` (0 = idle). -/
structure Drum where
  pcm    : List Byte
  cursor : Word
  deriving DecidableEq, Repr

/-- Class DM (R38): ROM, child `lp`, and the registers. `phase = false` means the next `STEP` is a sub-step. -/
structure Dm where
  drums      : List Drum
  patterns   : List Pattern
  bank       : List BqCoef
  lp         : UnitId
  bpm        : Word
  pattern    : BitVec 16
  spd        : Word
  stepIdx    : BitVec 16
  divCounter : Word
  phase      : Bool
  hold       : F32
  cfg        : Bool
  deriving DecidableEq, Repr

/-- A unit of the instance table with its state. -/
inductive UnitRec where
  | bq (r : Bq)
  | fo (r : Fo)
  | fir (r : Fir)
  | dl (r : Dl)
  | fd (r : Fd)
  | ws (r : Ws)
  | ts (r : Ts)
  | pa (r : Pa)
  | apf (r : Apf)
  | cmb (r : Cmb)
  | rv (r : Rv)
  | ks (r : Ks)
  | vb (r : Vb)
  | dm (r : Dm)
  deriving DecidableEq, Repr

/-- The instance-table entry a unit record carries (R22, R42). No step changes it. -/
def UnitRec.entry : UnitRec → InstEntry
  | .bq _ => .bq
  | .fo _ => .fo
  | .fir r => .fir r.c.cap r.h.cap
  | .dl r => .dl r.buf.cap
  | .fd r => .fd r.buf.cap
  | .ws r => .ws r.tab.cap
  | .ts r => .ts r.inp r.curve r.fb r.dc
  | .pa r => .pa r.stage0 r.stage1 r.stage2
  | .apf r => .apf r.dl
  | .cmb r => .cmb r.dl
  | .rv r => .rv r.apf0 r.apf1 r.apf2 r.cmb0 r.cmb1 r.cmb2 r.cmb3
  | .ks r => .ks r.delay r.damp
  | .vb r => .vb (r.voices.map Voice.unit)
  | .dm r => .dm ⟨r.drums.map Drum.pcm, r.patterns, r.bank⟩ r.lp

/-- The class of a unit record. -/
def UnitRec.cls (r : UnitRec) : UnitClass := r.entry.cls

/-- A unit right after reset (R43, R391). A register to which the spec gives no value holds 0 (log entry 1). -/
def UnitRec.fresh (p : Params) : InstEntry → UnitRec
  | .bq => .bq ⟨⟨0, 0, 0, 0, 0⟩, 0, 0, false⟩
  | .fo => .fo ⟨⟨0, 0, 0⟩, 0, false⟩
  | .fir o h => .fir ⟨Memory.empty o, Memory.empty h, 0, false⟩
  | .dl l => .dl ⟨Memory.empty l, 0, 0, 0, false⟩
  | .fd l => .fd ⟨Memory.empty l, 0, 0, 0, 0, 0, false⟩
  | .ws tmax => .ws ⟨Memory.empty tmax, 0, 0, 0, false⟩
  | .ts inp curve fb dc => .ts ⟨inp, curve, fb, dc, 0, 0, 0, 0, 0, false⟩
  | .pa s0 s1 s2 => .pa ⟨s0, s1, s2⟩
  | .apf d => .apf ⟨d, 0, 0, false⟩
  | .cmb d => .cmb ⟨d, 0, false⟩
  | .rv a0 a1 a2 c0 c1 c2 c3 => .rv ⟨a0, a1, a2, c0, c1, c2, c3, false⟩
  | .ks delay damp => .ks ⟨delay, damp, 0, 0⟩
  | .vb voices => .vb ⟨voices.map fun v => ⟨v, 0, 0⟩, 0⟩
  | .dm rom lp =>
    .dm ⟨rom.pcm.map fun t => ⟨t, 0⟩, rom.patterns, rom.bank, lp, p.dmDefaultBpm, p.dmDefaultPattern, 0, 0, 0, false,
      0, false⟩

/-- A message of the channel (R39): the command word of one mailable command with its operand words. It is kept as
words, because its unit, class and fields are checked when it is applied (R111, R372). -/
structure Message where
  cw       : Word
  operands : List Word
  deriving DecidableEq, Repr

/-- The one bit with which the control port answers a post (R12, R372). -/
inductive PostAnswer where
  | accepted
  | dropped
  deriving DecidableEq, Repr

/-- Who acts in a step: the engine, the producer on the control port, or the reset event (R371, R390). -/
inductive Turn where
  | engine
  | producer
  | reset
  deriving DecidableEq, Repr

/-- The state of the block and of its two ports. -/
structure State where
  /-- the numeric parameters (R8), fixed for the life of the block; no step changes them -/
  params  : Params
  /-- the units by rising id (R22) -/
  units   : List (UnitId × UnitRec)
  /-- `FS` (R24) -/
  fs      : Word
  /-- `FS_SET` (R24) -/
  fsSet   : Bool
  /-- `PRNG` (R24), u31 -/
  prng    : BitVec 31
  /-- `FAULT` (R24) -/
  fault   : Bool
  /-- `CAUSE` (R24), 4 bits -/
  cause   : BitVec 4
  /-- `FUNIT` (R24), 8 bits -/
  funit   : BitVec 8
  /-- `MBOX` (R24, R39), oldest message first -/
  mbox    : List Message
  /-- the words offered on the command port and not yet consumed, oldest first (R12, R100) -/
  cmdIn   : List Word
  /-- the response words given so far on the command port, oldest first (R100) -/
  respOut : List Word
  /-- the words of the commands offered on the control port and not yet taken, oldest first (R12) -/
  ctlIn   : List Word
  /-- the answers given so far on the control port, oldest first (R12) -/
  ctlOut  : List PostAnswer
  /-- the environment's choice of who acts next, soonest first; when it is empty the engine acts (R371) -/
  turns   : List Turn
  deriving DecidableEq, Repr

/-- Why the MODEL stops where the spec gives no behaviour because it calls the case impossible. None of these is the
block's own sticky fault, which is a next state (`State.recordFault`). All are safe: they end the run, and no state that
meets `State.Inv` reaches one. -/
inductive Fault where
  /-- an access outside a unit's memory or table (R76: "impossible in a block that has not faulted"); raised by every
  element read or write; safe -/
  | outOfRange (u : UnitId) (i : Nat)
  /-- a child id that names no unit of the class its parent needs, excluded by R22; raised by every `call`; safe -/
  | badInstance (u : UnitId)
  /-- `MBOX` holds something other than a whole mailable command, excluded by R39; raised by `SYS.DRAIN`; safe -/
  | badMessage
  /-- `exec` is handed a `FIR.LDC` whose word count is not the unit's `O`: no encoding gives it (R104); safe -/
  | illFormed
  deriving DecidableEq, Repr

/-- Why the model declines to give a result. -/
inductive Refusal where
  /-- an instruction that has no meaning yet; raised by `exec` alone; safe -/
  | notModelled (mnemonic : String)
  /-- a NaN reached the curve of waveshaper `u`: "a model must refuse it" (R232, U6); raised by `WS.STEP` and, through
  it, by `WS.PROC`, `TS.STEP`, `TS.PROC`, `PA.STEP`, `PA.PROC`; safe -/
  | waveshaperNaN (u : UnitId)
  deriving DecidableEq, Repr

/-- The instance table the units carry (R22). -/
def State.inst (s : State) : InstTable := s.units.map fun e => (e.1, e.2.entry)

/-- The block right after reset (R390, R391) for given parameters and instance table, with idle ports. -/
def State.init (p : Params) (t : InstTable) : State where
  params := p
  units := t.map fun e => (e.1, UnitRec.fresh p e.2)
  fs := 0
  fsSet := false
  prng := 1
  fault := false
  cause := 0
  funit := 0
  mbox := []
  cmdIn := []
  respOut := []
  ctlIn := []
  ctlOut := []
  turns := []

/-- The machine right after reset. The parameters and the instance table are the reference configuration of
spec/95_test_vectors.md section 2 (log entry 3); everything else is R391. -/
def State.reset : State := State.init Params.reference InstTable.reference

end Sys2Proof.Machine
end

