-- ==== Sys2Proof/Machine/Float.lean ====
section
/-! DEFINITION. Binary32 arithmetic (spec/00_scope.md R9, R10): every operation is computed exactly on integers and
rounded once, to nearest, ties to even, with gradual underflow. A finite f32 is an integer multiple of 2^-149, so its
value is held as that integer. -/

namespace Sys2Proof.Machine

/-- Sign bit 31. -/
def fsign (x : F32) : Bool := x.msb

/-- Exponent field, bits 30:23. -/
def fexp (x : F32) : Nat := x.toNat / 8388608 % 256

/-- Fraction field, bits 22:0. -/
def ffrac (x : F32) : Nat := x.toNat % 8388608

/-- NaN: exponent all ones, fraction not zero. -/
def isNaN (x : F32) : Bool := fexp x == 255 && ffrac x != 0

/-- An infinity. -/
def isInf (x : F32) : Bool := fexp x == 255 && ffrac x == 0

/-- The magnitude of a finite value in units of 2^-149. An infinity gives 2^277, above every finite magnitude. -/
def fmag (x : F32) : Nat :=
  if fexp x = 0 then ffrac x else (ffrac x + 8388608) <<< (fexp x - 1)

/-- The value of a finite f32 in units of 2^-149; infinities compare outside the finite range. -/
def fval (x : F32) : Int := if fsign x then - (fmag x : Int) else (fmag x : Int)

/-- The magnitude bits of the f32 nearest to `n * 2^-k`, in units of 2^-149: to nearest, ties to even, gradual
underflow, overflow to infinity (R9). -/
def roundMag (n k : Nat) : Nat :=
  let sh := max (n.log2 - 23) k
  let q := n >>> sh
  let r := n - (q <<< sh)
  let q' := if (1 <<< sh) < 2 * r ∨ ((1 <<< sh) = 2 * r ∧ q % 2 = 1) then q + 1 else q
  min ((sh - k) * 8388608 + q') 0x7F800000

/-- An f32 from a sign and magnitude bits. -/
def fpack (neg : Bool) (m : Nat) : F32 := BitVec.ofNat 32 (if neg then 2147483648 + m else m)

/-- The infinity of a sign. -/
def finf (neg : Bool) : F32 := fpack neg 0x7F800000

/-- The NaN an operation returns: some NaN, which one is open (R9, U5; log entry 4). -/
def nanResult (op : FOp) (a b : F32) : F32 :=
  let r := Config.nanBits op a b
  fpack (fsign r) (0x7F800000 + (if ffrac r = 0 then 0x400000 else ffrac r))

/-- The sum of two values that are not NaN, before a NaN is chosen: `none` for inf - inf. -/
def addCore (a b : F32) : Option F32 :=
  if isInf a then (if isInf b && (fsign a != fsign b) then none else some a)
  else if isInf b then some b
  else
    let v := fval a + fval b
    if v = 0 then some (fpack (fsign a && fsign b) 0)
    else some (fpack (decide (v < 0)) (roundMag v.natAbs 0))

/-- Change the sign. -/
def fneg (x : F32) : F32 := x ^^^ 0x80000000

/-- `a + b` (R9). -/
def fadd (a b : F32) : F32 :=
  if isNaN a || isNaN b then nanResult .add a b else (addCore a b).getD (nanResult .add a b)

/-- `a - b` (R9). -/
def fsub (a b : F32) : F32 :=
  if isNaN a || isNaN b then nanResult .sub a b else (addCore a (fneg b)).getD (nanResult .sub a b)

/-- `a * b` (R9). -/
def fmul (a b : F32) : F32 :=
  let neg := fsign a != fsign b
  if isNaN a || isNaN b then nanResult .mul a b
  else if isInf a || isInf b then
    if fmag a = 0 ∨ fmag b = 0 then nanResult .mul a b else finf neg
  else fpack neg (roundMag (fmag a * fmag b) 149)

/-- `a / b` (R9). The quotient is taken to 310 extra bits and a sticky bit, which rounds as the exact quotient does. -/
def fdiv (a b : F32) : F32 :=
  let neg := fsign a != fsign b
  if isNaN a || isNaN b then nanResult .div a b
  else if isInf a then (if isInf b then nanResult .div a b else finf neg)
  else if isInf b then fpack neg 0
  else if fmag b = 0 then (if fmag a = 0 then nanResult .div a b else finf neg)
  else
    let num := fmag a <<< 459
    let q := num / fmag b
    fpack neg (roundMag (2 * q + (if q * fmag b = num then 0 else 1)) 311)

/-- `a < b`, false when either is NaN, zeros equal (IEEE 754). -/
def flt (a b : F32) : Bool := !isNaN a && !isNaN b && decide (fval a < fval b)

/-- `a <= b`, false when either is NaN. -/
def fle (a b : F32) : Bool := !isNaN a && !isNaN b && decide (fval a ≤ fval b)

/-- `f32_of_u32(k)` (R10): the nearest f32, ties to even. -/
def f32OfNat (k : Nat) : F32 := fpack false (roundMag (k <<< 149) 0)

/-- `f32_of_i32(k)` (R10). -/
def f32OfInt (k : Int) : F32 := fpack (decide (k < 0)) (roundMag (k.natAbs <<< 149) 0)

/-- `trunc_u32(v)` and `floor(v)` of a finite non-negative value (R10, R232): the fraction is discarded. -/
def ftrunc (x : F32) : Nat := fmag x >>> 149

/-- `ceil(v)` of a finite positive value (R219). -/
def fceil (x : F32) : Nat := (fmag x + ((1 <<< 149) - 1)) >>> 149

/-! ## The decimal constants of the rules, each the nearest binary32 (R9) -/

/-- 0.0 -/
def c0 : F32 := 0x00000000
/-- 0.1, the reverberator's pre-gain (R269) -/
def c0p1 : F32 := 0x3DCCCCCD
/-- 0.7 (R269) -/
def c0p7 : F32 := 0x3F333333
/-- -0.7 (R269) -/
def cm0p7 : F32 := 0xBF333333
/-- 0.802 (R269) -/
def c0p802 : F32 := 0x3F4D4FDF
/-- 1.0 -/
def c1 : F32 := 0x3F800000
/-- 2.0 -/
def c2 : F32 := 0x40000000
/-- -2.0 -/
def cm2 : F32 := 0xC0000000
/-- 40.0 -/
def c40 : F32 := 0x42200000
/-- 60.0 -/
def c60 : F32 := 0x42700000
/-- 128.0 -/
def c128 : F32 := 0x43000000
/-- 1073741824.0, that is 2^30 (R149) -/
def c2p30 : F32 := 0x4E800000
/-- 4294967296.0, that is 2^32 (R281) -/
def c2p32 : F32 := 0x4F800000
/-- `TWO_PI` (R166) -/
def cTwoPi : F32 := 0x40C90FDB

end Sys2Proof.Machine
end

