-- ==== Sys2Proof/Machine/Flags.lean ====
section
/-! DEFINITION. The block has no arithmetic flags (spec/10_state.md R40). What steers it are one-bit values: `FAULT` with
`CAUSE` and `FUNIT` (spec/60_exceptions.md R361, R362), `FS_SET`, the `cfg` flags and `DM.phase`. This file holds the
cause codes and the status word that shows `FAULT`, `CAUSE`, `FUNIT` (spec/40_common_ops.md R145). -/

namespace Sys2Proof.Machine

/-- The causes of R362. `BUF_LEN` is never raised: a `PROC` carries one length (R132). -/
inductive Cause where
  | illegalCmd
  | notSetup
  | delayLen
  | wsTable
  | wsDomain
  | bufLen
  | fsBad
  | dmParam
  | seedBad
  deriving DecidableEq, Repr

/-- The code of a cause (R362); 0 is "none". -/
def causeCode : Cause → BitVec 4
  | .illegalCmd => 1
  | .notSetup => 2
  | .delayLen => 3
  | .wsTable => 4
  | .wsDomain => 5
  | .bufLen => 6
  | .fsBad => 7
  | .dmParam => 8
  | .seedBad => 9

/-- The status word of `SYS.RDSTAT` (R145): occupancy of `MBOX` in bits 31:16, `FUNIT` in 15:8, `CAUSE` in 7:4, zeros
in 3:1, `FAULT` in bit 0. -/
def statusWord (s : State) : Word :=
  BitVec.ofNat 16 s.mbox.length ++ s.funit ++ s.cause ++ 0#3 ++ BitVec.ofBool s.fault

end Sys2Proof.Machine
end

