-- ==== Sys2Proof/Machine/Memory.lean ====
section
/-! DEFINITION. Element accesses to a unit-local memory (spec/20_memory.md R70, R73, R76): one element at a time, in
range or not at all. -/

namespace Sys2Proof.Machine

/-- What the cell list holds at an index: `+0.0` where nothing is listed (R43). -/
def cellGet : List (Nat × F32) → Nat → F32
  | [], _ => 0
  | (j, v) :: cs, i => if j = i then v else cellGet cs i

/-- Put one element into the cell list, keeping it canonical: `+0.0` is not listed. -/
def cellPut : List (Nat × F32) → Nat → F32 → List (Nat × F32)
  | [], i, v => if v = 0 then [] else [(i, v)]
  | (j, w) :: cs, i, v =>
    if i < j then (if v = 0 then (j, w) :: cs else (i, v) :: (j, w) :: cs)
    else if i = j then (if v = 0 then cs else (i, v) :: cs)
    else (j, w) :: cellPut cs i v

/-- `MemRead(m[i], 1)` (R11): `none` outside the memory. -/
def Memory.read? (m : Memory) (i : Nat) : Option F32 := if i < m.cap then some (cellGet m.cells i) else none

/-- `MemWrite(m[i], 1, v)` (R11): `none` outside the memory. -/
def Memory.write? (m : Memory) (i : Nat) (v : F32) : Option Memory :=
  if i < m.cap then some ⟨m.cap, cellPut m.cells i v⟩ else none

/-- Every element `+0.0`: what the loop of a `FLUSH` over a whole memory leaves (R203, R215). -/
def Memory.clear (m : Memory) : Memory := ⟨m.cap, []⟩

/-- `m[i + k] <- v_k` for the listed values, in ascending order. -/
def cellLoad : List (Nat × F32) → Nat → List F32 → List (Nat × F32)
  | cs, _, [] => cs
  | cs, i, v :: vs => cellLoad (cellPut cs i v) (i + 1) vs

/-- The elements from 0 on replaced by the listed values, the others kept (R204, R231). -/
def Memory.load (m : Memory) (vs : List F32) : Memory := ⟨m.cap, cellLoad m.cells 0 vs⟩

/-- The canonical form of a cell list whose indices are at least `lo` and below `cap`. -/
def cellsWf (cap : Nat) : Nat → List (Nat × F32) → Bool
  | _, [] => true
  | lo, (j, v) :: cs => decide (lo ≤ j) && decide (j < cap) && decide (v ≠ 0) && cellsWf cap (j + 1) cs

/-- The canonical form: indices strictly rising and in range, no `+0.0` listed. -/
def Memory.wf (m : Memory) : Bool := cellsWf m.cap 0 m.cells

end Sys2Proof.Machine
end

