-- ==== Sys2Proof/Machine/Ops.lean ====
section
/-! DEFINITION. The operations every meaning is built from: raising the sticky fault (spec/60_exceptions.md R361), reading
and writing units, the checks a command passes (spec/30_encoding.md R109), `resp`, the repeated `STEP` of a `PROC`
(spec/40_common_ops.md R131) and the generator's `draw` (R146). -/

namespace Sys2Proof.Machine

/-! ## Taking a fault -/

/-- `raise Fault(cause, unit)` (R361, R368): the first fault is recorded, nothing else is saved or changed, no mode
changes and no vector is taken. -/
def State.recordFault (s : State) (c : Cause) (u : UnitId) : State :=
  if s.fault then s else { s with fault := true, cause := causeCode c, funit := u }

/-- There is no return from a fault but reset (R369, R390): every register and memory of the block takes its reset value;
the parameters, the instance table (R391) and the port streams, which belong to the host, stay. -/
def State.resetBlock (s : State) : State :=
  { State.init s.params s.inst with
    cmdIn := s.cmdIn, respOut := s.respOut, ctlIn := s.ctlIn, ctlOut := s.ctlOut, turns := s.turns }

/-! ## The result of a part of a command -/

/-- How a part of a command ends: with a value; with the sticky fault raised, what was changed before it kept (R361); or
with the model stopping. -/
inductive Res (α : Type) where
  | ok (a : α) (s : State)
  | raised (s : State)
  | stop (f : Fault)
  | refuse (r : Refusal)

/-- Go on with the value and the state, unless the command has ended. -/
def Res.bind {α β : Type} (r : Res α) (f : α → State → Res β) : Res β :=
  match r with
  | .ok a s => f a s
  | .raised s => .raised s
  | .stop e => .stop e
  | .refuse e => .refuse e

/-- Change the value of a result. -/
def Res.map {α β : Type} (r : Res α) (f : α → β) : Res β := r.bind fun a s => .ok (f a) s

/-- `raise Fault(c, u)`: the fault is recorded and the command ends (R361). -/
def raise {α : Type} (c : Cause) (u : UnitId) (s : State) : Res α := .raised (s.recordFault c u)

/-- `if not ok: raise Fault(c, u)`. -/
def require (ok : Bool) (c : Cause) (u : UnitId) (s : State) : Res Unit := if ok then .ok () s else raise c u s

/-- The check of a unit's `cfg` flag (R23, R363). -/
def needCfg (cfg : Bool) (u : UnitId) (s : State) : Res Unit := require cfg .notSetup u s

/-- The value of `FS`, or `NOT_SETUP` naming unit 0 when it was never written (R363). -/
def needFs (s : State) : Res Word := if s.fsSet then .ok s.fs s else raise .notSetup 0 s

/-! ## Units -/

/-- `U[u]`. -/
def State.unit? (s : State) (u : UnitId) : Option UnitRec := s.units.lookup u

/-- The class of unit `u`, `none` for an unmapped id (R77). -/
def State.classOf (s : State) (u : UnitId) : Option UnitClass := (s.unit? u).map UnitRec.cls

/-- The parameter `O` of a FIR unit, 0 for any other id (R104). -/
def State.firOrder (s : State) (u : UnitId) : Nat := match s.unit? u with
  | some (.fir r) => r.c.cap
  | _ => 0

/-- Replace the record at a key. -/
def putAt : List (UnitId × UnitRec) → UnitId → UnitRec → List (UnitId × UnitRec)
  | [], _, _ => []
  | (v, q) :: t, u, r => if v = u then (v, r) :: t else (v, q) :: putAt t u r

/-- `U[u] <- r`. -/
def State.putUnit (s : State) (u : UnitId) (r : UnitRec) : State := { s with units := putAt s.units u r }

/-- The biquad `u`. -/
def getBq (u : UnitId) (s : State) : Res Bq := match s.unit? u with
  | some (.bq r) => .ok r s
  | _ => .stop (.badInstance u)

/-- The first-order section `u`. -/
def getFo (u : UnitId) (s : State) : Res Fo := match s.unit? u with
  | some (.fo r) => .ok r s
  | _ => .stop (.badInstance u)

/-- The FIR filter `u`. -/
def getFir (u : UnitId) (s : State) : Res Fir := match s.unit? u with
  | some (.fir r) => .ok r s
  | _ => .stop (.badInstance u)

/-- The delay line `u`. -/
def getDl (u : UnitId) (s : State) : Res Dl := match s.unit? u with
  | some (.dl r) => .ok r s
  | _ => .stop (.badInstance u)

/-- The fractional delay line `u`. -/
def getFd (u : UnitId) (s : State) : Res Fd := match s.unit? u with
  | some (.fd r) => .ok r s
  | _ => .stop (.badInstance u)

/-- The waveshaper `u`. -/
def getWs (u : UnitId) (s : State) : Res Ws := match s.unit? u with
  | some (.ws r) => .ok r s
  | _ => .stop (.badInstance u)

/-- The tube stage `u`. -/
def getTs (u : UnitId) (s : State) : Res Ts := match s.unit? u with
  | some (.ts r) => .ok r s
  | _ => .stop (.badInstance u)

/-- The preamp `u`. -/
def getPa (u : UnitId) (s : State) : Res Pa := match s.unit? u with
  | some (.pa r) => .ok r s
  | _ => .stop (.badInstance u)

/-- The allpass section `u`. -/
def getApf (u : UnitId) (s : State) : Res Apf := match s.unit? u with
  | some (.apf r) => .ok r s
  | _ => .stop (.badInstance u)

/-- The comb section `u`. -/
def getCmb (u : UnitId) (s : State) : Res Cmb := match s.unit? u with
  | some (.cmb r) => .ok r s
  | _ => .stop (.badInstance u)

/-- The reverberator `u`. -/
def getRv (u : UnitId) (s : State) : Res Rv := match s.unit? u with
  | some (.rv r) => .ok r s
  | _ => .stop (.badInstance u)

/-- The Karplus-Strong voice `u`. -/
def getKs (u : UnitId) (s : State) : Res Ks := match s.unit? u with
  | some (.ks r) => .ok r s
  | _ => .stop (.badInstance u)

/-- The voice allocator `u`. -/
def getVb (u : UnitId) (s : State) : Res Vb := match s.unit? u with
  | some (.vb r) => .ok r s
  | _ => .stop (.badInstance u)

/-- The drum machine `u`. -/
def getDm (u : UnitId) (s : State) : Res Dm := match s.unit? u with
  | some (.dm r) => .ok r s
  | _ => .stop (.badInstance u)

/-- Replace the record of `u` and go on. -/
def put (u : UnitId) (r : UnitRec) (s : State) : Res Unit := .ok () (s.putUnit u r)

/-! ## Element accesses -/

/-- `MemRead(U[u].m[i], 1)` (R11); outside the memory the model stops (R76). -/
def memRead (u : UnitId) (m : Memory) (i : Nat) (s : State) : Res F32 := match m.read? i with
  | some v => .ok v s
  | none => .stop (.outOfRange u i)

/-- The memory after `MemWrite(U[u].m[i], 1, v)` (R11); outside the memory the model stops (R76). -/
def memWrite (u : UnitId) (m : Memory) (i : Nat) (v : F32) (s : State) : Res Memory := match m.write? i v with
  | some m' => .ok m' s
  | none => .stop (.outOfRange u i)

/-- Element `i` of a ROM table of unit `u` (R70, R76). -/
def romRead {α : Type} (u : UnitId) (t : List α) (i : Nat) (s : State) : Res α := match t[i]? with
  | some v => .ok v s
  | none => .stop (.outOfRange u i)

/-! ## The generator -/

/-- The next state of the generator (R146). -/
def prngNext (p : BitVec 31) : BitVec 31 := BitVec.ofNat 31 (16807 * p.toNat % 2147483647)

/-- `draw()` (R146): the state advances and its new value is returned. -/
def draw (s : State) : Res (BitVec 31) := .ok (prngNext s.prng) { s with prng := prngNext s.prng }

/-! ## Commands -/

/-- Append response words to the outbound stream (`resp`, R11, R100). -/
def State.respond (s : State) (ws : List Word) : State := { s with respOut := s.respOut ++ ws }

/-- The end of a command: its response words are issued, or, where it faulted, none (R105, R368). -/
def conclude (r : Res (List Word)) : Host.Outcome State Fault Refusal := match r with
  | .ok ws s => .next (s.respond ws)
  | .raised s => .next s
  | .stop f => .fault f
  | .refuse e => .refused e

/-- Check (2) of R109 for a unit class, then the rule of the operation. -/
def checked {α : Type} (u : UnitId) (c : UnitClass) (body : State → Res α) (s : State) : Res α :=
  if s.classOf u = some c then body s else raise .illegalCmd u s

/-- A command on a unit: ignored after a fault (R368), else checked and executed. -/
def command (u : UnitId) (c : UnitClass) (body : State → Res (List Word)) (s : State) :
    Host.Outcome State Fault Refusal :=
  if s.fault then .next s else conclude (checked u c body s)

/-- A command of class SYS: ignored after a fault (R368), else executed. -/
def sysCommand (body : State → Res (List Word)) (s : State) : Host.Outcome State Fault Refusal :=
  if s.fault then .next s else conclude (body s)

/-- A command with no response word. -/
def silent (r : Res Unit) : Res (List Word) := r.map fun _ => []

/-- A command with one response word. -/
def single (r : Res Word) : Res (List Word) := r.map fun y => [y]

/-- `PROC` of a Filter (R131): its `STEP` once for each input sample, in order. -/
def procLoop (step : F32 → State → Res F32) : List F32 → State → Res (List F32)
  | [], s => .ok [] s
  | x :: xs, s => (step x s).bind fun y s => (procLoop step xs s).map fun ys => y :: ys

/-- `PROC` of a Generator (R131): its `STEP` `n` times. -/
def genLoop (step : State → Res F32) : Nat → State → Res (List F32)
  | 0, s => .ok [] s
  | n + 1, s => (step s).bind fun y s => (genLoop step n s).map fun ys => y :: ys

end Sys2Proof.Machine
end

