-- ==== Sys2Proof/Machine/Channel.lean ====
section
/-! DEFINITION. The message channel `MBOX` and the control port (spec/20_memory.md R80, R81, spec/60_exceptions.md R370 to
R372). -/

namespace Sys2Proof.Machine

/-- The control port answers a post. -/
def State.answer (s : State) (a : PostAnswer) : State := { s with ctlOut := s.ctlOut ++ [a] }

/-- `post(m)` (R372): dropped after a fault; a command that is not mailable raises `ILLEGAL_CMD`; dropped when the
channel is full, which changes nothing else; else appended. -/
def State.post (s : State) (m : Message) : State :=
  if s.fault then s.answer .dropped
  else if mailable m.cw = false then (s.recordFault .illegalCmd (unitField m.cw)).answer .dropped
  else if s.params.mboxDepth ≤ s.mbox.length then s.answer .dropped
  else ({ s with mbox := s.mbox ++ [m] }).answer .accepted

/-- The producer's step: the next message on the control port is posted, as soon as its words are all there. Its length
is that of the command (R104). -/
def producerStep (s : State) : State :=
  match s.ctlIn with
  | [] => s
  | cw :: rest =>
    let n := operandCount s.firOrder cw
    if rest.length < n then s
    else ({ s with ctlIn := rest.drop n }).post ⟨cw, rest.take n⟩

end Sys2Proof.Machine
end

