-- ==== Sys2Proof/Machine/Fir.lean ====
section
/-! DEFINITION. Class FIR, the convolution filter (spec/42_firstorder_fir.md R200 to R204). -/

namespace Sys2Proof.Machine

/-- Taps `k` to `k + left - 1` added to `acc` in ascending order, newest first (R201). `p` is the index of the newest
sample; tap `k` reads `h[(p + P - k) mod P]`. -/
def firTaps (u : UnitId) (c h : Memory) (p : Nat) : Nat → Nat → F32 → State → Res F32
  | _, 0, acc, s => .ok acc s
  | k, left + 1, acc, s =>
    (memRead u c k s).bind fun ck s =>
    (memRead u h ((p + h.cap - k) % h.cap) s).bind fun v s =>
    firTaps u c h p (k + 1) left (fadd acc (fmul ck v)) s

/-- `call FIR.STEP(u, x)` (R201). -/
def firStep (u : UnitId) (x : F32) (s : State) : Res F32 :=
  (getFir u s).bind fun r s =>
  (needCfg r.cfg u s).bind fun _ s =>
  (memWrite u r.h r.pos x s).bind fun h s =>
  (memRead u r.c 0 s).bind fun k0 s =>
  (memRead u h r.pos s).bind fun v0 s =>
  (firTaps u r.c h r.pos 1 (r.c.cap - 1) (fmul k0 v0) s).bind fun acc s =>
  (put u (.fir { r with h := h, pos := (r.pos + 1) % h.cap }) s).map fun _ => acc

/-- `call FIR.FLUSH(u)` (R203): `c`, `pos` and `cfg` are kept. -/
def firFlush (u : UnitId) (s : State) : Res Unit :=
  (getFir u s).bind fun r s => put u (.fir { r with h := r.h.clear }) s

/-- The coefficients written as one record (R204); `h` and `pos` untouched. -/
def firLoad (u : UnitId) (cs : List F32) (s : State) : Res Unit :=
  (getFir u s).bind fun r s =>
  if cs.length = r.c.cap then put u (.fir { r with c := r.c.load cs, cfg := true }) s else .stop .illFormed

/-- `FIR.STEP` (R201). -/
def execFirStep (u : UnitId) (x : F32) (s : State) : Host.Outcome State Fault Refusal :=
  command u .fir (fun s => single (firStep u x s)) s

/-- `FIR.PROC` (R202). -/
def execFirProc (u : UnitId) (xs : List F32) (s : State) : Host.Outcome State Fault Refusal :=
  command u .fir (procLoop (firStep u) xs) s

/-- `FIR.FLUSH` (R203). -/
def execFirFlush (u : UnitId) (s : State) : Host.Outcome State Fault Refusal :=
  command u .fir (fun s => silent (firFlush u s)) s

/-- `FIR.LDC` (R204). -/
def execFirLdc (u : UnitId) (cs : List F32) (s : State) : Host.Outcome State Fault Refusal :=
  command u .fir (fun s => silent (firLoad u cs s)) s

end Sys2Proof.Machine
end

