-- ==== Sys2Proof/Machine/Delay.lean ====
section
/-! DEFINITION. Class DL, the delay line, and class FD, the fractional delay line (spec/43_delay_fracdelay.md R210 to
R224). -/

namespace Sys2Proof.Machine

/-! ## Class DL -/

/-- `call DL.SETUP(u, n)` (R211): `buf` and `insert_at` are not touched. -/
def dlSetup (u : UnitId) (n : Nat) (s : State) : Res Unit :=
  (getDl u s).bind fun r s =>
  (require (decide (n ≠ 0) && decide (n ≤ r.buf.cap)) .delayLen u s).bind fun _ s =>
  put u (.dl { r with n := n, extractFrom := (r.insertAt + r.buf.cap - n) % r.buf.cap, cfg := true }) s

/-- `call DL.PEEK(u)` (R213): the non-mutating read of `extract_from`. -/
def dlPeek (u : UnitId) (s : State) : Res F32 :=
  (getDl u s).bind fun r s =>
  (needCfg r.cfg u s).bind fun _ s =>
  memRead u r.buf r.extractFrom s

/-- `call DL.STEP(u, x)` (R212): the read comes before the write, then both cursors advance. -/
def dlStep (u : UnitId) (x : F32) (s : State) : Res F32 :=
  (getDl u s).bind fun r s =>
  (needCfg r.cfg u s).bind fun _ s =>
  (memRead u r.buf r.extractFrom s).bind fun y s =>
  (memWrite u r.buf r.insertAt x s).bind fun buf s =>
  (put u (.dl { r with
    buf := buf, insertAt := (r.insertAt + 1) % buf.cap, extractFrom := (r.extractFrom + 1) % buf.cap }) s).map
    fun _ => y

/-- `call DL.FLUSH(u)` (R215): the ring is zeroed; the cursors, `n` and `cfg` are kept. -/
def dlFlush (u : UnitId) (s : State) : Res Unit :=
  (getDl u s).bind fun r s => put u (.dl { r with buf := r.buf.clear }) s

/-- `DL.STEP` (R212). -/
def execDlStep (u : UnitId) (x : F32) (s : State) : Host.Outcome State Fault Refusal :=
  command u .dl (fun s => single (dlStep u x s)) s

/-- `DL.PROC` (R214). -/
def execDlProc (u : UnitId) (xs : List F32) (s : State) : Host.Outcome State Fault Refusal :=
  command u .dl (procLoop (dlStep u) xs) s

/-- `DL.FLUSH` (R215). -/
def execDlFlush (u : UnitId) (s : State) : Host.Outcome State Fault Refusal :=
  command u .dl (fun s => silent (dlFlush u s)) s

/-- `DL.SETUP` (R211). -/
def execDlSetup (u : UnitId) (n : BitVec 16) (s : State) : Host.Outcome State Fault Refusal :=
  command u .dl (fun s => silent (dlSetup u n.toNat s)) s

/-- `DL.PEEK` (R213). -/
def execDlPeek (u : UnitId) (s : State) : Host.Outcome State Fault Refusal :=
  command u .dl (fun s => single (dlPeek u s)) s

/-! ## Class FD -/

/-- The lengths an FD of capacity `l` accepts: not NaN, not below 1.0, not above `f32_of_u32(L)` (R219). -/
def fdLengthOk (n : F32) (l : Nat) : Bool := !isNaN n && !flt n c1 && !flt (f32OfNat l) n

/-- `call FD.SETUP(u, n)` (R219). -/
def fdSetup (u : UnitId) (n : F32) (s : State) : Res Unit :=
  (getFd u s).bind fun r s =>
  (require (fdLengthOk n r.buf.cap) .delayLen u s).bind fun _ s =>
  let nint := fceil n
  put u (.fd { r with
    n := n, nint := BitVec.ofNat 16 nint, w := fsub (f32OfNat nint) n,
    extractFrom := (r.insertAt + r.buf.cap - nint) % r.buf.cap, cfg := true }) s

/-- The blend of the tap at `extract_from` with the adjacent newer tap (R220). -/
def fdBlend (w z1 z0 : F32) : F32 := fadd (fmul z1 (fsub c1 w)) (fmul z0 w)

/-- `call FD.PEEK(u)` (R220). -/
def fdPeek (u : UnitId) (s : State) : Res F32 :=
  (getFd u s).bind fun r s =>
  (needCfg r.cfg u s).bind fun _ s =>
  (memRead u r.buf r.extractFrom s).bind fun z1 s =>
  (memRead u r.buf ((r.extractFrom + 1) % r.buf.cap) s).map fun z0 => fdBlend r.w z1 z0

/-- `call FD.STEP(u, x)` (R221): both taps are read before the write. -/
def fdStep (u : UnitId) (x : F32) (s : State) : Res F32 :=
  (fdPeek u s).bind fun y s =>
  (getFd u s).bind fun r s =>
  (memWrite u r.buf r.insertAt x s).bind fun buf s =>
  (put u (.fd { r with
    buf := buf, insertAt := (r.insertAt + 1) % buf.cap, extractFrom := (r.extractFrom + 1) % buf.cap }) s).map
    fun _ => y

/-- `call FD.FLUSH(u)` (R223). -/
def fdFlush (u : UnitId) (s : State) : Res Unit :=
  (getFd u s).bind fun r s => put u (.fd { r with buf := r.buf.clear }) s

/-- `FD.STEP` (R221). -/
def execFdStep (u : UnitId) (x : F32) (s : State) : Host.Outcome State Fault Refusal :=
  command u .fd (fun s => single (fdStep u x s)) s

/-- `FD.PROC` (R222). -/
def execFdProc (u : UnitId) (xs : List F32) (s : State) : Host.Outcome State Fault Refusal :=
  command u .fd (procLoop (fdStep u) xs) s

/-- `FD.FLUSH` (R223). -/
def execFdFlush (u : UnitId) (s : State) : Host.Outcome State Fault Refusal :=
  command u .fd (fun s => silent (fdFlush u s)) s

/-- `FD.SETUP` (R219). -/
def execFdSetup (u : UnitId) (n : F32) (s : State) : Host.Outcome State Fault Refusal :=
  command u .fd (fun s => silent (fdSetup u n s)) s

/-- `FD.PEEK` (R220). -/
def execFdPeek (u : UnitId) (s : State) : Host.Outcome State Fault Refusal :=
  command u .fd (fun s => single (fdPeek u s)) s

end Sys2Proof.Machine
end

