-- ==== Sys2Proof/Machine/Reverb.lean ====
section
/-! DEFINITION. Classes APF and CMB, the allpass and comb sections, and class RV, the reverberator
(spec/45_reverb.md R260 to R274). -/

namespace Sys2Proof.Machine

/-! ## Class APF -/

/-- `call APF.SETUP(u, n, gb, gf)` (R261): if the child faults, nothing of `u` is written. -/
def apfSetup (u : UnitId) (n : Nat) (gb gf : F32) (s : State) : Res Unit :=
  (getApf u s).bind fun r s =>
  (dlSetup r.dl n s).bind fun _ s =>
  put u (.apf { r with gb := gb, gf := gf, cfg := true }) s

/-- `call APF.STEP(u, x)` (R262). -/
def apfStep (u : UnitId) (x : F32) (s : State) : Res F32 :=
  (getApf u s).bind fun r s =>
  (needCfg r.cfg u s).bind fun _ s =>
  (dlPeek r.dl s).bind fun delayout s =>
  let delayin := fadd x (fmul delayout r.gb)
  (dlStep r.dl delayin s).map fun _ => fadd (fmul delayin r.gf) delayout

/-- `call APF.FLUSH(u)` (R264). -/
def apfFlush (u : UnitId) (s : State) : Res Unit :=
  (getApf u s).bind fun r s => dlFlush r.dl s

/-- `APF.STEP` (R262). -/
def execApfStep (u : UnitId) (x : F32) (s : State) : Host.Outcome State Fault Refusal :=
  command u .apf (fun s => single (apfStep u x s)) s

/-- `APF.PROC` (R263). -/
def execApfProc (u : UnitId) (xs : List F32) (s : State) : Host.Outcome State Fault Refusal :=
  command u .apf (procLoop (apfStep u) xs) s

/-- `APF.FLUSH` (R264). -/
def execApfFlush (u : UnitId) (s : State) : Host.Outcome State Fault Refusal :=
  command u .apf (fun s => silent (apfFlush u s)) s

/-- `APF.SETUP` (R261). -/
def execApfSetup (u : UnitId) (n : BitVec 16) (gb gf : F32) (s : State) : Host.Outcome State Fault Refusal :=
  command u .apf (fun s => silent (apfSetup u n.toNat gb gf s)) s

/-! ## Class CMB -/

/-- `call CMB.SETUP(u, n, gb)` (R265). -/
def cmbSetup (u : UnitId) (n : Nat) (gb : F32) (s : State) : Res Unit :=
  (getCmb u s).bind fun r s =>
  (dlSetup r.dl n s).bind fun _ s =>
  put u (.cmb { r with gb := gb, cfg := true }) s

/-- `call CMB.STEP(u, x)` (R266). -/
def cmbStep (u : UnitId) (x : F32) (s : State) : Res F32 :=
  (getCmb u s).bind fun r s =>
  (needCfg r.cfg u s).bind fun _ s =>
  (dlPeek r.dl s).bind fun delayout s =>
  let out := fadd x (fmul delayout r.gb)
  (dlStep r.dl out s).map fun _ => out

/-- `call CMB.FLUSH(u)` (R268). -/
def cmbFlush (u : UnitId) (s : State) : Res Unit :=
  (getCmb u s).bind fun r s => dlFlush r.dl s

/-- `CMB.STEP` (R266). -/
def execCmbStep (u : UnitId) (x : F32) (s : State) : Host.Outcome State Fault Refusal :=
  command u .cmb (fun s => single (cmbStep u x s)) s

/-- `CMB.PROC` (R267). -/
def execCmbProc (u : UnitId) (xs : List F32) (s : State) : Host.Outcome State Fault Refusal :=
  command u .cmb (procLoop (cmbStep u) xs) s

/-- `CMB.FLUSH` (R268). -/
def execCmbFlush (u : UnitId) (s : State) : Host.Outcome State Fault Refusal :=
  command u .cmb (fun s => silent (cmbFlush u s)) s

/-- `CMB.SETUP` (R265). -/
def execCmbSetup (u : UnitId) (n : BitVec 16) (gb : F32) (s : State) : Host.Outcome State Fault Refusal :=
  command u .cmb (fun s => silent (cmbSetup u n.toNat gb s)) s

/-! ## Class RV -/

/-- `U[u].cfg <- 1` (R270). -/
def rvSetCfg (u : UnitId) (s : State) : Res Unit :=
  (getRv u s).bind fun r s => put u (.rv { r with cfg := true }) s

/-- `call RV.SETUP(u)` (R269, R270): lengths and gains are constants, not scaled to the sampling rate. -/
def rvSetup (u : UnitId) (s : State) : Res Unit :=
  (getRv u s).bind fun r s =>
  (apfSetup r.apf0 347 c0p7 cm0p7 s).bind fun _ s =>
  (apfSetup r.apf1 113 c0p7 cm0p7 s).bind fun _ s =>
  (apfSetup r.apf2 37 c0p7 cm0p7 s).bind fun _ s =>
  (cmbSetup r.cmb0 1601 c0p802 s).bind fun _ s =>
  (cmbSetup r.cmb1 1867 c0p802 s).bind fun _ s =>
  (cmbSetup r.cmb2 2053 c0p802 s).bind fun _ s =>
  (cmbSetup r.cmb3 2251 c0p802 s).bind fun _ s =>
  rvSetCfg u s

/-- `call RV.STEP(u, x)` (R271). -/
def rvStep (u : UnitId) (x : F32) (s : State) : Res F32 :=
  (getRv u s).bind fun r s =>
  (needCfg r.cfg u s).bind fun _ s =>
  (apfStep r.apf0 (fmul x c0p1) s).bind fun a s =>
  (apfStep r.apf1 a s).bind fun a s =>
  (apfStep r.apf2 a s).bind fun a s =>
  (cmbStep r.cmb0 a s).bind fun y0 s =>
  (cmbStep r.cmb1 a s).bind fun y1 s =>
  (cmbStep r.cmb2 a s).bind fun y2 s =>
  (cmbStep r.cmb3 a s).map fun y3 =>
  fadd x (fadd (fadd (fadd y0 y1) y2) y3)

/-- `call RV.FLUSH(u)` (R273). -/
def rvFlush (u : UnitId) (s : State) : Res Unit :=
  (getRv u s).bind fun r s =>
  (apfFlush r.apf0 s).bind fun _ s =>
  (apfFlush r.apf1 s).bind fun _ s =>
  (apfFlush r.apf2 s).bind fun _ s =>
  (cmbFlush r.cmb0 s).bind fun _ s =>
  (cmbFlush r.cmb1 s).bind fun _ s =>
  (cmbFlush r.cmb2 s).bind fun _ s =>
  cmbFlush r.cmb3 s

/-- `RV.STEP` (R271). -/
def execRvStep (u : UnitId) (x : F32) (s : State) : Host.Outcome State Fault Refusal :=
  command u .rv (fun s => single (rvStep u x s)) s

/-- `RV.PROC` (R272). -/
def execRvProc (u : UnitId) (xs : List F32) (s : State) : Host.Outcome State Fault Refusal :=
  command u .rv (procLoop (rvStep u) xs) s

/-- `RV.FLUSH` (R273). -/
def execRvFlush (u : UnitId) (s : State) : Host.Outcome State Fault Refusal :=
  command u .rv (fun s => silent (rvFlush u s)) s

/-- `RV.SETUP` (R270). -/
def execRvSetup (u : UnitId) (s : State) : Host.Outcome State Fault Refusal :=
  command u .rv (fun s => silent (rvSetup u s)) s

end Sys2Proof.Machine
end

