-- ==== Sys2Proof/Machine/Biquad.lean ====
section
/-! DEFINITION. Class BQ, the biquad (spec/41_biquad.md R160 to R175). -/

namespace Sys2Proof.Machine

/-! ## Signal operations -/

/-- One sample of the transposed direct form II (R161): the response and the record after it. -/
def Bq.step (b : Bq) (x : F32) : F32 × Bq :=
  let y := fadd (fmul b.coef.b0 x) b.s0
  (y, { b with
    s0 := fadd (fsub (fmul b.coef.b1 x) (fmul b.coef.a1 y)) b.s1
    s1 := fsub (fmul b.coef.b2 x) (fmul b.coef.a2 y) })

/-- `call BQ.STEP(u, x)` (R161). -/
def bqStep (u : UnitId) (x : F32) (s : State) : Res F32 :=
  (getBq u s).bind fun b s =>
  (needCfg b.cfg u s).bind fun _ s =>
  (put u (.bq (b.step x).2) s).map fun _ => (b.step x).1

/-- `call BQ.FLUSH(u)` (R163): the state is zeroed, `coef` and `cfg` are kept. -/
def bqFlush (u : UnitId) (s : State) : Res Unit :=
  (getBq u s).bind fun b s => put u (.bq { b with s0 := c0, s1 := c0 }) s

/-- A coefficient record written whole, `cfg` set, the state untouched (R74, R164). -/
def bqLoad (u : UnitId) (c : BqCoef) (s : State) : Res Unit :=
  (getBq u s).bind fun b s => put u (.bq { b with coef := c, cfg := true }) s

/-- The coefficient record alone replaced: the hot-swap of R289. -/
def bqSwap (u : UnitId) (c : BqCoef) (s : State) : Res Unit :=
  (getBq u s).bind fun b s => put u (.bq { b with coef := c }) s

/-! ## Designs -/

/-- The quantities every design computes (R166). -/
structure Design where
  cs    : F32
  sn    : F32
  alpha : F32
  deriving DecidableEq, Repr

/-- `design_common(f, Q)` for a sampling frequency (R166). -/
def designCommon (fs : Word) (f q : F32) : Design :=
  let w0 := fdiv (fmul cTwoPi f) (f32OfU32 fs)
  { cs := Config.cos32 w0, sn := Config.sin32 w0, alpha := fdiv (Config.sin32 w0) (fmul c2 q) }

/-- `finish`: five divisions by `A0` (R166). -/
def designFinish (b0 b1 b2 a0 a1 a2 : F32) : BqCoef :=
  { b0 := fdiv b0 a0, b1 := fdiv b1 a0, b2 := fdiv b2 a0, a1 := fdiv a1 a0, a2 := fdiv a2 a0 }

/-- A design operation (R166): it needs `FS`, and writes the record it computes. -/
def bqDesign (u : UnitId) (design : Word → BqCoef) (s : State) : Res Unit :=
  (needFs s).bind fun fs s => bqLoad u (design fs) s

/-- Lowpass (R167). -/
def designLp (f q : F32) (fs : Word) : BqCoef :=
  let d := designCommon fs f q
  let b1 := fsub c1 d.cs
  let b0 := fdiv b1 c2
  designFinish b0 b1 b0 (fadd c1 d.alpha) (fmul cm2 d.cs) (fsub c1 d.alpha)

/-- Highpass (R168). -/
def designHp (f q : F32) (fs : Word) : BqCoef :=
  let d := designCommon fs f q
  let t := fadd c1 d.cs
  let b0 := fdiv t c2
  designFinish b0 (fsub c0 t) b0 (fadd c1 d.alpha) (fmul cm2 d.cs) (fsub c1 d.alpha)

/-- Bandpass with constant 0 dB peak gain (R169). -/
def designBp (f q : F32) (fs : Word) : BqCoef :=
  let d := designCommon fs f q
  designFinish d.alpha c0 (fsub c0 d.alpha) (fadd c1 d.alpha) (fmul cm2 d.cs) (fsub c1 d.alpha)

/-- Bandstop (R170). -/
def designBs (f q : F32) (fs : Word) : BqCoef :=
  let d := designCommon fs f q
  designFinish c1 (fmul cm2 d.cs) c1 (fadd c1 d.alpha) (fmul cm2 d.cs) (fsub c1 d.alpha)

/-- Allpass (R171). -/
def designAp (f q : F32) (fs : Word) : BqCoef :=
  let d := designCommon fs f q
  designFinish (fsub c1 d.alpha) (fmul cm2 d.cs) (fadd c1 d.alpha) (fadd c1 d.alpha) (fmul cm2 d.cs)
    (fsub c1 d.alpha)

/-- `A = exp10_32(gain_dB / 40.0)` (R172, R173). -/
def designA (gain : F32) : F32 := Config.exp10 (fdiv gain c40)

/-- Peaking equaliser (R172). -/
def designPk (f gain q : F32) (fs : Word) : BqCoef :=
  let d := designCommon fs f q
  let a := designA gain
  designFinish (fadd c1 (fmul d.alpha a)) (fmul cm2 d.cs) (fsub c1 (fmul d.alpha a))
    (fadd c1 (fdiv d.alpha a)) (fmul cm2 d.cs) (fsub c1 (fdiv d.alpha a))

/-- The quantities the two shelves share (R173, R174). -/
structure Shelf where
  a    : F32
  ap1  : F32
  am1  : F32
  ap1c : F32
  am1c : F32
  beta : F32
  deriving DecidableEq, Repr

/-- `A, ap1, am1, ap1c, am1c, beta` of R173. -/
def designShelf (f gain q : F32) (fs : Word) : Shelf :=
  let d := designCommon fs f q
  let a := designA gain
  let ap1 := fadd a c1
  let am1 := fsub a c1
  { a := a, ap1 := ap1, am1 := am1, ap1c := fmul ap1 d.cs, am1c := fmul am1 d.cs,
    beta := fmul (fmul c2 (Config.sqrt32 a)) d.alpha }

/-- Low shelf (R173). -/
def designLs (f gain q : F32) (fs : Word) : BqCoef :=
  let h := designShelf f gain q fs
  designFinish
    (fmul h.a (fadd (fsub h.ap1 h.am1c) h.beta))
    (fmul (fmul c2 h.a) (fsub h.am1 h.ap1c))
    (fmul h.a (fsub (fsub h.ap1 h.am1c) h.beta))
    (fadd (fadd h.ap1 h.am1c) h.beta)
    (fmul cm2 (fadd h.am1 h.ap1c))
    (fsub (fadd h.ap1 h.am1c) h.beta)

/-- High shelf (R174). -/
def designHs (f gain q : F32) (fs : Word) : BqCoef :=
  let h := designShelf f gain q fs
  designFinish
    (fmul h.a (fadd (fadd h.ap1 h.am1c) h.beta))
    (fmul (fmul cm2 h.a) (fadd h.am1 h.ap1c))
    (fmul h.a (fsub (fadd h.ap1 h.am1c) h.beta))
    (fadd (fsub h.ap1 h.am1c) h.beta)
    (fmul c2 (fsub h.am1 h.ap1c))
    (fsub (fsub h.ap1 h.am1c) h.beta)

/-! ## The instructions -/

/-- `BQ.STEP` (R161). -/
def execBqStep (u : UnitId) (x : F32) (s : State) : Host.Outcome State Fault Refusal :=
  command u .bq (fun s => single (bqStep u x s)) s

/-- `BQ.PROC` (R162). -/
def execBqProc (u : UnitId) (xs : List F32) (s : State) : Host.Outcome State Fault Refusal :=
  command u .bq (procLoop (bqStep u) xs) s

/-- `BQ.FLUSH` (R163). -/
def execBqFlush (u : UnitId) (s : State) : Host.Outcome State Fault Refusal :=
  command u .bq (fun s => silent (bqFlush u s)) s

/-- `BQ.LDC` (R164). -/
def execBqLdc (u : UnitId) (b0 b1 b2 a1 a2 : F32) (s : State) : Host.Outcome State Fault Refusal :=
  command u .bq (fun s => silent (bqLoad u ⟨b0, b1, b2, a1, a2⟩ s)) s

/-- `BQ.LP` (R167). -/
def execBqLp (u : UnitId) (f q : F32) (s : State) : Host.Outcome State Fault Refusal :=
  command u .bq (fun s => silent (bqDesign u (designLp f q) s)) s

/-- `BQ.HP` (R168). -/
def execBqHp (u : UnitId) (f q : F32) (s : State) : Host.Outcome State Fault Refusal :=
  command u .bq (fun s => silent (bqDesign u (designHp f q) s)) s

/-- `BQ.BP` (R169). -/
def execBqBp (u : UnitId) (f q : F32) (s : State) : Host.Outcome State Fault Refusal :=
  command u .bq (fun s => silent (bqDesign u (designBp f q) s)) s

/-- `BQ.BS` (R170). -/
def execBqBs (u : UnitId) (f q : F32) (s : State) : Host.Outcome State Fault Refusal :=
  command u .bq (fun s => silent (bqDesign u (designBs f q) s)) s

/-- `BQ.AP` (R171). -/
def execBqAp (u : UnitId) (f q : F32) (s : State) : Host.Outcome State Fault Refusal :=
  command u .bq (fun s => silent (bqDesign u (designAp f q) s)) s

/-- `BQ.PK` (R172). -/
def execBqPk (u : UnitId) (f gain q : F32) (s : State) : Host.Outcome State Fault Refusal :=
  command u .bq (fun s => silent (bqDesign u (designPk f gain q) s)) s

/-- `BQ.LS` (R173). -/
def execBqLs (u : UnitId) (f gain q : F32) (s : State) : Host.Outcome State Fault Refusal :=
  command u .bq (fun s => silent (bqDesign u (designLs f gain q) s)) s

/-- `BQ.HS` (R174). -/
def execBqHs (u : UnitId) (f gain q : F32) (s : State) : Host.Outcome State Fault Refusal :=
  command u .bq (fun s => silent (bqDesign u (designHs f gain q) s)) s

/-- `BQ.RDC` (R165). -/
def execBqRdc (u : UnitId) (s : State) : Host.Outcome State Fault Refusal :=
  command u .bq (fun s =>
    (getBq u s).bind fun b s =>
    (needCfg b.cfg u s).map fun _ => [b.coef.b0, b.coef.b1, b.coef.b2, b.coef.a1, b.coef.a2]) s

end Sys2Proof.Machine
end

