-- ==== Sys2Proof/Machine/Drum.lean ====
section
/-! DEFINITION. Class DM, the drum machine: pattern sequencer, sample voices and 2x oversampling biquad
(spec/46_sequencer_oversampler.md R280 to R294). -/

namespace Sys2Proof.Machine

/-! ## Configuration -/

/-- The `t` of `spd_of(fs, bpm, dpb)` (R281). -/
def spdQuotient (fs bpm dpb : Word) : F32 :=
  fdiv (fdiv (fdiv (f32OfU32 fs) c2) (fdiv (f32OfU32 bpm) c60)) (f32OfU32 dpb)

/-- `t >= 1.0 and t < 2^32`: the condition under which `spd_of` is defined (R281). -/
def spdOk (t : F32) : Bool := fle c1 t && flt t c2p32

/-- `trunc_u32(t)` (R281). -/
def spdTrunc (t : F32) : Word := BitVec.ofNat 32 (ftrunc t)

/-- `call DM.SETUP(u)` (R283): `spd` from `FS` and the present `bpm` and `pattern`; the lowpass is given `BANK[0]`. No
state register is written. -/
def dmSetup (u : UnitId) (s : State) : Res Unit :=
  (getDm u s).bind fun r s =>
  (needFs s).bind fun fs s =>
  (romRead u r.patterns r.pattern.toNat s).bind fun p s =>
  let t := spdQuotient fs r.bpm p.dpb
  (require (spdOk t) .dmParam u s).bind fun _ s =>
  (romRead u r.bank 0 s).bind fun c s =>
  (bqLoad r.lp c s).bind fun _ s =>
  put u (.dm { r with spd := spdTrunc t, cfg := true }) s

/-- `call DM.CFG(u, pattern, bpm)` (R284): `div_counter`, the voices and `cfg` are kept. -/
def dmCfg (u : UnitId) (pattern : BitVec 16) (bpm : Word) (s : State) : Res Unit :=
  (getDm u s).bind fun r s =>
  (needFs s).bind fun fs s =>
  (require (decide (pattern.toNat < r.patterns.length) && decide (bpm ≠ 0)) .dmParam u s).bind fun _ s =>
  (romRead u r.patterns pattern.toNat s).bind fun p s =>
  let t := spdQuotient fs bpm p.dpb
  (require (spdOk t) .dmParam u s).bind fun _ s =>
  put u (.dm { r with bpm := bpm, pattern := pattern, spd := spdTrunc t, stepIdx := 0 }) s

/-! ## The step -/

/-- Arm the voices whose bit is set, in ascending order, one draw each (R285, R286): `LEN[v] - 64 + (draw & 255)`. The
first drum of the list is voice `v`. -/
def armDrums (mask : Word) : Nat → List Drum → BitVec 31 → List Drum × BitVec 31
  | _, [], p => ([], p)
  | v, d :: ds, p =>
    if mask.getLsbD v then
      let q := prngNext p
      let r := armDrums mask (v + 1) ds q
      ({ d with cursor := BitVec.ofNat 32 (d.pcm.length - 64 + q.toNat % 256) } :: r.1, r.2)
    else
      let r := armDrums mask (v + 1) ds p
      (d :: r.1, r.2)

/-- What a voice adds to the mix: the sample its cursor points at, when it is active and inside its table (R287). -/
def drumSample (p : Params) (d : Drum) : Option F32 :=
  if d.cursor ≠ 0 ∧ d.cursor.toNat ≤ d.pcm.length then
    (d.pcm[d.pcm.length - d.cursor.toNat]?).map (pcmToFloat p)
  else none

/-- The mix of the voices in ascending order, each active cursor falling by one (R285, R287). -/
def mixDrums (p : Params) : F32 → List Drum → F32 × List Drum
  | mix, [] => (mix, [])
  | mix, d :: ds =>
    let r := mixDrums p (match drumSample p d with
      | some y => fadd mix y
      | none => mix) ds
    (r.1, { d with cursor := if d.cursor = 0 then 0 else d.cursor - 1 } :: r.2)

/-- The division boundary (R285, R286, R289): the voices of the current step are armed, the step index advances, the
counter reloads, and the child's coefficient record is swapped whole for the drawn bank entry. -/
def dmBoundary (u : UnitId) (r : Dm) (s : State) : Res Dm :=
  (romRead u r.patterns r.pattern.toNat s).bind fun p s =>
  (romRead u p.steps r.stepIdx.toNat s).bind fun mask s =>
  let a := armDrums mask 0 r.drums s.prng
  let r' := { r with
    drums := a.1, stepIdx := BitVec.ofNat 16 ((r.stepIdx.toNat + 1) % p.steps.length), divCounter := r.spd }
  (put u (.dm r') { s with prng := a.2 }).bind fun _ s =>
  (draw s).bind fun k s =>
  (romRead u r.bank (k.toNat % 16) s).bind fun c s =>
  (bqSwap r.lp c s).map fun _ => r'

/-- A sub-step (R285): the boundary where `div_counter` is 0, then the voices, then the counter. -/
def dmSubStep (u : UnitId) (r : Dm) (s : State) : Res Dm :=
  (if r.divCounter = 0 then dmBoundary u r s else .ok r s).bind fun r s =>
  let m := mixDrums s.params c0 r.drums
  let r' := { r with drums := m.2, divCounter := r.divCounter - 1, hold := m.1 }
  (put u (.dm r') s).map fun _ => r'

/-- `call DM.STEP(u)` (R285): a fresh mix on every second call, held on the others, filtered on each (R290). -/
def dmStep (u : UnitId) (s : State) : Res F32 :=
  (getDm u s).bind fun r s =>
  (needCfg r.cfg u s).bind fun _ s =>
  (if r.phase then .ok r s else dmSubStep u r s).bind fun r s =>
  (put u (.dm { r with phase := !r.phase }) s).bind fun _ s =>
  bqStep r.lp r.hold s

/-- `call DM.FLUSH(u)` (R292): `bpm`, `pattern`, `spd`, `cfg` and the child's coefficients are kept. -/
def dmFlush (u : UnitId) (s : State) : Res Unit :=
  (getDm u s).bind fun r s =>
  (put u (.dm { r with
    stepIdx := 0, divCounter := 0, drums := r.drums.map fun d => { d with cursor := 0 }, phase := false,
    hold := c0 }) s).bind fun _ s =>
  bqFlush r.lp s

/-- `DM.STEP` (R285). -/
def execDmStep (u : UnitId) (s : State) : Host.Outcome State Fault Refusal :=
  command u .dm (fun s => single (dmStep u s)) s

/-- `DM.PROC` (R291). -/
def execDmProc (u : UnitId) (n : BitVec 16) (s : State) : Host.Outcome State Fault Refusal :=
  command u .dm (genLoop (dmStep u) n.toNat) s

/-- `DM.FLUSH` (R292). -/
def execDmFlush (u : UnitId) (s : State) : Host.Outcome State Fault Refusal :=
  command u .dm (fun s => silent (dmFlush u s)) s

/-- `DM.SETUP` (R283). -/
def execDmSetup (u : UnitId) (s : State) : Host.Outcome State Fault Refusal :=
  command u .dm (fun s => silent (dmSetup u s)) s

/-- `DM.CFG` (R284). -/
def execDmCfg (u : UnitId) (pattern : BitVec 16) (bpm : Word) (s : State) : Host.Outcome State Fault Refusal :=
  command u .dm (fun s => silent (dmCfg u pattern bpm s)) s

/-- `DM.RDCFG` (R293): no `cfg` is needed. -/
def execDmRdcfg (u : UnitId) (s : State) : Host.Outcome State Fault Refusal :=
  command u .dm (fun s => (getDm u s).map fun r => [r.bpm, r.pattern.setWidth 32]) s

end Sys2Proof.Machine
end

