-- ==== Sys2Proof/Machine/FirstOrder.lean ====
section
/-! DEFINITION. Class FO, the first-order section (spec/42_firstorder_fir.md R190 to R197). -/

namespace Sys2Proof.Machine

/-- One sample of the first-order section (R191): the response and the record after it. -/
def Fo.step (r : Fo) (x : F32) : F32 × Fo :=
  let y := fadd (fmul r.coef.b0 x) r.s0
  (y, { r with s0 := fsub (fmul r.coef.b1 x) (fmul r.coef.a1 y) })

/-- `call FO.STEP(u, x)` (R191). -/
def foStep (u : UnitId) (x : F32) (s : State) : Res F32 :=
  (getFo u s).bind fun r s =>
  (needCfg r.cfg u s).bind fun _ s =>
  (put u (.fo (r.step x).2) s).map fun _ => (r.step x).1

/-- `call FO.FLUSH(u)` (R193). -/
def foFlush (u : UnitId) (s : State) : Res Unit :=
  (getFo u s).bind fun r s => put u (.fo { r with s0 := c0 }) s

/-- A coefficient record written whole, `cfg` set, `s[0]` untouched (R194). -/
def foLoad (u : UnitId) (c : FoCoef) (s : State) : Res Unit :=
  (getFo u s).bind fun r s => put u (.fo { r with coef := c, cfg := true }) s

/-- `K = tan32(w / 2.0)` with `w = (TWO_PI * f) / f32_of_u32(FS)` (R196). -/
def foK (f : F32) (fs : Word) : F32 := Config.tan32 (fdiv (fdiv (fmul cTwoPi f) (f32OfU32 fs)) c2)

/-- Lowpass (R196), `alpha = 1.0 + K`. -/
def foDesignLp (f : F32) (fs : Word) : FoCoef :=
  let k := foK f fs
  let alpha := fadd c1 k
  let b := fdiv k alpha
  ⟨b, b, fdiv (fsub k c1) alpha⟩

/-- Highpass (R197). -/
def foDesignHp (f : F32) (fs : Word) : FoCoef :=
  let k := foK f fs
  let alpha := fadd c1 k
  let b := fdiv c1 alpha
  ⟨b, fsub c0 b, fdiv (fsub k c1) alpha⟩

/-- A design operation (R196, R197): it needs `FS`. -/
def foDesign (u : UnitId) (design : Word → FoCoef) (s : State) : Res Unit :=
  (needFs s).bind fun fs s => foLoad u (design fs) s

/-- `FO.STEP` (R191). -/
def execFoStep (u : UnitId) (x : F32) (s : State) : Host.Outcome State Fault Refusal :=
  command u .fo (fun s => single (foStep u x s)) s

/-- `FO.PROC` (R192). -/
def execFoProc (u : UnitId) (xs : List F32) (s : State) : Host.Outcome State Fault Refusal :=
  command u .fo (procLoop (foStep u) xs) s

/-- `FO.FLUSH` (R193). -/
def execFoFlush (u : UnitId) (s : State) : Host.Outcome State Fault Refusal :=
  command u .fo (fun s => silent (foFlush u s)) s

/-- `FO.LDC` (R194). -/
def execFoLdc (u : UnitId) (b0 b1 a1 : F32) (s : State) : Host.Outcome State Fault Refusal :=
  command u .fo (fun s => silent (foLoad u ⟨b0, b1, a1⟩ s)) s

/-- `FO.LP` (R196). -/
def execFoLp (u : UnitId) (f : F32) (s : State) : Host.Outcome State Fault Refusal :=
  command u .fo (fun s => silent (foDesign u (foDesignLp f) s)) s

/-- `FO.HP` (R197). -/
def execFoHp (u : UnitId) (f : F32) (s : State) : Host.Outcome State Fault Refusal :=
  command u .fo (fun s => silent (foDesign u (foDesignHp f) s)) s

/-- `FO.RDC` (R195). -/
def execFoRdc (u : UnitId) (s : State) : Host.Outcome State Fault Refusal :=
  command u .fo (fun s =>
    (getFo u s).bind fun r s =>
    (needCfg r.cfg u s).map fun _ => [r.coef.b0, r.coef.b1, r.coef.a1]) s

end Sys2Proof.Machine
end

