-- ==== Sys2Proof/Machine/Waveshaper.lean ====
section
/-! DEFINITION. Class WS, the waveshaper (spec/44_waveshaper_tubestage.md R230 to R234). -/

namespace Sys2Proof.Machine

/-- `call WS.SETUP(u, min, max, tab)` (R231): the table check comes before the domain check (R367), and the command takes
effect at once. `T` is the length of the table. -/
def wsSetup (u : UnitId) (min max : F32) (tab : List F32) (s : State) : Res Unit :=
  (getWs u s).bind fun r s =>
  (require (decide (2 ≤ tab.length) && decide (tab.length ≤ r.tab.cap)) .wsTable u s).bind fun _ s =>
  (require (flt min max) .wsDomain u s).bind fun _ s =>
  put u (.ws { r with tab := r.tab.load tab, len := tab.length, min := min, max := max, cfg := true }) s

/-- The normalised position `p` of `x` in the domain (R232). Where `max - min` overflows to infinity "every interior
position is 0" (R231), also where `x - min` overflows with it (log entry 9). -/
def wsPosition (x min max : F32) : F32 :=
  if isInf (fsub max min) then c0 else fdiv (fsub x min) (fsub max min)

/-- The table lookup for a value inside the domain (R232): linear interpolation, with the guard at the top edge. -/
def wsInterpolate (u : UnitId) (r : Ws) (x : F32) (s : State) : Res F32 :=
  let posF := fmul (wsPosition x r.min r.max) (f32OfNat (r.len - 1))
  let i := ftrunc posF
  if r.len - 1 ≤ i then memRead u r.tab (r.len - 1) s
  else
    let fr := fsub posF (f32OfNat i)
    (memRead u r.tab i s).bind fun t0 s =>
    (memRead u r.tab (i + 1) s).map fun t1 => fadd (fmul t0 (fsub c1 fr)) (fmul t1 fr)

/-- `call WS.STEP(u, x)` (R232). A NaN is refused: "a model must refuse it" (R232, U6; log entry 8). -/
def wsStep (u : UnitId) (x : F32) (s : State) : Res F32 :=
  (getWs u s).bind fun r s =>
  (needCfg r.cfg u s).bind fun _ s =>
  if isNaN x then .refuse (.waveshaperNaN u)
  else if fle x r.min then memRead u r.tab 0 s
  else if fle r.max x then memRead u r.tab (r.len - 1) s
  else wsInterpolate u r x s

/-- `call WS.FLUSH(u)` (R234): nothing; there is no signal memory. -/
def wsFlush (u : UnitId) (s : State) : Res Unit := (getWs u s).map fun _ => ()

/-- `WS.STEP` (R232). -/
def execWsStep (u : UnitId) (x : F32) (s : State) : Host.Outcome State Fault Refusal :=
  command u .ws (fun s => single (wsStep u x s)) s

/-- `WS.PROC` (R233). -/
def execWsProc (u : UnitId) (xs : List F32) (s : State) : Host.Outcome State Fault Refusal :=
  command u .ws (procLoop (wsStep u) xs) s

/-- `WS.FLUSH` (R234). -/
def execWsFlush (u : UnitId) (s : State) : Host.Outcome State Fault Refusal :=
  command u .ws (fun s => silent (wsFlush u s)) s

/-- `WS.SETUP` (R231). -/
def execWsSetup (u : UnitId) (min max : F32) (tab : List F32) (s : State) : Host.Outcome State Fault Refusal :=
  command u .ws (fun s => silent (wsSetup u min max tab s)) s

end Sys2Proof.Machine
end

