-- ==== Sys2Proof/Machine/Tube.lean ====
section
/-! DEFINITION. Class TS, the tube stage, and class PA, the preamp of three stages (spec/44_waveshaper_tubestage.md R239 to
R252). -/

namespace Sys2Proof.Machine

/-! ## Class TS -/

/-- `call TS.SETUP(u, …)` (R240): `bias` and the children are untouched. -/
def tsSetup (u : UnitId) (gain supply rk rp : F32) (s : State) : Res Unit :=
  (getTs u s).bind fun r s =>
  put u (.ts { r with gain := gain, supply := supply, rk := rk, rp := rp, cfg := true }) s

/-- `U[u].bias <- b` (R241). -/
def tsSetBias (u : UnitId) (b : F32) (s : State) : Res Unit :=
  (getTs u s).bind fun r s => put u (.ts { r with bias := b }) s

/-- `feedback = (supply - x4) * (rk / rp)` (R241). -/
def tsFeedback (r : Ts) (x4 : F32) : F32 := fmul (fsub r.supply x4) (fdiv r.rk r.rp)

/-- `call TS.STEP(u, x)` (R241): the bias added is the one computed at the sample before (R402). -/
def tsStep (u : UnitId) (x : F32) (s : State) : Res F32 :=
  (getTs u s).bind fun r s =>
  (needCfg r.cfg u s).bind fun _ s =>
  (bqStep r.inp (fmul x r.gain) s).bind fun x2 s =>
  (wsStep r.curve (fadd x2 r.bias) s).bind fun x4 s =>
  (foStep r.fb (tsFeedback r x4) s).bind fun b s =>
  (tsSetBias u b s).bind fun _ s =>
  foStep r.dc x4 s

/-- `call TS.FLUSH(u)` (R243). -/
def tsFlush (u : UnitId) (s : State) : Res Unit :=
  (getTs u s).bind fun r s =>
  (tsSetBias u c0 s).bind fun _ s =>
  (bqFlush r.inp s).bind fun _ s =>
  (wsFlush r.curve s).bind fun _ s =>
  (foFlush r.fb s).bind fun _ s =>
  foFlush r.dc s

/-- `call TS.GAIN(u, gain)` (R244): nothing else changes. -/
def tsGain (u : UnitId) (gain : F32) (s : State) : Res Unit :=
  (getTs u s).bind fun r s =>
  (needCfg r.cfg u s).bind fun _ s =>
  put u (.ts { r with gain := gain }) s

/-- `TS.STEP` (R241). -/
def execTsStep (u : UnitId) (x : F32) (s : State) : Host.Outcome State Fault Refusal :=
  command u .ts (fun s => single (tsStep u x s)) s

/-- `TS.PROC` (R242). -/
def execTsProc (u : UnitId) (xs : List F32) (s : State) : Host.Outcome State Fault Refusal :=
  command u .ts (procLoop (tsStep u) xs) s

/-- `TS.FLUSH` (R243). -/
def execTsFlush (u : UnitId) (s : State) : Host.Outcome State Fault Refusal :=
  command u .ts (fun s => silent (tsFlush u s)) s

/-- `TS.SETUP` (R240). -/
def execTsSetup (u : UnitId) (gain supply rk rp : F32) (s : State) : Host.Outcome State Fault Refusal :=
  command u .ts (fun s => silent (tsSetup u gain supply rk rp s)) s

/-- `TS.GAIN` (R244). -/
def execTsGain (u : UnitId) (gain : F32) (s : State) : Host.Outcome State Fault Refusal :=
  command u .ts (fun s => silent (tsGain u gain s)) s

/-- `TS.RDGAIN` (R245). -/
def execTsRdgain (u : UnitId) (s : State) : Host.Outcome State Fault Refusal :=
  command u .ts (fun s =>
    (getTs u s).bind fun r s =>
    (needCfg r.cfg u s).map fun _ => [r.gain]) s

/-! ## Class PA -/

/-- `call PA.STEP(u, x)` (R250). -/
def paStep (u : UnitId) (x : F32) (s : State) : Res F32 :=
  (getPa u s).bind fun r s =>
  (tsStep r.stage0 x s).bind fun a s =>
  (tsStep r.stage1 a s).bind fun b s =>
  tsStep r.stage2 b s

/-- `call PA.FLUSH(u)` (R252). -/
def paFlush (u : UnitId) (s : State) : Res Unit :=
  (getPa u s).bind fun r s =>
  (tsFlush r.stage0 s).bind fun _ s =>
  (tsFlush r.stage1 s).bind fun _ s =>
  tsFlush r.stage2 s

/-- `PA.STEP` (R250). -/
def execPaStep (u : UnitId) (x : F32) (s : State) : Host.Outcome State Fault Refusal :=
  command u .pa (fun s => single (paStep u x s)) s

/-- `PA.PROC` (R251). -/
def execPaProc (u : UnitId) (xs : List F32) (s : State) : Host.Outcome State Fault Refusal :=
  command u .pa (procLoop (paStep u) xs) s

/-- `PA.FLUSH` (R252). -/
def execPaFlush (u : UnitId) (s : State) : Host.Outcome State Fault Refusal :=
  command u .pa (fun s => silent (paFlush u s)) s

end Sys2Proof.Machine
end

