-- ==== Sys2Proof/Machine/Karplus.lean ====
section
/-! DEFINITION. Class KS, the Karplus-Strong voice (spec/47_karplus_voicebox.md R310 to R316). -/

namespace Sys2Proof.Machine

/-- `call KS.TUNE(u, freq)` (R311): the FD child is set up with `n = FS / freq - KS_TUNE_CONST`. -/
def ksTune (u : UnitId) (freq : F32) (s : State) : Res Unit :=
  (getKs u s).bind fun r s =>
  (needFs s).bind fun fs s =>
  fdSetup r.delay (fsub (fdiv (f32OfU32 fs) freq) s.params.ksTuneConst) s

/-- `call KS.TRIG(u)` (R312): the ring is not cleared. -/
def ksTrig (u : UnitId) (s : State) : Res Unit :=
  (getKs u s).bind fun r s =>
  put u (.ks { r with excite := s.params.ksExciteLen, gain := s.params.ksSustainGain }) s

/-- `call KS.MUTE(u)` (R313). -/
def ksMute (u : UnitId) (s : State) : Res Unit :=
  (getKs u s).bind fun r s => put u (.ks { r with gain := s.params.ksMuteGain }) s

/-- The excitation of one sample (R314): a noise sample while `excite` is not 0, else `+0.0`. -/
def ksExcitation (u : UnitId) (r : Ks) (s : State) : Res F32 :=
  if r.excite = 0 then .ok c0 s
  else
    (put u (.ks { r with excite := r.excite - 1 }) s).bind fun _ s =>
    (draw s).bind fun d s => .ok (prngToFloat s.params d) s

/-- `call KS.STEP(u)` (R314). -/
def ksStep (u : UnitId) (s : State) : Res F32 :=
  (getKs u s).bind fun r s =>
  (getFd r.delay s).bind fun d s =>
  (needCfg d.cfg r.delay s).bind fun _ s =>
  (getFo r.damp s).bind fun f s =>
  (needCfg f.cfg r.damp s).bind fun _ s =>
  (ksExcitation u r s).bind fun e s =>
  (fdPeek r.delay s).bind fun p s =>
  (foStep r.damp p s).bind fun q s =>
  let y := fadd e (fmul r.gain q)
  (fdStep r.delay y s).map fun _ => y

/-- `call KS.FLUSH(u)` (R316): `gain`, the tuning and the damping coefficients are kept. -/
def ksFlush (u : UnitId) (s : State) : Res Unit :=
  (getKs u s).bind fun r s =>
  (put u (.ks { r with excite := 0 }) s).bind fun _ s =>
  (fdFlush r.delay s).bind fun _ s =>
  foFlush r.damp s

/-- `KS.STEP` (R314). -/
def execKsStep (u : UnitId) (s : State) : Host.Outcome State Fault Refusal :=
  command u .ks (fun s => single (ksStep u s)) s

/-- `KS.PROC` (R315). -/
def execKsProc (u : UnitId) (n : BitVec 16) (s : State) : Host.Outcome State Fault Refusal :=
  command u .ks (genLoop (ksStep u) n.toNat) s

/-- `KS.FLUSH` (R316). -/
def execKsFlush (u : UnitId) (s : State) : Host.Outcome State Fault Refusal :=
  command u .ks (fun s => silent (ksFlush u s)) s

/-- `KS.TUNE` (R311). -/
def execKsTune (u : UnitId) (freq : F32) (s : State) : Host.Outcome State Fault Refusal :=
  command u .ks (fun s => silent (ksTune u freq s)) s

/-- `KS.TRIG` (R312). -/
def execKsTrig (u : UnitId) (s : State) : Host.Outcome State Fault Refusal :=
  command u .ks (fun s => silent (ksTrig u s)) s

/-- `KS.MUTE` (R313). -/
def execKsMute (u : UnitId) (s : State) : Host.Outcome State Fault Refusal :=
  command u .ks (fun s => silent (ksMute u s)) s

end Sys2Proof.Machine
end

