-- ==== Sys2Proof/Machine/VoiceBox.lean ====
section
/-! DEFINITION. Class VB, the voice allocator (spec/47_karplus_voicebox.md R320 to R328). The voices are of class KS, the
only class the spec encodes that offers the five operations a voice needs (R320). -/

namespace Sys2Proof.Machine

/-! ## Choosing a voice (R326) -/

/-- The indices of the voices that pass a test, ascending, the first voice of the list having index `i`. -/
def voiceIndices (test : Voice → Bool) : Nat → List Voice → List Nat
  | _, [] => []
  | i, v :: vs => if test v then i :: voiceIndices test (i + 1) vs else voiceIndices test (i + 1) vs

/-- The candidates of R326: the unbound voices where there are some, else all. -/
def pickCandidates (vs : List Voice) : List Nat :=
  let free := voiceIndices (fun v => v.note == 0) 0 vs
  if free.isEmpty then voiceIndices (fun _ => true) 0 vs else free

/-- The stamp of voice `i`. -/
def ageAt (vs : List Voice) (i : Nat) : Int := ((vs[i]?).map Voice.age).getD 0

/-- The running comparison of R326: voice `i` replaces the best so far when its stamp is older by the wrapped signed
subtraction. Equal stamps keep the earlier voice. -/
def pickFrom (w : Nat) (vs : List Voice) : Nat → List Nat → Nat
  | best, [] => best
  | best, i :: is => if sextW w (ageAt vs i - ageAt vs best) < 0 then pickFrom w vs i is else pickFrom w vs best is

/-- `pick(u)` (R326): `none` only for an allocator with no voice. -/
def pickVoice (w : Nat) (vs : List Voice) : Option Nat :=
  match pickCandidates vs with
  | [] => none
  | i :: is => some (pickFrom w vs i is)

/-- Write `note[i]` and `age[i]`. -/
def setVoice (vs : List Voice) (i : Nat) (note : BitVec 8) (age : Int) : List Voice :=
  vs.modify i fun v => { v with note := note, age := age }

/-! ## Operations -/

/-- `call VB.NOTEON(u, note)` (R321): the binding is written before the voice is tuned and triggered. -/
def vbNoteOn (u : UnitId) (note : BitVec 7) (s : State) : Res Unit :=
  (getVb u s).bind fun r s =>
  match pickVoice s.params.ageW r.voices with
  | none => .stop (.badInstance u)
  | some i =>
    (romRead u r.voices i s).bind fun v s =>
    (put u (.vb { r with voices := setVoice r.voices i (note.setWidth 8) r.now }) s).bind fun _ s =>
    (ksTune v.unit (noteFreq s.params note) s).bind fun _ s =>
    ksTrig v.unit s

/-- `call VB.NOTEOFF(u, note)` (R322): the lowest voice bound to `note` is unbound, stamped and muted. -/
def vbNoteOff (u : UnitId) (note : BitVec 7) (s : State) : Res Unit :=
  (getVb u s).bind fun r s =>
  if note = 0 then .ok () s
  else match voiceIndices (fun v => v.note == note.setWidth 8) 0 r.voices with
  | [] => .ok () s
  | i :: _ =>
    (romRead u r.voices i s).bind fun v s =>
    (put u (.vb { r with voices := setVoice r.voices i 0 r.now }) s).bind fun _ s =>
    ksMute v.unit s

/-- The remaining voices stepped and added in ascending order (R323). -/
def vbSum : List Voice → F32 → State → Res F32
  | [], acc, s => .ok acc s
  | v :: vs, acc, s => (ksStep v.unit s).bind fun y s => vbSum vs (fadd acc y) s

/-- `U[u].now <- sext_W(U[u].now + 1)` (R323). -/
def vbTick (u : UnitId) (s : State) : Res Unit :=
  (getVb u s).bind fun r s => put u (.vb { r with now := sextW s.params.ageW (r.now + 1) }) s

/-- `call VB.STEP(u)` (R323): every voice is stepped, bound or not. -/
def vbStep (u : UnitId) (s : State) : Res F32 :=
  (getVb u s).bind fun r s =>
  match r.voices with
  | [] => .stop (.badInstance u)
  | v :: vs =>
    (ksStep v.unit s).bind fun y s =>
    (vbSum vs y s).bind fun acc s =>
    (vbTick u s).map fun _ => acc

/-- Flush each voice in turn (R325). -/
def vbFlushVoices : List Voice → State → Res Unit
  | [], s => .ok () s
  | v :: vs, s => (ksFlush v.unit s).bind fun _ s => vbFlushVoices vs s

/-- `call VB.FLUSH(u)` (R325): bindings, stamps and clock return to their reset values. -/
def vbFlush (u : UnitId) (s : State) : Res Unit :=
  (getVb u s).bind fun r s =>
  (put u (.vb { voices := r.voices.map fun v => { v with note := 0, age := 0 }, now := 0 }) s).bind fun _ s =>
  vbFlushVoices r.voices s

/-- `VB.STEP` (R323). -/
def execVbStep (u : UnitId) (s : State) : Host.Outcome State Fault Refusal :=
  command u .vb (fun s => single (vbStep u s)) s

/-- `VB.PROC` (R324). -/
def execVbProc (u : UnitId) (n : BitVec 16) (s : State) : Host.Outcome State Fault Refusal :=
  command u .vb (genLoop (vbStep u) n.toNat) s

/-- `VB.FLUSH` (R325). -/
def execVbFlush (u : UnitId) (s : State) : Host.Outcome State Fault Refusal :=
  command u .vb (fun s => silent (vbFlush u s)) s

/-- `VB.NOTEON` (R321). The velocity is carried and ignored. -/
def execVbNoteon (u : UnitId) (note _velocity : BitVec 7) (s : State) : Host.Outcome State Fault Refusal :=
  command u .vb (fun s => silent (vbNoteOn u note s)) s

/-- `VB.NOTEOFF` (R322). -/
def execVbNoteoff (u : UnitId) (note _velocity : BitVec 7) (s : State) : Host.Outcome State Fault Refusal :=
  command u .vb (fun s => silent (vbNoteOff u note s)) s

end Sys2Proof.Machine
end

