-- ==== Sys2Proof/Machine/Sys.lean ====
section
/-! DEFINITION. Class SYS: the block-wide registers, the generator and the draining of the channel
(spec/40_common_ops.md R140 to R149). -/

namespace Sys2Proof.Machine

/-! ## The sampling frequency, the generator, the status word -/

/-- `SYS.SETFS` (R141): written once, never with 0. -/
def sysSetfs (fs : Word) (s : State) : Res Unit :=
  (require (!s.fsSet && decide (fs ≠ 0)) .fsBad 0 s).bind fun _ s => .ok () { s with fs := fs, fsSet := true }

/-- `SYS.SEED` (R147). -/
def sysSeed (seed : Word) (s : State) : Res Unit :=
  (require (decide (seed ≠ 0) && decide (seed.toNat < 2147483647)) .seedBad 0 s).bind fun _ s =>
  .ok () { s with prng := seed.setWidth 31 }

/-! ## Draining the channel -/

/-- The rule of a mailable command, with check (2) of R109 (R111, R143). A command that is not mailable is never in
`MBOX` (R39). -/
def applyMailable (i : Instr) (s : State) : Res Unit :=
  match i with
  | .sysRaw _ => .ok () s
  | .bqLdc u b0 b1 b2 a1 a2 => checked u .bq (bqLoad u ⟨b0, b1, b2, a1, a2⟩) s
  | .bqLp u f q => checked u .bq (bqDesign u (designLp f q)) s
  | .bqHp u f q => checked u .bq (bqDesign u (designHp f q)) s
  | .bqBp u f q => checked u .bq (bqDesign u (designBp f q)) s
  | .bqBs u f q => checked u .bq (bqDesign u (designBs f q)) s
  | .bqAp u f q => checked u .bq (bqDesign u (designAp f q)) s
  | .bqPk u f gain q => checked u .bq (bqDesign u (designPk f gain q)) s
  | .bqLs u f gain q => checked u .bq (bqDesign u (designLs f gain q)) s
  | .bqHs u f gain q => checked u .bq (bqDesign u (designHs f gain q)) s
  | .foLdc u b0 b1 a1 => checked u .fo (foLoad u ⟨b0, b1, a1⟩) s
  | .foLp u f => checked u .fo (foDesign u (foDesignLp f)) s
  | .foHp u f => checked u .fo (foDesign u (foDesignHp f)) s
  | .tsGain u gain => checked u .ts (tsGain u gain) s
  | .vbNoteon u note _ => checked u .vb (vbNoteOn u note) s
  | .vbNoteoff u note _ => checked u .vb (vbNoteOff u note) s
  | .dmCfg u pattern bpm => checked u .dm (dmCfg u pattern bpm) s
  | .sysNop | .sysSetfs _ | .sysRdfs | .sysDrain | .sysRdstat | .sysSeed _ | .sysRand | .sysRandf
  | .bqStep _ _ | .bqProc _ _ | .bqFlush _ | .bqRdc _
  | .foStep _ _ | .foProc _ _ | .foFlush _ | .foRdc _
  | .firStep _ _ | .firProc _ _ | .firFlush _ | .firLdc _ _
  | .dlStep _ _ | .dlProc _ _ | .dlFlush _ | .dlSetup _ _ | .dlPeek _
  | .fdStep _ _ | .fdProc _ _ | .fdFlush _ | .fdSetup _ _ | .fdPeek _
  | .wsStep _ _ | .wsProc _ _ | .wsFlush _ | .wsSetup _ _ _ _
  | .tsStep _ _ | .tsProc _ _ | .tsFlush _ | .tsSetup _ _ _ _ _ | .tsRdgain _
  | .paStep _ _ | .paProc _ _ | .paFlush _
  | .apfStep _ _ | .apfProc _ _ | .apfFlush _ | .apfSetup _ _ _ _
  | .cmbStep _ _ | .cmbProc _ _ | .cmbFlush _ | .cmbSetup _ _ _
  | .rvStep _ _ | .rvProc _ _ | .rvFlush _ | .rvSetup _
  | .ksStep _ | .ksProc _ _ | .ksFlush _ | .ksTune _ _ | .ksTrig _ | .ksMute _
  | .vbStep _ | .vbProc _ _ | .vbFlush _
  | .dmStep _ | .dmProc _ _ | .dmFlush _ | .dmSetup _ | .dmRdcfg _ => .stop .badMessage

/-- A message is a whole mailable command (R39): its `op8` is mailable and it has the operand words of its format. -/
def Message.wf (m : Message) : Bool :=
  mailable m.cw && decide (m.operands.length = operandCount (fun _ => 0) m.cw)

/-- Execute a message as a command: checks (1) to (3) of R109, then its rule; a message has no response words (R143). -/
def applyMessage (m : Message) (s : State) : Res Unit :=
  if m.wf then
    match decodeCommand m.cw m.operands with
    | .ok i => applyMailable i s
    | .error _ => raise .illegalCmd (unitField m.cw) s
  else .stop .badMessage

/-- The loop of `SYS.DRAIN` over the messages present (R143): each is removed, then executed; a fault ends the drain and
leaves the messages behind it. No post interleaves (R81). -/
def drainLoop : List Message → State → Res Unit
  | [], s => .ok () s
  | m :: ms, s => (applyMessage m { s with mbox := ms }).bind fun _ s => drainLoop ms s

/-! ## The instructions -/

/-- `SYS.NOP` (R140): nothing. -/
def execSysNop (s : State) : Host.Outcome State Fault Refusal :=
  sysCommand (fun s => .ok [] s) s

/-- `SYS.SETFS` (R141). -/
def execSysSetfs (fs : Word) (s : State) : Host.Outcome State Fault Refusal :=
  sysCommand (fun s => silent (sysSetfs fs s)) s

/-- `SYS.RDFS` (R142). -/
def execSysRdfs (s : State) : Host.Outcome State Fault Refusal :=
  sysCommand (fun s => single (needFs s)) s

/-- `SYS.DRAIN` (R143). -/
def execSysDrain (s : State) : Host.Outcome State Fault Refusal :=
  sysCommand (fun s => silent (drainLoop s.mbox s)) s

/-- `SYS.RAW` (R144): nothing, whatever its immediate. -/
def execSysRaw (_imm : BitVec 16) (s : State) : Host.Outcome State Fault Refusal :=
  sysCommand (fun s => .ok [] s) s

/-- `SYS.RDSTAT` (R145): the one command that is executed after a fault (R368). -/
def execSysRdstat (s : State) : Host.Outcome State Fault Refusal :=
  conclude (.ok [statusWord s] s)

/-- `SYS.SEED` (R147). -/
def execSysSeed (seed : Word) (s : State) : Host.Outcome State Fault Refusal :=
  sysCommand (fun s => silent (sysSeed seed s)) s

/-- `SYS.RAND` (R148). -/
def execSysRand (s : State) : Host.Outcome State Fault Refusal :=
  sysCommand (fun s => single ((draw s).map fun d => d.setWidth 32)) s

/-- `SYS.RANDF` (R149). -/
def execSysRandf (s : State) : Host.Outcome State Fault Refusal :=
  sysCommand (fun s => single ((draw s).map fun d => prngToFloat s.params d)) s

end Sys2Proof.Machine
end

