-- ==== Sys2Proof/Machine/Dispatch.lean ====
section
/-! DEFINITION. The dispatch: one arm per command (spec/30_encoding.md R108). -/

namespace Sys2Proof.Machine

def exec (i : Instr) (s : State) : Host.Outcome State Fault Refusal :=
  match i with
  | .sysNop => Sys2Proof.Machine.execSysNop s
  | .sysSetfs fs => Sys2Proof.Machine.execSysSetfs fs s
  | .sysRdfs => Sys2Proof.Machine.execSysRdfs s
  | .sysDrain => Sys2Proof.Machine.execSysDrain s
  | .sysRaw imm => Sys2Proof.Machine.execSysRaw imm s
  | .sysRdstat => Sys2Proof.Machine.execSysRdstat s
  | .sysSeed seed => Sys2Proof.Machine.execSysSeed seed s
  | .sysRand => Sys2Proof.Machine.execSysRand s
  | .sysRandf => Sys2Proof.Machine.execSysRandf s
  | .bqStep u x => Sys2Proof.Machine.execBqStep u x s
  | .bqProc u xs => Sys2Proof.Machine.execBqProc u xs s
  | .bqFlush u => Sys2Proof.Machine.execBqFlush u s
  | .bqLdc u b0 b1 b2 a1 a2 => Sys2Proof.Machine.execBqLdc u b0 b1 b2 a1 a2 s
  | .bqLp u f q => Sys2Proof.Machine.execBqLp u f q s
  | .bqHp u f q => Sys2Proof.Machine.execBqHp u f q s
  | .bqBp u f q => Sys2Proof.Machine.execBqBp u f q s
  | .bqBs u f q => Sys2Proof.Machine.execBqBs u f q s
  | .bqAp u f q => Sys2Proof.Machine.execBqAp u f q s
  | .bqPk u f gain q => Sys2Proof.Machine.execBqPk u f gain q s
  | .bqLs u f gain q => Sys2Proof.Machine.execBqLs u f gain q s
  | .bqHs u f gain q => Sys2Proof.Machine.execBqHs u f gain q s
  | .bqRdc u => Sys2Proof.Machine.execBqRdc u s
  | .foStep u x => Sys2Proof.Machine.execFoStep u x s
  | .foProc u xs => Sys2Proof.Machine.execFoProc u xs s
  | .foFlush u => Sys2Proof.Machine.execFoFlush u s
  | .foLdc u b0 b1 a1 => Sys2Proof.Machine.execFoLdc u b0 b1 a1 s
  | .foLp u f => Sys2Proof.Machine.execFoLp u f s
  | .foHp u f => Sys2Proof.Machine.execFoHp u f s
  | .foRdc u => Sys2Proof.Machine.execFoRdc u s
  | .firStep u x => Sys2Proof.Machine.execFirStep u x s
  | .firProc u xs => Sys2Proof.Machine.execFirProc u xs s
  | .firFlush u => Sys2Proof.Machine.execFirFlush u s
  | .firLdc u cs => Sys2Proof.Machine.execFirLdc u cs s
  | .dlStep u x => Sys2Proof.Machine.execDlStep u x s
  | .dlProc u xs => Sys2Proof.Machine.execDlProc u xs s
  | .dlFlush u => Sys2Proof.Machine.execDlFlush u s
  | .dlSetup u n => Sys2Proof.Machine.execDlSetup u n s
  | .dlPeek u => Sys2Proof.Machine.execDlPeek u s
  | .fdStep u x => Sys2Proof.Machine.execFdStep u x s
  | .fdProc u xs => Sys2Proof.Machine.execFdProc u xs s
  | .fdFlush u => Sys2Proof.Machine.execFdFlush u s
  | .fdSetup u n => Sys2Proof.Machine.execFdSetup u n s
  | .fdPeek u => Sys2Proof.Machine.execFdPeek u s
  | .wsStep u x => Sys2Proof.Machine.execWsStep u x s
  | .wsProc u xs => Sys2Proof.Machine.execWsProc u xs s
  | .wsFlush u => Sys2Proof.Machine.execWsFlush u s
  | .wsSetup u min max tab => Sys2Proof.Machine.execWsSetup u min max tab s
  | .tsStep u x => Sys2Proof.Machine.execTsStep u x s
  | .tsProc u xs => Sys2Proof.Machine.execTsProc u xs s
  | .tsFlush u => Sys2Proof.Machine.execTsFlush u s
  | .tsSetup u gain supply rk rp => Sys2Proof.Machine.execTsSetup u gain supply rk rp s
  | .tsGain u gain => Sys2Proof.Machine.execTsGain u gain s
  | .tsRdgain u => Sys2Proof.Machine.execTsRdgain u s
  | .paStep u x => Sys2Proof.Machine.execPaStep u x s
  | .paProc u xs => Sys2Proof.Machine.execPaProc u xs s
  | .paFlush u => Sys2Proof.Machine.execPaFlush u s
  | .apfStep u x => Sys2Proof.Machine.execApfStep u x s
  | .apfProc u xs => Sys2Proof.Machine.execApfProc u xs s
  | .apfFlush u => Sys2Proof.Machine.execApfFlush u s
  | .apfSetup u n gb gf => Sys2Proof.Machine.execApfSetup u n gb gf s
  | .cmbStep u x => Sys2Proof.Machine.execCmbStep u x s
  | .cmbProc u xs => Sys2Proof.Machine.execCmbProc u xs s
  | .cmbFlush u => Sys2Proof.Machine.execCmbFlush u s
  | .cmbSetup u n gb => Sys2Proof.Machine.execCmbSetup u n gb s
  | .rvStep u x => Sys2Proof.Machine.execRvStep u x s
  | .rvProc u xs => Sys2Proof.Machine.execRvProc u xs s
  | .rvFlush u => Sys2Proof.Machine.execRvFlush u s
  | .rvSetup u => Sys2Proof.Machine.execRvSetup u s
  | .ksStep u => Sys2Proof.Machine.execKsStep u s
  | .ksProc u n => Sys2Proof.Machine.execKsProc u n s
  | .ksFlush u => Sys2Proof.Machine.execKsFlush u s
  | .ksTune u freq => Sys2Proof.Machine.execKsTune u freq s
  | .ksTrig u => Sys2Proof.Machine.execKsTrig u s
  | .ksMute u => Sys2Proof.Machine.execKsMute u s
  | .vbStep u => Sys2Proof.Machine.execVbStep u s
  | .vbProc u n => Sys2Proof.Machine.execVbProc u n s
  | .vbFlush u => Sys2Proof.Machine.execVbFlush u s
  | .vbNoteon u note velocity => Sys2Proof.Machine.execVbNoteon u note velocity s
  | .vbNoteoff u note velocity => Sys2Proof.Machine.execVbNoteoff u note velocity s
  | .dmStep u => Sys2Proof.Machine.execDmStep u s
  | .dmProc u n => Sys2Proof.Machine.execDmProc u n s
  | .dmFlush u => Sys2Proof.Machine.execDmFlush u s
  | .dmSetup u => Sys2Proof.Machine.execDmSetup u s
  | .dmCfg u n bpm => Sys2Proof.Machine.execDmCfg u n bpm s
  | .dmRdcfg u => Sys2Proof.Machine.execDmRdcfg u s

end Sys2Proof.Machine
end

