-- ==== Sys2Proof/Machine/Engine.lean ====
section
/-! DEFINITION. The engine's step on the command port (spec/30_encoding.md R100, R104, R109, R110,
spec/60_exceptions.md R368, R371) and the words of an instruction placed where it reads. -/

namespace Sys2Proof.Machine

/-- A command that fails a check of R109 in decoding: `ILLEGAL_CMD` naming the unit field; ignored after a fault
(R368). -/
def rejectCommand (cw : Word) (s : State) : State :=
  if s.fault then s else s.recordFault .illegalCmd (unitField cw)

/-- The engine takes the next command from the command port, consumes its words and runs it to completion (R13, R79,
R371). With no whole command there it waits. -/
def engineStep (s : State) : Host.Outcome State Fault Refusal :=
  match s.cmdIn with
  | [] => .next s
  | cw :: rest =>
    let n := operandCount s.firOrder cw
    match decode s.firOrder (cw :: rest) with
    | .ok (i, rest') => exec i { s with cmdIn := rest' }
    | .error .incomplete => .next s
    | .error _ => .next (rejectCommand cw { s with cmdIn := rest.drop n })

/-- The state with an instruction's words put in front of the command port's stream and the turn given to the engine. -/
def State.placeCommand (s : State) (nbits w : Nat) : State :=
  { s with cmdIn := tableWords s.firOrder nbits w ++ s.cmdIn, turns := .engine :: s.turns }

end Sys2Proof.Machine
end

