-- ==== Sys2Proof/Machine/Step.lean ====
section
/-! DEFINITION. One step (spec/60_exceptions.md R371, spec/70_reset_and_hazards.md R390): the agent whose turn it is acts
once, atomically (R13, R81). With no turn given the engine acts. -/

namespace Sys2Proof.Machine

/-- One step of the machine. -/
def step (s : State) : Host.Outcome State Fault Refusal :=
  match s.turns with
  | [] => engineStep s
  | .engine :: ts => engineStep { s with turns := ts }
  | .producer :: ts => .next (producerStep { s with turns := ts })
  | .reset :: ts => .next (State.resetBlock { s with turns := ts })

/-- The block fetches no instruction (R21): a command comes to run by arriving on the command port. The next step runs
exactly the instruction whose bits are `w`. -/
def State.withFetchWord (s : State) (nbits w : Nat) : State := s.placeCommand nbits w

end Sys2Proof.Machine
end

