-- ==== Sys2Proof/Safety.lean ====
section
/-! DEFINITION. The terms claims are stated in: the invariant of the block, when a unit is ready to run, which unit a
command addresses and which units it can reach, and what one sample of each class computes, in closed form. The closed
forms are written from the rules beside, and not through, the operations of Machine/. -/

namespace Sys2Proof.Machine

/-! ## The invariant -/

/-- A FIR unit (R27): canonical memories and the write index inside the history. -/
def Fir.wf (r : Fir) : Bool := r.c.wf && r.h.wf && decide (r.pos < r.h.cap)

/-- A delay line (R28): both cursors inside the ring and, once configured, `extract_from` `n` slots behind
`insert_at`. -/
def Dl.wf (r : Dl) : Bool :=
  r.buf.wf && decide (r.insertAt < r.buf.cap) && decide (r.extractFrom < r.buf.cap) &&
    (!r.cfg || (decide (1 ≤ r.n) && decide (r.n ≤ r.buf.cap) &&
      decide (r.extractFrom = (r.insertAt + r.buf.cap - r.n) % r.buf.cap)))

/-- A fractional delay line (R29): as a delay line, with `nint` for `n`. -/
def Fd.wf (r : Fd) : Bool :=
  r.buf.wf && decide (r.insertAt < r.buf.cap) && decide (r.extractFrom < r.buf.cap) &&
    (!r.cfg || (decide (1 ≤ r.nint.toNat) && decide (r.nint.toNat ≤ r.buf.cap) &&
      decide (r.extractFrom = (r.insertAt + r.buf.cap - r.nint.toNat) % r.buf.cap)))

/-- A waveshaper (R30): at least two points and a domain that is not degenerate, once configured. -/
def Ws.wf (r : Ws) : Bool :=
  r.tab.wf && (!r.cfg || (decide (2 ≤ r.len) && decide (r.len ≤ r.tab.cap) && flt r.min r.max))

/-- A signed number of `w` bits (R37). -/
def inAgeRange (w : Nat) (v : Int) : Bool :=
  decide (-((2 ^ (w - 1) : Nat) : Int) ≤ v) && decide (v < ((2 ^ (w - 1) : Nat) : Int))

/-- A voice allocator (R37): stamps and clock are `AGE_W`-bit numbers. -/
def Vb.wf (w : Nat) (r : Vb) : Bool := inAgeRange w r.now && r.voices.all fun v => inAgeRange w v.age

/-- A drum machine (R38, R286): `pattern` below `NPAT`, `step_idx` below `PLEN[pattern]`, every cursor at most
`LEN[v] + 191`, and a nonzero `spd` once configured. -/
def Dm.wf (r : Dm) : Bool :=
  (match r.patterns[r.pattern.toNat]? with
    | some p => decide (r.stepIdx.toNat < p.steps.length)
    | none => false) &&
    (r.drums.all fun d => decide (d.cursor.toNat ≤ d.pcm.length + 191)) && (!r.cfg || decide (r.spd ≠ 0))

/-- The registers of a unit hold values the spec gives them. Classes not named here have no constrained register. -/
def UnitRec.wf (p : Params) : UnitRec → Bool
  | .bq _ => true
  | .fo _ => true
  | .fir r => r.wf
  | .dl r => r.wf
  | .fd r => r.wf
  | .ws r => r.wf
  | .ts _ => true
  | .pa _ => true
  | .apf _ => true
  | .cmb _ => true
  | .rv _ => true
  | .ks _ => true
  | .vb r => r.wf p.ageW
  | .dm r => r.wf

/-- `DM_DEFAULT_PATTERN` names a pattern of the ROM, so that a drum machine is well formed after reset (R38, R391). -/
def InstEntry.resetFits (p : Params) : InstEntry → Bool
  | .dm rom _ => decide (p.dmDefaultPattern.toNat < rom.patterns.length)
  | .bq | .fo | .fir _ _ | .dl _ | .fd _ | .ws _ | .ts _ _ _ _ | .pa _ _ _ | .apf _ | .cmb _
  | .rv _ _ _ _ _ _ _ | .ks _ _ | .vb _ => true

/-- `FAULT`, `CAUSE` and `FUNIT` agree (R361, R362): no cause and no unit without a fault, and with one a cause the
block can raise. -/
def State.faultRegsWf (s : State) : Bool :=
  if s.fault then decide (1 ≤ s.cause.toNat) && decide (s.cause.toNat ≤ 9) && decide (s.cause ≠ 6)
  else decide (s.cause = 0) && decide (s.funit = 0)

/-- `MBOX` holds at most `MBOX_DEPTH` messages, each a whole mailable command (R39). -/
def State.mboxWf (s : State) : Bool :=
  decide (s.mbox.length ≤ s.params.mboxDepth) && s.mbox.all Message.wf

/-- The invariant of the block. -/
structure State.Inv (s : State) : Prop where
  /-- the parameters are legal (R8, R310) -/
  params : s.params.wf = true
  /-- the instance table is legal (R22): ids, static parameters, ownership of children -/
  inst : InstTable.wf s.inst = true
  /-- the drum machines' default pattern exists -/
  defaults : (s.inst.all fun e => InstEntry.resetFits s.params e.2) = true
  /-- the registers and memories of every unit are well formed -/
  units : (s.units.all fun e => UnitRec.wf s.params e.2) = true
  /-- `FS_SET` says whether `FS` was written, and `FS` is then not 0 (R24, R141) -/
  fs : s.fsSet = true ↔ s.fs ≠ 0
  /-- `PRNG` lies in 1 to 2^31 - 2 (R24, R146) -/
  prng : 1 ≤ s.prng.toNat ∧ s.prng.toNat ≤ 2147483646
  /-- the fault registers agree (R361, R362) -/
  faultRegs : s.faultRegsWf = true
  /-- the channel is legal (R39) -/
  mbox : s.mboxWf = true

/-! ## Units by class -/

/-- The biquad `u`. -/
def State.bq (s : State) (u : UnitId) : Bq := match s.unit? u with
  | some (.bq r) => r
  | _ => ⟨⟨0, 0, 0, 0, 0⟩, 0, 0, false⟩
/-- The first-order section `u`. -/
def State.fo (s : State) (u : UnitId) : Fo := match s.unit? u with
  | some (.fo r) => r
  | _ => ⟨⟨0, 0, 0⟩, 0, false⟩
/-- The FIR filter `u`. -/
def State.fir (s : State) (u : UnitId) : Fir := match s.unit? u with
  | some (.fir r) => r
  | _ => ⟨Memory.empty 0, Memory.empty 0, 0, false⟩
/-- The delay line `u`. -/
def State.dl (s : State) (u : UnitId) : Dl := match s.unit? u with
  | some (.dl r) => r
  | _ => ⟨Memory.empty 0, 0, 0, 0, false⟩
/-- The fractional delay line `u`. -/
def State.fd (s : State) (u : UnitId) : Fd := match s.unit? u with
  | some (.fd r) => r
  | _ => ⟨Memory.empty 0, 0, 0, 0, 0, 0, false⟩
/-- The waveshaper `u`. -/
def State.ws (s : State) (u : UnitId) : Ws := match s.unit? u with
  | some (.ws r) => r
  | _ => ⟨Memory.empty 0, 0, 0, 0, false⟩
/-- The tube stage `u`. -/
def State.ts (s : State) (u : UnitId) : Ts := match s.unit? u with
  | some (.ts r) => r
  | _ => ⟨0, 0, 0, 0, 0, 0, 0, 0, 0, false⟩
/-- The preamp `u`. -/
def State.pa (s : State) (u : UnitId) : Pa := match s.unit? u with
  | some (.pa r) => r
  | _ => ⟨0, 0, 0⟩
/-- The allpass section `u`. -/
def State.apf (s : State) (u : UnitId) : Apf := match s.unit? u with
  | some (.apf r) => r
  | _ => ⟨0, 0, 0, false⟩
/-- The comb section `u`. -/
def State.cmb (s : State) (u : UnitId) : Cmb := match s.unit? u with
  | some (.cmb r) => r
  | _ => ⟨0, 0, false⟩
/-- The reverberator `u`. -/
def State.rv (s : State) (u : UnitId) : Rv := match s.unit? u with
  | some (.rv r) => r
  | _ => ⟨0, 0, 0, 0, 0, 0, 0, false⟩
/-- The Karplus-Strong voice `u`. -/
def State.ks (s : State) (u : UnitId) : Ks := match s.unit? u with
  | some (.ks r) => r
  | _ => ⟨0, 0, 0, 0⟩
/-- The voice allocator `u`. -/
def State.vb (s : State) (u : UnitId) : Vb := match s.unit? u with
  | some (.vb r) => r
  | _ => ⟨[], 0⟩
/-- The drum machine `u`. -/
def State.dm (s : State) (u : UnitId) : Dm := match s.unit? u with
  | some (.dm r) => r
  | _ => ⟨[], [], [], 0, 0, 0, 0, 0, 0, false, 0, false⟩

/-- The ids of the children of unit `u` (R22). -/
def State.childIds (s : State) (u : UnitId) : List UnitId := match s.unit? u with
  | some r => r.entry.children.map Prod.fst
  | none => []

/-- Unit `u` with its children and their children: all that a command on `u` reaches. The deepest chains are PA, TS and
its parts, RV, its sections and their lines, VB, its voices and their parts (R31 to R38). -/
def State.family (s : State) (u : UnitId) : List UnitId :=
  u :: (s.childIds u ++ (s.childIds u).flatMap s.childIds)

/-! ## Ready to run: the unit exists with its class, and it and every descendant that must be configured is (R23, R363) -/

/-- A biquad that is set up. -/
def readyBq (s : State) (u : UnitId) : Bool := decide (s.classOf u = some .bq) && (s.bq u).cfg
/-- A first-order section that is set up. -/
def readyFo (s : State) (u : UnitId) : Bool := decide (s.classOf u = some .fo) && (s.fo u).cfg
/-- A FIR filter that is set up. -/
def readyFir (s : State) (u : UnitId) : Bool := decide (s.classOf u = some .fir) && (s.fir u).cfg
/-- A delay line that is set up. -/
def readyDl (s : State) (u : UnitId) : Bool := decide (s.classOf u = some .dl) && (s.dl u).cfg
/-- A fractional delay line that is set up. -/
def readyFd (s : State) (u : UnitId) : Bool := decide (s.classOf u = some .fd) && (s.fd u).cfg
/-- A waveshaper that is set up. -/
def readyWs (s : State) (u : UnitId) : Bool := decide (s.classOf u = some .ws) && (s.ws u).cfg
/-- A tube stage that is set up, with its four children. -/
def readyTs (s : State) (u : UnitId) : Bool :=
  decide (s.classOf u = some .ts) && (s.ts u).cfg && readyBq s (s.ts u).inp && readyWs s (s.ts u).curve &&
    readyFo s (s.ts u).fb && readyFo s (s.ts u).dc
/-- A preamp whose three stages are set up. -/
def readyPa (s : State) (u : UnitId) : Bool :=
  decide (s.classOf u = some .pa) && readyTs s (s.pa u).stage0 && readyTs s (s.pa u).stage1 &&
    readyTs s (s.pa u).stage2
/-- An allpass section that is set up, with its delay line. -/
def readyApf (s : State) (u : UnitId) : Bool :=
  decide (s.classOf u = some .apf) && (s.apf u).cfg && readyDl s (s.apf u).dl
/-- A comb section that is set up, with its delay line. -/
def readyCmb (s : State) (u : UnitId) : Bool :=
  decide (s.classOf u = some .cmb) && (s.cmb u).cfg && readyDl s (s.cmb u).dl
/-- A reverberator that is set up, with its seven sections. -/
def readyRv (s : State) (u : UnitId) : Bool :=
  decide (s.classOf u = some .rv) && (s.rv u).cfg && readyApf s (s.rv u).apf0 && readyApf s (s.rv u).apf1 &&
    readyApf s (s.rv u).apf2 && readyCmb s (s.rv u).cmb0 && readyCmb s (s.rv u).cmb1 &&
    readyCmb s (s.rv u).cmb2 && readyCmb s (s.rv u).cmb3
/-- A Karplus-Strong voice whose two children are set up; it has no `cfg` of its own (R36). -/
def readyKs (s : State) (u : UnitId) : Bool :=
  decide (s.classOf u = some .ks) && readyFd s (s.ks u).delay && readyFo s (s.ks u).damp
/-- A voice allocator whose voices are all set up (R396). -/
def readyVb (s : State) (u : UnitId) : Bool :=
  decide (s.classOf u = some .vb) && (s.vb u).voices.all fun v => readyKs s v.unit
/-- A drum machine that is set up, with its lowpass. -/
def readyDm (s : State) (u : UnitId) : Bool :=
  decide (s.classOf u = some .dm) && (s.dm u).cfg && readyBq s (s.dm u).lp

/-! ## One sample in closed form -/

/-- Element `i` of a memory. -/
def Memory.get (m : Memory) (i : Nat) : F32 := cellGet m.cells i

/-- A memory with element `i` replaced. -/
def Memory.set (m : Memory) (i : Nat) (v : F32) : Memory := ⟨m.cap, cellPut m.cells i v⟩

/-- The response of a biquad (R161). -/
def bqOut (b : Bq) (x : F32) : F32 := fadd (fmul b.coef.b0 x) b.s0

/-- A biquad after a sample (R161): with `y` the response, `s[0]` is `(b1*x - a1*y) + s[1]` and `s[1]` is
`b2*x - a2*y`. -/
def bqNext (b : Bq) (x : F32) : Bq :=
  { b with
    s0 := fadd (fsub (fmul b.coef.b1 x) (fmul b.coef.a1 (bqOut b x))) b.s1
    s1 := fsub (fmul b.coef.b2 x) (fmul b.coef.a2 (bqOut b x)) }

/-- The response of a first-order section (R191). -/
def foOut (r : Fo) (x : F32) : F32 := fadd (fmul r.coef.b0 x) r.s0

/-- A first-order section after a sample (R191). -/
def foNext (r : Fo) (x : F32) : Fo := { r with s0 := fsub (fmul r.coef.b1 x) (fmul r.coef.a1 (foOut r x)) }

/-- The taps `k` to `k + left - 1` of a convolution, added to `acc` in ascending order (R201). -/
def convFrom (c h : Memory) (pos : Nat) : Nat → Nat → F32 → F32
  | _, 0, acc => acc
  | k, left + 1, acc =>
    convFrom c h pos (k + 1) left (fadd acc (fmul (c.get k) (h.get ((pos + h.cap - k) % h.cap))))

/-- The response of a FIR filter (R201): `x` is at `h[pos]`, then `c[0]*h[pos]` and the other `O - 1` taps. -/
def firOut (r : Fir) (x : F32) : F32 :=
  let h := r.h.set r.pos x
  convFrom r.c h r.pos 1 (r.c.cap - 1) (fmul (r.c.get 0) (h.get r.pos))

/-- A FIR filter after a sample (R201). -/
def firNext (r : Fir) (x : F32) : Fir := { r with h := r.h.set r.pos x, pos := (r.pos + 1) % r.h.cap }

/-- The response of a delay line (R212): the element `extract_from` names before the write. -/
def dlOut (r : Dl) : F32 := r.buf.get r.extractFrom

/-- A delay line after a sample (R212). -/
def dlNext (r : Dl) (x : F32) : Dl :=
  { r with
    buf := r.buf.set r.insertAt x
    insertAt := (r.insertAt + 1) % r.buf.cap
    extractFrom := (r.extractFrom + 1) % r.buf.cap }

/-- The response of a fractional delay line (R220): the tap at `extract_from` weighted by `1 - w`, plus the next one
weighted by `w`. -/
def fdOut (r : Fd) : F32 :=
  fadd (fmul (r.buf.get r.extractFrom) (fsub c1 r.w))
    (fmul (r.buf.get ((r.extractFrom + 1) % r.buf.cap)) r.w)

/-- A fractional delay line after a sample (R221). -/
def fdNext (r : Fd) (x : F32) : Fd :=
  { r with
    buf := r.buf.set r.insertAt x
    insertAt := (r.insertAt + 1) % r.buf.cap
    extractFrom := (r.extractFrom + 1) % r.buf.cap }

/-- The position in the table of a value inside the domain: `((x - min) / (max - min)) * (T - 1)` (R232), and 0 where
`max - min` is infinite (R231, log entry 9). -/
def wsPos (r : Ws) (x : F32) : F32 :=
  fmul (if isInf (fsub r.max r.min) then c0 else fdiv (fsub x r.min) (fsub r.max r.min)) (f32OfNat (r.len - 1))

/-- The response of a waveshaper to a value that is not NaN (R232): the two clamps, the guard at the top edge, the
interpolation between neighbours. -/
def wsOut (r : Ws) (x : F32) : F32 :=
  if fle x r.min then r.tab.get 0
  else if fle r.max x then r.tab.get (r.len - 1)
  else if r.len - 1 ≤ ftrunc (wsPos r x) then r.tab.get (r.len - 1)
  else
    let i := ftrunc (wsPos r x)
    let fr := fsub (wsPos r x) (f32OfNat i)
    fadd (fmul (r.tab.get i) (fsub c1 fr)) (fmul (r.tab.get (i + 1)) fr)

/-- A sample through biquad `u`. -/
def evalBq (u : UnitId) (x : F32) (s : State) : F32 × State :=
  (bqOut (s.bq u) x, s.putUnit u (.bq (bqNext (s.bq u) x)))
/-- A sample through first-order section `u`. -/
def evalFo (u : UnitId) (x : F32) (s : State) : F32 × State :=
  (foOut (s.fo u) x, s.putUnit u (.fo (foNext (s.fo u) x)))
/-- A sample through FIR filter `u`. -/
def evalFir (u : UnitId) (x : F32) (s : State) : F32 × State :=
  (firOut (s.fir u) x, s.putUnit u (.fir (firNext (s.fir u) x)))
/-- A sample through delay line `u`. -/
def evalDl (u : UnitId) (x : F32) (s : State) : F32 × State :=
  (dlOut (s.dl u), s.putUnit u (.dl (dlNext (s.dl u) x)))
/-- A sample through fractional delay line `u`. -/
def evalFd (u : UnitId) (x : F32) (s : State) : F32 × State :=
  (fdOut (s.fd u), s.putUnit u (.fd (fdNext (s.fd u) x)))
/-- A sample through waveshaper `u`: no state changes. -/
def evalWs (u : UnitId) (x : F32) (s : State) : F32 × State := (wsOut (s.ws u) x, s)

/-- The value that reaches the curve of tube stage `u` (R241): the input filter's output plus the bias of the sample
before. -/
def tsCurveIn (u : UnitId) (x : F32) (s : State) : F32 :=
  fadd (bqOut (s.bq (s.ts u).inp) (fmul x (s.ts u).gain)) (s.ts u).bias

/-- A sample through tube stage `u` (R241): gain, input filter, bias, curve; the feedback filter's output becomes the
next bias; the DC blocker gives the response. -/
def evalTs (u : UnitId) (x : F32) (s : State) : F32 × State :=
  let r := s.ts u
  let x4 := wsOut (s.ws r.curve) (tsCurveIn u x s)
  let s1 := (evalBq r.inp (fmul x r.gain) s).2
  let fb := evalFo r.fb (fmul (fsub r.supply x4) (fdiv r.rk r.rp)) s1
  evalFo r.dc x4 (fb.2.putUnit u (.ts { r with bias := fb.1 }))

/-- A sample through preamp `u` (R250): its three stages in series. -/
def evalPa (u : UnitId) (x : F32) (s : State) : F32 × State :=
  let r := s.pa u
  let a := evalTs r.stage0 x s
  let b := evalTs r.stage1 a.1 a.2
  evalTs r.stage2 b.1 b.2

/-- No NaN reaches waveshaper `u` (R232). -/
def wsClean (_u : UnitId) (x : F32) (_s : State) : Bool := !isNaN x
/-- No NaN reaches the curve of tube stage `u` (R241). -/
def tsClean (u : UnitId) (x : F32) (s : State) : Bool := !isNaN (tsCurveIn u x s)
/-- No NaN reaches a curve of preamp `u`. -/
def paClean (u : UnitId) (x : F32) (s : State) : Bool :=
  let r := s.pa u
  let a := evalTs r.stage0 x s
  let b := evalTs r.stage1 a.1 a.2
  tsClean r.stage0 x s && tsClean r.stage1 a.1 a.2 && tsClean r.stage2 b.1 b.2

/-- What ends a sample before its response: a unit that is not configured (R363), or a NaN at a waveshaper (R232, U6). -/
inductive Obstacle where
  | notSetup (u : UnitId)
  | nan (u : UnitId)
  deriving DecidableEq, Repr

/-- The first obstacle of tube stage `u`, in the order of R241: the stage, its input filter, its curve, a NaN at the
curve, its feedback filter, its DC blocker. -/
def tsObstacle (u : UnitId) (x : F32) (s : State) : Option Obstacle :=
  let r := s.ts u
  if r.cfg = false then some (.notSetup u)
  else if (s.bq r.inp).cfg = false then some (.notSetup r.inp)
  else if (s.ws r.curve).cfg = false then some (.notSetup r.curve)
  else if isNaN (tsCurveIn u x s) = true then some (.nan r.curve)
  else if (s.fo r.fb).cfg = false then some (.notSetup r.fb)
  else if (s.fo r.dc).cfg = false then some (.notSetup r.dc)
  else none

/-- A sample through allpass section `u` (R262): with `d` the delayed value, `x + d*gb` enters the line and
`(x + d*gb)*gf + d` is the response. -/
def evalApf (u : UnitId) (x : F32) (s : State) : F32 × State :=
  let r := s.apf u
  let d := dlOut (s.dl r.dl)
  let i := fadd x (fmul d r.gb)
  (fadd (fmul i r.gf) d, (evalDl r.dl i s).2)

/-- A sample through comb section `u` (R266): `x + d*gb` is the response and enters the line. -/
def evalCmb (u : UnitId) (x : F32) (s : State) : F32 × State :=
  let r := s.cmb u
  let o := fadd x (fmul (dlOut (s.dl r.dl)) r.gb)
  (o, (evalDl r.dl o s).2)

/-- A sample through reverberator `u` (R271): `x * 0.1` through the three allpass sections in series, then the four
combs in parallel, summed in order; the dry input is added. -/
def evalRv (u : UnitId) (x : F32) (s : State) : F32 × State :=
  let r := s.rv u
  let a0 := evalApf r.apf0 (fmul x c0p1) s
  let a1 := evalApf r.apf1 a0.1 a0.2
  let a2 := evalApf r.apf2 a1.1 a1.2
  let y0 := evalCmb r.cmb0 a2.1 a2.2
  let y1 := evalCmb r.cmb1 a2.1 y0.2
  let y2 := evalCmb r.cmb2 a2.1 y1.2
  let y3 := evalCmb r.cmb3 a2.1 y2.2
  (fadd x (fadd (fadd (fadd y0.1 y1.1) y2.1) y3.1), y3.2)

/-- The excitation of voice `u` (R314): a noise sample, one draw and one count less while `excite` is not 0; else
`+0.0`. -/
def evalExcite (u : UnitId) (s : State) : F32 × State :=
  let r := s.ks u
  if r.excite = 0 then (c0, s)
  else (prngToFloat s.params (prngNext s.prng),
    { s.putUnit u (.ks { r with excite := r.excite - 1 }) with prng := prngNext s.prng })

/-- A sample of voice `u` (R314): excitation plus `gain` times the damped tap; the sum enters the ring. -/
def evalKs (u : UnitId) (s : State) : F32 × State :=
  let r := s.ks u
  let e := evalExcite u s
  let q := evalFo r.damp (fdOut (s.fd r.delay)) e.2
  let y := fadd e.1 (fmul r.gain q.1)
  (y, (evalFd r.delay y q.2).2)

/-- The part of voice `u` that keeps it from sounding, in the order of R314: its line, then its damping filter. -/
def ksObstacle (u : UnitId) (s : State) : Option UnitId :=
  let r := s.ks u
  if (s.fd r.delay).cfg = false then some r.delay
  else if (s.fo r.damp).cfg = false then some r.damp
  else none

/-- Voices stepped and added in order (R323). -/
def evalVoices : List Voice → F32 → State → F32 × State
  | [], acc, s => (acc, s)
  | v :: vs, acc, s => evalVoices vs (fadd acc (evalKs v.unit s).1) (evalKs v.unit s).2

/-- A sample of voice allocator `u` (R323): the sum of all voices, and the clock advanced. -/
def evalVb (u : UnitId) (s : State) : F32 × State :=
  let r := s.vb u
  match r.voices with
  | [] => (c0, s)
  | v :: vs =>
    let a := evalKs v.unit s
    let b := evalVoices vs a.1 a.2
    (b.1, b.2.putUnit u (.vb { r with now := sextW s.params.ageW (r.now + 1) }))

/-- The generator after `k` draws (R146). -/
def prngAfter : Nat → BitVec 31 → BitVec 31
  | 0, p => p
  | k + 1, p => prngAfter k (prngNext p)

/-- How many of the voices 0 to `v - 1` a mask arms (R286). -/
def armedBelow (mask : Word) (v : Nat) : Nat := ((List.range v).filter mask.getLsbD).length

/-- Voice `v` after a boundary with this mask (R286): an armed voice takes the draw that follows those of the armed
voices below it, and starts at `LEN[v] - 64 + (draw & 255)`. -/
def armDrum (mask : Word) (p : BitVec 31) (v : Nat) (d : Drum) : Drum :=
  if mask.getLsbD v then
    { d with cursor := BitVec.ofNat 32 (d.pcm.length - 64 + (prngAfter (armedBelow mask v + 1) p).toNat % 256) }
  else d

/-- The mask of the current step (R285). -/
def dmMask (r : Dm) : Word := match r.patterns[r.pattern.toNat]? with
  | some p => p.steps.getD r.stepIdx.toNat 0
  | none => 0

/-- The length of the current pattern. -/
def dmPatternLen (r : Dm) : Nat := match r.patterns[r.pattern.toNat]? with
  | some p => p.steps.length
  | none => 0

/-- The number of draws a boundary makes: one for each armed voice, one for the bank (R285, R286, R289). -/
def dmDraws (r : Dm) : Nat := armedBelow (dmMask r) r.drums.length + 1

/-- The registers of a drum machine after a boundary (R285, R286). -/
def dmBoundaryRegs (r : Dm) (p : BitVec 31) : Dm :=
  { r with
    drums := r.drums.mapIdx (armDrum (dmMask r) p)
    stepIdx := BitVec.ofNat 16 ((r.stepIdx.toNat + 1) % dmPatternLen r)
    divCounter := r.spd }

/-- Voices mixed in order (R287): a voice sounds while its cursor lies in 1 to `LEN[v]`, at index `LEN[v] - cursor`. -/
def mixVoices (p : Params) (drums : List Drum) : F32 :=
  drums.foldl (fun mix d =>
    if 1 ≤ d.cursor.toNat ∧ d.cursor.toNat ≤ d.pcm.length then
      fadd mix (pcmToFloat p (d.pcm.getD (d.pcm.length - d.cursor.toNat) 0))
    else mix) c0

/-- The registers after the rest of a sub-step (R285, R287): the mix is held, every active cursor and the division
counter fall by one. -/
def dmPlayRegs (p : Params) (r : Dm) : Dm :=
  { r with
    drums := r.drums.map fun d => { d with cursor := if d.cursor = 0 then 0 else d.cursor - 1 }
    divCounter := r.divCounter - 1
    hold := mixVoices p r.drums }

/-- The drum machine's own registers after a sample (R285). -/
def dmRegs (r : Dm) (p : Params) (prng : BitVec 31) : Dm :=
  if r.phase then { r with phase := false }
  else { dmPlayRegs p (if r.divCounter = 0 then dmBoundaryRegs r prng else r) with phase := true }

/-- A sample reaches a division boundary (R285). -/
def dmAtBoundary (r : Dm) : Bool := !r.phase && decide (r.divCounter = 0)

/-- The lowpass of a drum machine as the sample finds it: at a boundary its coefficient record is the bank entry the
last draw selects (R289). -/
def dmLp (r : Dm) (prng : BitVec 31) (lp : Bq) : Bq :=
  if dmAtBoundary r then
    { lp with coef := r.bank.getD ((prngAfter (dmDraws r) prng).toNat % 16) ⟨0, 0, 0, 0, 0⟩ }
  else lp

/-- A sample of drum machine `u` (R285, R290): the held mix through the lowpass. -/
def evalDm (u : UnitId) (s : State) : F32 × State :=
  let r := s.dm u
  let r' := dmRegs r s.params s.prng
  let lp := dmLp r s.prng (s.bq r.lp)
  (bqOut lp r'.hold,
    { (s.putUnit u (.dm r')).putUnit r.lp (.bq (bqNext lp r'.hold)) with
      prng := if dmAtBoundary r then prngAfter (dmDraws r) s.prng else s.prng })

/-! ## A whole `PROC` in closed form (R131) -/

/-- Samples through a Filter, one after the other. -/
def evalList (ev : F32 → State → F32 × State) : List F32 → State → List F32 × State
  | [], s => ([], s)
  | x :: xs, s => ((ev x s).1 :: (evalList ev xs (ev x s).2).1, (evalList ev xs (ev x s).2).2)

/-- `n` samples of a Generator. -/
def evalTimes (ev : State → F32 × State) : Nat → State → List F32 × State
  | 0, s => ([], s)
  | n + 1, s => ((ev s).1 :: (evalTimes ev n (ev s).2).1, (evalTimes ev n (ev s).2).2)

/-- Every sample of a list meets a condition in the state it finds. -/
def cleanList (ok : F32 → State → Bool) (ev : F32 → State → F32 × State) : List F32 → State → Bool
  | [], _ => true
  | x :: xs, s => ok x s && cleanList ok ev xs (ev x s).2

/-! ## Flushes and setups in closed form -/

/-- Biquad `u` flushed (R163). -/
def flushBq (u : UnitId) (s : State) : State := s.putUnit u (.bq { s.bq u with s0 := c0, s1 := c0 })
/-- First-order section `u` flushed (R193). -/
def flushFo (u : UnitId) (s : State) : State := s.putUnit u (.fo { s.fo u with s0 := c0 })
/-- FIR filter `u` flushed: every element of the history is `+0.0` (R203). -/
def flushFir (u : UnitId) (s : State) : State :=
  s.putUnit u (.fir { s.fir u with h := Memory.empty (s.fir u).h.cap })
/-- Delay line `u` flushed: every element of the ring is `+0.0` (R215). -/
def flushDl (u : UnitId) (s : State) : State :=
  s.putUnit u (.dl { s.dl u with buf := Memory.empty (s.dl u).buf.cap })
/-- Fractional delay line `u` flushed (R223). -/
def flushFd (u : UnitId) (s : State) : State :=
  s.putUnit u (.fd { s.fd u with buf := Memory.empty (s.fd u).buf.cap })
/-- Tube stage `u` flushed with its children (R243); the curve has nothing to flush (R234). -/
def flushTs (u : UnitId) (s : State) : State :=
  let r := s.ts u
  flushFo r.dc (flushFo r.fb (flushBq r.inp (s.putUnit u (.ts { r with bias := c0 }))))
/-- Preamp `u` flushed (R252). -/
def flushPa (u : UnitId) (s : State) : State :=
  let r := s.pa u
  flushTs r.stage2 (flushTs r.stage1 (flushTs r.stage0 s))
/-- Allpass section `u` flushed (R264). -/
def flushApf (u : UnitId) (s : State) : State := flushDl (s.apf u).dl s
/-- Comb section `u` flushed (R268). -/
def flushCmb (u : UnitId) (s : State) : State := flushDl (s.cmb u).dl s
/-- Reverberator `u` flushed (R273). -/
def flushRv (u : UnitId) (s : State) : State :=
  let r := s.rv u
  flushCmb r.cmb3 (flushCmb r.cmb2 (flushCmb r.cmb1 (flushCmb r.cmb0
    (flushApf r.apf2 (flushApf r.apf1 (flushApf r.apf0 s))))))
/-- Voice `u` flushed with its children (R316). -/
def flushKs (u : UnitId) (s : State) : State :=
  let r := s.ks u
  flushFo r.damp (flushFd r.delay (s.putUnit u (.ks { r with excite := 0 })))
/-- Voice allocator `u` flushed (R325): bindings, stamps and clock at 0, every voice flushed. -/
def flushVb (u : UnitId) (s : State) : State :=
  let r := s.vb u
  r.voices.foldl (fun t v => flushKs v.unit t)
    (s.putUnit u (.vb { voices := r.voices.map fun v => { v with note := 0, age := 0 }, now := 0 }))
/-- Drum machine `u` flushed with its lowpass (R292). -/
def flushDm (u : UnitId) (s : State) : State :=
  let r := s.dm u
  flushBq r.lp (s.putUnit u (.dm { r with
    stepIdx := 0, divCounter := 0, drums := r.drums.map fun d => { d with cursor := 0 }, phase := false,
    hold := c0 }))

/-- Delay line `u` given the length `n` (R211). -/
def setupDl (u : UnitId) (n : Nat) (s : State) : State :=
  let r := s.dl u
  s.putUnit u (.dl { r with n := n, extractFrom := (r.insertAt + r.buf.cap - n) % r.buf.cap, cfg := true })
/-- A length a fractional delay line of capacity `l` accepts (R219): not NaN, not below 1.0, not above `L`. -/
def fdAccepts (n : F32) (l : Nat) : Bool := !isNaN n && !flt n c1 && !flt (f32OfNat l) n
/-- Fractional delay line `u` given the length `n` (R219). -/
def setupFd (u : UnitId) (n : F32) (s : State) : State :=
  let r := s.fd u
  s.putUnit u (.fd { r with
    n := n, nint := BitVec.ofNat 16 (fceil n), w := fsub (f32OfNat (fceil n)) n,
    extractFrom := (r.insertAt + r.buf.cap - fceil n) % r.buf.cap, cfg := true })
/-- Allpass section `u` set up (R261). -/
def setupApf (u : UnitId) (n : Nat) (gb gf : F32) (s : State) : State :=
  (setupDl (s.apf u).dl n s).putUnit u (.apf { s.apf u with gb := gb, gf := gf, cfg := true })
/-- Comb section `u` set up (R265). -/
def setupCmb (u : UnitId) (n : Nat) (gb : F32) (s : State) : State :=
  (setupDl (s.cmb u).dl n s).putUnit u (.cmb { s.cmb u with gb := gb, cfg := true })
/-- The length `KS.TUNE` asks for (R311): `FS / freq - KS_TUNE_CONST`. -/
def tuneLength (s : State) (freq : F32) : F32 := fsub (fdiv (f32OfU32 s.fs) freq) s.params.ksTuneConst
/-- Voice `u` triggered (R312). -/
def triggerKs (u : UnitId) (s : State) : State :=
  s.putUnit u (.ks { s.ks u with excite := s.params.ksExciteLen, gain := s.params.ksSustainGain })

/-! ## Commands in sequence -/

/-- The state after a fault with this cause code and unit, the first one (R361). -/
def State.withFault (s : State) (cause : BitVec 4) (u : UnitId) : State :=
  { s with fault := true, cause := cause, funit := u }

/-- Commands executed one after the other until one faults; after a fault the response stream is `base`, since a
command that faults issues no response, even those of its earlier samples (R131, R368). -/
def runSteps (base : List Word) : List Instr → State → Host.Outcome State Fault Refusal
  | [], s => .next s
  | i :: is, s =>
    match exec i s with
    | .next t => if t.fault then .next { t with respOut := base } else runSteps base is t
    | .fault f => .fault f
    | .refused r => .refused r

/-- The engine acts in this step: its turn is the next of the schedule, or the schedule is empty (the model's choice,
log entry 11); `ts` is what is left of it (R371). -/
def State.engineTurn (s : State) (ts : List Turn) : Prop := (s.turns = [] ∧ ts = []) ∨ s.turns = .engine :: ts

/-! ## Reset values (R391), for the registers the spec gives one -/

/-- Every register the spec gives a reset value holds it. -/
def UnitRec.isReset (p : Params) : UnitRec → Prop
  | .bq r => r.s0 = 0 ∧ r.s1 = 0 ∧ r.cfg = false
  | .fo r => r.s0 = 0 ∧ r.cfg = false
  | .fir r => (∀ i, r.h.get i = 0) ∧ r.pos = 0 ∧ r.cfg = false
  | .dl r => (∀ i, r.buf.get i = 0) ∧ r.insertAt = 0 ∧ r.extractFrom = 0 ∧ r.cfg = false
  | .fd r => (∀ i, r.buf.get i = 0) ∧ r.insertAt = 0 ∧ r.extractFrom = 0 ∧ r.cfg = false
  | .ws r => r.cfg = false
  | .ts r => r.bias = 0 ∧ r.cfg = false
  | .pa _ => True
  | .apf r => r.cfg = false
  | .cmb r => r.cfg = false
  | .rv r => r.cfg = false
  | .ks r => r.gain = 0 ∧ r.excite = 0
  | .vb r => (∀ v ∈ r.voices, v.note = 0 ∧ v.age = 0) ∧ r.now = 0
  | .dm r =>
    r.bpm = p.dmDefaultBpm ∧ r.pattern = p.dmDefaultPattern ∧ r.stepIdx = 0 ∧ r.divCounter = 0 ∧
      (∀ d ∈ r.drums, d.cursor = 0) ∧ r.phase = false ∧ r.hold = 0 ∧ r.cfg = false

/-- Every register of the block that the spec gives a reset value holds it. -/
def State.isReset (s : State) : Prop :=
  s.fsSet = false ∧ s.fault = false ∧ s.cause = 0 ∧ s.funit = 0 ∧ s.prng = 1 ∧ s.mbox = [] ∧
    ∀ u r, s.unit? u = some r → UnitRec.isReset s.params r

/-! ## Overflow (R9) -/

/-- The least magnitude that rounds to an infinity, 2^128 - 2^103, in units of 2^-149: half a step above the largest
finite f32, where the tie goes to the even neighbour. -/
def overflowAt : Nat := 33554431 * 2 ^ 252

/-! ## What a command addresses -/

/-- A command word that fails check (1), check (2) for class SYS, or check (3) of R109. -/
def encodingFault (cw : Word) : Bool :=
  match opRow (opField cw) with
  | none => true
  | some row =>
    (decide ((opField cw).toNat < 16) && decide (unitField cw ≠ 0)) ||
    (match row.format with
      | .z | .w _ | .c => decide (immField cw ≠ 0)
      | .i | .iw _ | .s | .g | .t => false) ||
    (decide (opField cw = 0xD4 ∨ opField cw = 0xD5) && ((immField cw).getLsbD 7 || (immField cw).getLsbD 15))

end Sys2Proof.Machine

namespace Sys2Proof

open Sys2Proof.Machine in
/-- The unit a command addresses, with the class its `op8` names (R106, R109 check 2); `none` for class SYS. -/
def Instr.target : Instr → Option (UnitId × UnitClass)
  | .sysNop | .sysSetfs _ | .sysRdfs | .sysDrain | .sysRaw _ | .sysRdstat | .sysSeed _ | .sysRand | .sysRandf => none
  | .bqStep u _ | .bqProc u _ | .bqFlush u | .bqLdc u _ _ _ _ _ | .bqLp u _ _ | .bqHp u _ _ | .bqBp u _ _
  | .bqBs u _ _ | .bqAp u _ _ | .bqPk u _ _ _ | .bqLs u _ _ _ | .bqHs u _ _ _ | .bqRdc u => some (u, .bq)
  | .foStep u _ | .foProc u _ | .foFlush u | .foLdc u _ _ _ | .foLp u _ | .foHp u _ | .foRdc u => some (u, .fo)
  | .firStep u _ | .firProc u _ | .firFlush u | .firLdc u _ => some (u, .fir)
  | .dlStep u _ | .dlProc u _ | .dlFlush u | .dlSetup u _ | .dlPeek u => some (u, .dl)
  | .fdStep u _ | .fdProc u _ | .fdFlush u | .fdSetup u _ | .fdPeek u => some (u, .fd)
  | .wsStep u _ | .wsProc u _ | .wsFlush u | .wsSetup u _ _ _ => some (u, .ws)
  | .tsStep u _ | .tsProc u _ | .tsFlush u | .tsSetup u _ _ _ _ | .tsGain u _ | .tsRdgain u => some (u, .ts)
  | .paStep u _ | .paProc u _ | .paFlush u => some (u, .pa)
  | .apfStep u _ | .apfProc u _ | .apfFlush u | .apfSetup u _ _ _ => some (u, .apf)
  | .cmbStep u _ | .cmbProc u _ | .cmbFlush u | .cmbSetup u _ _ => some (u, .cmb)
  | .rvStep u _ | .rvProc u _ | .rvFlush u | .rvSetup u => some (u, .rv)
  | .ksStep u | .ksProc u _ | .ksFlush u | .ksTune u _ | .ksTrig u | .ksMute u => some (u, .ks)
  | .vbStep u | .vbProc u _ | .vbFlush u | .vbNoteon u _ _ | .vbNoteoff u _ _ => some (u, .vb)
  | .dmStep u | .dmProc u _ | .dmFlush u | .dmSetup u | .dmCfg u _ _ | .dmRdcfg u => some (u, .dm)

/-- A command that may draw from the generator: `SYS.RAND`, `SYS.RANDF` and the samples of KS, VB and DM (R146, R405),
or that seeds it (R147). -/
def Instr.usesPrng : Instr → Bool
  | .sysSeed _ | .sysRand | .sysRandf | .ksStep _ | .ksProc _ _ | .vbStep _ | .vbProc _ _ | .dmStep _
  | .dmProc _ _ => true
  | .sysNop | .sysSetfs _ | .sysRdfs | .sysDrain | .sysRaw _ | .sysRdstat
  | .bqStep _ _ | .bqProc _ _ | .bqFlush _ | .bqLdc _ _ _ _ _ _ | .bqLp _ _ _ | .bqHp _ _ _ | .bqBp _ _ _
  | .bqBs _ _ _ | .bqAp _ _ _ | .bqPk _ _ _ _ | .bqLs _ _ _ _ | .bqHs _ _ _ _ | .bqRdc _
  | .foStep _ _ | .foProc _ _ | .foFlush _ | .foLdc _ _ _ _ | .foLp _ _ | .foHp _ _ | .foRdc _
  | .firStep _ _ | .firProc _ _ | .firFlush _ | .firLdc _ _
  | .dlStep _ _ | .dlProc _ _ | .dlFlush _ | .dlSetup _ _ | .dlPeek _
  | .fdStep _ _ | .fdProc _ _ | .fdFlush _ | .fdSetup _ _ | .fdPeek _
  | .wsStep _ _ | .wsProc _ _ | .wsFlush _ | .wsSetup _ _ _ _
  | .tsStep _ _ | .tsProc _ _ | .tsFlush _ | .tsSetup _ _ _ _ _ | .tsGain _ _ | .tsRdgain _
  | .paStep _ _ | .paProc _ _ | .paFlush _
  | .apfStep _ _ | .apfProc _ _ | .apfFlush _ | .apfSetup _ _ _ _
  | .cmbStep _ _ | .cmbProc _ _ | .cmbFlush _ | .cmbSetup _ _ _
  | .rvStep _ _ | .rvProc _ _ | .rvFlush _ | .rvSetup _
  | .ksFlush _ | .ksTune _ _ | .ksTrig _ | .ksMute _
  | .vbFlush _ | .vbNoteon _ _ _ | .vbNoteoff _ _ _
  | .dmFlush _ | .dmSetup _ | .dmCfg _ _ _ | .dmRdcfg _ => false

end Sys2Proof
end

