-- ==== Sys2Proof/Certificates/Slice0/Obligations.lean ====
section
/-! DEFINITION. What is claimed of the model. A statement about an operation gives its words (R101, R102), the faults of
its rule and, as an equality, the whole next state: what the equality does not mention is unchanged. `State.putUnit`
changes one unit's record, `State.respond` appends response words, `State.withFault` sets the fault registers; statement
`StorageLaws` says so. Memory is a list of elements per unit: the index written is the one the record update names. -/

section

open Sys2Proof Sys2Proof.Machine

/-! ## Encoding and stepping -/

/-- Every well-formed command survives the port: its words decode to it, whatever follows them (R100 to R108). -/
def Obligations.EncodeThenDecode : Prop :=
  ∀ (orders : UnitId → Nat) (i : Instr) (rest : List Word), i.wf orders = true →
    decode orders (encode i ++ rest) = .ok (i, rest)

/-- Every word sequence has one meaning: what decodes is well formed and was encoded with exactly those words. -/
def Obligations.DecodeThenEncode : Prop :=
  ∀ (orders : UnitId → Nat) (ws : List Word) (i : Instr) (rest : List Word), decode orders ws = .ok (i, rest) →
    i.wf orders = true ∧ ws = encode i ++ rest

/-- The words the spec writes out decode to the commands it writes them for (examples of the rules of every class). -/
def Obligations.WrittenWordsDecode : Prop :=
  (∀ o, decode o [0x01000000, 0x0000BB80] = .ok (.sysSetfs 48000, [])) ∧
  (∀ o, decode o [0x04001234] = .ok (.sysRaw 0x1234, [])) ∧
  (∀ o, decode o [0x13010000, 0x3F000000, 0x3E800000, 0x3E000000, 0xBF000000, 0x3E800000] =
    .ok (.bqLdc 1 0x3F000000 0x3E800000 0x3E000000 0xBF000000 0x3E800000, [])) ∧
  (∀ o, decode o [0x23020000, 0x3F000000, 0x3F000000, 0xBE800000] =
    .ok (.foLdc 2 0x3F000000 0x3F000000 0xBE800000, [])) ∧
  (∀ o : UnitId → Nat, o 3 = 4 → decode o [0x33030000, 0x3F800000, 0x40000000, 0x40400000, 0x40800000] =
    .ok (.firLdc 3 [0x3F800000, 0x40000000, 0x40400000, 0x40800000], [])) ∧
  (∀ o, decode o [0x43040003] = .ok (.dlSetup 4 3, [])) ∧
  (∀ o, decode o [0x53050000, 0x40100000] = .ok (.fdSetup 5 0x40100000, [])) ∧
  (∀ o, decode o [0x63060002, 0xBF800000, 0x3F800000, 0xBF800000, 0x3F800000] =
    .ok (.wsSetup 6 0xBF800000 0x3F800000 [0xBF800000, 0x3F800000], [])) ∧
  (∀ o, decode o [0x73070000, 0x40000000, 0x41200000, 0x3F800000, 0x40800000] =
    .ok (.tsSetup 7 0x40000000 0x41200000 0x3F800000 0x40800000, [])) ∧
  (∀ o, decode o [0x74070000, 0x40800000] = .ok (.tsGain 7 0x40800000, [])) ∧
  (∀ o, decode o [0x93370003, 0x3F000000, 0xBF000000] = .ok (.apfSetup 55 3 0x3F000000 0xBF000000, [])) ∧
  (∀ o, decode o [0xA3390002, 0x3F000000] = .ok (.cmbSetup 57 2 0x3F000000, [])) ∧
  (∀ o, decode o [0xB31C0000] = .ok (.rvSetup 28, [])) ∧
  (∀ o, decode o [0xC42B0000, 0x42C80000] = .ok (.ksTune 43 0x42C80000, [])) ∧
  (∀ o, decode o [0xC12B0004] = .ok (.ksProc 43 4, [])) ∧
  (∀ o, decode o [0xD42E643C] = .ok (.vbNoteon 46 60 100, [])) ∧
  (∀ o, decode o [0xD52E003E] = .ok (.vbNoteoff 46 62 0, [])) ∧
  (∀ o, decode o [0xE4350001, 0x0000005A] = .ok (.dmCfg 53 1 90, []))

/-- A step of the engine is `exec` of the command at the front of the command port, its words consumed (R79, R104, R371).
The second clause is the model's choice: with no whole command there the engine waits and only the schedule moves (log
entry 12). So is the engine acting where the schedule is empty (`State.engineTurn`, log entry 11). -/
def Obligations.StepRunsDecoded : Prop :=
  (∀ (s : State) (ts : List Turn) (i : Instr) (rest : List Word), s.engineTurn ts → i.wf s.firOrder = true →
    s.cmdIn = encode i ++ rest → step s = exec i { s with turns := ts, cmdIn := rest }) ∧
  (∀ (s : State) (ts : List Turn), s.engineTurn ts →
    (s.cmdIn = [] ∨ ∃ cw rest, s.cmdIn = cw :: rest ∧ rest.length < operandCount s.firOrder cw) →
    step s = .next { s with turns := ts })

/-- Reserved codes and nonzero fields that must be zero (R109 checks 1 to 3, R110): the command is consumed by its
length and `ILLEGAL_CMD` names its unit field; nothing else changes. A command word that passes these checks decodes.
The codes in use are those of the opcode map (R108). -/
def Obligations.ReservedEncodingsFault : Prop :=
  (∀ op : BitVec 8, (opRow op).isSome = true ↔ op.toNat ∈
    List.range 9 ++ (List.range 13).map (0x10 + ·) ++ [0x20, 0x21, 0x22, 0x23, 0x24, 0x25, 0x2C] ++
    (List.range 4).map (0x30 + ·) ++ (List.range 5).map (0x40 + ·) ++ (List.range 5).map (0x50 + ·) ++
    (List.range 4).map (0x60 + ·) ++ (List.range 6).map (0x70 + ·) ++ (List.range 3).map (0x80 + ·) ++
    (List.range 4).map (0x90 + ·) ++ (List.range 4).map (0xA0 + ·) ++ (List.range 4).map (0xB0 + ·) ++
    [0xC0, 0xC1, 0xC2, 0xC4, 0xC5, 0xC6, 0xD0, 0xD1, 0xD2, 0xD4, 0xD5] ++ (List.range 6).map (0xE0 + ·)) ∧
  (∀ (s : State) (ts : List Turn) (cw : Word) (rest : List Word), s.engineTurn ts → s.fault = false →
    s.cmdIn = cw :: rest → operandCount s.firOrder cw ≤ rest.length →
    (encodingFault cw = true →
      step s = .next (State.withFault
        { s with turns := ts, cmdIn := rest.drop (operandCount s.firOrder cw) } 1 (unitField cw))) ∧
    (encodingFault cw = false →
      ∃ i, decode s.firOrder s.cmdIn = .ok (i, rest.drop (operandCount s.firOrder cw))))

/-- A command whose unit id the instance table leaves empty or gives another class raises `ILLEGAL_CMD` naming the id
and changes nothing else (R109 check 2), for every command of a unit class. -/
def Obligations.WrongClassFaults : Prop :=
  ∀ (i : Instr) (s : State) (u : UnitId) (c : UnitClass), i.target = some (u, c) → s.fault = false →
    s.classOf u ≠ some c → exec i s = .next (s.withFault 1 u)

/-! ## Faults -/

/-- Fault entry (R368): a faulting command responds nothing; afterwards every command but `SYS.RDSTAT`, legal or not, is
consumed by its length and ignored, `SYS.RDSTAT` responds, and every post is answered "dropped". How many words a post
takes off the control port, in the last clause, is the model's choice (log entry 13). -/
def Obligations.FaultStopsTheBlock : Prop :=
  (∀ (i : Instr) (s t : State), s.fault = false → exec i s = .next t → t.fault = true → t.respOut = s.respOut) ∧
  (∀ (i : Instr) (s : State), s.fault = true → i ≠ .sysRdstat → exec i s = .next s) ∧
  (∀ s : State, s.fault = true → exec .sysRdstat s = .next (s.respond [statusWord s])) ∧
  (∀ (s : State) (ts : List Turn) (cw : Word) (rest : List Word), s.engineTurn ts → s.fault = true →
    s.cmdIn = cw :: rest → operandCount s.firOrder cw ≤ rest.length → cw ≠ 0x05000000 →
    step s = .next { s with turns := ts, cmdIn := rest.drop (operandCount s.firOrder cw) }) ∧
  (∀ (s : State) (ts : List Turn) (cw : Word) (rest : List Word), s.turns = .producer :: ts → s.fault = true →
    s.ctlIn = cw :: rest → operandCount s.firOrder cw ≤ rest.length →
    step s = .next { s with
        turns := ts, ctlIn := rest.drop (operandCount s.firOrder cw),
        ctlOut := s.ctlOut ++ [.dropped] })

/-- No return from a fault (R369): no step but the reset event changes the fault registers once a fault is recorded, nor
any unit, `FS`, the generator or the channel; the reset event clears it, and everything else too. -/
def Obligations.OnlyResetClearsFault : Prop :=
  (∀ (s t : State), s.fault = true → (∀ ts, s.turns ≠ .reset :: ts) → step s = .next t →
    t.fault = true ∧ t.cause = s.cause ∧ t.funit = s.funit ∧ t.units = s.units ∧ t.fs = s.fs ∧ t.fsSet = s.fsSet ∧
      t.prng = s.prng ∧ t.mbox = s.mbox) ∧
  (∀ (s : State) (ts : List Turn), s.fault = true → s.turns = .reset :: ts →
    ∃ t, step s = .next t ∧ t.fault = false ∧ t.isReset)

/-! ## Reset and invariants -/

/-- The reset event, from any state, gives every register the reset value the spec gives it, and keeps the parameters
and the instance table (R390, R391); the machine's first state has those values too. -/
def Obligations.ResetValues : Prop :=
  State.reset.isReset ∧
  ∀ (s : State) (ts : List Turn), s.turns = .reset :: ts →
    ∃ t, step s = .next t ∧ t.isReset ∧ t.params = s.params ∧ t.inst = s.inst

/-- The block meets its invariant after reset. The reference configuration is the model's choice (log entry 3). -/
def Obligations.ResetMeetsInvariant : Prop := State.reset.Inv

/-- Every step keeps the invariant: canonical memories, cursors in their rings, `extract_from` `n` slots behind
`insert_at`, tables with two points and a real domain, stamps of `AGE_W` bits, sequencer indices inside their patterns,
the generator in its range, fault registers that agree, a bounded channel (R24 to R39, R76). -/
def Obligations.StepKeepsInvariant : Prop :=
  ∀ (s t : State), s.Inv → step s = .next t → t.Inv

/-- From every state that meets the invariant the machine takes a step, but for a NaN at a waveshaper, which a model
must refuse (R232, U6): no access leaves a memory (R76) and no command is without a meaning. -/
def Obligations.StepOnlyRefusesNaN : Prop :=
  ∀ s : State, s.Inv → (∃ t, step s = .next t) ∨ ∃ u, step s = .refused (.waveshaperNaN u)

/-- The parameters, the instance table and with it every memory's size never change (R22, R42, R83). -/
def Obligations.ConfigurationFixed : Prop :=
  ∀ (s t : State), step s = .next t → t.params = s.params ∧ t.inst = s.inst

/-- The frame of every command: ports and schedule are untouched but for responses appended; only `SYS.DRAIN` changes
the channel (R80), only `SYS.SETFS` changes `FS` (R24), only the commands that draw or seed change `PRNG` (R146). -/
def Obligations.CommandFrame : Prop :=
  ∀ (i : Instr) (s t : State), exec i s = .next t →
    t.params = s.params ∧ t.cmdIn = s.cmdIn ∧ t.ctlIn = s.ctlIn ∧ t.ctlOut = s.ctlOut ∧ t.turns = s.turns ∧
    (∃ ws, t.respOut = s.respOut ++ ws) ∧
    (i ≠ .sysDrain → t.mbox = s.mbox) ∧
    ((∀ fs, i ≠ .sysSetfs fs) → t.fs = s.fs ∧ t.fsSet = s.fsSet) ∧
    (i.usesPrng = false → t.prng = s.prng)

/-- A command reaches only the unit it names, that unit's children and theirs: every other unit is unchanged; a command
of class SYS other than `SYS.DRAIN` changes no unit (R70, R79). -/
def Obligations.CommandReach : Prop :=
  (∀ (i : Instr) (s t : State) (u : UnitId) (c : UnitClass), i.target = some (u, c) → exec i s = .next t →
    ∀ v, v ∉ s.family u → t.unit? v = s.unit? v) ∧
  (∀ (i : Instr) (s t : State), i.target = none → i ≠ .sysDrain → exec i s = .next t → t.units = s.units)

/-- A unit record replaced changes no other unit and nothing else; an element of a canonical memory written changes no
other element, keeps the size and the canonical form (R73, R79). -/
def Obligations.StorageLaws : Prop :=
  (∀ (s : State) (u : UnitId) (r r' : UnitRec), s.unit? u = some r →
    (s.putUnit u r').unit? u = some r' ∧ (∀ v, v ≠ u → (s.putUnit u r').unit? v = s.unit? v) ∧
    s.putUnit u r' = { s with units := (s.putUnit u r').units }) ∧
  (∀ (m : Memory) (i : Nat) (v : F32), m.wf = true → i < m.cap →
    (m.set i v).wf = true ∧ (m.set i v).cap = m.cap ∧ (m.set i v).get i = v ∧
    (∀ j, j ≠ i → (m.set i v).get j = m.get j) ∧ m.write? i v = some (m.set i v) ∧ m.read? i = some (m.get i)) ∧
  (∀ (m : Memory) (i : Nat) (v : F32), m.cap ≤ i → m.write? i v = none ∧ m.read? i = none)

/-! ## The control port and the channel -/

/-- A post (R372): dropped after a fault; `ILLEGAL_CMD` and dropped for a command that is not mailable; dropped with no
other effect when the channel is full; else appended. That a message is a stretch of the control stream, and how many words every clause takes off it, is the
model's choice (log entry 13). -/
def Obligations.PostRule : Prop :=
  ∀ (s : State) (ts : List Turn) (cw : Word) (rest : List Word), s.turns = .producer :: ts → s.ctlIn = cw :: rest →
    operandCount s.firOrder cw ≤ rest.length →
    (s.fault = true → step s = .next { s with
        turns := ts, ctlIn := rest.drop (operandCount s.firOrder cw),
        ctlOut := s.ctlOut ++ [.dropped] }) ∧
    (s.fault = false → mailable cw = false →
      step s = .next { s with
        turns := ts, ctlIn := rest.drop (operandCount s.firOrder cw),
        ctlOut := s.ctlOut ++ [.dropped], fault := true, cause := 1, funit := unitField cw }) ∧
    (s.fault = false → mailable cw = true → s.params.mboxDepth ≤ s.mbox.length →
      step s = .next { s with
        turns := ts, ctlIn := rest.drop (operandCount s.firOrder cw),
        ctlOut := s.ctlOut ++ [.dropped] }) ∧
    (s.fault = false → mailable cw = true → s.mbox.length < s.params.mboxDepth →
      step s = .next { s with
        turns := ts, ctlIn := rest.drop (operandCount s.firOrder cw),
        ctlOut := s.ctlOut ++ [.accepted],
        mbox := s.mbox ++ [⟨cw, rest.take (operandCount s.firOrder cw)⟩] })

/-- The control side never touches unit state (R370): a producer's step changes neither a unit, `FS`, the generator, the
command port nor a response, and takes no message out of the channel. It always completes, also where the stream holds no
whole message (log entry 13). -/
def Obligations.ProducerIsolated : Prop :=
  ∀ (s : State) (ts : List Turn), s.turns = .producer :: ts →
    ∃ t, step s = .next t ∧ t.units = s.units ∧ t.params = s.params ∧ t.fs = s.fs ∧ t.fsSet = s.fsSet ∧
      t.prng = s.prng ∧ t.cmdIn = s.cmdIn ∧ t.respOut = s.respOut ∧ t.turns = ts ∧
      (t.mbox = s.mbox ∨ ∃ m, t.mbox = s.mbox ++ [m])

/-- `SYS.DRAIN` (R143): with an empty channel nothing happens; otherwise the oldest message is removed and executed as
the command it is, and the drain goes on; a message that fails a check or faults ends it with the messages behind it
kept. A message's response words, of which mailable commands have none, do not appear. -/
def Obligations.DrainExecutesOldestFirst : Prop :=
  (∀ s : State, encode .sysDrain = [0x03000000] ∧
    (s.fault = false → s.mbox = [] → exec .sysDrain s = .next s)) ∧
  (∀ (s t : State) (m : Message) (ms : List Message) (i : Instr), s.fault = false → s.mbox = m :: ms →
    m.wf = true → decodeCommand m.cw m.operands = .ok i → exec i { s with mbox := ms } = .next t →
    t.respOut = s.respOut ∧ t.mbox = ms ∧
    exec .sysDrain s = if t.fault then .next t else exec .sysDrain t) ∧
  (∀ (s : State) (m : Message) (ms : List Message) (e : DecodeError), s.fault = false → s.mbox = m :: ms →
    m.wf = true → decodeCommand m.cw m.operands = .error e →
    exec .sysDrain s = .next (State.withFault { s with mbox := ms } 1 (unitField m.cw)))

/-- `SYS.DRAIN` always completes, and unless a message faulted the channel is empty afterwards (R143, R81). -/
def Obligations.DrainCompletes : Prop :=
  ∀ s : State, s.Inv → s.fault = false →
    ∃ t, exec .sysDrain s = .next t ∧ t.respOut = s.respOut ∧ (t.fault = false → t.mbox = [])

/-! ## Class SYS -/

/-- `SYS.NOP` and `SYS.RAW` change nothing; with a nonzero unit, and for `SYS.NOP` a nonzero immediate, the word fails its
checks (R140, R144; what that does is `ReservedEncodingsFault`). -/
def Obligations.NopAndRawDoNothing : Prop :=
  encode .sysNop = [0x00000000] ∧ (∀ imm : BitVec 16, encode (.sysRaw imm) = [0x04#8 ++ 0#8 ++ imm]) ∧
  mailable 0x04001234 = true ∧ (∀ cw : Word, opField cw = 0x00 → cw ≠ 0x00000000 → encodingFault cw = true) ∧
  (∀ cw : Word, opField cw = 0x04 → unitField cw ≠ 0 → encodingFault cw = true) ∧
  ∀ (s : State) (imm : BitVec 16), exec .sysNop s = .next s ∧ exec (.sysRaw imm) s = .next s

/-- `SYS.SETFS` and `SYS.RDFS` (R141, R142): the frequency is written once and never with 0, and read back once
written. -/
def Obligations.SamplingFrequency : Prop :=
  (∀ fs : Word, encode (.sysSetfs fs) = [0x01000000, fs]) ∧ encode .sysRdfs = [0x02000000] ∧
  ∀ (s : State) (fs : Word), s.fault = false →
    (s.fsSet = true ∨ fs = 0 → exec (.sysSetfs fs) s = .next (s.withFault 7 0)) ∧
    (s.fsSet = false → fs ≠ 0 → exec (.sysSetfs fs) s = .next { s with fs := fs, fsSet := true }) ∧
    (s.fsSet = false → exec .sysRdfs s = .next (s.withFault 2 0)) ∧
    (s.fsSet = true → exec .sysRdfs s = .next (s.respond [s.fs]))

/-- `SYS.RDSTAT` (R145): occupancy of the channel, `FUNIT`, `CAUSE`, three zeros, `FAULT`, after a fault as before. -/
def Obligations.StatusWord : Prop :=
  encode .sysRdstat = [0x05000000] ∧
  ∀ s : State, exec .sysRdstat s =
    .next (s.respond [BitVec.ofNat 16 s.mbox.length ++ s.funit ++ s.cause ++ 0#3 ++ BitVec.ofBool s.fault])

/-- `SYS.SEED`, `SYS.RAND` and `SYS.RANDF` (R146 to R149): the recurrence modulo 2^31 - 1, the range of a seed, and the
float mapping, whose default divides by 2^30 and subtracts 1.0. -/
def Obligations.Generator : Prop :=
  (∀ seed : Word, encode (.sysSeed seed) = [0x06000000, seed]) ∧ encode .sysRand = [0x07000000] ∧
  encode .sysRandf = [0x08000000] ∧
  ∀ s : State, s.fault = false →
    (∀ seed : Word, (seed = 0 ∨ 2147483647 ≤ seed.toNat) → exec (.sysSeed seed) s = .next (s.withFault 9 0)) ∧
    (∀ seed : Word, seed ≠ 0 → seed.toNat < 2147483647 →
      exec (.sysSeed seed) s = .next { s with prng := BitVec.ofNat 31 seed.toNat }) ∧
    ∃ p : BitVec 31, p.toNat = 16807 * s.prng.toNat % 2147483647 ∧
      exec .sysRand s = .next (State.respond { s with prng := p } [BitVec.ofNat 32 p.toNat]) ∧
      exec .sysRandf s = .next (State.respond { s with prng := p } [prngToFloat s.params p]) ∧
      (s.params.prngMap = .standard →
        prngToFloat s.params p = fsub (fdiv (f32OfNat p.toNat) 0x4E800000) 0x3F800000)

/-- The generator never leaves 1 to 2^31 - 2, and from 1 it gives the sequence the source fixes (R146). -/
def Obligations.GeneratorRange : Prop :=
  (∀ (s t : State), 1 ≤ s.prng.toNat → s.prng.toNat ≤ 2147483646 → s.fault = false → exec .sysRand s = .next t →
    t.prng.toNat = 16807 * s.prng.toNat % 2147483647 ∧ 1 ≤ t.prng.toNat ∧ t.prng.toNat ≤ 2147483646) ∧
  (List.range 5).map (fun k => (prngAfter (k + 1) 1).toNat) =
    [16807, 282475249, 1622650073, 984943658, 1144108930]

/-! ## Class BQ -/

/-- `BQ.STEP` (R161). -/
def Obligations.BqStep : Prop :=
  ∀ (u : UnitId) (x : F32), encode (.bqStep u x) = [0x10#8 ++ u ++ 0#16, x] ∧
  ∀ (s : State) (b : Bq), s.fault = false → s.unit? u = some (.bq b) →
    (b.cfg = false → exec (.bqStep u x) s = .next (s.withFault 2 u)) ∧
    (b.cfg = true →
      let y := fadd (fmul b.coef.b0 x) b.s0
      exec (.bqStep u x) s = .next ((s.putUnit u (.bq { b with
        s0 := fadd (fsub (fmul b.coef.b1 x) (fmul b.coef.a1 y)) b.s1
        s1 := fsub (fmul b.coef.b2 x) (fmul b.coef.a2 y) })).respond [y]))

/-- `BQ.FLUSH`, `BQ.LDC` and `BQ.RDC` (R163, R164, R165): the state is zeroed alone; the record is replaced whole, with
`s` untouched; the record is read back. -/
def Obligations.BqRecord : Prop :=
  ∀ (u : UnitId) (c : BqCoef), encode (.bqFlush u) = [0x12#8 ++ u ++ 0#16] ∧
  encode (.bqLdc u c.b0 c.b1 c.b2 c.a1 c.a2) = [0x13#8 ++ u ++ 0#16, c.b0, c.b1, c.b2, c.a1, c.a2] ∧
  encode (.bqRdc u) = [0x1C#8 ++ u ++ 0#16] ∧ mailable (0x13#8 ++ u ++ 0#16) = true ∧
  ∀ (s : State) (b : Bq), s.fault = false → s.unit? u = some (.bq b) →
    exec (.bqFlush u) s = .next (s.putUnit u (.bq { b with s0 := 0, s1 := 0 })) ∧
    exec (.bqLdc u c.b0 c.b1 c.b2 c.a1 c.a2) s = .next (s.putUnit u (.bq { b with coef := c, cfg := true })) ∧
    (b.cfg = false → exec (.bqRdc u) s = .next (s.withFault 2 u)) ∧
    (b.cfg = true → exec (.bqRdc u) s =
      .next (s.respond [b.coef.b0, b.coef.b1, b.coef.b2, b.coef.a1, b.coef.a2]))

/-- The lowpass, highpass, bandpass, bandstop and allpass designs (R166 to R171). All five are mailable (R111). -/
def Obligations.BqDesigns : Prop :=
  ∀ (u : UnitId) (f q : F32) (s : State) (b : Bq), s.fault = false → s.unit? u = some (.bq b) →
    let w0 := fdiv (fmul 0x40C90FDB f) (f32OfU32 s.fs)
    let cs := Config.cos32 w0
    let alpha := fdiv (Config.sin32 w0) (fmul c2 q)
    let a0 := fadd c1 alpha
    let a1 := fmul cm2 cs
    let a2 := fsub c1 alpha
    let finish := fun b0 b1 b2 : F32 => s.putUnit u (.bq { b with
      coef := ⟨fdiv b0 a0, fdiv b1 a0, fdiv b2 a0, fdiv a1 a0, fdiv a2 a0⟩, cfg := true })
    let lp := fdiv (fsub c1 cs) c2
    let hp := fdiv (fadd c1 cs) c2
    [encode (.bqLp u f q), encode (.bqHp u f q), encode (.bqBp u f q), encode (.bqBs u f q), encode (.bqAp u f q)] =
      [[0x14#8 ++ u ++ 0#16, f, q], [0x15#8 ++ u ++ 0#16, f, q], [0x16#8 ++ u ++ 0#16, f, q],
        [0x17#8 ++ u ++ 0#16, f, q], [0x18#8 ++ u ++ 0#16, f, q]] ∧
    (∀ op ∈ [0x14#8, 0x15#8, 0x16#8, 0x17#8, 0x18#8], mailable (op ++ u ++ 0#16) = true) ∧
    (s.fsSet = true →
      exec (.bqLp u f q) s = .next (finish lp (fsub c1 cs) lp) ∧
      exec (.bqHp u f q) s = .next (finish hp (fsub c0 (fadd c1 cs)) hp) ∧
      exec (.bqBp u f q) s = .next (finish alpha c0 (fsub c0 alpha)) ∧
      exec (.bqBs u f q) s = .next (finish c1 (fmul cm2 cs) c1) ∧
      exec (.bqAp u f q) s = .next (finish (fsub c1 alpha) (fmul cm2 cs) (fadd c1 alpha))) ∧
    (s.fsSet = false → ∀ i ∈ [Instr.bqLp u f q, .bqHp u f q, .bqBp u f q, .bqBs u f q, .bqAp u f q],
      exec i s = .next (s.withFault 2 0))

/-- The peaking and shelving designs (R172, R173, R174), with `A` ten to the power `gain_dB / 40`. All three are mailable
(R111). -/
def Obligations.BqGainDesigns : Prop :=
  ∀ (u : UnitId) (f g q : F32) (s : State) (b : Bq), s.fault = false → s.unit? u = some (.bq b) →
    let w0 := fdiv (fmul 0x40C90FDB f) (f32OfU32 s.fs)
    let cs := Config.cos32 w0
    let alpha := fdiv (Config.sin32 w0) (fmul c2 q)
    let a := Config.exp10 (fdiv g c40)
    let ap1 := fadd a c1
    let am1 := fsub a c1
    let ap1c := fmul ap1 cs
    let am1c := fmul am1 cs
    let beta := fmul (fmul c2 (Config.sqrt32 a)) alpha
    let finish := fun b0 b1 b2 a0 a1 a2 : F32 => s.putUnit u (.bq { b with
      coef := ⟨fdiv b0 a0, fdiv b1 a0, fdiv b2 a0, fdiv a1 a0, fdiv a2 a0⟩, cfg := true })
    [encode (.bqPk u f g q), encode (.bqLs u f g q), encode (.bqHs u f g q)] =
      [[0x19#8 ++ u ++ 0#16, f, g, q], [0x1A#8 ++ u ++ 0#16, f, g, q], [0x1B#8 ++ u ++ 0#16, f, g, q]] ∧
    (∀ op ∈ [0x19#8, 0x1A#8, 0x1B#8], mailable (op ++ u ++ 0#16) = true) ∧
    (s.fsSet = true →
      exec (.bqPk u f g q) s = .next (finish
        (fadd c1 (fmul alpha a)) (fmul cm2 cs) (fsub c1 (fmul alpha a))
        (fadd c1 (fdiv alpha a)) (fmul cm2 cs) (fsub c1 (fdiv alpha a))) ∧
      exec (.bqLs u f g q) s = .next (finish
        (fmul a (fadd (fsub ap1 am1c) beta)) (fmul (fmul c2 a) (fsub am1 ap1c))
        (fmul a (fsub (fsub ap1 am1c) beta))
        (fadd (fadd ap1 am1c) beta) (fmul cm2 (fadd am1 ap1c)) (fsub (fadd ap1 am1c) beta)) ∧
      exec (.bqHs u f g q) s = .next (finish
        (fmul a (fadd (fadd ap1 am1c) beta)) (fmul (fmul cm2 a) (fadd am1 ap1c))
        (fmul a (fsub (fadd ap1 am1c) beta))
        (fadd (fsub ap1 am1c) beta) (fmul c2 (fsub am1 ap1c)) (fsub (fsub ap1 am1c) beta))) ∧
    (s.fsSet = false → ∀ i ∈ [Instr.bqPk u f g q, .bqLs u f g q, .bqHs u f g q],
      exec i s = .next (s.withFault 2 0))

/-! ## Classes FO and FIR -/

/-- `FO.STEP` (R191). -/
def Obligations.FoStep : Prop :=
  ∀ (u : UnitId) (x : F32), encode (.foStep u x) = [0x20#8 ++ u ++ 0#16, x] ∧
  ∀ (s : State) (r : Fo), s.fault = false → s.unit? u = some (.fo r) →
    (r.cfg = false → exec (.foStep u x) s = .next (s.withFault 2 u)) ∧
    (r.cfg = true →
      let y := fadd (fmul r.coef.b0 x) r.s0
      exec (.foStep u x) s = .next ((s.putUnit u (.fo { r with
        s0 := fsub (fmul r.coef.b1 x) (fmul r.coef.a1 y) })).respond [y]))

/-- `FO.FLUSH`, `FO.LDC`, `FO.RDC`, `FO.LP` and `FO.HP` (R193 to R197), with `K = tan(w/2)` and `alpha = 1 + K`. -/
def Obligations.FoRecord : Prop :=
  ∀ (u : UnitId) (c : FoCoef) (f : F32),
  [encode (.foFlush u), encode (.foLdc u c.b0 c.b1 c.a1), encode (.foRdc u), encode (.foLp u f),
      encode (.foHp u f)] =
    [[0x22#8 ++ u ++ 0#16], [0x23#8 ++ u ++ 0#16, c.b0, c.b1, c.a1], [0x2C#8 ++ u ++ 0#16],
      [0x24#8 ++ u ++ 0#16, f], [0x25#8 ++ u ++ 0#16, f]] ∧
  mailable (0x23#8 ++ u ++ 0#16) = true ∧ mailable (0x24#8 ++ u ++ 0#16) = true ∧
  mailable (0x25#8 ++ u ++ 0#16) = true ∧
  ∀ (s : State) (r : Fo), s.fault = false → s.unit? u = some (.fo r) →
    let k := Config.tan32 (fdiv (fdiv (fmul 0x40C90FDB f) (f32OfU32 s.fs)) c2)
    let alpha := fadd c1 k
    exec (.foFlush u) s = .next (s.putUnit u (.fo { r with s0 := 0 })) ∧
    exec (.foLdc u c.b0 c.b1 c.a1) s = .next (s.putUnit u (.fo { r with coef := c, cfg := true })) ∧
    (r.cfg = false → exec (.foRdc u) s = .next (s.withFault 2 u)) ∧
    (r.cfg = true → exec (.foRdc u) s = .next (s.respond [r.coef.b0, r.coef.b1, r.coef.a1])) ∧
    (s.fsSet = true →
      exec (.foLp u f) s = .next (s.putUnit u (.fo { r with
        coef := ⟨fdiv k alpha, fdiv k alpha, fdiv (fsub k c1) alpha⟩, cfg := true })) ∧
      exec (.foHp u f) s = .next (s.putUnit u (.fo { r with
        coef := ⟨fdiv c1 alpha, fsub c0 (fdiv c1 alpha), fdiv (fsub k c1) alpha⟩, cfg := true }))) ∧
    (s.fsSet = false → exec (.foLp u f) s = .next (s.withFault 2 0) ∧
      exec (.foHp u f) s = .next (s.withFault 2 0))

/-- `FIR.STEP`, `FIR.FLUSH` and `FIR.LDC` (R201, R203, R204): the sample is appended at `pos`, the `O` newest samples
meet the coefficients, newest first; the history alone is zeroed; the coefficients alone are replaced. -/
def Obligations.FirOperations : Prop :=
  ∀ (u : UnitId) (x : F32) (cs : List F32),
  [encode (.firStep u x), encode (.firFlush u), encode (.firLdc u cs)] =
    [[0x30#8 ++ u ++ 0#16, x], [0x32#8 ++ u ++ 0#16], (0x33#8 ++ u ++ 0#16) :: cs] ∧
  mailable (0x33#8 ++ u ++ 0#16) = false ∧
  ∀ (s : State) (r : Fir), s.Inv → s.fault = false → s.unit? u = some (.fir r) →
    (r.cfg = false → exec (.firStep u x) s = .next (s.withFault 2 u)) ∧
    (r.cfg = true → exec (.firStep u x) s =
      .next ((s.putUnit u (.fir { r with h := r.h.set r.pos x, pos := (r.pos + 1) % r.h.cap })).respond
        [convFrom r.c (r.h.set r.pos x) r.pos 1 (r.c.cap - 1) (fmul (r.c.get 0) x)])) ∧
    exec (.firFlush u) s = .next (s.putUnit u (.fir { r with h := Memory.empty r.h.cap })) ∧
    (cs.length = r.c.cap → ∃ c : Memory, c.cap = r.c.cap ∧ c.wf = true ∧ (∀ k v, cs[k]? = some v → c.get k = v) ∧
      exec (.firLdc u cs) s = .next (s.putUnit u (.fir { r with c := c, cfg := true })))

/-! ## Classes DL and FD -/

/-- `DL.SETUP` and `DL.FLUSH` (R211, R215). -/
def Obligations.DlSetupAndFlush : Prop :=
  ∀ (u : UnitId) (n : BitVec 16), encode (.dlSetup u n) = [0x43#8 ++ u ++ n] ∧
  encode (.dlFlush u) = [0x42#8 ++ u ++ 0#16] ∧
  ∀ (s : State) (r : Dl), s.fault = false → s.unit? u = some (.dl r) →
    (n = 0 ∨ r.buf.cap < n.toNat → exec (.dlSetup u n) s = .next (s.withFault 3 u)) ∧
    (n ≠ 0 → n.toNat ≤ r.buf.cap → exec (.dlSetup u n) s = .next (s.putUnit u (.dl { r with
      n := n.toNat, extractFrom := (r.insertAt + r.buf.cap - n.toNat) % r.buf.cap, cfg := true }))) ∧
    exec (.dlFlush u) s = .next (s.putUnit u (.dl { r with buf := Memory.empty r.buf.cap }))

/-- `DL.STEP` and `DL.PEEK` (R212, R213): the value at `extract_from` before the write is the response; the sample goes
to `insert_at`; both cursors advance modulo `L`; `PEEK` changes nothing. -/
def Obligations.DlStepAndPeek : Prop :=
  ∀ (u : UnitId) (x : F32), encode (.dlStep u x) = [0x40#8 ++ u ++ 0#16, x] ∧
  encode (.dlPeek u) = [0x44#8 ++ u ++ 0#16] ∧
  ∀ (s : State) (r : Dl), s.Inv → s.fault = false → s.unit? u = some (.dl r) →
    (r.cfg = false → exec (.dlStep u x) s = .next (s.withFault 2 u) ∧
      exec (.dlPeek u) s = .next (s.withFault 2 u)) ∧
    (r.cfg = true → exec (.dlStep u x) s = .next ((s.putUnit u (.dl { r with
        buf := r.buf.set r.insertAt x, insertAt := (r.insertAt + 1) % r.buf.cap,
        extractFrom := (r.extractFrom + 1) % r.buf.cap })).respond [r.buf.get r.extractFrom]) ∧
      exec (.dlPeek u) s = .next (s.respond [r.buf.get r.extractFrom]))

/-- Round trip (R216): a delay line of length `n` whose ring is zero gives `n` zeros and then the samples it was given,
bit for bit (the spec's inference from R212), whatever its capacity and wherever its cursors stand (R217, its inference
from R211 and R212). -/
def Obligations.DlRoundTrip : Prop :=
  ∀ (u : UnitId) (xs : List F32) (s : State) (r : Dl), s.Inv → s.fault = false → s.unit? u = some (.dl r) →
    r.cfg = true → (∀ i, r.buf.get i = 0) →
    ∃ t, exec (.dlProc u xs) s = .next t ∧
      t.respOut = s.respOut ++ (List.replicate r.n 0 ++ xs).take xs.length

/-- `FD.SETUP` and `FD.FLUSH` (R219, R223). -/
def Obligations.FdSetupAndFlush : Prop :=
  ∀ (u : UnitId) (n : F32), encode (.fdSetup u n) = [0x53#8 ++ u ++ 0#16, n] ∧
  encode (.fdFlush u) = [0x52#8 ++ u ++ 0#16] ∧
  ∀ (s : State) (r : Fd), s.Inv → s.fault = false → s.unit? u = some (.fd r) →
    (isNaN n = true ∨ flt n c1 = true ∨ flt (f32OfNat r.buf.cap) n = true →
      exec (.fdSetup u n) s = .next (s.withFault 3 u)) ∧
    (isNaN n = false → flt n c1 = false → flt (f32OfNat r.buf.cap) n = false →
      ∃ k : Nat, 1 ≤ k ∧ k ≤ r.buf.cap ∧ fval n ≤ (k * 2 ^ 149 : Nat) ∧ ((k - 1) * 2 ^ 149 : Nat) < fval n ∧
      exec (.fdSetup u n) s = .next (s.putUnit u (.fd { r with
        n := n, nint := BitVec.ofNat 16 k, w := fsub (f32OfNat k) n,
        extractFrom := (r.insertAt + r.buf.cap - k) % r.buf.cap, cfg := true }))) ∧
    exec (.fdFlush u) s = .next (s.putUnit u (.fd { r with buf := Memory.empty r.buf.cap }))

/-- `FD.STEP` and `FD.PEEK` (R220, R221): the blend of two taps read before the write. -/
def Obligations.FdStepAndPeek : Prop :=
  ∀ (u : UnitId) (x : F32), encode (.fdStep u x) = [0x50#8 ++ u ++ 0#16, x] ∧
  encode (.fdPeek u) = [0x54#8 ++ u ++ 0#16] ∧
  ∀ (s : State) (r : Fd), s.Inv → s.fault = false → s.unit? u = some (.fd r) →
    let y := fadd (fmul (r.buf.get r.extractFrom) (fsub c1 r.w))
      (fmul (r.buf.get ((r.extractFrom + 1) % r.buf.cap)) r.w)
    (r.cfg = false → exec (.fdStep u x) s = .next (s.withFault 2 u) ∧
      exec (.fdPeek u) s = .next (s.withFault 2 u)) ∧
    (r.cfg = true → exec (.fdStep u x) s = .next ((s.putUnit u (.fd { r with
        buf := r.buf.set r.insertAt x, insertAt := (r.insertAt + 1) % r.buf.cap,
        extractFrom := (r.extractFrom + 1) % r.buf.cap })).respond [y]) ∧
      exec (.fdPeek u) s = .next (s.respond [y]))

/-! ## Classes WS, TS and PA -/

/-- `WS.SETUP` (R231): the table check before the domain check; the table, its length and the domain written. -/
def Obligations.WsSetup : Prop :=
  ∀ (u : UnitId) (mn mx : F32) (tab : List F32),
  encode (.wsSetup u mn mx tab) = (0x63#8 ++ u ++ BitVec.ofNat 16 tab.length) :: mn :: mx :: tab ∧
  ∀ (s : State) (r : Ws), s.Inv → s.fault = false → s.unit? u = some (.ws r) →
    (tab.length < 2 ∨ r.tab.cap < tab.length → exec (.wsSetup u mn mx tab) s = .next (s.withFault 4 u)) ∧
    (2 ≤ tab.length → tab.length ≤ r.tab.cap → flt mn mx = false →
      exec (.wsSetup u mn mx tab) s = .next (s.withFault 5 u)) ∧
    (2 ≤ tab.length → tab.length ≤ r.tab.cap → flt mn mx = true →
      ∃ m : Memory, m.cap = r.tab.cap ∧ m.wf = true ∧ (∀ i v, tab[i]? = some v → m.get i = v) ∧
        (∀ i, tab.length ≤ i → m.get i = r.tab.get i) ∧
        exec (.wsSetup u mn mx tab) s = .next (s.putUnit u (.ws
          { tab := m, len := tab.length, min := mn, max := mx, cfg := true })))

/-- `WS.STEP` and `WS.FLUSH` (R232, R234): clamps, the guard at the top edge, interpolation; no state changes. A NaN is
refused (U6). The position is 0 where `max - min` is infinite, also where `x - min` is: the model's reading of R231 (log
entry 9). -/
def Obligations.WsStepAndFlush : Prop :=
  ∀ (u : UnitId) (x : F32), encode (.wsStep u x) = [0x60#8 ++ u ++ 0#16, x] ∧
  encode (.wsFlush u) = [0x62#8 ++ u ++ 0#16] ∧
  ∀ (s : State) (r : Ws), s.Inv → s.fault = false → s.unit? u = some (.ws r) →
    let p := if isInf (fsub r.max r.min) then c0 else fdiv (fsub x r.min) (fsub r.max r.min)
    let pos := fmul p (f32OfNat (r.len - 1))
    let i := ftrunc pos
    let fr := fsub pos (f32OfNat i)
    exec (.wsFlush u) s = .next s ∧
    (r.cfg = false → exec (.wsStep u x) s = .next (s.withFault 2 u)) ∧
    (r.cfg = true → isNaN x = true → exec (.wsStep u x) s = .refused (.waveshaperNaN u)) ∧
    (r.cfg = true → isNaN x = false → exec (.wsStep u x) s = .next (s.respond [
      if fle x r.min then r.tab.get 0
      else if fle r.max x then r.tab.get (r.len - 1)
      else if r.len - 1 ≤ i then r.tab.get (r.len - 1)
      else fadd (fmul (r.tab.get i) (fsub c1 fr)) (fmul (r.tab.get (i + 1)) fr)]))

/-- `TS.SETUP`, `TS.GAIN`, `TS.RDGAIN` and `TS.FLUSH` (R240, R243, R244, R245). -/
def Obligations.TsControl : Prop :=
  ∀ (u : UnitId) (g sv rk rp : F32),
  [encode (.tsSetup u g sv rk rp), encode (.tsGain u g), encode (.tsRdgain u), encode (.tsFlush u)] =
    [[0x73#8 ++ u ++ 0#16, g, sv, rk, rp], [0x74#8 ++ u ++ 0#16, g], [0x75#8 ++ u ++ 0#16],
      [0x72#8 ++ u ++ 0#16]] ∧ mailable (0x74#8 ++ u ++ 0#16) = true ∧
  ∀ (s : State) (r : Ts), s.Inv → s.fault = false → s.unit? u = some (.ts r) →
    exec (.tsSetup u g sv rk rp) s = .next (s.putUnit u (.ts { r with
      gain := g, supply := sv, rk := rk, rp := rp, cfg := true })) ∧
    (r.cfg = false → exec (.tsGain u g) s = .next (s.withFault 2 u) ∧
      exec (.tsRdgain u) s = .next (s.withFault 2 u)) ∧
    (r.cfg = true → exec (.tsGain u g) s = .next (s.putUnit u (.ts { r with gain := g })) ∧
      exec (.tsRdgain u) s = .next (s.respond [r.gain])) ∧
    exec (.tsFlush u) s = .next (flushFo r.dc (flushFo r.fb (flushBq r.inp
      (s.putUnit u (.ts { r with bias := 0 })))))

/-- `TS.STEP` (R241): gain, input filter, the bias of the sample before, curve; the feedback filter's output becomes the
next bias; the DC blocker gives the response. A unit that is not configured faults, in the order of the rule; a NaN at
the curve is refused (R232). The curve's value (`wsOut`) rests on log entry 9 where `max - min` is infinite. -/
def Obligations.TsStep : Prop :=
  ∀ (u : UnitId) (x : F32), encode (.tsStep u x) = [0x70#8 ++ u ++ 0#16, x] ∧
  ∀ (s : State) (r : Ts) (bi : Bq) (w : Ws) (fb dc : Fo), s.Inv → s.fault = false → s.unit? u = some (.ts r) →
    s.unit? r.inp = some (.bq bi) → s.unit? r.curve = some (.ws w) → s.unit? r.fb = some (.fo fb) →
    s.unit? r.dc = some (.fo dc) →
    let x1 := fmul x r.gain
    let x3 := fadd (bqOut bi x1) r.bias
    let x4 := wsOut w x3
    let feedback := fmul (fsub r.supply x4) (fdiv r.rk r.rp)
    (r.cfg = false → exec (.tsStep u x) s = .next (s.withFault 2 u)) ∧
    (r.cfg = true → bi.cfg = false → exec (.tsStep u x) s = .next (s.withFault 2 r.inp)) ∧
    (r.cfg = true → bi.cfg = true → w.cfg = false → ∃ t, exec (.tsStep u x) s = .next t ∧ t.fault = true ∧
      t.cause = 2 ∧ t.funit = r.curve) ∧
    (r.cfg = true → bi.cfg = true → w.cfg = true → isNaN x3 = true →
      exec (.tsStep u x) s = .refused (.waveshaperNaN r.curve)) ∧
    (r.cfg = true → bi.cfg = true → w.cfg = true → isNaN x3 = false → fb.cfg = false →
      ∃ t, exec (.tsStep u x) s = .next t ∧ t.fault = true ∧ t.cause = 2 ∧ t.funit = r.fb) ∧
    (r.cfg = true → bi.cfg = true → w.cfg = true → isNaN x3 = false → fb.cfg = true → dc.cfg = false →
      ∃ t, exec (.tsStep u x) s = .next t ∧ t.fault = true ∧ t.cause = 2 ∧ t.funit = r.dc) ∧
    (r.cfg = true → bi.cfg = true → w.cfg = true → isNaN x3 = false → fb.cfg = true → dc.cfg = true →
      exec (.tsStep u x) s = .next (((((s.putUnit r.inp (.bq (bqNext bi x1))).putUnit
        r.fb (.fo (foNext fb feedback))).putUnit u (.ts { r with bias := foOut fb feedback })).putUnit
        r.dc (.fo (foNext dc x4))).respond [foOut dc x4]))

/-- `PA.STEP` and `PA.FLUSH` (R250, R252): three stages in series. The first obstacle of the first stage that has one ends
it: `NOT_SETUP` names the unit, a NaN at a curve is refused. A stage that stops leaves what its own `TS.STEP` leaves from
the state the stages before it reached. The curve's value rests on log entry 9 as in `TsStep`. -/
def Obligations.PaStepAndFlush : Prop :=
  ∀ (u : UnitId) (x : F32), encode (.paStep u x) = [0x80#8 ++ u ++ 0#16, x] ∧
  encode (.paFlush u) = [0x82#8 ++ u ++ 0#16] ∧
  ∀ (s : State) (r : Pa), s.Inv → s.fault = false → s.unit? u = some (.pa r) →
    let a := evalTs r.stage0 x s
    let b := evalTs r.stage1 a.1 a.2
    let c := evalTs r.stage2 b.1 b.2
    (readyTs s r.stage0 = true → readyTs s r.stage1 = true → readyTs s r.stage2 = true →
      tsClean r.stage0 x s = true → tsClean r.stage1 a.1 a.2 = true → tsClean r.stage2 b.1 b.2 = true →
      exec (.paStep u x) s = .next (c.2.respond [c.1])) ∧
    (let stop := (tsObstacle r.stage0 x s).or ((tsObstacle r.stage1 a.1 a.2).or (tsObstacle r.stage2 b.1 b.2));
      (stop = none → exec (.paStep u x) s = .next (c.2.respond [c.1])) ∧
      (∀ v, stop = some (.notSetup v) → ∃ t, exec (.paStep u x) s = .next t ∧ t.fault = true ∧ t.cause = 2 ∧
        t.funit = v ∧ t.respOut = s.respOut) ∧
      (∀ v, stop = some (.nan v) → exec (.paStep u x) s = .refused (.waveshaperNaN v))) ∧
    (tsObstacle r.stage0 x s ≠ none → exec (.paStep u x) s = exec (.tsStep r.stage0 x) s) ∧
    (tsObstacle r.stage0 x s = none → tsObstacle r.stage1 a.1 a.2 ≠ none →
      exec (.paStep u x) s = exec (.tsStep r.stage1 a.1) a.2) ∧
    (tsObstacle r.stage0 x s = none → tsObstacle r.stage1 a.1 a.2 = none →
      exec (.paStep u x) s = exec (.tsStep r.stage2 b.1) b.2) ∧
    exec (.paFlush u) s = .next (flushTs r.stage2 (flushTs r.stage1 (flushTs r.stage0 s)))

/-! ## Classes APF, CMB and RV -/

/-- `APF.SETUP`, `CMB.SETUP`, `APF.FLUSH` and `CMB.FLUSH` (R261, R264, R265, R268): the delay line is set up first, and
if it refuses the length nothing of the section is written. -/
def Obligations.SectionSetupAndFlush : Prop :=
  ∀ (u : UnitId) (n : BitVec 16) (gb gf : F32),
  [encode (.apfSetup u n gb gf), encode (.cmbSetup u n gb), encode (.apfFlush u), encode (.cmbFlush u)] =
    [[0x93#8 ++ u ++ n, gb, gf], [0xA3#8 ++ u ++ n, gb], [0x92#8 ++ u ++ 0#16], [0xA2#8 ++ u ++ 0#16]] ∧
  (∀ (s : State) (r : Apf) (d : Dl), s.fault = false → s.unit? u = some (.apf r) → s.unit? r.dl = some (.dl d) →
    (n = 0 ∨ d.buf.cap < n.toNat → exec (.apfSetup u n gb gf) s = .next (s.withFault 3 r.dl)) ∧
    (n ≠ 0 → n.toNat ≤ d.buf.cap → exec (.apfSetup u n gb gf) s =
      .next ((s.putUnit r.dl (.dl { d with
          n := n.toNat, extractFrom := (d.insertAt + d.buf.cap - n.toNat) % d.buf.cap, cfg := true })).putUnit
        u (.apf { r with gb := gb, gf := gf, cfg := true }))) ∧
    exec (.apfFlush u) s = .next (s.putUnit r.dl (.dl { d with buf := Memory.empty d.buf.cap }))) ∧
  (∀ (s : State) (r : Cmb) (d : Dl), s.fault = false → s.unit? u = some (.cmb r) → s.unit? r.dl = some (.dl d) →
    (n = 0 ∨ d.buf.cap < n.toNat → exec (.cmbSetup u n gb) s = .next (s.withFault 3 r.dl)) ∧
    (n ≠ 0 → n.toNat ≤ d.buf.cap → exec (.cmbSetup u n gb) s =
      .next ((s.putUnit r.dl (.dl { d with
          n := n.toNat, extractFrom := (d.insertAt + d.buf.cap - n.toNat) % d.buf.cap, cfg := true })).putUnit
        u (.cmb { r with gb := gb, cfg := true }))) ∧
    exec (.cmbFlush u) s = .next (s.putUnit r.dl (.dl { d with buf := Memory.empty d.buf.cap })))

/-- `APF.STEP` and `CMB.STEP` (R262, R266). -/
def Obligations.SectionStep : Prop :=
  ∀ (u : UnitId) (x : F32), encode (.apfStep u x) = [0x90#8 ++ u ++ 0#16, x] ∧
  encode (.cmbStep u x) = [0xA0#8 ++ u ++ 0#16, x] ∧
  (∀ (s : State) (r : Apf) (d : Dl), s.Inv → s.fault = false → s.unit? u = some (.apf r) →
    s.unit? r.dl = some (.dl d) →
    let delayout := d.buf.get d.extractFrom
    let delayin := fadd x (fmul delayout r.gb)
    (r.cfg = false → exec (.apfStep u x) s = .next (s.withFault 2 u)) ∧
    (r.cfg = true → d.cfg = false → exec (.apfStep u x) s = .next (s.withFault 2 r.dl)) ∧
    (r.cfg = true → d.cfg = true → exec (.apfStep u x) s = .next ((s.putUnit r.dl (.dl { d with
        buf := d.buf.set d.insertAt delayin, insertAt := (d.insertAt + 1) % d.buf.cap,
        extractFrom := (d.extractFrom + 1) % d.buf.cap })).respond [fadd (fmul delayin r.gf) delayout]))) ∧
  (∀ (s : State) (r : Cmb) (d : Dl), s.Inv → s.fault = false → s.unit? u = some (.cmb r) →
    s.unit? r.dl = some (.dl d) →
    let out := fadd x (fmul (d.buf.get d.extractFrom) r.gb)
    (r.cfg = false → exec (.cmbStep u x) s = .next (s.withFault 2 u)) ∧
    (r.cfg = true → d.cfg = false → exec (.cmbStep u x) s = .next (s.withFault 2 r.dl)) ∧
    (r.cfg = true → d.cfg = true → exec (.cmbStep u x) s = .next ((s.putUnit r.dl (.dl { d with
        buf := d.buf.set d.insertAt out, insertAt := (d.insertAt + 1) % d.buf.cap,
        extractFrom := (d.extractFrom + 1) % d.buf.cap })).respond [out])))

/-- `RV.SETUP` and `RV.FLUSH` (R269, R270, R273). `RV.SETUP` is its seven section setups in order, whatever they find,
and then its own `cfg`; where every ring is long enough it completes and the reverberator is ready. -/
def Obligations.RvSetupAndFlush : Prop :=
  ∀ (u : UnitId), encode (.rvSetup u) = [0xB3#8 ++ u ++ 0#16] ∧ encode (.rvFlush u) = [0xB2#8 ++ u ++ 0#16] ∧
  ∀ (s : State) (r : Rv), s.Inv → s.fault = false → s.unit? u = some (.rv r) →
    exec (.rvSetup u) s = (match runSteps s.respOut
        [.apfSetup r.apf0 347 0x3F333333 0xBF333333, .apfSetup r.apf1 113 0x3F333333 0xBF333333,
          .apfSetup r.apf2 37 0x3F333333 0xBF333333, .cmbSetup r.cmb0 1601 0x3F4D4FDF,
          .cmbSetup r.cmb1 1867 0x3F4D4FDF, .cmbSetup r.cmb2 2053 0x3F4D4FDF,
          .cmbSetup r.cmb3 2251 0x3F4D4FDF] s with
      | .next t => .next (if t.fault then t else t.putUnit u (.rv { r with cfg := true }))
      | .fault f => .fault f
      | .refused e => .refused e) ∧
    (347 ≤ (s.dl (s.apf r.apf0).dl).buf.cap → 113 ≤ (s.dl (s.apf r.apf1).dl).buf.cap →
      37 ≤ (s.dl (s.apf r.apf2).dl).buf.cap → 1601 ≤ (s.dl (s.cmb r.cmb0).dl).buf.cap →
      1867 ≤ (s.dl (s.cmb r.cmb1).dl).buf.cap → 2053 ≤ (s.dl (s.cmb r.cmb2).dl).buf.cap →
      2251 ≤ (s.dl (s.cmb r.cmb3).dl).buf.cap →
      exec (.rvSetup u) s = .next ((setupCmb r.cmb3 2251 0x3F4D4FDF (setupCmb r.cmb2 2053 0x3F4D4FDF
        (setupCmb r.cmb1 1867 0x3F4D4FDF (setupCmb r.cmb0 1601 0x3F4D4FDF
        (setupApf r.apf2 37 0x3F333333 0xBF333333 (setupApf r.apf1 113 0x3F333333 0xBF333333
        (setupApf r.apf0 347 0x3F333333 0xBF333333 s))))))).putUnit u (.rv { r with cfg := true })) ∧
      ∀ t, exec (.rvSetup u) s = .next t → readyRv t u = true) ∧
    exec (.rvFlush u) s = .next (flushCmb r.cmb3 (flushCmb r.cmb2 (flushCmb r.cmb1 (flushCmb r.cmb0
      (flushApf r.apf2 (flushApf r.apf1 (flushApf r.apf0 s)))))))

/-- `RV.STEP` (R271): pre-gain 0.1, three allpass sections in series, four combs in parallel summed in order, plus the
dry input. -/
def Obligations.RvStep : Prop :=
  ∀ (u : UnitId) (x : F32), encode (.rvStep u x) = [0xB0#8 ++ u ++ 0#16, x] ∧
  ∀ (s : State) (r : Rv), s.Inv → s.fault = false → s.unit? u = some (.rv r) →
    let a0 := evalApf r.apf0 (fmul x 0x3DCCCCCD) s
    let a1 := evalApf r.apf1 a0.1 a0.2
    let a2 := evalApf r.apf2 a1.1 a1.2
    let y0 := evalCmb r.cmb0 a2.1 a2.2
    let y1 := evalCmb r.cmb1 a2.1 y0.2
    let y2 := evalCmb r.cmb2 a2.1 y1.2
    let y3 := evalCmb r.cmb3 a2.1 y2.2
    (r.cfg = false → exec (.rvStep u x) s = .next (s.withFault 2 u)) ∧
    (readyRv s u = true → exec (.rvStep u x) s =
      .next (y3.2.respond [fadd x (fadd (fadd (fadd y0.1 y1.1) y2.1) y3.1)]))

/-! ## Classes KS and VB -/

/-- `KS.TUNE`, `KS.TRIG`, `KS.MUTE` and `KS.FLUSH` (R311, R312, R313, R316). -/
def Obligations.KsControl : Prop :=
  ∀ (u : UnitId) (freq : F32),
  [encode (.ksTune u freq), encode (.ksTrig u), encode (.ksMute u), encode (.ksFlush u)] =
    [[0xC4#8 ++ u ++ 0#16, freq], [0xC5#8 ++ u ++ 0#16], [0xC6#8 ++ u ++ 0#16], [0xC2#8 ++ u ++ 0#16]] ∧
  ∀ (s : State) (r : Ks) (d : Fd), s.Inv → s.fault = false → s.unit? u = some (.ks r) →
    s.unit? r.delay = some (.fd d) →
    let n := fsub (fdiv (f32OfU32 s.fs) freq) s.params.ksTuneConst
    (s.fsSet = false → exec (.ksTune u freq) s = .next (s.withFault 2 0)) ∧
    (s.fsSet = true → fdAccepts n d.buf.cap = false → exec (.ksTune u freq) s = .next (s.withFault 3 r.delay)) ∧
    (s.fsSet = true → fdAccepts n d.buf.cap = true →
      exec (.ksTune u freq) s = .next (s.putUnit r.delay (.fd { d with
        n := n, nint := BitVec.ofNat 16 (fceil n), w := fsub (f32OfNat (fceil n)) n,
        extractFrom := (d.insertAt + d.buf.cap - fceil n) % d.buf.cap, cfg := true })) ∧
      exec (.ksTune u freq) s = exec (.fdSetup r.delay n) s) ∧
    exec (.ksTrig u) s = .next (s.putUnit u (.ks { r with
      excite := s.params.ksExciteLen, gain := s.params.ksSustainGain })) ∧
    exec (.ksMute u) s = .next (s.putUnit u (.ks { r with gain := s.params.ksMuteGain })) ∧
    exec (.ksFlush u) s = .next (flushFo r.damp (flushFd r.delay (s.putUnit u (.ks { r with excite := 0 }))))

/-- `KS.STEP` (R314): while `excite` is not 0 one draw, mapped to a float, and one count less; then `gain` times the
damped tap is added and the sum enters the ring. -/
def Obligations.KsStep : Prop :=
  ∀ (u : UnitId), encode (.ksStep u) = [0xC0#8 ++ u ++ 0#16] ∧
  ∀ (s : State) (r : Ks) (d : Fd) (f : Fo), s.Inv → s.fault = false → s.unit? u = some (.ks r) →
    s.unit? r.delay = some (.fd d) → s.unit? r.damp = some (.fo f) →
    let q := prngAfter 1 s.prng
    let e := if r.excite = 0 then c0 else prngToFloat s.params q
    let y := fadd e (fmul r.gain (foOut f (fdOut d)))
    (d.cfg = false → exec (.ksStep u) s = .next (s.withFault 2 r.delay)) ∧
    (d.cfg = true → f.cfg = false → exec (.ksStep u) s = .next (s.withFault 2 r.damp)) ∧
    (d.cfg = true → f.cfg = true → r.excite = 0 → exec (.ksStep u) s =
      .next (((s.putUnit r.damp (.fo (foNext f (fdOut d)))).putUnit r.delay (.fd (fdNext d y))).respond [y])) ∧
    (d.cfg = true → f.cfg = true → r.excite ≠ 0 → exec (.ksStep u) s =
      .next ((State.putUnit (State.putUnit { s.putUnit u (.ks { r with excite := r.excite - 1 }) with prng := q }
        r.damp (.fo (foNext f (fdOut d)))) r.delay (.fd (fdNext d y))).respond [y]))

/-- The choice of a voice (R326, R328): an unbound voice where there is one; among the candidates the one stamped longest
ago and of equals the lowest, as long as every stamp lies within half the counter's range of `now`. -/
def Obligations.OldestVoiceIsPicked : Prop :=
  ∀ (w : Nat) (voices : List Voice) (now : Int), 1 ≤ w → voices ≠ [] →
    (∀ v ∈ voices, 0 ≤ sextW w (now - v.age)) →
    ∃ i v, pickVoice w voices = some i ∧ voices[i]? = some v ∧
      ((∃ x ∈ voices, x.note = 0) → v.note = 0) ∧
      ∀ j x, voices[j]? = some x → ((∃ y ∈ voices, y.note = 0) → x.note = 0) →
        sextW w (now - x.age) < sextW w (now - v.age) ∨
          (sextW w (now - x.age) = sextW w (now - v.age) ∧ i ≤ j)

/-- `VB.NOTEON` (R321): the picked voice is bound and stamped, then tuned and triggered, by its own commands. Where the
pitch fits the voice's ring the command completes; where it does not, the fault names the ring after the binding was
written. The velocity has no effect. -/
def Obligations.VbNoteOn : Prop :=
  ∀ (u : UnitId) (note velocity : BitVec 7),
  encode (.vbNoteon u note velocity) = [0xD4#8 ++ u ++ (0#1 ++ velocity ++ 0#1 ++ note)] ∧
  mailable (0xD4#8 ++ u ++ (0#1 ++ velocity ++ 0#1 ++ note)) = true ∧
  ∀ (s : State) (r : Vb), s.Inv → s.fault = false → s.unit? u = some (.vb r) →
    ∃ i v, pickVoice s.params.ageW r.voices = some i ∧ r.voices[i]? = some v ∧
      let s1 := s.putUnit u (.vb { r with voices := r.voices.set i { v with note := note.setWidth 8, age := r.now } })
      let freq := noteFreq s.params note
      exec (.vbNoteon u note velocity) s = runSteps s.respOut [.ksTune v.unit freq, .ksTrig v.unit] s1 ∧
      (s.fsSet = true → fdAccepts (tuneLength s freq) (s.fd (s.ks v.unit).delay).buf.cap = true →
        exec (.vbNoteon u note velocity) s =
          .next (triggerKs v.unit (setupFd (s.ks v.unit).delay (tuneLength s freq) s1)))

/-- `VB.NOTEOFF` (R322): the lowest voice bound to the note is unbound, stamped and muted; nothing happens for note 0 or
a note no voice holds. -/
def Obligations.VbNoteOff : Prop :=
  ∀ (u : UnitId) (note velocity : BitVec 7),
  encode (.vbNoteoff u note velocity) = [0xD5#8 ++ u ++ (0#1 ++ velocity ++ 0#1 ++ note)] ∧
  mailable (0xD5#8 ++ u ++ (0#1 ++ velocity ++ 0#1 ++ note)) = true ∧
  ∀ (s : State) (r : Vb), s.Inv → s.fault = false → s.unit? u = some (.vb r) →
    (note = 0 ∨ (∀ v ∈ r.voices, v.note ≠ note.setWidth 8) → exec (.vbNoteoff u note velocity) s = .next s) ∧
    (∀ (i : Nat) (v : Voice), note ≠ 0 → r.voices[i]? = some v → v.note = note.setWidth 8 →
      (∀ j x, j < i → r.voices[j]? = some x → x.note ≠ note.setWidth 8) →
      exec (.vbNoteoff u note velocity) s = .next ((s.putUnit u (.vb { r with
        voices := r.voices.set i { v with note := 0, age := r.now } })).putUnit v.unit
        (.ks { s.ks v.unit with gain := s.params.ksMuteGain })))

/-- `VB.STEP` and `VB.FLUSH` (R323, R325): every voice stepped in order and added, then the clock advanced by one,
wrapping; the first voice that cannot sound ends it, `NOT_SETUP` naming its line or damping filter (R314), with the
voices before it stepped and the clock as it was; bindings, stamps and clock zeroed and every voice flushed. -/
def Obligations.VbStepAndFlush : Prop :=
  ∀ (u : UnitId), encode (.vbStep u) = [0xD0#8 ++ u ++ 0#16] ∧ encode (.vbFlush u) = [0xD2#8 ++ u ++ 0#16] ∧
  ∀ (s : State) (r : Vb) (v : Voice) (vs : List Voice), s.Inv → s.fault = false → s.unit? u = some (.vb r) →
    r.voices = v :: vs →
    let a := evalKs v.unit s
    let b := evalVoices vs a.1 a.2
    (readyVb s u = true → exec (.vbStep u) s =
      .next ((b.2.putUnit u (.vb { r with now := sextW s.params.ageW (r.now + 1) })).respond [b.1])) ∧
    (∀ (before after : List Voice) (x : Voice) (w : UnitId), r.voices = before ++ x :: after →
      (∀ y ∈ before, readyKs s y.unit = true) → ksObstacle x.unit s = some w →
      exec (.vbStep u) s = .next ((evalVoices before c0 s).2.withFault 2 w)) ∧
    exec (.vbFlush u) s = .next (r.voices.foldl (fun t x => flushKs x.unit t)
      (s.putUnit u (.vb { voices := r.voices.map fun x => { x with note := 0, age := 0 }, now := 0 })))

/-! ## Class DM -/

/-- `DM.SETUP`, `DM.CFG` and `DM.RDCFG` (R281, R283, R284, R293). -/
def Obligations.DmControl : Prop :=
  ∀ (u : UnitId) (n : BitVec 16) (bpm : Word),
  [encode (.dmSetup u), encode (.dmCfg u n bpm), encode (.dmRdcfg u)] =
    [[0xE3#8 ++ u ++ 0#16], [0xE4#8 ++ u ++ n, bpm], [0xE5#8 ++ u ++ 0#16]] ∧
  mailable (0xE4#8 ++ u ++ n) = true ∧
  ∀ (s : State) (r : Dm), s.Inv → s.fault = false → s.unit? u = some (.dm r) →
    let t := fun (bpm dpb : Word) =>
      fdiv (fdiv (fdiv (f32OfU32 s.fs) c2) (fdiv (f32OfU32 bpm) c60)) (f32OfU32 dpb)
    let defined := fun t : F32 => fle c1 t && flt t 0x4F800000
    exec (.dmRdcfg u) s = .next (s.respond [r.bpm, 0#16 ++ r.pattern]) ∧
    (s.fsSet = false → exec (.dmSetup u) s = .next (s.withFault 2 0) ∧
      exec (.dmCfg u n bpm) s = .next (s.withFault 2 0)) ∧
    (s.fsSet = true → ∀ p, r.patterns[r.pattern.toNat]? = some p →
      (defined (t r.bpm p.dpb) = false → exec (.dmSetup u) s = .next (s.withFault 8 u)) ∧
      (defined (t r.bpm p.dpb) = true → ∀ c, r.bank[0]? = some c → exec (.dmSetup u) s =
        .next ((s.putUnit r.lp (.bq { s.bq r.lp with coef := c, cfg := true })).putUnit u
          (.dm { r with spd := BitVec.ofNat 32 (ftrunc (t r.bpm p.dpb)), cfg := true })))) ∧
    (s.fsSet = true → r.patterns.length ≤ n.toNat ∨ bpm = 0 →
      exec (.dmCfg u n bpm) s = .next (s.withFault 8 u)) ∧
    (s.fsSet = true → bpm ≠ 0 → ∀ p, r.patterns[n.toNat]? = some p →
      (defined (t bpm p.dpb) = false → exec (.dmCfg u n bpm) s = .next (s.withFault 8 u)) ∧
      (defined (t bpm p.dpb) = true → exec (.dmCfg u n bpm) s = .next (s.putUnit u (.dm { r with
        bpm := bpm, pattern := n, spd := BitVec.ofNat 32 (ftrunc (t bpm p.dpb)), stepIdx := 0 }))))

/-- `DM.STEP` and `DM.FLUSH` (R285 to R290, R292): the sequencer, the voices, the held mix and the lowpass in closed form
(`dmRegs`, `dmLp`), with one draw for each armed voice and one for the bank at a boundary. -/
def Obligations.DmStepAndFlush : Prop :=
  ∀ (u : UnitId), encode (.dmStep u) = [0xE0#8 ++ u ++ 0#16] ∧ encode (.dmFlush u) = [0xE2#8 ++ u ++ 0#16] ∧
  ∀ (s : State) (r : Dm) (b : Bq), s.Inv → s.fault = false → s.unit? u = some (.dm r) →
    s.unit? r.lp = some (.bq b) →
    let r' := dmRegs r s.params s.prng
    let lp := dmLp r s.prng b
    (r.cfg = false → exec (.dmStep u) s = .next (s.withFault 2 u)) ∧
    (r.cfg = true → b.cfg = false → ∃ t, exec (.dmStep u) s = .next t ∧ t.fault = true ∧ t.cause = 2 ∧ t.funit = r.lp) ∧
    (r.cfg = true → b.cfg = true → exec (.dmStep u) s = .next (State.respond
      { (s.putUnit u (.dm r')).putUnit r.lp (.bq (bqNext lp r'.hold)) with
        prng := if dmAtBoundary r then prngAfter (dmDraws r) s.prng else s.prng } [bqOut lp r'.hold])) ∧
    exec (.dmFlush u) s = .next ((s.putUnit u (.dm { r with
        stepIdx := 0, divCounter := 0, drums := r.drums.map fun d => { d with cursor := 0 }, phase := false,
        hold := 0 })).putUnit r.lp (.bq { b with s0 := 0, s1 := 0 }))

/-! ## `PROC` -/

/-- `PROC` of a Filter is its `STEP` once for each sample, in order, responses, faults and refusals included; with no
sample it does nothing (R131, R132). -/
def Obligations.FilterProcIsRepeatedStep : Prop :=
  ∀ (u : UnitId) (xs : List F32) (s : State), s.fault = false →
    (s.classOf u = some .bq → exec (.bqProc u xs) s = runSteps s.respOut (xs.map (.bqStep u)) s) ∧
    (s.classOf u = some .fo → exec (.foProc u xs) s = runSteps s.respOut (xs.map (.foStep u)) s) ∧
    (s.classOf u = some .fir → exec (.firProc u xs) s = runSteps s.respOut (xs.map (.firStep u)) s) ∧
    (s.classOf u = some .dl → exec (.dlProc u xs) s = runSteps s.respOut (xs.map (.dlStep u)) s) ∧
    (s.classOf u = some .fd → exec (.fdProc u xs) s = runSteps s.respOut (xs.map (.fdStep u)) s) ∧
    (s.classOf u = some .ws → exec (.wsProc u xs) s = runSteps s.respOut (xs.map (.wsStep u)) s) ∧
    (s.classOf u = some .ts → exec (.tsProc u xs) s = runSteps s.respOut (xs.map (.tsStep u)) s) ∧
    (s.classOf u = some .pa → exec (.paProc u xs) s = runSteps s.respOut (xs.map (.paStep u)) s) ∧
    (s.classOf u = some .apf → exec (.apfProc u xs) s = runSteps s.respOut (xs.map (.apfStep u)) s) ∧
    (s.classOf u = some .cmb → exec (.cmbProc u xs) s = runSteps s.respOut (xs.map (.cmbStep u)) s) ∧
    (s.classOf u = some .rv → exec (.rvProc u xs) s = runSteps s.respOut (xs.map (.rvStep u)) s)

/-- `PROC` of a Generator is its `STEP` `n` times (R131, R132). -/
def Obligations.GeneratorProcIsRepeatedStep : Prop :=
  ∀ (u : UnitId) (n : BitVec 16) (s : State), s.fault = false →
    (s.classOf u = some .ks → exec (.ksProc u n) s = runSteps s.respOut (List.replicate n.toNat (.ksStep u)) s) ∧
    (s.classOf u = some .vb → exec (.vbProc u n) s = runSteps s.respOut (List.replicate n.toNat (.vbStep u)) s) ∧
    (s.classOf u = some .dm → exec (.dmProc u n) s = runSteps s.respOut (List.replicate n.toNat (.dmStep u)) s)

/-- The `PROC` of every linear Filter class (BQ, FO, FIR, DL, FD, APF, CMB, RV) completes on a unit that is set up, with the closed-form samples as its responses
(R131 with R161, R191, R201, R212, R221, R262, R266, R271); its words are the count and the samples (R102). -/
def Obligations.LinearProcCompletes : Prop :=
  ∀ (u : UnitId) (xs : List F32),
    [encode (.bqProc u xs), encode (.foProc u xs), encode (.firProc u xs), encode (.dlProc u xs),
        encode (.fdProc u xs), encode (.apfProc u xs), encode (.cmbProc u xs), encode (.rvProc u xs)] =
      [0x11#8, 0x21#8, 0x31#8, 0x41#8, 0x51#8, 0x91#8, 0xA1#8, 0xB1#8].map
        (fun op => (op ++ u ++ BitVec.ofNat 16 xs.length) :: xs) ∧
    ∀ s : State, s.Inv → s.fault = false →
    let ans := fun r : List F32 × State => Host.Outcome.next (φ := Fault) (ρ := Refusal) (r.2.respond r.1)
    (readyBq s u = true → exec (.bqProc u xs) s = ans (evalList (evalBq u) xs s)) ∧
    (readyFo s u = true → exec (.foProc u xs) s = ans (evalList (evalFo u) xs s)) ∧
    (readyFir s u = true → exec (.firProc u xs) s = ans (evalList (evalFir u) xs s)) ∧
    (readyDl s u = true → exec (.dlProc u xs) s = ans (evalList (evalDl u) xs s)) ∧
    (readyFd s u = true → exec (.fdProc u xs) s = ans (evalList (evalFd u) xs s)) ∧
    (readyApf s u = true → exec (.apfProc u xs) s = ans (evalList (evalApf u) xs s)) ∧
    (readyCmb s u = true → exec (.cmbProc u xs) s = ans (evalList (evalCmb u) xs s)) ∧
    (readyRv s u = true → exec (.rvProc u xs) s = ans (evalList (evalRv u) xs s))

/-- The `PROC` of the classes with a curve completes on a unit that is set up when no NaN reaches a curve (R131 with
R232, R241, R250; log entry 9 as in `TsStep`). -/
def Obligations.CurveProcCompletes : Prop :=
  ∀ (u : UnitId) (xs : List F32),
    [encode (.wsProc u xs), encode (.tsProc u xs), encode (.paProc u xs)] =
      [0x61#8, 0x71#8, 0x81#8].map (fun op => (op ++ u ++ BitVec.ofNat 16 xs.length) :: xs) ∧
    ∀ s : State, s.Inv → s.fault = false →
    let ans := fun r : List F32 × State => Host.Outcome.next (φ := Fault) (ρ := Refusal) (r.2.respond r.1)
    (readyWs s u = true → cleanList (wsClean u) (evalWs u) xs s = true →
      exec (.wsProc u xs) s = ans (evalList (evalWs u) xs s)) ∧
    (readyTs s u = true → cleanList (tsClean u) (evalTs u) xs s = true →
      exec (.tsProc u xs) s = ans (evalList (evalTs u) xs s)) ∧
    (readyPa s u = true → cleanList (paClean u) (evalPa u) xs s = true →
      exec (.paProc u xs) s = ans (evalList (evalPa u) xs s))

/-- The `PROC` of every Generator completes on a unit that is set up (R131 with R314, R323, R285). -/
def Obligations.GeneratorProcCompletes : Prop :=
  ∀ (u : UnitId) (n : BitVec 16),
    [encode (.ksProc u n), encode (.vbProc u n), encode (.dmProc u n)] =
      [[0xC1#8 ++ u ++ n], [0xD1#8 ++ u ++ n], [0xE1#8 ++ u ++ n]] ∧
    ∀ s : State, s.Inv → s.fault = false →
    let ans := fun r : List F32 × State => Host.Outcome.next (φ := Fault) (ρ := Refusal) (r.2.respond r.1)
    (readyKs s u = true → exec (.ksProc u n) s = ans (evalTimes (evalKs u) n.toNat s)) ∧
    (readyVb s u = true → exec (.vbProc u n) s = ans (evalTimes (evalVb u) n.toNat s)) ∧
    (readyDm s u = true → exec (.dmProc u n) s = ans (evalTimes (evalDm u) n.toNat s))

/-! ## Arithmetic -/

/-- Addition, subtraction, multiplication and division of finite values round to nearest, ties to even (R9). Below the
overflow threshold the result is finite, has the sign of the exact result, no finite f32 is closer to it, and one as
close but of another magnitude has an odd last bit where the result's is even; from the threshold on the result is the
infinity of that sign. A sum that is exactly zero is `+0.0`, but `-0.0` of two negative zeros. A quotient by zero is the
infinity of its sign, of two zeros a NaN. Values are integers in units of 2^-149; the sum of two values is `n` units,
their product `n * 2^-149` units, a quotient `a / b` is `(a * 2^149) / b` units; a difference is the sum with the sign
bit of the subtrahend flipped. -/
def Obligations.ArithmeticRoundsToNearest : Prop :=
  (∀ a b : F32, fexp a < 255 → fexp b < 255 →
    let v : Int := fval a + fval b
    let d := fun z : F32 => (fval z - v).natAbs
    (v = 0 → fadd a b = if fsign a && fsign b then 0x80000000 else 0x00000000) ∧
    (v ≠ 0 → v.natAbs < overflowAt → fexp (fadd a b) < 255 ∧ fsign (fadd a b) = decide (v < 0) ∧
      ∀ y : F32, fexp y < 255 → d (fadd a b) ≤ d y ∧
        (fmag y ≠ fmag (fadd a b) → d y = d (fadd a b) → (fadd a b).toNat % 2 = 0)) ∧
    (overflowAt ≤ v.natAbs → fadd a b = if v < 0 then 0xFF800000 else 0x7F800000)) ∧
  (∀ a b : F32, fexp a < 255 → fexp b < 255 → fsub a b = fadd a (b ^^^ 0x80000000)) ∧
  (∀ a b : F32, fexp a < 255 → fexp b < 255 →
    let n : Nat := fmag a * fmag b
    let d := fun z : F32 => ((fmag z : Int) * 2 ^ 149 - n).natAbs
    (n < overflowAt * 2 ^ 149 → fexp (fmul a b) < 255 ∧ fsign (fmul a b) = (fsign a != fsign b) ∧
      ∀ y : F32, fexp y < 255 → d (fmul a b) ≤ d y ∧
        (fmag y ≠ fmag (fmul a b) → d y = d (fmul a b) → (fmul a b).toNat % 2 = 0)) ∧
    (overflowAt * 2 ^ 149 ≤ n → fmul a b = if fsign a != fsign b then 0xFF800000 else 0x7F800000)) ∧
  (∀ a b : F32, fexp a < 255 → fexp b < 255 → fmag b ≠ 0 →
    let n : Nat := fmag a * 2 ^ 149
    let d := fun z : F32 => ((fmag z : Int) * fmag b - n).natAbs
    (n < overflowAt * fmag b → fexp (fdiv a b) < 255 ∧ fsign (fdiv a b) = (fsign a != fsign b) ∧
      ∀ y : F32, fexp y < 255 → d (fdiv a b) ≤ d y ∧
        (fmag y ≠ fmag (fdiv a b) → d y = d (fdiv a b) → (fdiv a b).toNat % 2 = 0)) ∧
    (overflowAt * fmag b ≤ n → fdiv a b = if fsign a != fsign b then 0xFF800000 else 0x7F800000)) ∧
  (∀ a b : F32, fexp a < 255 → fexp b < 255 → fmag b = 0 →
    (fmag a ≠ 0 → fdiv a b = if fsign a != fsign b then 0xFF800000 else 0x7F800000) ∧
    (fmag a = 0 → isNaN (fdiv a b) = true))

end
end

