-- ==== Sys2Proof/Laws/Float.lean ====
section
/-! SUPPORT. Binary32 arithmetic (R9, R10): what a rounding gives and when it overflows, the operations
on finite values, that small integers convert exactly, and the bounds of the lengths a fractional delay line accepts and
of the reload values of a drum machine. -/

namespace Sys2Proof.Machine

/-! ## Magnitudes -/

/-- The magnitude, in units of 2^-149, of the pattern with magnitude bits `m` (31 bits). -/
def magOf (m : Nat) : Nat := if m / 8388608 = 0 then m else (m % 8388608 + 8388608) * 2 ^ (m / 8388608 - 1)

theorem fpack_toNat {m : Nat} (h : m < 2147483648) (neg : Bool) :
    (fpack neg m).toNat = if neg then 2147483648 + m else m := by
  unfold fpack
  rw [BitVec.toNat_ofNat]
  apply Nat.mod_eq_of_lt
  cases neg <;> (simp; omega)

theorem fexp_fpack {m : Nat} (h : m < 2147483648) (neg : Bool) : fexp (fpack neg m) = m / 8388608 := by
  unfold fexp
  rw [fpack_toNat h]
  cases neg
  · simp; omega
  · simp; omega

theorem ffrac_fpack {m : Nat} (h : m < 2147483648) (neg : Bool) : ffrac (fpack neg m) = m % 8388608 := by
  unfold ffrac
  rw [fpack_toNat h]
  cases neg
  · simp
  · simp; omega

theorem fsign_eq (x : F32) : fsign x = decide (2147483648 ≤ x.toNat) := by
  simp [fsign, BitVec.msb_eq_decide]

theorem fsign_fpack {m : Nat} (h : m < 2147483648) (neg : Bool) : fsign (fpack neg m) = neg := by
  rw [fsign_eq, fpack_toNat h]
  cases neg
  · simpa using h
  · simp

theorem fmag_eq (x : F32) : fmag x = magOf (x.toNat % 2147483648) := by
  unfold fmag magOf fexp ffrac
  have h1 : x.toNat % 2147483648 / 8388608 = x.toNat / 8388608 % 256 := by omega
  have h2 : x.toNat % 2147483648 % 8388608 = x.toNat % 8388608 := by omega
  rw [h1, h2]
  split
  · omega
  · rw [Nat.shiftLeft_eq]

theorem fmag_fpack {m : Nat} (h : m < 2147483648) (neg : Bool) : fmag (fpack neg m) = magOf m := by
  rw [fmag_eq, fpack_toNat h]
  congr 1
  cases neg <;> (simp; omega)

theorem isNaN_eq (x : F32) : isNaN x = decide (0x7F800000 < x.toNat % 2147483648) := by
  unfold isNaN fexp ffrac
  rw [Bool.eq_iff_iff]
  simp only [Bool.and_eq_true, beq_iff_eq, bne_iff_ne, decide_eq_true_eq]
  omega

theorem isInf_eq (x : F32) : isInf x = decide (x.toNat % 2147483648 = 0x7F800000) := by
  unfold isInf fexp ffrac
  rw [Bool.eq_iff_iff]
  simp only [Bool.and_eq_true, beq_iff_eq, decide_eq_true_eq]
  omega

/-- A significand of at most 24 bits at exponent `e`, the carry of a rounding included. -/
theorem magOf_compose {e q : Nat} (h : e = 0 ∨ 8388608 ≤ q) (hq : q ≤ 16777216) :
    magOf (e * 8388608 + q) = q * 2 ^ e := by
  unfold magOf
  by_cases h1 : q < 8388608
  · have he : e = 0 := by omega
    subst he
    rw [if_pos (by omega)]
    simp
  · by_cases h2 : q = 16777216
    · subst h2
      have hd : (e * 8388608 + 16777216) / 8388608 = e + 2 := by omega
      have hm : (e * 8388608 + 16777216) % 8388608 = 0 := by omega
      rw [if_neg (by omega), hd, hm, show e + 2 - 1 = e + 1 by omega, pow_succ]
      ring
    · have hd : (e * 8388608 + q) / 8388608 = e + 1 := by omega
      have hm : (e * 8388608 + q) % 8388608 = q - 8388608 := by omega
      rw [if_neg (by omega), hd, hm, show e + 1 - 1 = e by omega]
      congr 1
      omega

/-- A magnitude is a multiple of `2^e`, or it lies below the least normal magnitude of that exponent. -/
theorem magOf_grid (m e : Nat) : (∃ c, magOf m = c * 2 ^ e) ∨ (1 ≤ e ∧ magOf m < 8388608 * 2 ^ e) := by
  unfold magOf
  split
  · rcases Nat.eq_zero_or_pos e with he | he
    · exact .inl ⟨m, by simp [he]⟩
    · refine .inr ⟨he, ?_⟩
      have : 1 ≤ 2 ^ e := Nat.one_le_two_pow
      nlinarith [show m < 8388608 by omega]
  · rcases Nat.lt_or_ge (m / 8388608 - 1) e with h | h
    · refine .inr ⟨by omega, ?_⟩
      have h2 : 2 ^ (m / 8388608 - 1 + 1) ≤ 2 ^ e := Nat.pow_le_pow_right (by omega) h
      rw [pow_succ] at h2
      have h3 : m % 8388608 + 8388608 < 16777216 := by omega
      have h4 : 0 < 2 ^ (m / 8388608 - 1) := by positivity
      nlinarith
    · refine .inl ⟨(m % 8388608 + 8388608) * 2 ^ (m / 8388608 - 1 - e), ?_⟩
      rw [mul_assoc, ← pow_add, Nat.sub_add_cancel h]

/-! ## Rounding -/

/-- The significand a rounding keeps, before its carry. -/
theorem roundMag_quot_le (n k : Nat) : n >>> (max (n.log2 - 23) k) < 16777216 := by
  rw [Nat.shiftRight_eq_div_pow]
  rcases Nat.eq_zero_or_pos n with h0 | h0
  · subst h0; simp
  · have h1 : n < 2 ^ (n.log2 + 1) := Nat.lt_log2_self
    have h2 : n.log2 + 1 ≤ 24 + max (n.log2 - 23) k := by omega
    have h3 : (2 : Nat) ^ (n.log2 + 1) ≤ 16777216 * 2 ^ max (n.log2 - 23) k := by
      rw [show (16777216 : Nat) = 2 ^ 24 by norm_num, ← pow_add]
      exact Nat.pow_le_pow_right (by omega) h2
    exact Nat.div_lt_of_lt_mul (by rw [mul_comm]; exact lt_of_lt_of_le h1 h3)

theorem roundMag_quot_ge {n k : Nat} (h : k < n.log2 - 23) : 8388608 ≤ n >>> (max (n.log2 - 23) k) := by
  rw [Nat.shiftRight_eq_div_pow, show max (n.log2 - 23) k = n.log2 - 23 by omega]
  have hn : n ≠ 0 := by rintro rfl; simp at h
  have h1 : 2 ^ n.log2 ≤ n := Nat.log2_self_le hn
  rw [Nat.le_div_iff_mul_le (by positivity)]
  refine le_trans (le_of_eq ?_) h1
  rw [show (8388608 : Nat) = 2 ^ 23 by norm_num, ← pow_add]
  congr 1
  omega

/-- What a rounding gives before the overflow to infinity: with `U` the unit in the last place in the scale of `n`, the
multiple of `U` next below or next above, the nearer one, and of two equally near the even one. -/
theorem roundMag_spec {n k : Nat} (hfin : roundMag n k < 0x7F800000) :
    ∃ e q : Nat, (e = 0 ∨ 8388608 ≤ n / 2 ^ (e + k)) ∧ roundMag n k = e * 8388608 + q ∧
      magOf (roundMag n k) = q * 2 ^ e ∧
      ((q = n / 2 ^ (e + k) ∧ 2 * (n % 2 ^ (e + k)) ≤ 2 ^ (e + k) ∧
          (2 * (n % 2 ^ (e + k)) = 2 ^ (e + k) → q % 2 = 0)) ∨
        (q = n / 2 ^ (e + k) + 1 ∧ 2 ^ (e + k) ≤ 2 * (n % 2 ^ (e + k)) ∧
          (2 * (n % 2 ^ (e + k)) = 2 ^ (e + k) → q % 2 = 0))) := by
  have hq := roundMag_quot_le n k
  generalize hsh : max (n.log2 - 23) k = sh at hq
  have hk : k ≤ sh := by omega
  have he : sh = k ∨ 8388608 ≤ n >>> sh := by
    rcases Nat.lt_or_ge k (n.log2 - 23) with h | h
    · exact .inr (hsh ▸ roundMag_quot_ge h)
    · exact .inl (by omega)
  have hr : n - ((n >>> sh) <<< sh) = n % 2 ^ sh := by
    rw [Nat.shiftRight_eq_div_pow, Nat.shiftLeft_eq, Nat.mod_def, mul_comm]
  obtain ⟨e, rfl⟩ : ∃ e, sh = e + k := ⟨sh - k, by omega⟩
  simp only [roundMag, hsh, hr, Nat.one_shiftLeft, Nat.add_sub_cancel] at hfin ⊢
  rw [Nat.shiftRight_eq_div_pow] at *
  have he' : e = 0 ∨ 8388608 ≤ n / 2 ^ (e + k) := by rcases he with h | h; exacts [.inl (by omega), .inr h]
  generalize hn : n / 2 ^ (e + k) = q0 at *
  generalize hm : n % 2 ^ (e + k) = r at *
  have hrl : r < 2 ^ (e + k) := hm ▸ Nat.mod_lt _ (by positivity)
  by_cases hup : 2 ^ (e + k) < 2 * r ∨ (2 ^ (e + k) = 2 * r ∧ q0 % 2 = 1)
  · rw [if_pos hup] at hfin ⊢
    have hmin : min (e * 8388608 + (q0 + 1)) 0x7F800000 = e * 8388608 + (q0 + 1) := by omega
    refine ⟨e, q0 + 1, by rw [hn]; exact he', hmin, ?_, .inr ⟨by rw [hn], by rw [hm]; omega, by rw [hm]; omega⟩⟩
    rw [hmin]
    exact magOf_compose (he'.imp id (by omega)) (by omega)
  · rw [if_neg hup] at hfin ⊢
    have hmin : min (e * 8388608 + q0) 0x7F800000 = e * 8388608 + q0 := by omega
    refine ⟨e, q0, by rw [hn]; exact he', hmin, ?_, .inl ⟨by rw [hn], by rw [hm]; omega, by rw [hm]; omega⟩⟩
    rw [hmin]
    exact magOf_compose he' (by omega)

/-- Rounding is to nearest, ties to even: no magnitude is closer to `n * 2^-k`, and if another is as close the chosen one
has an even last bit. -/
theorem roundMag_nearest {n k : Nat} (hfin : roundMag n k < 0x7F800000) (m : Nat) :
    (((magOf (roundMag n k) * 2 ^ k : Nat) : Int) - n).natAbs ≤ (((magOf m * 2 ^ k : Nat) : Int) - n).natAbs ∧
    (magOf m ≠ magOf (roundMag n k) →
      (((magOf m * 2 ^ k : Nat) : Int) - n).natAbs = (((magOf (roundMag n k) * 2 ^ k : Nat) : Int) - n).natAbs →
      roundMag n k % 2 = 0) := by
  obtain ⟨e, q, he, hM, hmag, hcase⟩ := roundMag_spec hfin
  have hU : 0 < 2 ^ (e + k) := by positivity
  have hdm := Nat.div_add_mod n (2 ^ (e + k))
  have hlt := Nat.mod_lt n hU
  have hval : magOf (roundMag n k) * 2 ^ k = q * 2 ^ (e + k) := by rw [hmag, pow_add]; ring
  have hpar : roundMag n k % 2 = q % 2 := by rw [hM]; omega
  rw [hval, hpar]
  generalize hUU : 2 ^ (e + k) = U at *
  generalize hq0 : n / U = q0 at *
  generalize hr : n % U = r at *
  have hn : n = U * q0 + r := hdm.symm
  rcases magOf_grid m e with ⟨c, hc⟩ | ⟨he1, hsmall⟩
  · have hy : magOf m * 2 ^ k = U * c := by rw [hc, ← hUU, pow_add]; ring
    have hqv : q * U = U * q := by ring
    rw [hy, hqv]
    have hne : magOf m ≠ magOf (roundMag n k) → c ≠ q := by
      rintro h rfl; exact h (by rw [hc, hmag])
    have hmul : ∀ a b : Nat, a ≤ b → U * a ≤ U * b := fun a b h => Nat.mul_le_mul_left U h
    have hsucc : U * (q0 + 1) = U * q0 + U := by ring
    rcases Nat.lt_or_ge q0 c with hcq | hcq
    · have h1 := hmul (q0 + 1) c hcq
      rcases hcase with ⟨rfl, h2, h3⟩ | ⟨rfl, h2, h3⟩
      · refine ⟨by omega, fun h heq => ?_⟩
        exact h3 (by omega)
      · refine ⟨by omega, fun h heq => ?_⟩
        have hcne := hne h
        have h4 := hmul (q0 + 1 + 1) c (by omega)
        have : U * (q0 + 1 + 1) = U * (q0 + 1) + U := by ring
        omega
    · have h1 := hmul c q0 hcq
      rcases hcase with ⟨rfl, h2, h3⟩ | ⟨rfl, h2, h3⟩
      · refine ⟨by omega, fun h heq => ?_⟩
        have hcne := hne h
        have h4 := hmul (c + 1) q (by omega)
        have : U * (c + 1) = U * c + U := by ring
        omega
      · refine ⟨by omega, fun h heq => ?_⟩
        exact h3 (by omega)
  · have hq8 : 8388608 ≤ q0 := by rcases he with h | h; exacts [absurd h (by omega), h]
    have hy : magOf m * 2 ^ k < U * q0 := by
      calc magOf m * 2 ^ k < 8388608 * 2 ^ e * 2 ^ k := Nat.mul_lt_mul_of_pos_right hsmall (by positivity)
        _ = U * 8388608 := by rw [← hUU, pow_add]; ring
        _ ≤ U * q0 := Nat.mul_le_mul_left U hq8
    have hsucc : U * (q0 + 1) = U * q0 + U := by ring
    have hqv : q * U = U * q := by ring
    rw [hqv]
    rcases hcase with ⟨rfl, h2, h3⟩ | ⟨rfl, h2, h3⟩ <;> exact ⟨by omega, fun h heq => by omega⟩

/-- A rounding of an exactly representable value gives that value. -/
theorem roundMag_exact {q e k : Nat} (h : e = 0 ∨ 8388608 ≤ q) (hq : q ≤ 16777215)
    (hfin : e * 8388608 + q < 0x7F800000) : roundMag (q * 2 ^ (e + k)) k = e * 8388608 + q := by
  have hsh : max ((q * 2 ^ (e + k)).log2 - 23) k = e + k := by
    rcases Nat.eq_zero_or_pos q with h0 | h0
    · subst h0
      have : e = 0 := by omega
      subst this
      simp
    · have hl : (q * 2 ^ (e + k)).log2 = q.log2 + (e + k) := by
        have hpos : 0 < q * 2 ^ (e + k) := Nat.mul_pos h0 (by positivity)
        rw [Nat.log2_eq_iff (by omega)]
        have h1 := Nat.log2_self_le (show q ≠ 0 by omega)
        have h2 : q < 2 ^ (q.log2 + 1) := Nat.lt_log2_self
        constructor
        · rw [pow_add]; exact Nat.mul_le_mul_right _ h1
        · have hp : 0 < 2 ^ (e + k) := by positivity
          have h4 := Nat.mul_lt_mul_of_pos_right h2 hp
          rwa [← pow_add (2 : Nat) (q.log2 + 1), show q.log2 + 1 + (e + k) = q.log2 + (e + k) + 1 by omega] at h4
      have h3 : q.log2 ≤ 23 := by
        have := (Nat.log2_lt (show q ≠ 0 by omega)).2 (show q < 2 ^ 24 by omega)
        omega
      rw [hl]
      rcases h with h | h
      · omega
      · have : 23 ≤ q.log2 := (Nat.le_log2 (show q ≠ 0 by omega)).2 (by omega)
        omega
  have hq' : (q * 2 ^ (e + k)) >>> (e + k) = q := by
    rw [Nat.shiftRight_eq_div_pow, Nat.mul_div_cancel _ (by positivity)]
  have hr : q * 2 ^ (e + k) - (q <<< (e + k)) = 0 := by rw [Nat.shiftLeft_eq]; omega
  simp only [roundMag, hsh, hq', hr, Nat.one_shiftLeft]
  have hp : 0 < 2 ^ (e + k) := by positivity
  rw [if_neg (by omega)]
  omega

/-- Where a rounding overflows: half a step above the largest finite magnitude, the tie included. -/
theorem roundMag_lt_iff (n k : Nat) : roundMag n k < 0x7F800000 ↔ n < overflowAt * 2 ^ k := by
  have hT : overflowAt * 2 ^ k = 33554431 * 2 ^ (252 + k) := by rw [overflowAt, pow_add]; ring
  have hp : 0 < 2 ^ (252 + k) := by positivity
  have hmin : ∀ x : Nat, min x 0x7F800000 < 0x7F800000 ↔ x < 0x7F800000 := fun x => by simp
  have hm : roundMag n k < 0x7F800000 ↔ (max (n.log2 - 23) k - k) * 8388608 +
      (if 2 ^ max (n.log2 - 23) k < 2 * (n % 2 ^ max (n.log2 - 23) k) ∨ (2 ^ max (n.log2 - 23) k =
        2 * (n % 2 ^ max (n.log2 - 23) k) ∧ n / 2 ^ max (n.log2 - 23) k % 2 = 1) then
        n / 2 ^ max (n.log2 - 23) k + 1 else n / 2 ^ max (n.log2 - 23) k) < 0x7F800000 := by
    have hr : ∀ sh, n - ((n / 2 ^ sh) <<< sh) = n % 2 ^ sh := fun sh => by
      rw [Nat.shiftLeft_eq, Nat.mod_def, mul_comm]
    simp only [roundMag, Nat.one_shiftLeft, Nat.shiftRight_eq_div_pow, hr, hmin]
  rw [hT, hm]
  rcases Nat.lt_or_ge n (2 ^ (276 + k)) with hlo | hlo
  · -- small: the significand fits below the last binade
    have hn : n < 33554431 * 2 ^ (252 + k) := by
      have : (2 : Nat) ^ (276 + k) = 16777216 * 2 ^ (252 + k) := by rw [show 276 + k = 24 + (252 + k) by omega, pow_add]; norm_num
      omega
    have hq := roundMag_quot_le n k
    rw [Nat.shiftRight_eq_div_pow] at hq
    have hl : max (n.log2 - 23) k ≤ 252 + k := by
      rcases Nat.eq_zero_or_pos n with h0 | h0
      · subst h0; simp
      · have := (Nat.log2_lt (show n ≠ 0 by omega)).2 hlo; omega
    simp only [hn, iff_true]
    generalize max (n.log2 - 23) k = sh at *
    split <;> omega
  rcases Nat.lt_or_ge n (2 ^ (277 + k)) with hhi | hhi
  · -- the last binade
    have hl : n.log2 = 276 + k := (Nat.log2_eq_iff (by have : 0 < 2 ^ (276 + k) := by positivity
                                                       omega)).2 ⟨hlo, by rwa [show 276 + k + 1 = 277 + k by omega]⟩
    have hsh : max (n.log2 - 23) k = 253 + k := by omega
    have hq := roundMag_quot_le n k
    rw [Nat.shiftRight_eq_div_pow] at hq
    rw [hsh] at hq
    rw [hsh, Nat.add_sub_cancel]
    have hU : (2 : Nat) ^ (253 + k) = 2 * 2 ^ (252 + k) := by rw [show 253 + k = (252 + k) + 1 by omega, pow_succ, mul_comm]
    have hdm := Nat.div_add_mod n (2 ^ (253 + k))
    have hlt := Nat.mod_lt n (show 0 < 2 ^ (253 + k) by positivity)
    generalize n / 2 ^ (253 + k) = q at *
    generalize n % 2 ^ (253 + k) = r at *
    rw [hU] at *
    generalize 2 ^ (252 + k) = P at *
    rcases Nat.lt_or_ge q 16777215 with h1 | h1
    · have h2 : 2 * P * q ≤ 2 * P * 16777214 := Nat.mul_le_mul_left _ (by omega)
      have : n < 33554431 * P := by omega
      simp only [this, iff_true]
      split <;> omega
    · have : q = 16777215 := by omega
      subst this
      split <;> omega
  · have hn : ¬ n < 33554431 * 2 ^ (252 + k) := by
      have : (2 : Nat) ^ (277 + k) = 33554432 * 2 ^ (252 + k) := by rw [show 277 + k = 25 + (252 + k) by omega, pow_add]; norm_num
      omega
    have hl : 277 + k ≤ n.log2 := (Nat.le_log2 (by have : 0 < 2 ^ (277 + k) := by positivity
                                                   omega)).2 hhi
    have hq := roundMag_quot_ge (show k < n.log2 - 23 by omega)
    rw [Nat.shiftRight_eq_div_pow] at hq
    simp only [hn, iff_false]
    generalize hsh : max (n.log2 - 23) k = sh at *
    split <;> omega

/-- From the overflow threshold on a rounding gives the bits of infinity. -/
theorem roundMag_overflow {n k : Nat} (h : overflowAt * 2 ^ k ≤ n) : roundMag n k = 0x7F800000 := by
  have h1 := (roundMag_lt_iff n k).not.2 (Nat.not_lt.2 h)
  have h2 : roundMag n k ≤ 0x7F800000 := Nat.min_le_right _ _
  omega

/-! ## Operations on finite values -/

theorem finite_not_special {x : F32} (h : fexp x < 255) : isNaN x = false ∧ isInf x = false := by
  have : (fexp x == 255) = false := by simp; omega
  simp [isNaN, isInf, this]

/-- A sum of finite values is the exact sum rounded once, or a zero. -/
theorem fadd_finite {a b : F32} (ha : fexp a < 255) (hb : fexp b < 255) : fadd a b =
    if fval a + fval b = 0 then fpack (fsign a && fsign b) 0
    else fpack (decide (fval a + fval b < 0)) (roundMag (fval a + fval b).natAbs 0) := by
  simp only [fadd, addCore, finite_not_special ha, finite_not_special hb, Bool.or_self, Bool.false_eq_true, if_false]
  split <;> rfl

/-- A product of finite values is the exact product rounded once. -/
theorem fmul_finite {a b : F32} (ha : fexp a < 255) (hb : fexp b < 255) :
    fmul a b = fpack (fsign a != fsign b) (roundMag (fmag a * fmag b) 149) := by
  simp only [fmul, finite_not_special ha, finite_not_special hb, Bool.or_self, Bool.false_eq_true, if_false]

/-- A quotient of finite values, the divisor not zero, is rounded once from 311 extra bits, the last one sticky. -/
theorem fdiv_finite {a b : F32} (ha : fexp a < 255) (hb : fexp b < 255) (h0 : fmag b ≠ 0) :
    fdiv a b = fpack (fsign a != fsign b) (roundMag (2 * ((fmag a <<< 459) / fmag b) +
      if (fmag a <<< 459) / fmag b * fmag b = fmag a <<< 459 then 0 else 1) 311) := by
  simp only [fdiv, finite_not_special ha, finite_not_special hb, Bool.or_self, Bool.false_eq_true, if_false, h0]

/-! ## Conversions -/

/-- `f32_of_u32` of an integer below 2^24 is exact (R10). -/
theorem fmag_f32OfNat {k : Nat} (h : k < 16777216) :
    fmag (f32OfNat k) = k * 2 ^ 149 ∧ fsign (f32OfNat k) = false ∧ fexp (f32OfNat k) < 255 := by
  rcases Nat.eq_zero_or_pos k with h0 | h0
  · subst h0; decide +kernel
  · have hlog : k.log2 ≤ 23 := by
      have := (Nat.log2_lt (show k ≠ 0 by omega)).2 (show k < 2 ^ 24 by omega)
      omega
    have h1 := Nat.log2_self_le (show k ≠ 0 by omega)
    have h2 : k < 2 ^ (k.log2 + 1) := Nat.lt_log2_self
    have hq1 : 8388608 ≤ k * 2 ^ (23 - k.log2) := by
      calc (8388608 : Nat) = 2 ^ k.log2 * 2 ^ (23 - k.log2) := by rw [← pow_add, show k.log2 + (23 - k.log2) = 23 by omega]; norm_num
        _ ≤ _ := Nat.mul_le_mul_right _ h1
    have hq2 : k * 2 ^ (23 - k.log2) ≤ 16777215 := by
      have : k * 2 ^ (23 - k.log2) < 2 ^ (k.log2 + 1) * 2 ^ (23 - k.log2) := Nat.mul_lt_mul_of_pos_right h2 (by positivity)
      rw [← pow_add, show k.log2 + 1 + (23 - k.log2) = 24 by omega] at this
      omega
    have hn : k <<< 149 = k * 2 ^ (23 - k.log2) * 2 ^ (k.log2 + 126 + 0) := by
      rw [Nat.shiftLeft_eq, mul_assoc, ← pow_add, show 23 - k.log2 + (k.log2 + 126 + 0) = 149 by omega]
    have hfin : (k.log2 + 126) * 8388608 + k * 2 ^ (23 - k.log2) < 0x7F800000 := by omega
    have hr : f32OfNat k = fpack false ((k.log2 + 126) * 8388608 + k * 2 ^ (23 - k.log2)) := by
      unfold f32OfNat
      rw [hn, roundMag_exact (.inr hq1) hq2 hfin]
    rw [hr, fmag_fpack (by omega), fsign_fpack (by omega), fexp_fpack (by omega),
      magOf_compose (.inr hq1) (by omega)]
    refine ⟨?_, rfl, by omega⟩
    rw [mul_assoc, ← pow_add, show 23 - k.log2 + (k.log2 + 126) = 149 by omega]

theorem fval_f32OfNat {k : Nat} (h : k < 16777216) : fval (f32OfNat k) = ((k * 2 ^ 149 : Nat) : Int) := by
  obtain ⟨h1, h2, _⟩ := fmag_f32OfNat h
  simp [fval, h1, h2]

theorem isNaN_f32OfNat {k : Nat} (h : k < 16777216) : isNaN (f32OfNat k) = false := by
  obtain ⟨_, _, h3⟩ := fmag_f32OfNat h
  simp only [isNaN, Bool.and_eq_false_iff, beq_eq_false_iff_ne]
  exact .inl (by omega)

theorem fval_c1 : fval c1 = ((2 ^ 149 : Nat) : Int) := by decide +kernel
theorem isNaN_c1 : isNaN c1 = false := by decide +kernel

/-- `ceil` of a positive value is the least integer not below it. -/
theorem fceil_spec {x : F32} (h : 0 < fval x) :
    fval x ≤ ((fceil x * 2 ^ 149 : Nat) : Int) ∧ (((fceil x - 1) * 2 ^ 149 : Nat) : Int) < fval x ∧ 1 ≤ fceil x := by
  have hs : fsign x = false := by
    cases hx : fsign x with
    | false => rfl
    | true => simp [fval, hx] at h; omega
  have hv : fval x = (fmag x : Int) := by simp [fval, hs]
  rw [hv] at h ⊢
  have hpos : 0 < fmag x := by exact_mod_cast h
  unfold fceil
  rw [Nat.shiftRight_eq_div_pow, Nat.one_shiftLeft]
  generalize hU : (2 : Nat) ^ 149 = U
  have hUp : 0 < U := by rw [← hU]; positivity
  have hd := Nat.div_add_mod (fmag x + (U - 1)) U
  have hm := Nat.mod_lt (fmag x + (U - 1)) hUp
  generalize (fmag x + (U - 1)) / U = c at *
  have h1 : 1 ≤ c := by
    rcases Nat.eq_zero_or_pos c with h0 | h0
    · subst h0; simp at hd; omega
    · exact h0
  obtain ⟨d, rfl⟩ : ∃ d, c = d + 1 := ⟨c - 1, by omega⟩
  have hmul : U * (d + 1) = U * d + U := by ring
  have hc1 : (d + 1) * U = U * d + U := by ring
  have hc2 : d * U = U * d := by ring
  rw [Nat.add_sub_cancel, hc1, hc2]
  refine ⟨?_, ?_, by omega⟩ <;> norm_cast <;> omega

/-- The integer part of a length a line accepts lies in 1 to its capacity (R219). -/
theorem fdAccepts_bounds {n : F32} {l : Nat} (hl : l < 65536) (h : fdAccepts n l = true) :
    1 ≤ fceil n ∧ fceil n ≤ l ∧ fval n ≤ ((fceil n * 2 ^ 149 : Nat) : Int) ∧
      (((fceil n - 1) * 2 ^ 149 : Nat) : Int) < fval n := by
  simp only [fdAccepts, Bool.and_eq_true, Bool.not_eq_true'] at h
  obtain ⟨⟨hnan, h1⟩, h2⟩ := h
  simp only [flt, hnan, isNaN_c1, isNaN_f32OfNat (show l < 16777216 by omega), Bool.not_false, Bool.true_and,
    decide_eq_false_iff_not, not_lt, fval_c1, fval_f32OfNat (show l < 16777216 by omega)] at h1 h2
  have hpos : 0 < fval n := lt_of_lt_of_le (by positivity) h1
  obtain ⟨h3, h4, h5⟩ := fceil_spec hpos
  refine ⟨h5, ?_, h3, h4⟩
  have h6 : (((fceil n - 1) * 2 ^ 149 : Nat) : Int) < ((l * 2 ^ 149 : Nat) : Int) := lt_of_lt_of_le h4 h2
  have h7 : (fceil n - 1) * 2 ^ 149 < l * 2 ^ 149 := by exact_mod_cast h6
  have h8 := Nat.lt_of_mul_lt_mul_right h7
  omega

/-- The reload value of a drum machine, where `spd_of` is defined, lies in 1 to 2^32 - 1 (R281). -/
theorem spd_bounds {t : F32} (h : (fle c1 t && flt t c2p32) = true) : 1 ≤ ftrunc t ∧ ftrunc t < 2 ^ 32 := by
  simp only [fle, flt, Bool.and_eq_true, decide_eq_true_eq] at h
  obtain ⟨⟨_, h1⟩, ⟨_, h2⟩⟩ := h
  have hc : fval c2p32 = ((2 ^ 32 * 2 ^ 149 : Nat) : Int) := by decide +kernel
  rw [fval_c1] at h1
  rw [hc] at h2
  have hs : fsign t = false := by
    cases hx : fsign t with
    | false => rfl
    | true => simp [fval, hx] at h1; omega
  have hv : fval t = (fmag t : Int) := by simp [fval, hs]
  rw [hv] at h1 h2
  have h3 : 2 ^ 149 ≤ fmag t := by exact_mod_cast h1
  have h4 : fmag t < 2 ^ 32 * 2 ^ 149 := by exact_mod_cast h2
  unfold ftrunc
  rw [Nat.shiftRight_eq_div_pow]
  exact ⟨(Nat.le_div_iff_mul_le (by positivity)).2 (by omega), Nat.div_lt_of_lt_mul (by rw [mul_comm]; exact h4)⟩

end Sys2Proof.Machine
end

