-- ==== Sys2Proof/Laws/Memory.lean ====
section
/-! SUPPORT. Memories (R70, R73, R76): reading after writing, and that every operation keeps the canonical form. -/

namespace Sys2Proof.Machine

theorem cellsWf_cons {cap lo j : Nat} {v : F32} {cs : List (Nat × F32)} :
    cellsWf cap lo ((j, v) :: cs) = true ↔ lo ≤ j ∧ j < cap ∧ v ≠ 0 ∧ cellsWf cap (j + 1) cs = true := by
  simp [cellsWf, and_assoc]

/-- A canonical list is canonical from any lower index. -/
theorem cellsWf_mono {cap lo lo' : Nat} (h : lo' ≤ lo) {cs : List (Nat × F32)} (hw : cellsWf cap lo cs = true) :
    cellsWf cap lo' cs = true := by
  cases cs with
  | nil => rfl
  | cons e cs =>
    obtain ⟨j, v⟩ := e
    rw [cellsWf_cons] at hw ⊢
    exact ⟨by omega, hw.2⟩

/-- Below its first index a canonical list lists nothing. -/
theorem cellGet_below {cap lo i : Nat} (h : i < lo) {cs : List (Nat × F32)} (hw : cellsWf cap lo cs = true) :
    cellGet cs i = 0 := by
  induction cs generalizing lo with
  | nil => rfl
  | cons e cs ih =>
    obtain ⟨j, v⟩ := e
    rw [cellsWf_cons] at hw
    have hne : j ≠ i := by omega
    rw [cellGet, if_neg hne]
    exact ih (show i < j + 1 by omega) hw.2.2.2

theorem cellsWf_put {cap lo i : Nat} (hlo : lo ≤ i) (hi : i < cap) (v : F32) {cs : List (Nat × F32)}
    (hw : cellsWf cap lo cs = true) : cellsWf cap lo (cellPut cs i v) = true := by
  induction cs generalizing lo with
  | nil =>
    unfold cellPut
    split
    · rfl
    · rename_i hv
      rw [cellsWf_cons]
      exact ⟨hlo, hi, hv, rfl⟩
  | cons e cs ih =>
    obtain ⟨j, w⟩ := e
    have hw' := hw
    rw [cellsWf_cons] at hw
    obtain ⟨h1, h2, h3, h4⟩ := hw
    unfold cellPut
    split
    · rename_i hij
      split
      · exact hw'
      · rename_i hv
        rw [cellsWf_cons, cellsWf_cons]
        exact ⟨hlo, hi, hv, by omega, h2, h3, h4⟩
    · split
      · rename_i hij
        split
        · exact cellsWf_mono (by omega) h4
        · rename_i hv
          rw [cellsWf_cons]
          exact ⟨hlo, hi, hv, hij ▸ h4⟩
      · rw [cellsWf_cons]
        exact ⟨h1, h2, h3, ih (by omega) h4⟩

theorem cellGet_put_same {cap lo i : Nat} (v : F32) {cs : List (Nat × F32)} (hw : cellsWf cap lo cs = true) :
    cellGet (cellPut cs i v) i = v := by
  induction cs generalizing lo with
  | nil =>
    unfold cellPut
    split
    · rename_i hv
      exact hv.symm
    · simp [cellGet]
  | cons e cs ih =>
    obtain ⟨j, w⟩ := e
    have hw' := hw
    rw [cellsWf_cons] at hw
    obtain ⟨h1, h2, h3, h4⟩ := hw
    unfold cellPut
    split
    · rename_i hij
      split
      · rename_i hv
        subst hv
        have hne : j ≠ i := by omega
        rw [cellGet, if_neg hne]
        exact cellGet_below (show i < j + 1 by omega) h4
      · simp [cellGet]
    · split
      · rename_i hij
        subst hij
        split
        · rename_i hv
          subst hv
          exact cellGet_below (Nat.lt_succ_self i) h4
        · simp [cellGet]
      · rename_i hij hne
        have hne : j ≠ i := fun h => hne h.symm
        simp [cellGet, hne, ih h4]

theorem cellGet_put_other {i k : Nat} (hne : k ≠ i) (v : F32) (cs : List (Nat × F32)) :
    cellGet (cellPut cs i v) k = cellGet cs k := by
  have hne' : i ≠ k := fun h => hne h.symm
  induction cs with
  | nil =>
    unfold cellPut
    split <;> simp [cellGet, hne']
  | cons e cs ih =>
    obtain ⟨j, w⟩ := e
    unfold cellPut
    split
    · split <;> simp [cellGet, hne']
    · split
      · rename_i hij
        subst hij
        split <;> simp [cellGet, hne']
      · by_cases hj : j = k <;> simp [cellGet, hj, ih]

@[simp] theorem Memory.set_cap (m : Memory) (i : Nat) (v : F32) : (m.set i v).cap = m.cap := rfl
@[simp] theorem Memory.clear_cap (m : Memory) : m.clear.cap = m.cap := rfl
@[simp] theorem Memory.load_cap (m : Memory) (vs : List F32) : (m.load vs).cap = m.cap := rfl
@[simp] theorem Memory.empty_cap (n : Nat) : (Memory.empty n).cap = n := rfl
@[simp] theorem Memory.empty_get (n i : Nat) : (Memory.empty n).get i = 0 := rfl
@[simp] theorem Memory.empty_wf (n : Nat) : (Memory.empty n).wf = true := rfl

/-- The clear loop of a `FLUSH` leaves the empty memory of that size. -/
theorem Memory.clear_eq (m : Memory) : m.clear = Memory.empty m.cap := rfl

/-- Read after write, the same element. -/
theorem Memory.get_set_same {m : Memory} (h : m.wf = true) (i : Nat) (v : F32) : (m.set i v).get i = v :=
  cellGet_put_same v h

/-- Read after write, another element. -/
theorem Memory.get_set_other {i k : Nat} (h : k ≠ i) (m : Memory) (v : F32) : (m.set i v).get k = m.get k :=
  cellGet_put_other h v m.cells

/-- A write keeps the canonical form. -/
theorem Memory.wf_set {m : Memory} (h : m.wf = true) {i : Nat} (hi : i < m.cap) (v : F32) : (m.set i v).wf = true :=
  cellsWf_put (Nat.zero_le i) hi v h

/-- A clear keeps the canonical form. -/
theorem Memory.wf_clear (m : Memory) : m.clear.wf = true := rfl

theorem cellsWf_load {cap i : Nat} (vs : List F32) {cs : List (Nat × F32)} (hl : i + vs.length ≤ cap)
    (hw : cellsWf cap 0 cs = true) : cellsWf cap 0 (cellLoad cs i vs) = true := by
  induction vs generalizing i cs with
  | nil => exact hw
  | cons v vs ih =>
    simp only [List.length_cons] at hl
    exact ih (by omega) (cellsWf_put (Nat.zero_le i) (by omega) v hw)

theorem cellGet_load_below {i k : Nat} (h : k < i) (vs : List F32) (cs : List (Nat × F32)) :
    cellGet (cellLoad cs i vs) k = cellGet cs k := by
  induction vs generalizing i cs with
  | nil => rfl
  | cons v vs ih =>
    rw [cellLoad, ih (by omega), cellGet_put_other (by omega)]

theorem cellGet_load_above {i k : Nat} (vs : List F32) (h : i + vs.length ≤ k) (cs : List (Nat × F32)) :
    cellGet (cellLoad cs i vs) k = cellGet cs k := by
  induction vs generalizing i cs with
  | nil => rfl
  | cons v vs ih =>
    simp only [List.length_cons] at h
    rw [cellLoad, ih (by omega), cellGet_put_other (by omega)]

theorem cellGet_load_at {cap i k : Nat} {v : F32} (vs : List F32) {cs : List (Nat × F32)} (hl : i + vs.length ≤ cap)
    (hw : cellsWf cap 0 cs = true) (hk : vs[k]? = some v) : cellGet (cellLoad cs i vs) (i + k) = v := by
  induction vs generalizing i k cs with
  | nil => simp at hk
  | cons x vs ih =>
    simp only [List.length_cons] at hl
    cases k with
    | zero =>
      simp only [List.getElem?_cons_zero, Option.some.injEq] at hk
      subst hk
      rw [cellLoad, cellGet_load_below (by omega), Nat.add_zero, cellGet_put_same x hw]
    | succ k =>
      simp only [List.getElem?_cons_succ] at hk
      have := ih (i := i + 1) (by omega) (cellsWf_put (Nat.zero_le i) (by omega) x hw) hk
      rw [cellLoad, ← this]
      congr 1
      omega

/-- A loaded table keeps the canonical form. -/
theorem Memory.wf_load {m : Memory} (h : m.wf = true) {vs : List F32} (hl : vs.length ≤ m.cap) :
    (m.load vs).wf = true := cellsWf_load vs (by simpa using hl) h

/-- A loaded table holds its values. -/
theorem Memory.get_load_at {m : Memory} (h : m.wf = true) {vs : List F32} (hl : vs.length ≤ m.cap) {k : Nat} {v : F32}
    (hk : vs[k]? = some v) : (m.load vs).get k = v := by
  have := cellGet_load_at (i := 0) vs (by omega) h hk
  simpa [Memory.load, Memory.get] using this

/-- Beyond a loaded table nothing changes. -/
theorem Memory.get_load_above (m : Memory) {vs : List F32} {k : Nat} (h : vs.length ≤ k) :
    (m.load vs).get k = m.get k := cellGet_load_above vs (by omega) _

/-- A read in range. -/
theorem Memory.read?_eq {m : Memory} {i : Nat} (h : i < m.cap) : m.read? i = some (m.get i) := by
  simp [Memory.read?, Memory.get, h]

/-- A write in range. -/
theorem Memory.write?_eq {m : Memory} {i : Nat} (h : i < m.cap) (v : F32) : m.write? i v = some (m.set i v) := by
  simp [Memory.write?, Memory.set, h]

/-- No access outside a memory (R76). -/
theorem Memory.read?_none {m : Memory} {i : Nat} (h : m.cap ≤ i) : m.read? i = none := by
  simp [Memory.read?, Nat.not_lt.mpr h]

/-- No access outside a memory (R76). -/
theorem Memory.write?_none {m : Memory} {i : Nat} (h : m.cap ≤ i) (v : F32) : m.write? i v = none := by
  simp [Memory.write?, Nat.not_lt.mpr h]

end Sys2Proof.Machine
end

