-- ==== Sys2Proof/Laws/State.lean ====
section
/-! SUPPORT. Field by field, what each update of State changes and what it leaves; looking units up after an update. -/

namespace Sys2Proof.Machine

/-! ## `putUnit` -/

@[simp] theorem State.putUnit_params (s : State) (u : UnitId) (r : UnitRec) : (s.putUnit u r).params = s.params := rfl
@[simp] theorem State.putUnit_fs (s : State) (u : UnitId) (r : UnitRec) : (s.putUnit u r).fs = s.fs := rfl
@[simp] theorem State.putUnit_fsSet (s : State) (u : UnitId) (r : UnitRec) : (s.putUnit u r).fsSet = s.fsSet := rfl
@[simp] theorem State.putUnit_prng (s : State) (u : UnitId) (r : UnitRec) : (s.putUnit u r).prng = s.prng := rfl
@[simp] theorem State.putUnit_fault (s : State) (u : UnitId) (r : UnitRec) : (s.putUnit u r).fault = s.fault := rfl
@[simp] theorem State.putUnit_cause (s : State) (u : UnitId) (r : UnitRec) : (s.putUnit u r).cause = s.cause := rfl
@[simp] theorem State.putUnit_funit (s : State) (u : UnitId) (r : UnitRec) : (s.putUnit u r).funit = s.funit := rfl
@[simp] theorem State.putUnit_mbox (s : State) (u : UnitId) (r : UnitRec) : (s.putUnit u r).mbox = s.mbox := rfl
@[simp] theorem State.putUnit_cmdIn (s : State) (u : UnitId) (r : UnitRec) : (s.putUnit u r).cmdIn = s.cmdIn := rfl
@[simp] theorem State.putUnit_respOut (s : State) (u : UnitId) (r : UnitRec) : (s.putUnit u r).respOut = s.respOut := rfl
@[simp] theorem State.putUnit_ctlIn (s : State) (u : UnitId) (r : UnitRec) : (s.putUnit u r).ctlIn = s.ctlIn := rfl
@[simp] theorem State.putUnit_ctlOut (s : State) (u : UnitId) (r : UnitRec) : (s.putUnit u r).ctlOut = s.ctlOut := rfl
@[simp] theorem State.putUnit_turns (s : State) (u : UnitId) (r : UnitRec) : (s.putUnit u r).turns = s.turns := rfl
@[simp] theorem State.putUnit_units (s : State) (u : UnitId) (r : UnitRec) : (s.putUnit u r).units = putAt s.units u r := rfl

/-! ## `respond` -/

@[simp] theorem State.respond_params (s : State) (ws : List Word) : (s.respond ws).params = s.params := rfl
@[simp] theorem State.respond_units (s : State) (ws : List Word) : (s.respond ws).units = s.units := rfl
@[simp] theorem State.respond_fs (s : State) (ws : List Word) : (s.respond ws).fs = s.fs := rfl
@[simp] theorem State.respond_fsSet (s : State) (ws : List Word) : (s.respond ws).fsSet = s.fsSet := rfl
@[simp] theorem State.respond_prng (s : State) (ws : List Word) : (s.respond ws).prng = s.prng := rfl
@[simp] theorem State.respond_fault (s : State) (ws : List Word) : (s.respond ws).fault = s.fault := rfl
@[simp] theorem State.respond_cause (s : State) (ws : List Word) : (s.respond ws).cause = s.cause := rfl
@[simp] theorem State.respond_funit (s : State) (ws : List Word) : (s.respond ws).funit = s.funit := rfl
@[simp] theorem State.respond_mbox (s : State) (ws : List Word) : (s.respond ws).mbox = s.mbox := rfl
@[simp] theorem State.respond_cmdIn (s : State) (ws : List Word) : (s.respond ws).cmdIn = s.cmdIn := rfl
@[simp] theorem State.respond_ctlIn (s : State) (ws : List Word) : (s.respond ws).ctlIn = s.ctlIn := rfl
@[simp] theorem State.respond_ctlOut (s : State) (ws : List Word) : (s.respond ws).ctlOut = s.ctlOut := rfl
@[simp] theorem State.respond_turns (s : State) (ws : List Word) : (s.respond ws).turns = s.turns := rfl
@[simp] theorem State.respond_respOut (s : State) (ws : List Word) : (s.respond ws).respOut = s.respOut ++ ws := rfl

/-! ## `withFault` -/

@[simp] theorem State.withFault_params (s : State) (c : BitVec 4) (u : UnitId) : (s.withFault c u).params = s.params := rfl
@[simp] theorem State.withFault_units (s : State) (c : BitVec 4) (u : UnitId) : (s.withFault c u).units = s.units := rfl
@[simp] theorem State.withFault_fs (s : State) (c : BitVec 4) (u : UnitId) : (s.withFault c u).fs = s.fs := rfl
@[simp] theorem State.withFault_fsSet (s : State) (c : BitVec 4) (u : UnitId) : (s.withFault c u).fsSet = s.fsSet := rfl
@[simp] theorem State.withFault_prng (s : State) (c : BitVec 4) (u : UnitId) : (s.withFault c u).prng = s.prng := rfl
@[simp] theorem State.withFault_mbox (s : State) (c : BitVec 4) (u : UnitId) : (s.withFault c u).mbox = s.mbox := rfl
@[simp] theorem State.withFault_cmdIn (s : State) (c : BitVec 4) (u : UnitId) : (s.withFault c u).cmdIn = s.cmdIn := rfl
@[simp] theorem State.withFault_respOut (s : State) (c : BitVec 4) (u : UnitId) : (s.withFault c u).respOut = s.respOut := rfl
@[simp] theorem State.withFault_ctlIn (s : State) (c : BitVec 4) (u : UnitId) : (s.withFault c u).ctlIn = s.ctlIn := rfl
@[simp] theorem State.withFault_ctlOut (s : State) (c : BitVec 4) (u : UnitId) : (s.withFault c u).ctlOut = s.ctlOut := rfl
@[simp] theorem State.withFault_turns (s : State) (c : BitVec 4) (u : UnitId) : (s.withFault c u).turns = s.turns := rfl
@[simp] theorem State.withFault_fault (s : State) (c : BitVec 4) (u : UnitId) : (s.withFault c u).fault = true := rfl
@[simp] theorem State.withFault_cause (s : State) (c : BitVec 4) (u : UnitId) : (s.withFault c u).cause = c := rfl
@[simp] theorem State.withFault_funit (s : State) (c : BitVec 4) (u : UnitId) : (s.withFault c u).funit = u := rfl

/-! ## `answer` -/

@[simp] theorem State.answer_params (s : State) (a : PostAnswer) : (s.answer a).params = s.params := rfl
@[simp] theorem State.answer_units (s : State) (a : PostAnswer) : (s.answer a).units = s.units := rfl
@[simp] theorem State.answer_fs (s : State) (a : PostAnswer) : (s.answer a).fs = s.fs := rfl
@[simp] theorem State.answer_fsSet (s : State) (a : PostAnswer) : (s.answer a).fsSet = s.fsSet := rfl
@[simp] theorem State.answer_prng (s : State) (a : PostAnswer) : (s.answer a).prng = s.prng := rfl
@[simp] theorem State.answer_fault (s : State) (a : PostAnswer) : (s.answer a).fault = s.fault := rfl
@[simp] theorem State.answer_cause (s : State) (a : PostAnswer) : (s.answer a).cause = s.cause := rfl
@[simp] theorem State.answer_funit (s : State) (a : PostAnswer) : (s.answer a).funit = s.funit := rfl
@[simp] theorem State.answer_mbox (s : State) (a : PostAnswer) : (s.answer a).mbox = s.mbox := rfl
@[simp] theorem State.answer_cmdIn (s : State) (a : PostAnswer) : (s.answer a).cmdIn = s.cmdIn := rfl
@[simp] theorem State.answer_respOut (s : State) (a : PostAnswer) : (s.answer a).respOut = s.respOut := rfl
@[simp] theorem State.answer_ctlIn (s : State) (a : PostAnswer) : (s.answer a).ctlIn = s.ctlIn := rfl
@[simp] theorem State.answer_turns (s : State) (a : PostAnswer) : (s.answer a).turns = s.turns := rfl
@[simp] theorem State.answer_ctlOut (s : State) (a : PostAnswer) : (s.answer a).ctlOut = s.ctlOut ++ [a] := rfl

/-! ## `recordFault` -/

@[simp] theorem State.recordFault_params (s : State) (c : Cause) (u : UnitId) : (s.recordFault c u).params = s.params := by
  unfold State.recordFault; split <;> rfl
@[simp] theorem State.recordFault_units (s : State) (c : Cause) (u : UnitId) : (s.recordFault c u).units = s.units := by
  unfold State.recordFault; split <;> rfl
@[simp] theorem State.recordFault_fs (s : State) (c : Cause) (u : UnitId) : (s.recordFault c u).fs = s.fs := by
  unfold State.recordFault; split <;> rfl
@[simp] theorem State.recordFault_fsSet (s : State) (c : Cause) (u : UnitId) : (s.recordFault c u).fsSet = s.fsSet := by
  unfold State.recordFault; split <;> rfl
@[simp] theorem State.recordFault_prng (s : State) (c : Cause) (u : UnitId) : (s.recordFault c u).prng = s.prng := by
  unfold State.recordFault; split <;> rfl
@[simp] theorem State.recordFault_mbox (s : State) (c : Cause) (u : UnitId) : (s.recordFault c u).mbox = s.mbox := by
  unfold State.recordFault; split <;> rfl
@[simp] theorem State.recordFault_cmdIn (s : State) (c : Cause) (u : UnitId) : (s.recordFault c u).cmdIn = s.cmdIn := by
  unfold State.recordFault; split <;> rfl
@[simp] theorem State.recordFault_respOut (s : State) (c : Cause) (u : UnitId) : (s.recordFault c u).respOut = s.respOut := by
  unfold State.recordFault; split <;> rfl
@[simp] theorem State.recordFault_ctlIn (s : State) (c : Cause) (u : UnitId) : (s.recordFault c u).ctlIn = s.ctlIn := by
  unfold State.recordFault; split <;> rfl
@[simp] theorem State.recordFault_ctlOut (s : State) (c : Cause) (u : UnitId) : (s.recordFault c u).ctlOut = s.ctlOut := by
  unfold State.recordFault; split <;> rfl
@[simp] theorem State.recordFault_turns (s : State) (c : Cause) (u : UnitId) : (s.recordFault c u).turns = s.turns := by
  unfold State.recordFault; split <;> rfl
@[simp] theorem State.recordFault_fault (s : State) (c : Cause) (u : UnitId) : (s.recordFault c u).fault = true := by
  unfold State.recordFault; split <;> simp_all

/-- The first fault is recorded. -/
theorem State.recordFault_first {s : State} (h : s.fault = false) (c : Cause) (u : UnitId) :
    s.recordFault c u = s.withFault (causeCode c) u := by
  unfold State.recordFault State.withFault; simp [h]

/-- Later faults are not recorded. -/
theorem State.recordFault_later {s : State} (h : s.fault = true) (c : Cause) (u : UnitId) :
    s.recordFault c u = s := by
  unfold State.recordFault; simp [h]

/-- No response words, no change. -/
@[simp] theorem State.respond_nil (s : State) : s.respond [] = s := by
  cases s; simp [State.respond]

/-- Two responses in a row are one. -/
@[simp] theorem State.respond_respond (s : State) (a b : List Word) : (s.respond a).respond b = s.respond (a ++ b) := by
  simp [State.respond, List.append_assoc]

/-- Units and responses are apart. -/
theorem State.putUnit_respond (s : State) (u : UnitId) (r : UnitRec) (ws : List Word) :
    (s.putUnit u r).respond ws = (s.respond ws).putUnit u r := rfl

/-! ## Looking units up -/

theorem lookup_putAt_same {l : List (UnitId × UnitRec)} {u : UnitId} {r r' : UnitRec} (h : l.lookup u = some r) :
    (putAt l u r').lookup u = some r' := by
  induction l with
  | nil => simp at h
  | cons e l ih =>
    obtain ⟨v, q⟩ := e
    by_cases hv : v = u
    · subst hv; simp [putAt]
    · have hb : (u == v) = false := by simpa using fun hh => hv hh.symm
      simp only [List.lookup, hb] at h
      simp [putAt, hv, List.lookup, hb, ih h]

theorem lookup_putAt_other {u v : UnitId} (hne : v ≠ u) (l : List (UnitId × UnitRec)) (r : UnitRec) :
    (putAt l u r).lookup v = l.lookup v := by
  induction l with
  | nil => rfl
  | cons e l ih =>
    obtain ⟨w, q⟩ := e
    by_cases hw : w = u
    · subst hw
      have hb : (v == w) = false := by simpa using hne
      simp [putAt, List.lookup, hb]
    · simp only [putAt, hw, if_false, List.lookup, ih]

/-- A second record at the same id replaces the first. -/
@[simp] theorem putAt_putAt_same (l : List (UnitId × UnitRec)) (u : UnitId) (r r' : UnitRec) :
    putAt (putAt l u r) u r' = putAt l u r' := by
  induction l with
  | nil => rfl
  | cons e l ih =>
    obtain ⟨w, q⟩ := e
    by_cases hw : w = u <;> simp [putAt, hw, ih]

/-- Records at different ids are put in either order. -/
theorem putAt_comm {u v : UnitId} (hne : u ≠ v) (l : List (UnitId × UnitRec)) (r r' : UnitRec) :
    putAt (putAt l u r) v r' = putAt (putAt l v r') u r := by
  induction l with
  | nil => rfl
  | cons e l ih =>
    obtain ⟨w, q⟩ := e
    by_cases h1 : w = u
    · have h2 : w ≠ v := h1 ▸ hne
      simp [putAt, h1, hne]
    · by_cases h2 : w = v
      · simp [putAt, h2, Ne.symm hne]
      · simp [putAt, h1, h2, ih]

/-- Putting back the record that is there changes nothing. -/
theorem putAt_self {l : List (UnitId × UnitRec)} {u : UnitId} {r : UnitRec} (h : l.lookup u = some r) :
    putAt l u r = l := by
  induction l with
  | nil => rfl
  | cons e l ih =>
    obtain ⟨v, q⟩ := e
    by_cases hv : v = u
    · subst hv; simp [List.lookup] at h; simp [putAt, h]
    · have hb : (u == v) = false := by simpa using fun hh => hv hh.symm
      simp only [List.lookup, hb] at h
      simp [putAt, hv, ih h]

theorem State.unit?_putUnit_same {s : State} {u : UnitId} {r r' : UnitRec} (h : s.unit? u = some r) :
    (s.putUnit u r').unit? u = some r' := lookup_putAt_same h

theorem State.unit?_putUnit_other {u v : UnitId} (hne : v ≠ u) (s : State) (r : UnitRec) :
    (s.putUnit u r).unit? v = s.unit? v := lookup_putAt_other hne _ _

@[simp] theorem State.putUnit_putUnit_same (s : State) (u : UnitId) (r r' : UnitRec) :
    (s.putUnit u r).putUnit u r' = s.putUnit u r' := by
  simp [State.putUnit]

theorem State.putUnit_comm {u v : UnitId} (hne : u ≠ v) (s : State) (r r' : UnitRec) :
    (s.putUnit u r).putUnit v r' = (s.putUnit v r').putUnit u r := by
  simp [State.putUnit, putAt_comm hne]

theorem State.putUnit_self {s : State} {u : UnitId} {r : UnitRec} (h : s.unit? u = some r) : s.putUnit u r = s := by
  cases s; simp_all [State.putUnit, State.unit?, putAt_self]

@[simp] theorem State.unit?_respond (s : State) (ws : List Word) (u : UnitId) :
    (s.respond ws).unit? u = s.unit? u := rfl
@[simp] theorem State.unit?_withFault (s : State) (c : BitVec 4) (v u : UnitId) :
    (s.withFault c v).unit? u = s.unit? u := rfl
@[simp] theorem State.unit?_prng (s : State) (p : BitVec 31) (u : UnitId) :
    ({ s with prng := p } : State).unit? u = s.unit? u := rfl
@[simp] theorem State.unit?_mbox (s : State) (m : List Message) (u : UnitId) :
    ({ s with mbox := m } : State).unit? u = s.unit? u := rfl

/-- A record of another class stands under another id. -/
theorem State.ne_of_unit? {s : State} {u v : UnitId} {r q : UnitRec} (hu : s.unit? u = some r)
    (hv : s.unit? v = some q) (h : r ≠ q) : u ≠ v := by
  rintro rfl; rw [hu] at hv; exact h (Option.some.inj hv)

/-- Replacing a record by one with the same instance-table entry keeps the table (R22, R42). -/
theorem map_entry_putAt {l : List (UnitId × UnitRec)} {u : UnitId} {r r' : UnitRec} (h : l.lookup u = some r)
    (he : r'.entry = r.entry) :
    (putAt l u r').map (fun e => (e.1, e.2.entry)) = l.map fun e => (e.1, e.2.entry) := by
  induction l with
  | nil => rfl
  | cons e l ih =>
    obtain ⟨v, q⟩ := e
    by_cases hv : v = u
    · subst hv; simp [List.lookup] at h; simp [putAt, h, he]
    · have hb : (u == v) = false := by simpa using fun hh => hv hh.symm
      simp only [List.lookup, hb] at h
      simp [putAt, hv, ih h]

theorem State.inst_putUnit {s : State} {u : UnitId} {r r' : UnitRec} (h : s.unit? u = some r)
    (he : r'.entry = r.entry) : (s.putUnit u r').inst = s.inst := map_entry_putAt h he

@[simp] theorem State.inst_respond (s : State) (ws : List Word) : (s.respond ws).inst = s.inst := rfl
@[simp] theorem State.inst_withFault (s : State) (c : BitVec 4) (u : UnitId) : (s.withFault c u).inst = s.inst := rfl

/-- A property of all records survives the replacement of one by a record that has it. -/
theorem all_putAt {l : List (UnitId × UnitRec)} {u : UnitId} {r : UnitRec} {p : UnitRec → Bool}
    (h : (l.all fun e => p e.2) = true) (hr : p r = true) : ((putAt l u r).all fun e => p e.2) = true := by
  induction l with
  | nil => rfl
  | cons e l ih =>
    obtain ⟨v, q⟩ := e
    simp only [List.all_cons, Bool.and_eq_true] at h
    by_cases hv : v = u <;> simp [putAt, hv, hr, h.1, h.2, ih h.2]

/-- A property of all records holds of the one found. -/
theorem all_of_lookup {l : List (UnitId × UnitRec)} {u : UnitId} {r : UnitRec} {p : UnitRec → Bool}
    (h : (l.all fun e => p e.2) = true) (hl : l.lookup u = some r) : p r = true := by
  induction l with
  | nil => simp at hl
  | cons e l ih =>
    obtain ⟨v, q⟩ := e
    simp only [List.all_cons, Bool.and_eq_true] at h
    by_cases hv : u = v
    · subst hv; simp [List.lookup] at hl; exact hl ▸ h.1
    · have hb : (u == v) = false := by simpa using hv
      simp only [List.lookup, hb] at hl
      exact ih h.2 hl

end Sys2Proof.Machine
end

