-- ==== Sys2Proof/Laws/Ops.lean ====
section
/-! SUPPORT. The shared operations: how results compose, when a command reaches its rule, and what each one-unit
operation does on a unit that has what it needs. -/

namespace Sys2Proof.Machine

/-! ## Results -/

@[simp] theorem Res.bind_ok {α β : Type} (a : α) (s : State) (f : α → State → Res β) :
    (Res.ok a s).bind f = f a s := rfl
@[simp] theorem Res.bind_raised {α β : Type} (s : State) (f : α → State → Res β) :
    (Res.raised s : Res α).bind f = .raised s := rfl
@[simp] theorem Res.bind_stop {α β : Type} (e : Fault) (f : α → State → Res β) :
    (Res.stop e : Res α).bind f = .stop e := rfl
@[simp] theorem Res.bind_refuse {α β : Type} (e : Refusal) (f : α → State → Res β) :
    (Res.refuse e : Res α).bind f = .refuse e := rfl
@[simp] theorem Res.map_ok {α β : Type} (a : α) (s : State) (f : α → β) : (Res.ok a s).map f = .ok (f a) s := rfl
@[simp] theorem Res.map_raised {α β : Type} (s : State) (f : α → β) : (Res.raised s : Res α).map f = .raised s := rfl
@[simp] theorem Res.map_stop {α β : Type} (e : Fault) (f : α → β) : (Res.stop e : Res α).map f = .stop e := rfl
@[simp] theorem Res.map_refuse {α β : Type} (e : Refusal) (f : α → β) :
    (Res.refuse e : Res α).map f = .refuse e := rfl

@[simp] theorem conclude_ok (ws : List Word) (s : State) : conclude (.ok ws s) = .next (s.respond ws) := rfl
@[simp] theorem conclude_raised (s : State) : conclude (.raised s) = .next s := rfl
@[simp] theorem conclude_stop (e : Fault) : conclude (.stop e) = .fault e := rfl
@[simp] theorem conclude_refuse (e : Refusal) : conclude (.refuse e) = .refused e := rfl

@[simp] theorem silent_ok (s : State) : silent (.ok () s) = .ok [] s := rfl
@[simp] theorem silent_raised (s : State) : silent (.raised s) = .raised s := rfl
@[simp] theorem single_ok (y : Word) (s : State) : single (.ok y s) = .ok [y] s := rfl
@[simp] theorem single_raised (s : State) : single (.raised s) = .raised s := rfl
@[simp] theorem single_refuse (e : Refusal) : single (.refuse e) = .refuse e := rfl

@[simp] theorem require_true (c : Cause) (u : UnitId) (s : State) : require true c u s = .ok () s := rfl
@[simp] theorem require_false (c : Cause) (u : UnitId) (s : State) :
    require false c u s = .raised (s.recordFault c u) := rfl
@[simp] theorem needCfg_true (u : UnitId) (s : State) : needCfg true u s = .ok () s := rfl
@[simp] theorem needCfg_false (u : UnitId) (s : State) :
    needCfg false u s = .raised (s.recordFault .notSetup u) := rfl
theorem needFs_set {s : State} (h : s.fsSet = true) : needFs s = .ok s.fs s := by simp [needFs, h]
theorem needFs_unset {s : State} (h : s.fsSet = false) : needFs s = .raised (s.recordFault .notSetup 0) := by
  simp [needFs, h, raise]
@[simp] theorem put_eq (u : UnitId) (r : UnitRec) (s : State) : put u r s = .ok () (s.putUnit u r) := rfl
@[simp] theorem draw_eq (s : State) : draw s = .ok (prngNext s.prng) { s with prng := prngNext s.prng } := rfl

/-- A read in range. -/
theorem memRead_eq {m : Memory} {i : Nat} (h : i < m.cap) (u : UnitId) (s : State) :
    memRead u m i s = .ok (m.get i) s := by simp [memRead, Memory.read?_eq h]
/-- A write in range. -/
theorem memWrite_eq {m : Memory} {i : Nat} (h : i < m.cap) (u : UnitId) (v : F32) (s : State) :
    memWrite u m i v s = .ok (m.set i v) s := by simp [memWrite, Memory.write?_eq h]
/-- A ROM element in range. -/
theorem romRead_eq {α : Type} {t : List α} {i : Nat} {v : α} (h : t[i]? = some v) (u : UnitId) (s : State) :
    romRead u t i s = .ok v s := by simp [romRead, h]

/-! ## Reaching the rule of a command -/

/-- After a fault a command is ignored (R368). -/
theorem command_faulted {s : State} (h : s.fault = true) (u : UnitId) (c : UnitClass)
    (body : State → Res (List Word)) : command u c body s = .next s := by simp [command, h]
/-- After a fault a command of class SYS is ignored (R368). -/
theorem sysCommand_faulted {s : State} (h : s.fault = true) (body : State → Res (List Word)) :
    sysCommand body s = .next s := by simp [sysCommand, h]
/-- Check (2) of R109 passed. -/
theorem command_reaches {s : State} {u : UnitId} {c : UnitClass} (hf : s.fault = false) (hc : s.classOf u = some c)
    (body : State → Res (List Word)) : command u c body s = conclude (body s) := by
  simp [command, hf, checked, hc]
/-- Check (2) of R109 failed. -/
theorem command_wrongClass {s : State} {u : UnitId} {c : UnitClass} (hf : s.fault = false) (hc : s.classOf u ≠ some c)
    (body : State → Res (List Word)) : command u c body s = .next (s.withFault 1 u) := by
  simp [command, hf, checked, hc, raise, State.recordFault_first hf, causeCode]
/-- A command of class SYS has no unit to check. -/
theorem sysCommand_reaches {s : State} (hf : s.fault = false) (body : State → Res (List Word)) :
    sysCommand body s = conclude (body s) := by simp [sysCommand, hf]

/-- The class of a unit that is there. -/
theorem State.classOf_of_unit? {s : State} {u : UnitId} {r : UnitRec} (h : s.unit? u = some r) :
    s.classOf u = some r.cls := by simp [State.classOf, h]

/-! ## Units of a class -/

theorem getBq_eq {s : State} {u : UnitId} {r : Bq} (h : s.unit? u = some (.bq r)) : getBq u s = .ok r s := by
  simp [getBq, h]
theorem getFo_eq {s : State} {u : UnitId} {r : Fo} (h : s.unit? u = some (.fo r)) : getFo u s = .ok r s := by
  simp [getFo, h]
theorem getFir_eq {s : State} {u : UnitId} {r : Fir} (h : s.unit? u = some (.fir r)) : getFir u s = .ok r s := by
  simp [getFir, h]
theorem getDl_eq {s : State} {u : UnitId} {r : Dl} (h : s.unit? u = some (.dl r)) : getDl u s = .ok r s := by
  simp [getDl, h]
theorem getFd_eq {s : State} {u : UnitId} {r : Fd} (h : s.unit? u = some (.fd r)) : getFd u s = .ok r s := by
  simp [getFd, h]
theorem getWs_eq {s : State} {u : UnitId} {r : Ws} (h : s.unit? u = some (.ws r)) : getWs u s = .ok r s := by
  simp [getWs, h]
theorem getTs_eq {s : State} {u : UnitId} {r : Ts} (h : s.unit? u = some (.ts r)) : getTs u s = .ok r s := by
  simp [getTs, h]
theorem getPa_eq {s : State} {u : UnitId} {r : Pa} (h : s.unit? u = some (.pa r)) : getPa u s = .ok r s := by
  simp [getPa, h]
theorem getApf_eq {s : State} {u : UnitId} {r : Apf} (h : s.unit? u = some (.apf r)) : getApf u s = .ok r s := by
  simp [getApf, h]
theorem getCmb_eq {s : State} {u : UnitId} {r : Cmb} (h : s.unit? u = some (.cmb r)) : getCmb u s = .ok r s := by
  simp [getCmb, h]
theorem getRv_eq {s : State} {u : UnitId} {r : Rv} (h : s.unit? u = some (.rv r)) : getRv u s = .ok r s := by
  simp [getRv, h]
theorem getKs_eq {s : State} {u : UnitId} {r : Ks} (h : s.unit? u = some (.ks r)) : getKs u s = .ok r s := by
  simp [getKs, h]
theorem getVb_eq {s : State} {u : UnitId} {r : Vb} (h : s.unit? u = some (.vb r)) : getVb u s = .ok r s := by
  simp [getVb, h]
theorem getDm_eq {s : State} {u : UnitId} {r : Dm} (h : s.unit? u = some (.dm r)) : getDm u s = .ok r s := by
  simp [getDm, h]

theorem State.bq_eq {s : State} {u : UnitId} {r : Bq} (h : s.unit? u = some (.bq r)) : s.bq u = r := by
  simp [State.bq, h]
theorem State.fo_eq {s : State} {u : UnitId} {r : Fo} (h : s.unit? u = some (.fo r)) : s.fo u = r := by
  simp [State.fo, h]
theorem State.fir_eq {s : State} {u : UnitId} {r : Fir} (h : s.unit? u = some (.fir r)) : s.fir u = r := by
  simp [State.fir, h]
theorem State.dl_eq {s : State} {u : UnitId} {r : Dl} (h : s.unit? u = some (.dl r)) : s.dl u = r := by
  simp [State.dl, h]
theorem State.fd_eq {s : State} {u : UnitId} {r : Fd} (h : s.unit? u = some (.fd r)) : s.fd u = r := by
  simp [State.fd, h]
theorem State.ws_eq {s : State} {u : UnitId} {r : Ws} (h : s.unit? u = some (.ws r)) : s.ws u = r := by
  simp [State.ws, h]
theorem State.ts_eq {s : State} {u : UnitId} {r : Ts} (h : s.unit? u = some (.ts r)) : s.ts u = r := by
  simp [State.ts, h]
theorem State.pa_eq {s : State} {u : UnitId} {r : Pa} (h : s.unit? u = some (.pa r)) : s.pa u = r := by
  simp [State.pa, h]
theorem State.apf_eq {s : State} {u : UnitId} {r : Apf} (h : s.unit? u = some (.apf r)) : s.apf u = r := by
  simp [State.apf, h]
theorem State.cmb_eq {s : State} {u : UnitId} {r : Cmb} (h : s.unit? u = some (.cmb r)) : s.cmb u = r := by
  simp [State.cmb, h]
theorem State.rv_eq {s : State} {u : UnitId} {r : Rv} (h : s.unit? u = some (.rv r)) : s.rv u = r := by
  simp [State.rv, h]
theorem State.ks_eq {s : State} {u : UnitId} {r : Ks} (h : s.unit? u = some (.ks r)) : s.ks u = r := by
  simp [State.ks, h]
theorem State.vb_eq {s : State} {u : UnitId} {r : Vb} (h : s.unit? u = some (.vb r)) : s.vb u = r := by
  simp [State.vb, h]
theorem State.dm_eq {s : State} {u : UnitId} {r : Dm} (h : s.unit? u = some (.dm r)) : s.dm u = r := by
  simp [State.dm, h]

/-- A class determines the form of the record. -/
theorem State.exists_of_classOf {s : State} {u : UnitId} {c : UnitClass} (h : s.classOf u = some c) :
    ∃ r, s.unit? u = some r ∧ r.cls = c := by
  unfold State.classOf at h
  cases hu : s.unit? u with
  | none => simp [hu] at h
  | some r => exact ⟨r, rfl, by simpa [hu] using h⟩

/-! ## One-unit operations -/

/-- `BQ.STEP` on a biquad that is set up. -/
theorem bqStep_ready {s : State} {u : UnitId} {b : Bq} (h : s.unit? u = some (.bq b)) (hc : b.cfg = true) (x : F32) :
    bqStep u x s = .ok (bqOut b x) (s.putUnit u (.bq (bqNext b x))) := by
  simp [bqStep, getBq_eq h, hc]; exact ⟨rfl, rfl⟩
/-- `BQ.STEP` on a biquad that is not set up. -/
theorem bqStep_unset {s : State} {u : UnitId} {b : Bq} (h : s.unit? u = some (.bq b)) (hc : b.cfg = false) (x : F32) :
    bqStep u x s = .raised (s.recordFault .notSetup u) := by simp [bqStep, getBq_eq h, hc]
/-- `FO.STEP` on a section that is set up. -/
theorem foStep_ready {s : State} {u : UnitId} {r : Fo} (h : s.unit? u = some (.fo r)) (hc : r.cfg = true) (x : F32) :
    foStep u x s = .ok (foOut r x) (s.putUnit u (.fo (foNext r x))) := by
  simp [foStep, getFo_eq h, hc]; exact ⟨rfl, rfl⟩
/-- `FO.STEP` on a section that is not set up. -/
theorem foStep_unset {s : State} {u : UnitId} {r : Fo} (h : s.unit? u = some (.fo r)) (hc : r.cfg = false) (x : F32) :
    foStep u x s = .raised (s.recordFault .notSetup u) := by simp [foStep, getFo_eq h, hc]

/-- The taps of a convolution, all in range. -/
theorem firTaps_eq {c h : Memory} (hh : 0 < h.cap) (u : UnitId) (p : Nat) (s : State) (left : Nat) :
    ∀ (k : Nat) (acc : F32), k + left ≤ c.cap → firTaps u c h p k left acc s = .ok (convFrom c h p k left acc) s := by
  induction left with
  | zero => intro k acc _; rfl
  | succ left ih =>
    intro k acc hk
    simp [firTaps, convFrom, memRead_eq (show k < c.cap by omega),
      memRead_eq (Nat.mod_lt (p + h.cap - k) hh), ih (k + 1) _ (by omega)]

/-- `FIR.STEP` on a filter that is set up. -/
theorem firStep_ready {s : State} {u : UnitId} {r : Fir} (h : s.unit? u = some (.fir r)) (hc : r.cfg = true)
    (ho : 1 ≤ r.c.cap) (hp : r.pos < r.h.cap) (x : F32) :
    firStep u x s = .ok (firOut r x) (s.putUnit u (.fir (firNext r x))) := by
  have hs : r.pos < (r.h.set r.pos x).cap := hp
  have ht := fun acc => firTaps_eq (c := r.c) (h := r.h.set r.pos x) (Nat.lt_of_le_of_lt (Nat.zero_le _) hs) u r.pos s
    (r.c.cap - 1) 1 acc (by omega)
  simp [firStep, getFir_eq h, hc, memWrite_eq hp, memRead_eq (show 0 < r.c.cap by omega), memRead_eq hs, ht, firOut,
    firNext]
/-- `FIR.STEP` on a filter that is not set up. -/
theorem firStep_unset {s : State} {u : UnitId} {r : Fir} (h : s.unit? u = some (.fir r)) (hc : r.cfg = false)
    (x : F32) : firStep u x s = .raised (s.recordFault .notSetup u) := by simp [firStep, getFir_eq h, hc]

/-- `DL.PEEK` on a line that is set up. -/
theorem dlPeek_ready {s : State} {u : UnitId} {r : Dl} (h : s.unit? u = some (.dl r)) (hc : r.cfg = true)
    (he : r.extractFrom < r.buf.cap) : dlPeek u s = .ok (dlOut r) s := by
  simp [dlPeek, getDl_eq h, hc, memRead_eq he, dlOut]
/-- `DL.STEP` on a line that is set up. -/
theorem dlStep_ready {s : State} {u : UnitId} {r : Dl} (h : s.unit? u = some (.dl r)) (hc : r.cfg = true)
    (he : r.extractFrom < r.buf.cap) (hi : r.insertAt < r.buf.cap) (x : F32) :
    dlStep u x s = .ok (dlOut r) (s.putUnit u (.dl (dlNext r x))) := by
  simp [dlStep, getDl_eq h, hc, memRead_eq he, memWrite_eq hi, dlOut, dlNext]
/-- `DL.STEP` on a line that is not set up. -/
theorem dlStep_unset {s : State} {u : UnitId} {r : Dl} (h : s.unit? u = some (.dl r)) (hc : r.cfg = false)
    (x : F32) : dlStep u x s = .raised (s.recordFault .notSetup u) := by simp [dlStep, getDl_eq h, hc]
/-- `DL.PEEK` on a line that is not set up. -/
theorem dlPeek_unset {s : State} {u : UnitId} {r : Dl} (h : s.unit? u = some (.dl r)) (hc : r.cfg = false) :
    dlPeek u s = .raised (s.recordFault .notSetup u) := by simp [dlPeek, getDl_eq h, hc]
/-- `DL.SETUP` with a length the line can hold. -/
theorem dlSetup_fits {s : State} {u : UnitId} {r : Dl} (h : s.unit? u = some (.dl r)) {n : Nat} (h1 : n ≠ 0)
    (h2 : n ≤ r.buf.cap) : dlSetup u n s = .ok () (setupDl u n s) := by
  simp [dlSetup, getDl_eq h, h1, h2, setupDl, State.dl_eq h]
/-- `DL.SETUP` with another length. -/
theorem dlSetup_refuses {s : State} {u : UnitId} {r : Dl} (h : s.unit? u = some (.dl r)) {n : Nat}
    (hn : n = 0 ∨ r.buf.cap < n) : dlSetup u n s = .raised (s.recordFault .delayLen u) := by
  have : (decide (n ≠ 0) && decide (n ≤ r.buf.cap)) = false := by
    rcases hn with hn | hn
    · simp [hn]
    · simp [Nat.not_le.mpr hn]
  simp only [dlSetup, getDl_eq h, Res.bind_ok, this, require_false, Res.bind_raised]

/-- `FD.PEEK` on a line that is set up. -/
theorem fdPeek_ready {s : State} {u : UnitId} {r : Fd} (h : s.unit? u = some (.fd r)) (hc : r.cfg = true)
    (he : r.extractFrom < r.buf.cap) : fdPeek u s = .ok (fdOut r) s := by
  simp [fdPeek, getFd_eq h, hc, memRead_eq he, memRead_eq (Nat.mod_lt (r.extractFrom + 1) (show 0 < r.buf.cap by omega)),
    fdOut, fdBlend]
/-- `FD.STEP` on a line that is set up. -/
theorem fdStep_ready {s : State} {u : UnitId} {r : Fd} (h : s.unit? u = some (.fd r)) (hc : r.cfg = true)
    (he : r.extractFrom < r.buf.cap) (hi : r.insertAt < r.buf.cap) (x : F32) :
    fdStep u x s = .ok (fdOut r) (s.putUnit u (.fd (fdNext r x))) := by
  simp [fdStep, fdPeek_ready h hc he, getFd_eq h, memWrite_eq hi, fdNext]
/-- `FD.PEEK` on a line that is not set up. -/
theorem fdPeek_unset {s : State} {u : UnitId} {r : Fd} (h : s.unit? u = some (.fd r)) (hc : r.cfg = false) :
    fdPeek u s = .raised (s.recordFault .notSetup u) := by simp [fdPeek, getFd_eq h, hc]
/-- `FD.STEP` on a line that is not set up. -/
theorem fdStep_unset {s : State} {u : UnitId} {r : Fd} (h : s.unit? u = some (.fd r)) (hc : r.cfg = false)
    (x : F32) : fdStep u x s = .raised (s.recordFault .notSetup u) := by simp [fdStep, fdPeek_unset h hc]
/-- `FD.SETUP` with a length the line accepts. -/
theorem fdSetup_fits {s : State} {u : UnitId} {r : Fd} (h : s.unit? u = some (.fd r)) {n : F32}
    (hn : fdAccepts n r.buf.cap = true) : fdSetup u n s = .ok () (setupFd u n s) := by
  have hn' : fdLengthOk n r.buf.cap = true := hn
  simp [fdSetup, getFd_eq h, hn', setupFd, State.fd_eq h]
/-- `FD.SETUP` with another length. -/
theorem fdSetup_refuses {s : State} {u : UnitId} {r : Fd} (h : s.unit? u = some (.fd r)) {n : F32}
    (hn : fdAccepts n r.buf.cap = false) : fdSetup u n s = .raised (s.recordFault .delayLen u) := by
  have hn' : fdLengthOk n r.buf.cap = false := hn
  simp [fdSetup, getFd_eq h, hn']

/-- `WS.STEP` on a waveshaper that is set up, for a value that is not NaN. -/
theorem wsStep_ready {s : State} {u : UnitId} {r : Ws} (h : s.unit? u = some (.ws r)) (hc : r.cfg = true)
    (h2 : 2 ≤ r.len) (hl : r.len ≤ r.tab.cap) {x : F32} (hx : isNaN x = false) :
    wsStep u x s = .ok (wsOut r x) s := by
  have h0 : 0 < r.tab.cap := by omega
  have hlast : r.len - 1 < r.tab.cap := by omega
  simp only [wsStep, getWs_eq h, Res.bind_ok, hc, needCfg_true, hx, Bool.false_eq_true, if_false, memRead_eq h0,
    memRead_eq hlast, wsOut]
  split
  · rfl
  · split
    · rfl
    · have hpos : fmul (wsPosition x r.min r.max) (f32OfNat (r.len - 1)) = wsPos r x := rfl
      simp only [wsInterpolate, hpos, memRead_eq hlast]
      split
      · rfl
      · rename_i hi
        simp [memRead_eq (show ftrunc (wsPos r x) < r.tab.cap by omega),
          memRead_eq (show ftrunc (wsPos r x) + 1 < r.tab.cap by omega)]
/-- `WS.STEP` on a waveshaper that is not set up. -/
theorem wsStep_unset {s : State} {u : UnitId} {r : Ws} (h : s.unit? u = some (.ws r)) (hc : r.cfg = false)
    (x : F32) : wsStep u x s = .raised (s.recordFault .notSetup u) := by simp [wsStep, getWs_eq h, hc]
/-- A NaN at a waveshaper is refused (R232, U6). -/
theorem wsStep_nan {s : State} {u : UnitId} {r : Ws} (h : s.unit? u = some (.ws r)) (hc : r.cfg = true) {x : F32}
    (hx : isNaN x = true) : wsStep u x s = .refuse (.waveshaperNaN u) := by simp [wsStep, getWs_eq h, hc, hx]

/-- `BQ.FLUSH`. -/
theorem bqFlush_eq {s : State} {u : UnitId} {b : Bq} (h : s.unit? u = some (.bq b)) :
    bqFlush u s = .ok () (flushBq u s) := by simp [bqFlush, getBq_eq h, flushBq, State.bq_eq h]
/-- `FO.FLUSH`. -/
theorem foFlush_eq {s : State} {u : UnitId} {r : Fo} (h : s.unit? u = some (.fo r)) :
    foFlush u s = .ok () (flushFo u s) := by simp [foFlush, getFo_eq h, flushFo, State.fo_eq h]
/-- `FIR.FLUSH`. -/
theorem firFlush_eq {s : State} {u : UnitId} {r : Fir} (h : s.unit? u = some (.fir r)) :
    firFlush u s = .ok () (flushFir u s) := by
  simp [firFlush, getFir_eq h, flushFir, State.fir_eq h, Memory.clear_eq]
/-- `DL.FLUSH`. -/
theorem dlFlush_eq {s : State} {u : UnitId} {r : Dl} (h : s.unit? u = some (.dl r)) :
    dlFlush u s = .ok () (flushDl u s) := by
  simp [dlFlush, getDl_eq h, flushDl, State.dl_eq h, Memory.clear_eq]
/-- `FD.FLUSH`. -/
theorem fdFlush_eq {s : State} {u : UnitId} {r : Fd} (h : s.unit? u = some (.fd r)) :
    fdFlush u s = .ok () (flushFd u s) := by
  simp [fdFlush, getFd_eq h, flushFd, State.fd_eq h, Memory.clear_eq]
/-- `WS.FLUSH`. -/
theorem wsFlush_eq {s : State} {u : UnitId} {r : Ws} (h : s.unit? u = some (.ws r)) : wsFlush u s = .ok () s := by
  simp [wsFlush, getWs_eq h]

end Sys2Proof.Machine
end

