-- ==== Sys2Proof/Laws/Inv.lean ====
section
/-! SUPPORT. What the invariant gives at a unit, how it survives the updates commands make, and the generator's range. -/

namespace Sys2Proof.Machine

/-! ## The instance table seen through the units -/

theorem lookup_map_entry (l : List (UnitId × UnitRec)) (u : UnitId) :
    (l.map fun e => (e.1, e.2.entry)).lookup u = (l.lookup u).map UnitRec.entry := by
  induction l with
  | nil => rfl
  | cons e l ih =>
    obtain ⟨v, q⟩ := e
    by_cases hv : u = v
    · subst hv; simp [List.lookup]
    · have hb : (u == v) = false := by simpa using hv
      simp [List.lookup, hb, ih]

theorem State.inst_lookup (s : State) (u : UnitId) : s.inst.lookup u = (s.unit? u).map UnitRec.entry :=
  lookup_map_entry s.units u

theorem State.inst_classOf (s : State) (u : UnitId) : InstTable.classOf s.inst u = s.classOf u := by
  unfold InstTable.classOf State.classOf
  rw [State.inst_lookup, Option.map_map]
  rfl

theorem mem_of_lookup {β : Type} {l : List (UnitId × β)} {u : UnitId} {r : β} (h : l.lookup u = some r) :
    (u, r) ∈ l := by
  induction l with
  | nil => simp at h
  | cons e l ih =>
    obtain ⟨v, q⟩ := e
    by_cases hv : u = v
    · subst hv; simp [List.lookup] at h; simp [h]
    · have hb : (u == v) = false := by simpa using hv
      simp only [List.lookup, hb] at h
      exact List.mem_cons_of_mem _ (ih h)

theorem InstTable.wf_iff (t : InstTable) : t.wf = true ↔
    (t.map fun e => e.1.toNat).Pairwise (· < ·) ∧ (∀ e ∈ t, e.1 ≠ 0 ∧ e.2.wf = true) ∧
    (∀ c ∈ t.children, t.classOf c.1 = some c.2) ∧ (t.children.map fun c => c.1).Nodup := by
  simp only [InstTable.wf, Bool.and_eq_true, decide_eq_true_eq, List.all_eq_true, and_assoc]

/-! ## What the invariant gives -/

theorem State.Inv.unitWf {s : State} (h : s.Inv) {u : UnitId} {r : UnitRec} (hu : s.unit? u = some r) :
    r.wf s.params = true := all_of_lookup h.units hu

theorem State.Inv.entry_mem {s : State} {u : UnitId} {r : UnitRec} (hu : s.unit? u = some r) :
    (u, r.entry) ∈ s.inst := mem_of_lookup (by rw [State.inst_lookup, hu]; rfl)

theorem State.Inv.entryWf {s : State} (h : s.Inv) {u : UnitId} {r : UnitRec} (hu : s.unit? u = some r) :
    r.entry.wf = true := (((InstTable.wf_iff _).1 h.inst).2.1 _ (State.Inv.entry_mem hu)).2

/-- Every child is there with its class (R22). -/
theorem State.Inv.child {s : State} (h : s.Inv) {u : UnitId} {r : UnitRec} (hu : s.unit? u = some r)
    {c : UnitId × UnitClass} (hc : c ∈ r.entry.children) : s.classOf c.1 = some c.2 := by
  rw [← State.inst_classOf]
  exact ((InstTable.wf_iff _).1 h.inst).2.2.1 _ (List.mem_flatMap.2 ⟨_, State.Inv.entry_mem hu, hc⟩)

/-- The children of one unit are pairwise different (R22). -/
theorem State.Inv.children_nodup {s : State} (h : s.Inv) {u : UnitId} {r : UnitRec} (hu : s.unit? u = some r) :
    (r.entry.children.map fun c => c.1).Nodup := by
  have hn := ((InstTable.wf_iff _).1 h.inst).2.2.2
  have hsub : (r.entry.children.map fun c => c.1).Sublist (s.inst.children.map fun c => c.1) := by
    refine List.Sublist.map _ ?_
    obtain ⟨a, b, hab⟩ := List.append_of_mem (State.Inv.entry_mem hu)
    unfold InstTable.children
    rw [hab, List.flatMap_append, List.flatMap_cons]
    exact (List.sublist_append_left _ _).trans (List.sublist_append_right _ _)
  exact hsub.nodup hn

theorem State.Inv.bq_of_class {s : State} {u : UnitId} (h : s.classOf u = some .bq) :
    ∃ b, s.unit? u = some (.bq b) := by
  obtain ⟨r, hr, hc⟩ := State.exists_of_classOf h
  cases r <;> first | exact ⟨_, hr⟩ | simp [UnitRec.cls, UnitRec.entry, InstEntry.cls] at hc
theorem State.Inv.fo_of_class {s : State} {u : UnitId} (h : s.classOf u = some .fo) :
    ∃ b, s.unit? u = some (.fo b) := by
  obtain ⟨r, hr, hc⟩ := State.exists_of_classOf h
  cases r <;> first | exact ⟨_, hr⟩ | simp [UnitRec.cls, UnitRec.entry, InstEntry.cls] at hc
theorem State.Inv.fir_of_class {s : State} {u : UnitId} (h : s.classOf u = some .fir) :
    ∃ b, s.unit? u = some (.fir b) := by
  obtain ⟨r, hr, hc⟩ := State.exists_of_classOf h
  cases r <;> first | exact ⟨_, hr⟩ | simp [UnitRec.cls, UnitRec.entry, InstEntry.cls] at hc
theorem State.Inv.dl_of_class {s : State} {u : UnitId} (h : s.classOf u = some .dl) :
    ∃ b, s.unit? u = some (.dl b) := by
  obtain ⟨r, hr, hc⟩ := State.exists_of_classOf h
  cases r <;> first | exact ⟨_, hr⟩ | simp [UnitRec.cls, UnitRec.entry, InstEntry.cls] at hc
theorem State.Inv.fd_of_class {s : State} {u : UnitId} (h : s.classOf u = some .fd) :
    ∃ b, s.unit? u = some (.fd b) := by
  obtain ⟨r, hr, hc⟩ := State.exists_of_classOf h
  cases r <;> first | exact ⟨_, hr⟩ | simp [UnitRec.cls, UnitRec.entry, InstEntry.cls] at hc
theorem State.Inv.ws_of_class {s : State} {u : UnitId} (h : s.classOf u = some .ws) :
    ∃ b, s.unit? u = some (.ws b) := by
  obtain ⟨r, hr, hc⟩ := State.exists_of_classOf h
  cases r <;> first | exact ⟨_, hr⟩ | simp [UnitRec.cls, UnitRec.entry, InstEntry.cls] at hc
theorem State.Inv.ts_of_class {s : State} {u : UnitId} (h : s.classOf u = some .ts) :
    ∃ b, s.unit? u = some (.ts b) := by
  obtain ⟨r, hr, hc⟩ := State.exists_of_classOf h
  cases r <;> first | exact ⟨_, hr⟩ | simp [UnitRec.cls, UnitRec.entry, InstEntry.cls] at hc
theorem State.Inv.pa_of_class {s : State} {u : UnitId} (h : s.classOf u = some .pa) :
    ∃ b, s.unit? u = some (.pa b) := by
  obtain ⟨r, hr, hc⟩ := State.exists_of_classOf h
  cases r <;> first | exact ⟨_, hr⟩ | simp [UnitRec.cls, UnitRec.entry, InstEntry.cls] at hc
theorem State.Inv.apf_of_class {s : State} {u : UnitId} (h : s.classOf u = some .apf) :
    ∃ b, s.unit? u = some (.apf b) := by
  obtain ⟨r, hr, hc⟩ := State.exists_of_classOf h
  cases r <;> first | exact ⟨_, hr⟩ | simp [UnitRec.cls, UnitRec.entry, InstEntry.cls] at hc
theorem State.Inv.cmb_of_class {s : State} {u : UnitId} (h : s.classOf u = some .cmb) :
    ∃ b, s.unit? u = some (.cmb b) := by
  obtain ⟨r, hr, hc⟩ := State.exists_of_classOf h
  cases r <;> first | exact ⟨_, hr⟩ | simp [UnitRec.cls, UnitRec.entry, InstEntry.cls] at hc
theorem State.Inv.rv_of_class {s : State} {u : UnitId} (h : s.classOf u = some .rv) :
    ∃ b, s.unit? u = some (.rv b) := by
  obtain ⟨r, hr, hc⟩ := State.exists_of_classOf h
  cases r <;> first | exact ⟨_, hr⟩ | simp [UnitRec.cls, UnitRec.entry, InstEntry.cls] at hc
theorem State.Inv.ks_of_class {s : State} {u : UnitId} (h : s.classOf u = some .ks) :
    ∃ b, s.unit? u = some (.ks b) := by
  obtain ⟨r, hr, hc⟩ := State.exists_of_classOf h
  cases r <;> first | exact ⟨_, hr⟩ | simp [UnitRec.cls, UnitRec.entry, InstEntry.cls] at hc
theorem State.Inv.vb_of_class {s : State} {u : UnitId} (h : s.classOf u = some .vb) :
    ∃ b, s.unit? u = some (.vb b) := by
  obtain ⟨r, hr, hc⟩ := State.exists_of_classOf h
  cases r <;> first | exact ⟨_, hr⟩ | simp [UnitRec.cls, UnitRec.entry, InstEntry.cls] at hc
theorem State.Inv.dm_of_class {s : State} {u : UnitId} (h : s.classOf u = some .dm) :
    ∃ b, s.unit? u = some (.dm b) := by
  obtain ⟨r, hr, hc⟩ := State.exists_of_classOf h
  cases r <;> first | exact ⟨_, hr⟩ | simp [UnitRec.cls, UnitRec.entry, InstEntry.cls] at hc

/-! ## How the invariant survives -/

/-- A unit's record replaced by a well-formed one with the same table entry. -/
theorem State.Inv.putUnit {s : State} (h : s.Inv) {u : UnitId} {r r' : UnitRec} (hu : s.unit? u = some r)
    (he : r'.entry = r.entry) (hw : r'.wf s.params = true) : (s.putUnit u r').Inv where
  params := h.params
  inst := by rw [State.inst_putUnit hu he]; exact h.inst
  defaults := by rw [State.inst_putUnit hu he]; exact h.defaults
  units := all_putAt h.units hw
  fs := h.fs
  prng := h.prng
  faultRegs := h.faultRegs
  mbox := h.mbox

/-- Responses are no part of the invariant. -/
theorem State.Inv.respond {s : State} (h : s.Inv) (ws : List Word) : (s.respond ws).Inv :=
  ⟨h.params, h.inst, h.defaults, h.units, h.fs, h.prng, h.faultRegs, h.mbox⟩

/-- A fault recorded with a cause the block can raise (R362). -/
theorem State.Inv.withFault {s : State} (h : s.Inv) {c : BitVec 4} (hc : 1 ≤ c.toNat ∧ c.toNat ≤ 9 ∧ c ≠ 6)
    (u : UnitId) : (s.withFault c u).Inv :=
  ⟨h.params, h.inst, h.defaults, h.units, h.fs, h.prng, by
    rw [State.faultRegsWf, if_pos (State.withFault_fault s c u)]
    rw [Bool.and_eq_true, Bool.and_eq_true]
    exact ⟨⟨decide_eq_true hc.1, decide_eq_true hc.2.1⟩, decide_eq_true hc.2.2⟩, h.mbox⟩

/-- A recorded fault keeps the invariant; `BUF_LEN` is never raised (R362). -/
theorem State.Inv.recordFault {s : State} (h : s.Inv) {c : Cause} (hc : c ≠ .bufLen) (u : UnitId) :
    (s.recordFault c u).Inv := by
  cases hf : s.fault with
  | true => rw [State.recordFault_later hf]; exact h
  | false =>
    rw [State.recordFault_first hf]
    exact h.withFault (by cases c <;> simp_all [causeCode]) u

/-- One draw keeps the generator in its range (R146). -/
theorem prngNext_range {p : BitVec 31} (h1 : 1 ≤ p.toNat) (h2 : p.toNat ≤ 2147483646) :
    1 ≤ (prngNext p).toNat ∧ (prngNext p).toNat ≤ 2147483646 := by
  have hlt : 16807 * p.toNat % 2147483647 < 2147483647 := Nat.mod_lt _ (by decide)
  have hval : (prngNext p).toNat = 16807 * p.toNat % 2147483647 := by
    simp only [prngNext, BitVec.toNat_ofNat]
    exact Nat.mod_eq_of_lt (by omega)
  rw [hval]
  refine ⟨?_, by omega⟩
  have hne : 16807 * p.toNat % 2147483647 ≠ 0 := by
    intro h0
    have hd : 2147483647 ∣ 16807 * p.toNat := Nat.dvd_of_mod_eq_zero h0
    have hcop : Nat.Coprime 2147483647 16807 := by decide +kernel
    have := Nat.le_of_dvd (by omega) (hcop.dvd_of_dvd_mul_left hd)
    omega
  omega

/-- A draw keeps the invariant. -/
theorem State.Inv.drawn {s : State} (h : s.Inv) : ({ s with prng := prngNext s.prng } : State).Inv :=
  ⟨h.params, h.inst, h.defaults, h.units, h.fs, prngNext_range h.prng.1 h.prng.2, h.faultRegs, h.mbox⟩

/-- Any number of draws keeps the generator in its range. -/
theorem prngAfter_range (k : Nat) : ∀ {p : BitVec 31}, 1 ≤ p.toNat → p.toNat ≤ 2147483646 →
    1 ≤ (prngAfter k p).toNat ∧ (prngAfter k p).toNat ≤ 2147483646 := by
  induction k with
  | zero => intro p h1 h2; exact ⟨h1, h2⟩
  | succ k ih => intro p h1 h2; exact ih (prngNext_range h1 h2).1 (prngNext_range h1 h2).2

/-! ## Rings -/

/-- Both cursors of a ring advance together (R28). -/
theorem ring_advance {l i n : Nat} (hn : n ≤ l) :
    ((i + l - n) % l + 1) % l = ((i + 1) % l + l - n) % l := by
  have h1 : (i + 1) % l + l - n = (i + 1) % l + (l - n) := by omega
  have h2 : i + l - n = i + (l - n) := by omega
  rw [h1, h2, Nat.mod_add_mod, Nat.mod_add_mod]
  congr 1
  omega

theorem Dl.wf_iff (r : Dl) : r.wf = true ↔ r.buf.wf = true ∧ r.insertAt < r.buf.cap ∧ r.extractFrom < r.buf.cap ∧
    (r.cfg = true → 1 ≤ r.n ∧ r.n ≤ r.buf.cap ∧ r.extractFrom = (r.insertAt + r.buf.cap - r.n) % r.buf.cap) := by
  cases hc : r.cfg <;> simp [Dl.wf, hc, and_assoc]

theorem Fd.wf_iff (r : Fd) : r.wf = true ↔ r.buf.wf = true ∧ r.insertAt < r.buf.cap ∧ r.extractFrom < r.buf.cap ∧
    (r.cfg = true → 1 ≤ r.nint.toNat ∧ r.nint.toNat ≤ r.buf.cap ∧
      r.extractFrom = (r.insertAt + r.buf.cap - r.nint.toNat) % r.buf.cap) := by
  cases hc : r.cfg <;> simp [Fd.wf, hc, and_assoc]

theorem Fir.wf_iff (r : Fir) : r.wf = true ↔ r.c.wf = true ∧ r.h.wf = true ∧ r.pos < r.h.cap := by
  simp [Fir.wf, and_assoc]

theorem Ws.wf_iff (r : Ws) : r.wf = true ↔ r.tab.wf = true ∧
    (r.cfg = true → 2 ≤ r.len ∧ r.len ≤ r.tab.cap ∧ flt r.min r.max = true) := by
  cases hc : r.cfg <;> simp [Ws.wf, hc, and_assoc]

/-- A sample keeps a delay line well formed (R28, R212). -/
theorem Dl.wf_next {r : Dl} (h : r.wf = true) (x : F32) : (dlNext r x).wf = true := by
  rw [Dl.wf_iff] at h ⊢
  obtain ⟨hb, hi, he, hc⟩ := h
  have hl : 0 < r.buf.cap := by omega
  refine ⟨Memory.wf_set hb hi x, Nat.mod_lt _ hl, Nat.mod_lt _ hl, fun h => ?_⟩
  obtain ⟨h1, h2, h3⟩ := hc h
  refine ⟨h1, h2, ?_⟩
  simp only [dlNext, Memory.set_cap]
  rw [h3]
  exact ring_advance h2

/-- A sample keeps a fractional delay line well formed (R29, R221). -/
theorem Fd.wf_next {r : Fd} (h : r.wf = true) (x : F32) : (fdNext r x).wf = true := by
  rw [Fd.wf_iff] at h ⊢
  obtain ⟨hb, hi, he, hc⟩ := h
  have hl : 0 < r.buf.cap := by omega
  refine ⟨Memory.wf_set hb hi x, Nat.mod_lt _ hl, Nat.mod_lt _ hl, fun h => ?_⟩
  obtain ⟨h1, h2, h3⟩ := hc h
  refine ⟨h1, h2, ?_⟩
  simp only [fdNext, Memory.set_cap]
  rw [h3]
  exact ring_advance h2

/-- A sample keeps a FIR filter well formed (R27, R201). -/
theorem Fir.wf_next {r : Fir} (h : r.wf = true) (x : F32) : (firNext r x).wf = true := by
  rw [Fir.wf_iff] at h ⊢
  exact ⟨h.1, Memory.wf_set h.2.1 h.2.2 x, Nat.mod_lt _ (Nat.lt_of_le_of_lt (Nat.zero_le _) h.2.2)⟩

/-! ## Age stamps -/

/-- `sext_W` gives a `W`-bit signed number (R11). -/
theorem sextW_range {w : Nat} (hw : 1 ≤ w) (v : Int) : inAgeRange w (sextW w v) = true := by
  have h2 : ((2 ^ w : Nat) : Int) = 2 * ((2 ^ (w - 1) : Nat) : Int) := by
    obtain ⟨k, rfl⟩ : ∃ k, w = k + 1 := ⟨w - 1, by omega⟩
    push_cast
    simp [pow_succ, mul_comm]
  have hp : 0 < ((2 ^ (w - 1) : Nat) : Int) := by positivity
  have hm1 := Int.emod_nonneg v (b := ((2 ^ w : Nat) : Int)) (by omega)
  have hm2 := Int.emod_lt_of_pos v (b := ((2 ^ w : Nat) : Int)) (by omega)
  unfold sextW
  dsimp only
  split <;> (rename_i hlt; rw [inAgeRange, Bool.and_eq_true, decide_eq_true_eq, decide_eq_true_eq]; omega)

theorem inAgeRange_zero (w : Nat) : inAgeRange w 0 = true := by
  have hp : 0 < ((2 ^ (w - 1) : Nat) : Int) := by positivity
  simp only [inAgeRange, Bool.and_eq_true, decide_eq_true_eq]
  omega

end Sys2Proof.Machine
end

