-- ==== Sys2Proof/Laws/Units.lean ====
section
/-! SUPPORT. What one sample of each class does, from a state that meets the invariant and has the unit set up: it gives
the closed form of Safety.lean and a state that is `Later`. -/

namespace Sys2Proof.Machine

/-! ## What samples never change -/

/-- The `cfg` flag of a record, true for the classes without one. -/
def UnitRec.cfgBit : UnitRec → Bool
  | .bq r => r.cfg
  | .fo r => r.cfg
  | .fir r => r.cfg
  | .dl r => r.cfg
  | .fd r => r.cfg
  | .ws r => r.cfg
  | .ts r => r.cfg
  | .pa _ => true
  | .apf r => r.cfg
  | .cmb r => r.cfg
  | .rv r => r.cfg
  | .ks _ => true
  | .vb _ => true
  | .dm r => r.cfg

/-- Table entry and `cfg` flag. -/
def UnitRec.gist (r : UnitRec) : InstEntry × Bool := (r.entry, r.cfgBit)

/-- The same units with the same entries and `cfg` flags. -/
def Kin (s t : State) : Prop := ∀ u, (t.unit? u).map UnitRec.gist = (s.unit? u).map UnitRec.gist

theorem Kin.refl (s : State) : Kin s s := fun _ => rfl
theorem Kin.trans {a b c : State} (h : Kin a b) (h' : Kin b c) : Kin a c := fun u => (h' u).trans (h u)
theorem Kin.symm {a b : State} (h : Kin a b) : Kin b a := fun u => (h u).symm

theorem Kin.putUnit {s : State} {u : UnitId} {r r' : UnitRec} (hu : s.unit? u = some r) (hg : r'.gist = r.gist) :
    Kin s (s.putUnit u r') := by
  intro v
  by_cases hv : v = u
  · subst hv; rw [State.unit?_putUnit_same hu, hu]; simp [hg]
  · rw [State.unit?_putUnit_other hv]

theorem Kin.find {s t : State} (h : Kin s t) {u : UnitId} {r : UnitRec} (hu : s.unit? u = some r) :
    ∃ q, t.unit? u = some q ∧ q.entry = r.entry ∧ q.cfgBit = r.cfgBit := by
  have := h u
  rw [hu] at this
  cases ht : t.unit? u with
  | none => simp [ht] at this
  | some q =>
    rw [ht] at this
    simp only [Option.map_some, Option.some.injEq, UnitRec.gist, Prod.mk.injEq] at this
    exact ⟨q, rfl, this⟩

theorem Kin.classOf {s t : State} (h : Kin s t) (u : UnitId) : t.classOf u = s.classOf u := by
  have := congrArg (Option.map fun g : InstEntry × Bool => g.1.cls) (h u)
  rw [Option.map_map, Option.map_map] at this
  exact this

theorem Kin.bq {s t : State} (h : Kin s t) {u : UnitId} {r : Bq} (hu : s.unit? u = some (.bq r)) :
    ∃ q, t.unit? u = some (.bq q) ∧ q.cfg = r.cfg := by
  obtain ⟨q, hq, he, hc⟩ := h.find hu
  cases q <;> simp [UnitRec.entry] at he
  exact ⟨_, hq, hc⟩
theorem Kin.fo {s t : State} (h : Kin s t) {u : UnitId} {r : Fo} (hu : s.unit? u = some (.fo r)) :
    ∃ q, t.unit? u = some (.fo q) ∧ q.cfg = r.cfg := by
  obtain ⟨q, hq, he, hc⟩ := h.find hu
  cases q <;> simp [UnitRec.entry] at he
  exact ⟨_, hq, hc⟩
theorem Kin.fir {s t : State} (h : Kin s t) {u : UnitId} {r : Fir} (hu : s.unit? u = some (.fir r)) :
    ∃ q, t.unit? u = some (.fir q) ∧ q.cfg = r.cfg := by
  obtain ⟨q, hq, he, hc⟩ := h.find hu
  cases q <;> simp [UnitRec.entry] at he
  exact ⟨_, hq, hc⟩
theorem Kin.dl {s t : State} (h : Kin s t) {u : UnitId} {r : Dl} (hu : s.unit? u = some (.dl r)) :
    ∃ q, t.unit? u = some (.dl q) ∧ q.cfg = r.cfg ∧ q.buf.cap = r.buf.cap := by
  obtain ⟨q, hq, he, hc⟩ := h.find hu
  cases q <;> simp [UnitRec.entry] at he
  exact ⟨_, hq, hc, he⟩
theorem Kin.fd {s t : State} (h : Kin s t) {u : UnitId} {r : Fd} (hu : s.unit? u = some (.fd r)) :
    ∃ q, t.unit? u = some (.fd q) ∧ q.cfg = r.cfg ∧ q.buf.cap = r.buf.cap := by
  obtain ⟨q, hq, he, hc⟩ := h.find hu
  cases q <;> simp [UnitRec.entry] at he
  exact ⟨_, hq, hc, he⟩
theorem Kin.ws {s t : State} (h : Kin s t) {u : UnitId} {r : Ws} (hu : s.unit? u = some (.ws r)) :
    ∃ q, t.unit? u = some (.ws q) ∧ q.cfg = r.cfg := by
  obtain ⟨q, hq, he, hc⟩ := h.find hu
  cases q <;> simp [UnitRec.entry] at he
  exact ⟨_, hq, hc⟩
theorem Kin.ts {s t : State} (h : Kin s t) {u : UnitId} {r : Ts} (hu : s.unit? u = some (.ts r)) :
    ∃ q, t.unit? u = some (.ts q) ∧ q.cfg = r.cfg ∧ q.inp = r.inp ∧ q.curve = r.curve ∧ q.fb = r.fb ∧ q.dc = r.dc := by
  obtain ⟨q, hq, he, hc⟩ := h.find hu
  cases q <;> simp [UnitRec.entry] at he
  exact ⟨_, hq, hc, he.1, he.2.1, he.2.2.1, he.2.2.2⟩
theorem Kin.pa {s t : State} (h : Kin s t) {u : UnitId} {r : Pa} (hu : s.unit? u = some (.pa r)) :
    t.unit? u = some (.pa r) := by
  obtain ⟨q, hq, he, _⟩ := h.find hu
  cases q with
  | pa q =>
    simp only [UnitRec.entry, InstEntry.pa.injEq] at he
    obtain ⟨h0, h1, h2⟩ := he
    rw [hq, Option.some.injEq, UnitRec.pa.injEq]
    cases q; cases r; simp_all
  | _ => simp [UnitRec.entry] at he
theorem Kin.apf {s t : State} (h : Kin s t) {u : UnitId} {r : Apf} (hu : s.unit? u = some (.apf r)) :
    ∃ q, t.unit? u = some (.apf q) ∧ q.cfg = r.cfg ∧ q.dl = r.dl := by
  obtain ⟨q, hq, he, hc⟩ := h.find hu
  cases q <;> simp [UnitRec.entry] at he
  exact ⟨_, hq, hc, he⟩
theorem Kin.cmb {s t : State} (h : Kin s t) {u : UnitId} {r : Cmb} (hu : s.unit? u = some (.cmb r)) :
    ∃ q, t.unit? u = some (.cmb q) ∧ q.cfg = r.cfg ∧ q.dl = r.dl := by
  obtain ⟨q, hq, he, hc⟩ := h.find hu
  cases q <;> simp [UnitRec.entry] at he
  exact ⟨_, hq, hc, he⟩
theorem Kin.rv {s t : State} (h : Kin s t) {u : UnitId} {r : Rv} (hu : s.unit? u = some (.rv r)) :
    t.unit? u = some (.rv r) := by
  obtain ⟨q, hq, he, hc⟩ := h.find hu
  cases q with
  | rv q =>
    simp only [UnitRec.entry, InstEntry.rv.injEq] at he
    rw [hq, Option.some.injEq, UnitRec.rv.injEq]
    cases q; cases r; simp_all [UnitRec.cfgBit]
  | _ => simp [UnitRec.entry] at he
theorem Kin.ks {s t : State} (h : Kin s t) {u : UnitId} {r : Ks} (hu : s.unit? u = some (.ks r)) :
    ∃ q, t.unit? u = some (.ks q) ∧ q.delay = r.delay ∧ q.damp = r.damp := by
  obtain ⟨q, hq, he, _⟩ := h.find hu
  cases q <;> simp [UnitRec.entry] at he
  exact ⟨_, hq, he.1, he.2⟩
theorem Kin.vb {s t : State} (h : Kin s t) {u : UnitId} {r : Vb} (hu : s.unit? u = some (.vb r)) :
    ∃ q, t.unit? u = some (.vb q) ∧ q.voices.map Voice.unit = r.voices.map Voice.unit := by
  obtain ⟨q, hq, he, _⟩ := h.find hu
  cases q <;> simp [UnitRec.entry] at he
  exact ⟨_, hq, he⟩
theorem Kin.dm {s t : State} (h : Kin s t) {u : UnitId} {r : Dm} (hu : s.unit? u = some (.dm r)) :
    ∃ q, t.unit? u = some (.dm q) ∧ q.cfg = r.cfg ∧ q.lp = r.lp := by
  obtain ⟨q, hq, he, hc⟩ := h.find hu
  cases q <;> simp [UnitRec.entry] at he
  exact ⟨_, hq, hc, he.2⟩

/-- A later state of the same command: it meets the invariant, its units are kin, and nothing but units and generator
differs. -/
structure Later (s t : State) : Prop where
  inv : t.Inv
  kin : Kin s t
  rest : t = { s with units := t.units, prng := t.prng }

theorem Later.refl {s : State} (h : s.Inv) : Later s s := ⟨h, Kin.refl s, rfl⟩

theorem Later.trans {a b c : State} (h : Later a b) (h' : Later b c) : Later a c :=
  ⟨h'.inv, h.kin.trans h'.kin, by rw [h'.rest, h.rest]⟩

theorem Later.params {s t : State} (h : Later s t) : t.params = s.params := by rw [h.rest]
theorem Later.fault {s t : State} (h : Later s t) : t.fault = s.fault := by rw [h.rest]
theorem Later.respOut {s t : State} (h : Later s t) : t.respOut = s.respOut := by rw [h.rest]

/-- A record replaced by a well-formed one with the same entry and `cfg`. -/
theorem Later.putUnit {s : State} (h : s.Inv) {u : UnitId} {r r' : UnitRec} (hu : s.unit? u = some r)
    (hg : r'.gist = r.gist) (hw : r'.wf s.params = true) : Later s (s.putUnit u r') :=
  ⟨h.putUnit hu (congrArg Prod.fst hg) hw, Kin.putUnit hu hg, rfl⟩

/-! ## Ready, by cases -/

theorem readyBq_iff {s : State} {u : UnitId} : readyBq s u = true ↔ ∃ r, s.unit? u = some (.bq r) ∧ r.cfg = true := by
  simp only [readyBq, Bool.and_eq_true, decide_eq_true_eq]
  constructor
  · rintro ⟨hc, h⟩
    obtain ⟨r, hr⟩ := State.Inv.bq_of_class hc
    exact ⟨r, hr, by rwa [State.bq_eq hr] at h⟩
  · rintro ⟨r, hr, h⟩
    exact ⟨State.classOf_of_unit? hr, by rwa [State.bq_eq hr]⟩
theorem readyFo_iff {s : State} {u : UnitId} : readyFo s u = true ↔ ∃ r, s.unit? u = some (.fo r) ∧ r.cfg = true := by
  simp only [readyFo, Bool.and_eq_true, decide_eq_true_eq]
  constructor
  · rintro ⟨hc, h⟩
    obtain ⟨r, hr⟩ := State.Inv.fo_of_class hc
    exact ⟨r, hr, by rwa [State.fo_eq hr] at h⟩
  · rintro ⟨r, hr, h⟩
    exact ⟨State.classOf_of_unit? hr, by rwa [State.fo_eq hr]⟩
theorem readyFir_iff {s : State} {u : UnitId} :
    readyFir s u = true ↔ ∃ r, s.unit? u = some (.fir r) ∧ r.cfg = true := by
  simp only [readyFir, Bool.and_eq_true, decide_eq_true_eq]
  constructor
  · rintro ⟨hc, h⟩
    obtain ⟨r, hr⟩ := State.Inv.fir_of_class hc
    exact ⟨r, hr, by rwa [State.fir_eq hr] at h⟩
  · rintro ⟨r, hr, h⟩
    exact ⟨State.classOf_of_unit? hr, by rwa [State.fir_eq hr]⟩
theorem readyDl_iff {s : State} {u : UnitId} : readyDl s u = true ↔ ∃ r, s.unit? u = some (.dl r) ∧ r.cfg = true := by
  simp only [readyDl, Bool.and_eq_true, decide_eq_true_eq]
  constructor
  · rintro ⟨hc, h⟩
    obtain ⟨r, hr⟩ := State.Inv.dl_of_class hc
    exact ⟨r, hr, by rwa [State.dl_eq hr] at h⟩
  · rintro ⟨r, hr, h⟩
    exact ⟨State.classOf_of_unit? hr, by rwa [State.dl_eq hr]⟩
theorem readyFd_iff {s : State} {u : UnitId} : readyFd s u = true ↔ ∃ r, s.unit? u = some (.fd r) ∧ r.cfg = true := by
  simp only [readyFd, Bool.and_eq_true, decide_eq_true_eq]
  constructor
  · rintro ⟨hc, h⟩
    obtain ⟨r, hr⟩ := State.Inv.fd_of_class hc
    exact ⟨r, hr, by rwa [State.fd_eq hr] at h⟩
  · rintro ⟨r, hr, h⟩
    exact ⟨State.classOf_of_unit? hr, by rwa [State.fd_eq hr]⟩
theorem readyWs_iff {s : State} {u : UnitId} : readyWs s u = true ↔ ∃ r, s.unit? u = some (.ws r) ∧ r.cfg = true := by
  simp only [readyWs, Bool.and_eq_true, decide_eq_true_eq]
  constructor
  · rintro ⟨hc, h⟩
    obtain ⟨r, hr⟩ := State.Inv.ws_of_class hc
    exact ⟨r, hr, by rwa [State.ws_eq hr] at h⟩
  · rintro ⟨r, hr, h⟩
    exact ⟨State.classOf_of_unit? hr, by rwa [State.ws_eq hr]⟩
theorem readyTs_iff {s : State} {u : UnitId} : readyTs s u = true ↔ ∃ r, s.unit? u = some (.ts r) ∧ r.cfg = true ∧
    readyBq s r.inp = true ∧ readyWs s r.curve = true ∧ readyFo s r.fb = true ∧ readyFo s r.dc = true := by
  simp only [readyTs, Bool.and_eq_true, decide_eq_true_eq, and_assoc]
  constructor
  · rintro ⟨hc, h⟩
    obtain ⟨r, hr⟩ := State.Inv.ts_of_class hc
    exact ⟨r, hr, by rwa [State.ts_eq hr] at h⟩
  · rintro ⟨r, hr, h⟩
    exact ⟨State.classOf_of_unit? hr, by rwa [State.ts_eq hr]⟩
theorem readyPa_iff {s : State} {u : UnitId} : readyPa s u = true ↔ ∃ r, s.unit? u = some (.pa r) ∧
    readyTs s r.stage0 = true ∧ readyTs s r.stage1 = true ∧ readyTs s r.stage2 = true := by
  simp only [readyPa, Bool.and_eq_true, decide_eq_true_eq, and_assoc]
  constructor
  · rintro ⟨hc, h⟩
    obtain ⟨r, hr⟩ := State.Inv.pa_of_class hc
    exact ⟨r, hr, by rwa [State.pa_eq hr] at h⟩
  · rintro ⟨r, hr, h⟩
    exact ⟨State.classOf_of_unit? hr, by rwa [State.pa_eq hr]⟩
theorem readyApf_iff {s : State} {u : UnitId} : readyApf s u = true ↔ ∃ r, s.unit? u = some (.apf r) ∧ r.cfg = true ∧
    readyDl s r.dl = true := by
  simp only [readyApf, Bool.and_eq_true, decide_eq_true_eq, and_assoc]
  constructor
  · rintro ⟨hc, h⟩
    obtain ⟨r, hr⟩ := State.Inv.apf_of_class hc
    exact ⟨r, hr, by rwa [State.apf_eq hr] at h⟩
  · rintro ⟨r, hr, h⟩
    exact ⟨State.classOf_of_unit? hr, by rwa [State.apf_eq hr]⟩
theorem readyCmb_iff {s : State} {u : UnitId} : readyCmb s u = true ↔ ∃ r, s.unit? u = some (.cmb r) ∧ r.cfg = true ∧
    readyDl s r.dl = true := by
  simp only [readyCmb, Bool.and_eq_true, decide_eq_true_eq, and_assoc]
  constructor
  · rintro ⟨hc, h⟩
    obtain ⟨r, hr⟩ := State.Inv.cmb_of_class hc
    exact ⟨r, hr, by rwa [State.cmb_eq hr] at h⟩
  · rintro ⟨r, hr, h⟩
    exact ⟨State.classOf_of_unit? hr, by rwa [State.cmb_eq hr]⟩
theorem readyRv_iff {s : State} {u : UnitId} : readyRv s u = true ↔ ∃ r, s.unit? u = some (.rv r) ∧ r.cfg = true ∧
    readyApf s r.apf0 = true ∧ readyApf s r.apf1 = true ∧ readyApf s r.apf2 = true ∧ readyCmb s r.cmb0 = true ∧
    readyCmb s r.cmb1 = true ∧ readyCmb s r.cmb2 = true ∧ readyCmb s r.cmb3 = true := by
  simp only [readyRv, Bool.and_eq_true, decide_eq_true_eq, and_assoc]
  constructor
  · rintro ⟨hc, h⟩
    obtain ⟨r, hr⟩ := State.Inv.rv_of_class hc
    exact ⟨r, hr, by rwa [State.rv_eq hr] at h⟩
  · rintro ⟨r, hr, h⟩
    exact ⟨State.classOf_of_unit? hr, by rwa [State.rv_eq hr]⟩
theorem readyKs_iff {s : State} {u : UnitId} : readyKs s u = true ↔ ∃ r, s.unit? u = some (.ks r) ∧
    readyFd s r.delay = true ∧ readyFo s r.damp = true := by
  simp only [readyKs, Bool.and_eq_true, decide_eq_true_eq, and_assoc]
  constructor
  · rintro ⟨hc, h⟩
    obtain ⟨r, hr⟩ := State.Inv.ks_of_class hc
    exact ⟨r, hr, by rwa [State.ks_eq hr] at h⟩
  · rintro ⟨r, hr, h⟩
    exact ⟨State.classOf_of_unit? hr, by rwa [State.ks_eq hr]⟩
theorem readyVb_iff {s : State} {u : UnitId} : readyVb s u = true ↔ ∃ r, s.unit? u = some (.vb r) ∧
    ∀ v ∈ r.voices, readyKs s v.unit = true := by
  simp only [readyVb, Bool.and_eq_true, decide_eq_true_eq, List.all_eq_true]
  constructor
  · rintro ⟨hc, h⟩
    obtain ⟨r, hr⟩ := State.Inv.vb_of_class hc
    exact ⟨r, hr, by rwa [State.vb_eq hr] at h⟩
  · rintro ⟨r, hr, h⟩
    exact ⟨State.classOf_of_unit? hr, by rwa [State.vb_eq hr]⟩
theorem readyDm_iff {s : State} {u : UnitId} : readyDm s u = true ↔ ∃ r, s.unit? u = some (.dm r) ∧ r.cfg = true ∧
    readyBq s r.lp = true := by
  simp only [readyDm, Bool.and_eq_true, decide_eq_true_eq, and_assoc]
  constructor
  · rintro ⟨hc, h⟩
    obtain ⟨r, hr⟩ := State.Inv.dm_of_class hc
    exact ⟨r, hr, by rwa [State.dm_eq hr] at h⟩
  · rintro ⟨r, hr, h⟩
    exact ⟨State.classOf_of_unit? hr, by rwa [State.dm_eq hr]⟩

/-! ## Ready stays ready -/

theorem Kin.readyBq {s t : State} (h : Kin s t) {u : UnitId} (hr : readyBq s u = true) : readyBq t u = true := by
  obtain ⟨r, hu, hc⟩ := readyBq_iff.1 hr
  obtain ⟨q, hq, hqc⟩ := h.bq hu
  exact readyBq_iff.2 ⟨q, hq, hqc.trans hc⟩
theorem Kin.readyFo {s t : State} (h : Kin s t) {u : UnitId} (hr : readyFo s u = true) : readyFo t u = true := by
  obtain ⟨r, hu, hc⟩ := readyFo_iff.1 hr
  obtain ⟨q, hq, hqc⟩ := h.fo hu
  exact readyFo_iff.2 ⟨q, hq, hqc.trans hc⟩
theorem Kin.readyFir {s t : State} (h : Kin s t) {u : UnitId} (hr : readyFir s u = true) : readyFir t u = true := by
  obtain ⟨r, hu, hc⟩ := readyFir_iff.1 hr
  obtain ⟨q, hq, hqc⟩ := h.fir hu
  exact readyFir_iff.2 ⟨q, hq, hqc.trans hc⟩
theorem Kin.readyDl {s t : State} (h : Kin s t) {u : UnitId} (hr : readyDl s u = true) : readyDl t u = true := by
  obtain ⟨r, hu, hc⟩ := readyDl_iff.1 hr
  obtain ⟨q, hq, hqc, _⟩ := h.dl hu
  exact readyDl_iff.2 ⟨q, hq, hqc.trans hc⟩
theorem Kin.readyFd {s t : State} (h : Kin s t) {u : UnitId} (hr : readyFd s u = true) : readyFd t u = true := by
  obtain ⟨r, hu, hc⟩ := readyFd_iff.1 hr
  obtain ⟨q, hq, hqc, _⟩ := h.fd hu
  exact readyFd_iff.2 ⟨q, hq, hqc.trans hc⟩
theorem Kin.readyWs {s t : State} (h : Kin s t) {u : UnitId} (hr : readyWs s u = true) : readyWs t u = true := by
  obtain ⟨r, hu, hc⟩ := readyWs_iff.1 hr
  obtain ⟨q, hq, hqc⟩ := h.ws hu
  exact readyWs_iff.2 ⟨q, hq, hqc.trans hc⟩
theorem Kin.readyTs {s t : State} (h : Kin s t) {u : UnitId} (hr : readyTs s u = true) : readyTs t u = true := by
  obtain ⟨r, hu, hc, h1, h2, h3, h4⟩ := readyTs_iff.1 hr
  obtain ⟨q, hq, hqc, e1, e2, e3, e4⟩ := h.ts hu
  exact readyTs_iff.2 ⟨q, hq, hqc.trans hc, e1 ▸ h.readyBq h1, e2 ▸ h.readyWs h2, e3 ▸ h.readyFo h3, e4 ▸ h.readyFo h4⟩
theorem Kin.readyPa {s t : State} (h : Kin s t) {u : UnitId} (hr : readyPa s u = true) : readyPa t u = true := by
  obtain ⟨r, hu, h1, h2, h3⟩ := readyPa_iff.1 hr
  exact readyPa_iff.2 ⟨r, h.pa hu, h.readyTs h1, h.readyTs h2, h.readyTs h3⟩
theorem Kin.readyApf {s t : State} (h : Kin s t) {u : UnitId} (hr : readyApf s u = true) : readyApf t u = true := by
  obtain ⟨r, hu, hc, h1⟩ := readyApf_iff.1 hr
  obtain ⟨q, hq, hqc, e1⟩ := h.apf hu
  exact readyApf_iff.2 ⟨q, hq, hqc.trans hc, e1 ▸ h.readyDl h1⟩
theorem Kin.readyCmb {s t : State} (h : Kin s t) {u : UnitId} (hr : readyCmb s u = true) : readyCmb t u = true := by
  obtain ⟨r, hu, hc, h1⟩ := readyCmb_iff.1 hr
  obtain ⟨q, hq, hqc, e1⟩ := h.cmb hu
  exact readyCmb_iff.2 ⟨q, hq, hqc.trans hc, e1 ▸ h.readyDl h1⟩
theorem Kin.readyRv {s t : State} (h : Kin s t) {u : UnitId} (hr : readyRv s u = true) : readyRv t u = true := by
  obtain ⟨r, hu, hc, h0, h1, h2, h3, h4, h5, h6⟩ := readyRv_iff.1 hr
  exact readyRv_iff.2 ⟨r, h.rv hu, hc, h.readyApf h0, h.readyApf h1, h.readyApf h2, h.readyCmb h3, h.readyCmb h4,
    h.readyCmb h5, h.readyCmb h6⟩
theorem Kin.readyKs {s t : State} (h : Kin s t) {u : UnitId} (hr : readyKs s u = true) : readyKs t u = true := by
  obtain ⟨r, hu, h1, h2⟩ := readyKs_iff.1 hr
  obtain ⟨q, hq, e1, e2⟩ := h.ks hu
  exact readyKs_iff.2 ⟨q, hq, e1 ▸ h.readyFd h1, e2 ▸ h.readyFo h2⟩
theorem Kin.readyVb {s t : State} (h : Kin s t) {u : UnitId} (hr : readyVb s u = true) : readyVb t u = true := by
  obtain ⟨r, hu, h1⟩ := readyVb_iff.1 hr
  obtain ⟨q, hq, e⟩ := h.vb hu
  refine readyVb_iff.2 ⟨q, hq, fun v hv => ?_⟩
  have hm : v.unit ∈ r.voices.map Voice.unit := e ▸ List.mem_map_of_mem hv
  obtain ⟨w, hw, hwu⟩ := List.mem_map.1 hm
  exact hwu ▸ h.readyKs (h1 w hw)
theorem Kin.readyDm {s t : State} (h : Kin s t) {u : UnitId} (hr : readyDm s u = true) : readyDm t u = true := by
  obtain ⟨r, hu, hc, h1⟩ := readyDm_iff.1 hr
  obtain ⟨q, hq, hqc, e⟩ := h.dm hu
  exact readyDm_iff.2 ⟨q, hq, hqc.trans hc, e ▸ h.readyBq h1⟩

/-! ## One sample -/

/-- What holds of a sample: the operation gives the closed form, and the state is later. -/
def Sample (r : Res F32) (s : State) (e : F32 × State) : Prop := r = .ok e.1 e.2 ∧ Later s e.2

theorem bqStep_sample {s : State} (h : s.Inv) {u : UnitId} (hr : readyBq s u = true) (x : F32) :
    Sample (bqStep u x s) s (evalBq u x s) := by
  obtain ⟨r, hu, hc⟩ := readyBq_iff.1 hr
  simp only [Sample, evalBq, State.bq_eq hu]
  exact ⟨bqStep_ready hu hc x, Later.putUnit h hu rfl rfl⟩

theorem foStep_sample {s : State} (h : s.Inv) {u : UnitId} (hr : readyFo s u = true) (x : F32) :
    Sample (foStep u x s) s (evalFo u x s) := by
  obtain ⟨r, hu, hc⟩ := readyFo_iff.1 hr
  simp only [Sample, evalFo, State.fo_eq hu]
  exact ⟨foStep_ready hu hc x, Later.putUnit h hu rfl rfl⟩

theorem firStep_sample {s : State} (h : s.Inv) {u : UnitId} (hr : readyFir s u = true) (x : F32) :
    Sample (firStep u x s) s (evalFir u x s) := by
  obtain ⟨r, hu, hc⟩ := readyFir_iff.1 hr
  have hw : r.wf = true := h.unitWf hu
  have he : (decide (1 ≤ r.c.cap) && decide (r.c.cap ≤ r.h.cap)) = true := h.entryWf hu
  simp only [Bool.and_eq_true, decide_eq_true_eq] at he
  simp only [Sample, evalFir, State.fir_eq hu]
  exact ⟨firStep_ready hu hc he.1 ((Fir.wf_iff r).1 hw).2.2 x, Later.putUnit h hu rfl (Fir.wf_next hw x)⟩

theorem dlPeek_sample {s : State} (h : s.Inv) {u : UnitId} (hr : readyDl s u = true) :
    dlPeek u s = .ok (dlOut (s.dl u)) s := by
  obtain ⟨r, hu, hc⟩ := readyDl_iff.1 hr
  have hw : r.wf = true := h.unitWf hu
  rw [State.dl_eq hu]
  exact dlPeek_ready hu hc ((Dl.wf_iff r).1 hw).2.2.1

theorem dlStep_sample {s : State} (h : s.Inv) {u : UnitId} (hr : readyDl s u = true) (x : F32) :
    Sample (dlStep u x s) s (evalDl u x s) := by
  obtain ⟨r, hu, hc⟩ := readyDl_iff.1 hr
  have hw : r.wf = true := h.unitWf hu
  have hw' := (Dl.wf_iff r).1 hw
  simp only [Sample, evalDl, State.dl_eq hu]
  exact ⟨dlStep_ready hu hc hw'.2.2.1 hw'.2.1 x, Later.putUnit h hu rfl (Dl.wf_next hw x)⟩

theorem fdPeek_sample {s : State} (h : s.Inv) {u : UnitId} (hr : readyFd s u = true) :
    fdPeek u s = .ok (fdOut (s.fd u)) s := by
  obtain ⟨r, hu, hc⟩ := readyFd_iff.1 hr
  have hw : r.wf = true := h.unitWf hu
  rw [State.fd_eq hu]
  exact fdPeek_ready hu hc ((Fd.wf_iff r).1 hw).2.2.1

theorem fdStep_sample {s : State} (h : s.Inv) {u : UnitId} (hr : readyFd s u = true) (x : F32) :
    Sample (fdStep u x s) s (evalFd u x s) := by
  obtain ⟨r, hu, hc⟩ := readyFd_iff.1 hr
  have hw : r.wf = true := h.unitWf hu
  have hw' := (Fd.wf_iff r).1 hw
  simp only [Sample, evalFd, State.fd_eq hu]
  exact ⟨fdStep_ready hu hc hw'.2.2.1 hw'.2.1 x, Later.putUnit h hu rfl (Fd.wf_next hw x)⟩

theorem wsStep_sample {s : State} (h : s.Inv) {u : UnitId} (hr : readyWs s u = true) {x : F32}
    (hx : isNaN x = false) : Sample (wsStep u x s) s (evalWs u x s) := by
  obtain ⟨r, hu, hc⟩ := readyWs_iff.1 hr
  have hw : r.wf = true := h.unitWf hu
  obtain ⟨h2, h3, _⟩ := ((Ws.wf_iff r).1 hw).2 hc
  simp only [Sample, evalWs, State.ws_eq hu]
  exact ⟨wsStep_ready hu hc h2 h3 hx, Later.refl h⟩

theorem tsStep_sample {s : State} (h : s.Inv) {u : UnitId} (hr : readyTs s u = true) {x : F32}
    (hx : tsClean u x s = true) : Sample (tsStep u x s) s (evalTs u x s) := by
  obtain ⟨r, hu, hc, h1, h2, h3, h4⟩ := readyTs_iff.1 hr
  obtain ⟨b, hb, hbc⟩ := readyBq_iff.1 h1
  obtain ⟨w, hw, hwc⟩ := readyWs_iff.1 h2
  have htsu := State.ts_eq hu
  have hin : tsCurveIn u x s = fadd (bqOut b (fmul x r.gain)) r.bias := by
    simp [tsCurveIn, htsu, State.bq_eq hb]
  have hnan : isNaN (fadd (bqOut b (fmul x r.gain)) r.bias) = false := by
    rw [← hin]; simpa [tsClean] using hx
  -- the input filter
  have e1 : bqStep r.inp (fmul x r.gain) s = _ := bqStep_ready hb hbc (fmul x r.gain)
  have l1 : Later s (s.putUnit r.inp (.bq (bqNext b (fmul x r.gain)))) := Later.putUnit h hb rfl rfl
  -- the curve
  have hw1 : (s.putUnit r.inp (.bq (bqNext b (fmul x r.gain)))).unit? r.curve = some (.ws w) := by
    rw [State.unit?_putUnit_other (State.ne_of_unit? hw hb (by simp))]; exact hw
  have hwf : w.wf = true := h.unitWf hw
  obtain ⟨hlen, hcap, _⟩ := ((Ws.wf_iff w).1 hwf).2 hwc
  have e2 := wsStep_ready hw1 hwc hlen hcap hnan
  -- the feedback filter, the bias, the DC blocker
  generalize hs1 : s.putUnit r.inp (.bq (bqNext b (fmul x r.gain))) = s1 at *
  have f3 := foStep_sample l1.inv (l1.kin.readyFo h3)
    (tsFeedback r (wsOut w (fadd (bqOut b (fmul x r.gain)) r.bias)))
  have hu1 : s1.unit? u = some (.ts r) := by
    rw [← hs1, State.unit?_putUnit_other (State.ne_of_unit? hu hb (by simp))]; exact hu
  obtain ⟨f, hf, hfc⟩ := readyFo_iff.1 (l1.kin.readyFo h3)
  have hev := f3.1
  have l3 := f3.2
  generalize hx4 : wsOut w (fadd (bqOut b (fmul x r.gain)) r.bias) = x4 at *
  have hu2 : (evalFo r.fb (tsFeedback r x4) s1).2.unit? u = some (.ts r) := by
    simp only [evalFo]
    rw [State.unit?_putUnit_other (State.ne_of_unit? hu1 hf (by simp))]; exact hu1
  have l4 : Later (evalFo r.fb (tsFeedback r x4) s1).2
      ((evalFo r.fb (tsFeedback r x4) s1).2.putUnit u (.ts { r with bias := (evalFo r.fb (tsFeedback r x4) s1).1 })) :=
    Later.putUnit l3.inv hu2 rfl rfl
  have hall := (l1.trans l3).trans l4
  have f5 := foStep_sample hall.inv (hall.kin.readyFo h4) x4
  have heval : evalTs u x s = evalFo r.dc x4
      ((evalFo r.fb (tsFeedback r x4) s1).2.putUnit u (.ts { r with bias := (evalFo r.fb (tsFeedback r x4) s1).1 })) := by
    simp only [evalTs, htsu, hin, State.ws_eq hw, hx4, evalBq, State.bq_eq hb, hs1, tsFeedback]
  refine ⟨?_, heval ▸ hall.trans f5.2⟩
  rw [heval, ← f5.1]
  simp only [tsStep, getTs_eq hu, Res.bind_ok, hc, needCfg_true, e1, e2, hev, tsSetBias, getTs_eq hu2, put_eq]

theorem paStep_sample {s : State} (h : s.Inv) {u : UnitId} (hr : readyPa s u = true) {x : F32}
    (hx : paClean u x s = true) : Sample (paStep u x s) s (evalPa u x s) := by
  obtain ⟨r, hu, h0, h1, h2⟩ := readyPa_iff.1 hr
  simp only [paClean, State.pa_eq hu, Bool.and_eq_true, and_assoc] at hx
  obtain ⟨c0, c1, c2⟩ := hx
  have f0 := tsStep_sample h h0 c0
  have f1 := tsStep_sample f0.2.inv (f0.2.kin.readyTs h1) c1
  have l1 := f0.2.trans f1.2
  have f2 := tsStep_sample l1.inv (l1.kin.readyTs h2) c2
  simp only [Sample, evalPa, State.pa_eq hu]
  exact ⟨by simp only [paStep, getPa_eq hu, Res.bind_ok, f0.1, f1.1, f2.1], l1.trans f2.2⟩

theorem apfStep_sample {s : State} (h : s.Inv) {u : UnitId} (hr : readyApf s u = true) (x : F32) :
    Sample (apfStep u x s) s (evalApf u x s) := by
  obtain ⟨r, hu, hc, h1⟩ := readyApf_iff.1 hr
  have f := dlStep_sample h h1 (fadd x (fmul (dlOut (s.dl r.dl)) r.gb))
  simp only [Sample, evalApf, State.apf_eq hu]
  exact ⟨by simp only [apfStep, getApf_eq hu, Res.bind_ok, hc, needCfg_true, dlPeek_sample h h1, f.1, Res.map_ok], f.2⟩

theorem cmbStep_sample {s : State} (h : s.Inv) {u : UnitId} (hr : readyCmb s u = true) (x : F32) :
    Sample (cmbStep u x s) s (evalCmb u x s) := by
  obtain ⟨r, hu, hc, h1⟩ := readyCmb_iff.1 hr
  have f := dlStep_sample h h1 (fadd x (fmul (dlOut (s.dl r.dl)) r.gb))
  simp only [Sample, evalCmb, State.cmb_eq hu]
  exact ⟨by simp only [cmbStep, getCmb_eq hu, Res.bind_ok, hc, needCfg_true, dlPeek_sample h h1, f.1, Res.map_ok], f.2⟩

theorem rvStep_sample {s : State} (h : s.Inv) {u : UnitId} (hr : readyRv s u = true) (x : F32) :
    Sample (rvStep u x s) s (evalRv u x s) := by
  obtain ⟨r, hu, hc, r0, r1, r2, r3, r4, r5, r6⟩ := readyRv_iff.1 hr
  have f0 := apfStep_sample h r0 (fmul x c0p1)
  have f1 := apfStep_sample f0.2.inv (f0.2.kin.readyApf r1) (evalApf r.apf0 (fmul x c0p1) s).1
  have l1 := f0.2.trans f1.2
  generalize hs1 : evalApf r.apf1 (evalApf r.apf0 (fmul x c0p1) s).1 (evalApf r.apf0 (fmul x c0p1) s).2 = a1 at *
  have f2 := apfStep_sample l1.inv (l1.kin.readyApf r2) a1.1
  have l2 := l1.trans f2.2
  generalize hs2 : evalApf r.apf2 a1.1 a1.2 = a2 at *
  have f3 := cmbStep_sample l2.inv (l2.kin.readyCmb r3) a2.1
  have l3 := l2.trans f3.2
  generalize hs3 : evalCmb r.cmb0 a2.1 a2.2 = y0 at *
  have f4 := cmbStep_sample l3.inv (l3.kin.readyCmb r4) a2.1
  have l4 := l3.trans f4.2
  generalize hs4 : evalCmb r.cmb1 a2.1 y0.2 = y1 at *
  have f5 := cmbStep_sample l4.inv (l4.kin.readyCmb r5) a2.1
  have l5 := l4.trans f5.2
  generalize hs5 : evalCmb r.cmb2 a2.1 y1.2 = y2 at *
  have f6 := cmbStep_sample l5.inv (l5.kin.readyCmb r6) a2.1
  have l6 := l5.trans f6.2
  simp only [Sample, evalRv, State.rv_eq hu, hs1, hs2, hs3, hs4, hs5]
  exact ⟨by simp only [rvStep, getRv_eq hu, Res.bind_ok, hc, needCfg_true, f0.1, f1.1, f2.1, f3.1, f4.1, f5.1, f6.1,
    Res.map_ok], l6⟩

/-- A later state may differ in the generator, too. -/
theorem Later.drawn {s t : State} (h : Later s t) : Later s { t with prng := prngNext t.prng } :=
  ⟨h.inv.drawn, fun u => h.kin u, by rw [h.rest]⟩

theorem ksStep_sample {s : State} (h : s.Inv) {u : UnitId} (hr : readyKs s u = true) :
    Sample (ksStep u s) s (evalKs u s) := by
  obtain ⟨r, hu, h1, h2⟩ := readyKs_iff.1 hr
  obtain ⟨d, hd, hdc⟩ := readyFd_iff.1 h1
  obtain ⟨f, hf, hfc⟩ := readyFo_iff.1 h2
  have hks := State.ks_eq hu
  have hex : ksExcitation u r s = .ok (evalExcite u s).1 (evalExcite u s).2 ∧ Later s (evalExcite u s).2 ∧
      (evalExcite u s).2.unit? r.delay = some (.fd d) := by
    simp only [evalExcite, hks, ksExcitation]
    split
    · exact ⟨rfl, Later.refl h, hd⟩
    · refine ⟨rfl, (Later.putUnit h hu (r' := .ks { r with excite := r.excite - 1 }) rfl rfl).drawn, ?_⟩
      rw [State.unit?_prng, State.unit?_putUnit_other (State.ne_of_unit? hd hu (by simp))]
      exact hd
  obtain ⟨hex1, l1, hd1⟩ := hex
  generalize hE : evalExcite u s = e at *
  have p2 := fdPeek_sample l1.inv (l1.kin.readyFd h1)
  rw [State.fd_eq hd1] at p2
  have f3 := foStep_sample l1.inv (l1.kin.readyFo h2) (fdOut d)
  have l3 := l1.trans f3.2
  have f4 := fdStep_sample l3.inv (l3.kin.readyFd h1) (fadd e.1 (fmul r.gain (evalFo r.damp (fdOut d) e.2).1))
  simp only [Sample, evalKs, hks, hE, State.fd_eq hd]
  exact ⟨by simp only [ksStep, getKs_eq hu, getFd_eq hd, getFo_eq hf, Res.bind_ok, hdc, hfc, needCfg_true, hex1, p2,
    f3.1, f4.1, Res.map_ok], l3.trans f4.2⟩

theorem vbSum_sample {s : State} (h : s.Inv) (vs : List Voice) (hr : ∀ v ∈ vs, readyKs s v.unit = true) (acc : F32) :
    Sample (vbSum vs acc s) s (evalVoices vs acc s) := by
  induction vs generalizing s acc with
  | nil => exact ⟨rfl, Later.refl h⟩
  | cons v vs ih =>
    have f := ksStep_sample h (hr v (by simp))
    have g := ih f.2.inv (fun w hw => f.2.kin.readyKs (hr w (by simp [hw]))) (fadd acc (evalKs v.unit s).1)
    exact ⟨by simp only [vbSum, f.1, Res.bind_ok]; exact g.1, f.2.trans g.2⟩

theorem Vb.wf_iff (w : Nat) (r : Vb) :
    r.wf w = true ↔ inAgeRange w r.now = true ∧ ∀ v ∈ r.voices, inAgeRange w v.age = true := by
  simp [Vb.wf]

/-- No sample of a voice touches an allocator. -/
theorem evalKs_keeps_vb {s : State} {u v : UnitId} {r : Vb} (hr : readyKs s v = true) (hu : s.unit? u = some (.vb r)) :
    (evalKs v s).2.unit? u = some (.vb r) := by
  obtain ⟨k, hk, h1, h2⟩ := readyKs_iff.1 hr
  obtain ⟨d, hd, _⟩ := readyFd_iff.1 h1
  obtain ⟨f, hf, _⟩ := readyFo_iff.1 h2
  simp only [evalKs, State.ks_eq hk, evalFd, evalFo]
  rw [State.unit?_putUnit_other (State.ne_of_unit? hu hd (by simp)),
    State.unit?_putUnit_other (State.ne_of_unit? hu hf (by simp))]
  simp only [evalExcite, State.ks_eq hk]
  split
  · exact hu
  · rw [State.unit?_prng, State.unit?_putUnit_other (State.ne_of_unit? hu hk (by simp))]; exact hu

theorem evalVoices_keeps_vb {s : State} (h : s.Inv) {u : UnitId} {r : Vb} (vs : List Voice)
    (hr : ∀ v ∈ vs, readyKs s v.unit = true) (hu : s.unit? u = some (.vb r)) (acc : F32) :
    (evalVoices vs acc s).2.unit? u = some (.vb r) := by
  induction vs generalizing s acc with
  | nil => exact hu
  | cons v vs ih =>
    have f := ksStep_sample h (hr v (by simp))
    exact ih f.2.inv (fun w hw => f.2.kin.readyKs (hr w (by simp [hw]))) (evalKs_keeps_vb (hr v (by simp)) hu) _

theorem vbStep_sample {s : State} (h : s.Inv) {u : UnitId} (hr : readyVb s u = true) :
    Sample (vbStep u s) s (evalVb u s) := by
  obtain ⟨r, hu, hv⟩ := readyVb_iff.1 hr
  have he : decide (1 ≤ (r.voices.map Voice.unit).length) = true := h.entryWf hu
  have hwf : r.wf s.params.ageW = true := h.unitWf hu
  have hp : 1 ≤ s.params.ageW := by
    have := h.params; simp only [Params.wf, Bool.and_eq_true, decide_eq_true_eq] at this; exact this.1.1.1.1
  cases hvs : r.voices with
  | nil => simp [hvs] at he
  | cons v vs =>
    rw [hvs] at hv
    have f := ksStep_sample h (hv v (by simp))
    have hall : ∀ w ∈ vs, readyKs (evalKs v.unit s).2 w.unit = true := fun w hw => f.2.kin.readyKs (hv w (by simp [hw]))
    have g := vbSum_sample f.2.inv vs hall (evalKs v.unit s).1
    have hu' := evalVoices_keeps_vb f.2.inv vs hall (evalKs_keeps_vb (hv v (by simp)) hu) (evalKs v.unit s).1
    have l := f.2.trans g.2
    simp only [Sample, evalVb, State.vb_eq hu, hvs]
    refine ⟨?_, l.trans (Later.putUnit l.inv hu' ?_ ?_)⟩
    · simp only [vbStep, getVb_eq hu, Res.bind_ok, hvs, f.1, g.1, vbTick, getVb_eq hu', put_eq, Res.map_ok, l.params]
    · simp [UnitRec.gist, UnitRec.entry, UnitRec.cfgBit, hvs]
    · rw [l.params]
      exact (Vb.wf_iff _ _).2 ⟨sextW_range hp _, hvs ▸ ((Vb.wf_iff _ _).1 hwf).2⟩

end Sys2Proof.Machine
end

