-- ==== Sys2Proof/Laws/Drum.lean ====
section
/-! SUPPORT. The drum machine's sample in closed form: the armed voices and the mix as maps and folds, and the sample
from a state that meets the invariant. -/

namespace Sys2Proof.Machine

/-! ## Draws -/

theorem prngAfter_add (k : Nat) : ∀ (j : Nat) (p : BitVec 31), prngAfter (k + j) p = prngAfter j (prngAfter k p) := by
  induction k with
  | zero => intro j p; simp [prngAfter]
  | succ k ih =>
    intro j p
    rw [show k + 1 + j = (k + j) + 1 by omega]
    exact ih j (prngNext p)

/-- One draw more. -/
theorem prngAfter_succ (k : Nat) (p : BitVec 31) : prngAfter (k + 1) p = prngNext (prngAfter k p) :=
  prngAfter_add k 1 p

theorem armedBelow_succ (mask : Word) (v : Nat) :
    armedBelow mask (v + 1) = armedBelow mask v + if mask.getLsbD v then 1 else 0 := by
  unfold armedBelow
  rw [List.range_succ, List.filter_append, List.length_append]
  congr 1
  by_cases h : mask.getLsbD v <;> simp [h]

/-- The armed voices and the generator after them, from voice `v` on (R285, R286). -/
theorem armDrums_eq (mask : Word) (p : BitVec 31) (ds : List Drum) : ∀ v : Nat,
    armDrums mask v ds (prngAfter (armedBelow mask v) p) =
      (ds.mapIdx (fun i d => armDrum mask p (v + i) d), prngAfter (armedBelow mask (v + ds.length)) p) := by
  induction ds with
  | nil => intro v; rfl
  | cons d ds ih =>
    intro v
    have hix : (d :: ds).mapIdx (fun i d => armDrum mask p (v + i) d) =
        armDrum mask p v d :: ds.mapIdx (fun i d => armDrum mask p (v + 1 + i) d) := by
      rw [List.mapIdx_cons]
      simp only [Nat.add_zero, Nat.add_assoc, Nat.add_comm 1]
    have hlen : v + (d :: ds).length = v + 1 + ds.length := by simp; omega
    have h := ih (v + 1)
    rw [hix, hlen]
    rw [armedBelow_succ] at h
    by_cases hb : mask.getLsbD v = true
    · rw [if_pos hb, prngAfter_succ] at h
      simp only [armDrums, hb, if_true, h, armDrum, prngAfter_succ]
    · rw [if_neg hb] at h
      have hd : armDrum mask p v d = d := by rw [armDrum, if_neg hb]
      simp only [Nat.add_zero] at h
      rw [armDrums, if_neg hb, hd]
      simp only [h]

/-- The armed voices from voice 0 on. -/
theorem armDrums_zero (mask : Word) (p : BitVec 31) (ds : List Drum) :
    armDrums mask 0 ds p = (ds.mapIdx (armDrum mask p), prngAfter (armedBelow mask ds.length) p) := by
  have h := armDrums_eq mask p ds 0
  simpa [armedBelow, prngAfter] using h

/-! ## The mix -/

/-- A voice that sounds. -/
theorem drumSample_some {d : Drum} (h : 1 ≤ d.cursor.toNat ∧ d.cursor.toNat ≤ d.pcm.length) (p : Params) :
    drumSample p d = some (pcmToFloat p (d.pcm.getD (d.pcm.length - d.cursor.toNat) 0)) := by
  have h0 : d.cursor ≠ 0 := fun hz => by simp [hz] at h
  have hlt : d.pcm.length - d.cursor.toNat < d.pcm.length := by omega
  rw [drumSample, if_pos ⟨h0, h.2⟩]
  simp [List.getElem?_eq_getElem hlt]

/-- A voice that is idle or not yet inside its table. -/
theorem drumSample_none {d : Drum} (h : ¬(1 ≤ d.cursor.toNat ∧ d.cursor.toNat ≤ d.pcm.length)) (p : Params) :
    drumSample p d = none := by
  have hn : ¬(d.cursor ≠ 0 ∧ d.cursor.toNat ≤ d.pcm.length) := by
    rintro ⟨h0, h1⟩
    refine h ⟨?_, h1⟩
    have : d.cursor.toNat ≠ 0 := fun hz => h0 (BitVec.toNat_inj.1 (by simpa using hz))
    omega
  rw [drumSample, if_neg hn]

/-- The mix and the falling cursors (R287). -/
theorem mixDrums_eq (p : Params) (ds : List Drum) : ∀ mix : F32,
    mixDrums p mix ds = (ds.foldl (fun mix d =>
      if 1 ≤ d.cursor.toNat ∧ d.cursor.toNat ≤ d.pcm.length then
        fadd mix (pcmToFloat p (d.pcm.getD (d.pcm.length - d.cursor.toNat) 0))
      else mix) mix, ds.map fun d => { d with cursor := if d.cursor = 0 then 0 else d.cursor - 1 }) := by
  induction ds with
  | nil => intro mix; rfl
  | cons d ds ih =>
    intro mix
    rw [List.foldl_cons, List.map_cons]
    by_cases h : 1 ≤ d.cursor.toNat ∧ d.cursor.toNat ≤ d.pcm.length
    · rw [mixDrums, drumSample_some h, if_pos h, ih]
    · rw [mixDrums, drumSample_none h, if_neg h, ih]

/-- The mix from silence (R285). -/
theorem mixDrums_zero (p : Params) (ds : List Drum) : mixDrums p c0 ds = (mixVoices p ds, ds.map fun d =>
    { d with cursor := if d.cursor = 0 then 0 else d.cursor - 1 }) := mixDrums_eq p ds c0

/-! ## Well-formedness -/

theorem Dm.wf_iff (r : Dm) : r.wf = true ↔
    (∃ p, r.patterns[r.pattern.toNat]? = some p ∧ r.stepIdx.toNat < p.steps.length) ∧
    (∀ d ∈ r.drums, d.cursor.toNat ≤ d.pcm.length + 191) ∧ (r.cfg = true → r.spd ≠ 0) := by
  unfold Dm.wf
  cases hp : r.patterns[r.pattern.toNat]? <;> cases hc : r.cfg <;> simp [and_assoc]

theorem Pattern.wf_iff (v : Nat) (p : Pattern) : p.wf v = true ↔
    1 ≤ p.dpb.toNat ∧ 1 ≤ p.steps.length ∧ p.steps.length ≤ 65536 ∧ p.steps.length % p.dpb.toNat = 0 ∧
    ∀ m ∈ p.steps, m.toNat < 2 ^ v := by
  simp [Pattern.wf, and_assoc]

theorem DmRom.wf_iff (r : DmRom) : r.wf = true ↔ 1 ≤ r.pcm.length ∧ r.pcm.length ≤ 32 ∧
    (∀ t ∈ r.pcm, 64 ≤ t.length ∧ t.length + 191 < 2 ^ 32) ∧ 1 ≤ r.patterns.length ∧ r.patterns.length ≤ 65536 ∧
    (∀ p ∈ r.patterns, p.wf r.pcm.length = true) ∧ r.bank.length = 16 := by
  simp [DmRom.wf, and_assoc]

/-- A boundary keeps the registers well formed and the table entry (R38, R286). -/
theorem dmBoundaryRegs_wf {r : Dm} (h : r.wf = true)
    (he : (DmRom.wf ⟨r.drums.map Drum.pcm, r.patterns, r.bank⟩) = true) (p : BitVec 31) :
    (dmBoundaryRegs r p).wf = true ∧ (dmBoundaryRegs r p).drums.map Drum.pcm = r.drums.map Drum.pcm := by
  rw [Dm.wf_iff] at h
  obtain ⟨⟨q, hq, hi⟩, hd, hs⟩ := h
  obtain ⟨-, -, ht, -, -, hp, -⟩ := (DmRom.wf_iff _).1 he
  obtain ⟨-, h1, h2, -, -⟩ := (Pattern.wf_iff _ _).1 (hp q (List.mem_of_getElem? hq))
  constructor
  · rw [Dm.wf_iff]
    refine ⟨⟨q, hq, ?_⟩, ?_, hs⟩
    · simp only [dmBoundaryRegs, dmPatternLen, hq, BitVec.toNat_ofNat]
      have : (r.stepIdx.toNat + 1) % q.steps.length < q.steps.length := Nat.mod_lt _ (by omega)
      rw [Nat.mod_eq_of_lt (by omega)]
      exact this
    · intro d hdm
      simp only [dmBoundaryRegs, List.mem_mapIdx] at hdm
      obtain ⟨i, hi', rfl⟩ := hdm
      have hmem : r.drums[i] ∈ r.drums := List.getElem_mem hi'
      obtain ⟨t1, t2⟩ := ht _ (List.mem_map_of_mem hmem)
      unfold armDrum
      split
      · simp only [BitVec.toNat_ofNat]
        have := Nat.mod_lt (prngAfter (armedBelow (dmMask r) i + 1) p).toNat (show 0 < 256 by decide)
        have := Nat.mod_le (r.drums[i].pcm.length - 64 +
          (prngAfter (armedBelow (dmMask r) i + 1) p).toNat % 256) (2 ^ 32)
        omega
      · exact hd _ hmem
  · simp only [dmBoundaryRegs]
    apply List.ext_getElem
    · simp
    · intro i _ _
      simp only [List.getElem_map, List.getElem_mapIdx]
      unfold armDrum
      split <;> rfl

/-- The rest of a sub-step keeps the registers well formed and the table entry. -/
theorem dmPlayRegs_wf {r : Dm} (h : r.wf = true) (p : Params) :
    (dmPlayRegs p r).wf = true ∧ (dmPlayRegs p r).drums.map Drum.pcm = r.drums.map Drum.pcm := by
  rw [Dm.wf_iff] at h ⊢
  obtain ⟨hq, hd, hs⟩ := h
  refine ⟨⟨hq, ?_, hs⟩, by simp [dmPlayRegs, Function.comp_def]⟩
  intro d hdm
  simp only [dmPlayRegs, List.mem_map] at hdm
  obtain ⟨e, hem, rfl⟩ := hdm
  have hle := hd e hem
  show (if e.cursor = 0 then 0 else e.cursor - 1).toNat ≤ e.pcm.length + 191
  split
  · simp
  · rename_i h0
    have hnz : e.cursor.toNat ≠ 0 := fun hz => h0 (BitVec.toNat_inj.1 (by simpa using hz))
    have hlt := e.cursor.isLt
    rw [BitVec.toNat_sub, show (1 : Word).toNat = 1 from rfl]
    omega

/-- A sample keeps the registers well formed and the table entry. -/
theorem dmRegs_wf {r : Dm} (h : r.wf = true)
    (he : (DmRom.wf ⟨r.drums.map Drum.pcm, r.patterns, r.bank⟩) = true) (ps : Params) (p : BitVec 31) :
    (dmRegs r ps p).wf = true ∧ (UnitRec.dm (dmRegs r ps p)).gist = (UnitRec.dm r).gist := by
  unfold dmRegs
  split
  · exact ⟨by rw [Dm.wf_iff] at h ⊢; exact h, rfl⟩
  · have hb : (if r.divCounter = 0 then dmBoundaryRegs r p else r).wf = true ∧
        (if r.divCounter = 0 then dmBoundaryRegs r p else r).drums.map Drum.pcm = r.drums.map Drum.pcm := by
      split
      · exact dmBoundaryRegs_wf h he p
      · exact ⟨h, rfl⟩
    have hp := dmPlayRegs_wf hb.1 ps
    refine ⟨by rw [Dm.wf_iff] at hp ⊢; exact hp.1, ?_⟩
    have hdr := hp.2.trans hb.2
    simp only [UnitRec.gist, UnitRec.entry, UnitRec.cfgBit, hdr]
    by_cases hd : r.divCounter = 0
    · rw [if_pos hd]; rfl
    · rw [if_neg hd]; rfl

/-! ## A sample -/

/-- A later state may differ in the generator by any number of draws. -/
theorem Later.drawnTimes {s t : State} (h : Later s t) (k : Nat) : Later s { t with prng := prngAfter k t.prng } :=
  ⟨⟨h.inv.params, h.inv.inst, h.inv.defaults, h.inv.units, h.inv.fs,
      prngAfter_range k h.inv.prng.1 h.inv.prng.2, h.inv.faultRegs, h.inv.mbox⟩,
    fun u => h.kin u, by rw [h.rest]⟩

/-- The boundary, on a drum machine whose lowpass is there (R285, R286, R289). -/
theorem dmBoundary_eq {s : State} (h : s.Inv) {u : UnitId} {r : Dm} (hu : s.unit? u = some (.dm r)) {b : Bq}
    (hb : s.unit? r.lp = some (.bq b)) :
    dmBoundary u r s = .ok (dmBoundaryRegs r s.prng)
      (State.putUnit { s.putUnit u (.dm (dmBoundaryRegs r s.prng)) with prng := prngAfter (dmDraws r) s.prng } r.lp
        (.bq { b with
          coef := r.bank.getD ((prngAfter (dmDraws r) s.prng).toNat % 16) ⟨0, 0, 0, 0, 0⟩ })) := by
  have hw : r.wf = true := h.unitWf hu
  have he : (DmRom.wf ⟨r.drums.map Drum.pcm, r.patterns, r.bank⟩) = true := h.entryWf hu
  obtain ⟨⟨p, hp, hi⟩, -, -⟩ := (Dm.wf_iff r).1 hw
  have hbank : r.bank.length = 16 := ((DmRom.wf_iff _).1 he).2.2.2.2.2.2
  have hstep : p.steps[r.stepIdx.toNat]? = some (dmMask r) := by
    simp [dmMask, hp, List.getElem?_eq_getElem hi]
  have hlen : dmPatternLen r = p.steps.length := by simp [dmPatternLen, hp]
  have hprng : prngNext (prngAfter (armedBelow (dmMask r) r.drums.length) s.prng) = prngAfter (dmDraws r) s.prng :=
    (prngAfter_succ _ _).symm
  have hk : ∀ k : BitVec 31, r.bank[k.toNat % 16]? = some (r.bank.getD (k.toNat % 16) ⟨0, 0, 0, 0, 0⟩) := by
    intro k
    have : k.toNat % 16 < r.bank.length := by rw [hbank]; exact Nat.mod_lt _ (by decide)
    simp [List.getElem?_eq_getElem this]
  have hne : r.lp ≠ u := State.ne_of_unit? hb hu (by simp)
  simp only [dmBoundary, romRead_eq hp, Res.bind_ok, romRead_eq hstep, armDrums_zero, put_eq, draw_eq,
    State.putUnit_prng, hprng, romRead_eq (hk _), bqSwap]
  rw [getBq_eq (r := b)]
  · simp only [Res.bind_ok, Res.map_ok, dmBoundaryRegs, hlen]
    rfl
  · show (State.putUnit _ _ _).unit? _ = _
    rw [State.unit?_putUnit_other hne]
    exact hb

/-- A sub-step, on a drum machine whose lowpass is there (R285). -/
theorem dmSubStep_eq {s : State} (h : s.Inv) {u : UnitId} {r : Dm} (hu : s.unit? u = some (.dm r)) {b : Bq}
    (hb : s.unit? r.lp = some (.bq b)) (hph : r.phase = false) :
    dmSubStep u r s = .ok (dmPlayRegs s.params (if r.divCounter = 0 then dmBoundaryRegs r s.prng else r))
      (State.putUnit { s.putUnit r.lp (.bq (dmLp r s.prng b)) with
        prng := if dmAtBoundary r then prngAfter (dmDraws r) s.prng else s.prng } u
        (.dm (dmPlayRegs s.params (if r.divCounter = 0 then dmBoundaryRegs r s.prng else r)))) := by
  have hne : r.lp ≠ u := State.ne_of_unit? hb hu (by simp)
  unfold dmSubStep
  by_cases hd : r.divCounter = 0
  · have hat : dmAtBoundary r = true := by simp [dmAtBoundary, hph, hd]
    simp only [if_pos hd, dmBoundary_eq h hu hb, Res.bind_ok, mixDrums_zero, put_eq, Res.map_ok, dmLp, hat, if_true]
    simp only [State.putUnit]
    rw [putAt_comm hne, putAt_putAt_same, putAt_comm hne.symm]
    rfl
  · have hat : dmAtBoundary r = false := by
      rw [dmAtBoundary, decide_eq_false hd, Bool.and_false]
    simp only [if_neg hd, Res.bind_ok, mixDrums_zero, put_eq, Res.map_ok, dmLp, hat, Bool.false_eq_true, if_false,
      State.putUnit_self hb]
    rfl

/-- A sample of a drum machine that is set up. -/
theorem dmStep_sample {s : State} (h : s.Inv) {u : UnitId} (hr : readyDm s u = true) :
    Sample (dmStep u s) s (evalDm u s) := by
  obtain ⟨r, hu, hc, hl⟩ := readyDm_iff.1 hr
  obtain ⟨b, hb, hbc⟩ := readyBq_iff.1 hl
  have hw : r.wf = true := h.unitWf hu
  have he : (DmRom.wf ⟨r.drums.map Drum.pcm, r.patterns, r.bank⟩) = true := h.entryWf hu
  have hne : r.lp ≠ u := State.ne_of_unit? hb hu (by simp)
  have hwr := dmRegs_wf hw he s.params s.prng
  have l1 : Later s (s.putUnit u (.dm (dmRegs r s.params s.prng))) := Later.putUnit h hu hwr.2 hwr.1
  have hb1 : (s.putUnit u (.dm (dmRegs r s.params s.prng))).unit? r.lp = some (.bq b) := by
    rw [State.unit?_putUnit_other hne]; exact hb
  have l2 := Later.putUnit (r' := .bq (bqNext (dmLp r s.prng b) (dmRegs r s.params s.prng).hold)) l1.inv hb1
    (by simp only [UnitRec.gist, UnitRec.entry, UnitRec.cfgBit, bqNext, dmLp]; split <;> rfl) rfl
  have l3 := l1.trans l2
  refine ⟨?_, ?_⟩
  · simp only [evalDm, State.dm_eq hu, State.bq_eq hb, dmStep, getDm_eq hu, Res.bind_ok, hc, needCfg_true]
    cases hph : r.phase with
    | true =>
      have hb2 : (s.putUnit u (.dm { r with phase := !r.phase })).unit? r.lp = some (.bq b) := by
        rw [State.unit?_putUnit_other hne]; exact hb
      have e := bqStep_ready hb2 hbc r.hold
      have hregs : dmRegs r s.params s.prng = { r with phase := !r.phase } := by
        rw [dmRegs, if_pos hph, hph]; rfl
      have hat : dmAtBoundary r = false := by rw [dmAtBoundary, hph]; rfl
      rw [if_pos rfl]
      simp only [Res.bind_ok, put_eq, hregs, dmLp, hat, Bool.false_eq_true, if_false]
      exact e
    | false =>
      rw [if_neg (by simp), dmSubStep_eq h hu hb hph]
      have hb3 : (State.putUnit (State.putUnit { s.putUnit r.lp (.bq (dmLp r s.prng b)) with
            prng := if dmAtBoundary r then prngAfter (dmDraws r) s.prng else s.prng } u
            (.dm (dmPlayRegs s.params (if r.divCounter = 0 then dmBoundaryRegs r s.prng else r)))) u
            (.dm (dmRegs r s.params s.prng))).unit? r.lp = some (.bq (dmLp r s.prng b)) := by
        rw [State.unit?_putUnit_other hne, State.unit?_putUnit_other hne]
        exact State.unit?_putUnit_same hb
      have hcfg : (dmLp r s.prng b).cfg = true := by unfold dmLp; split <;> exact hbc
      have e := bqStep_ready hb3 hcfg (dmRegs r s.params s.prng).hold
      have hregs : dmRegs r s.params s.prng = { dmPlayRegs s.params
          (if r.divCounter = 0 then dmBoundaryRegs r s.prng else r) with phase := true } := by
        rw [dmRegs, if_neg (by simp [hph])]
      have hphase : (dmPlayRegs s.params (if r.divCounter = 0 then dmBoundaryRegs r s.prng else r)).phase = false := by
        by_cases hd : r.divCounter = 0
        · rw [if_pos hd]; exact hph
        · rw [if_neg hd]; exact hph
      have hlp : (dmPlayRegs s.params (if r.divCounter = 0 then dmBoundaryRegs r s.prng else r)).lp = r.lp := by
        by_cases hd : r.divCounter = 0
        · rw [if_pos hd]; rfl
        · rw [if_neg hd]; rfl
      simp only [Res.bind_ok, put_eq]
      generalize dmPlayRegs s.params (if r.divCounter = 0 then dmBoundaryRegs r s.prng else r) = r1 at *
      have hput : ({ r1 with phase := !r1.phase } : Dm) = dmRegs r s.params s.prng := by rw [hregs, hphase]; rfl
      have hhold : r1.hold = (dmRegs r s.params s.prng).hold := by rw [hregs]
      rw [hput, hlp, hhold]
      refine e.trans ?_
      congr 1
      simp only [State.putUnit, putAt_putAt_same]
      congr 1
      rw [putAt_comm hne, putAt_putAt_same]
  · simp only [evalDm, State.dm_eq hu, State.bq_eq hb]
    split
    · exact l3.drawnTimes _
    · exact l3

end Sys2Proof.Machine
end

