-- ==== Sys2Proof/Laws/Sound.lean ====
section
/-! SUPPORT. What every operation can do from a state that meets the invariant, on a unit of its class: it goes on or
raises the sticky fault in a state that meets the invariant, with the same instance table, or refuses a NaN at a
waveshaper; the model never stops. -/

namespace Sys2Proof.Machine

/-- A state reached inside a command: it meets the invariant, every unit has its table entry, and nothing but units,
generator and fault registers differs. -/
structure Kept (s t : State) : Prop where
  inv : t.Inv
  entry : ∀ u, (t.unit? u).map UnitRec.entry = (s.unit? u).map UnitRec.entry
  rest : t = { s with units := t.units, prng := t.prng, fault := t.fault, cause := t.cause, funit := t.funit }

/-- The ways a part of a command may end. -/
def Sound {α : Type} (s : State) : Res α → Prop
  | .ok _ t => Kept s t
  | .raised t => Kept s t
  | .stop _ => False
  | .refuse e => ∃ u, e = .waveshaperNaN u

theorem Kept.refl {s : State} (h : s.Inv) : Kept s s := ⟨h, fun _ => rfl, rfl⟩

theorem Kept.trans {a b c : State} (h : Kept a b) (h' : Kept b c) : Kept a c :=
  ⟨h'.inv, fun u => (h'.entry u).trans (h.entry u), by rw [h'.rest, h.rest]⟩

theorem Kept.params {s t : State} (h : Kept s t) : t.params = s.params := by rw [h.rest]

theorem Kept.classOf {s t : State} (h : Kept s t) (u : UnitId) : t.classOf u = s.classOf u := by
  have := congrArg (Option.map InstEntry.cls) (h.entry u)
  rw [Option.map_map, Option.map_map] at this
  exact this

theorem Kept.isClass {s t : State} (h : Kept s t) {u : UnitId} {c : UnitClass} (hc : s.classOf u = some c) :
    t.classOf u = some c := (h.classOf u).trans hc

theorem Kept.inst {s t : State} (h : Kept s t) : t.firOrder = s.firOrder := by
  funext u
  have := h.entry u
  unfold State.firOrder
  cases hs : s.unit? u with
  | none => rw [hs] at this; cases ht : t.unit? u with
    | none => rfl
    | some q => simp [ht] at this
  | some r =>
    cases ht : t.unit? u with
    | none => simp [hs, ht] at this
    | some q =>
      simp only [hs, ht, Option.map_some, Option.some.injEq] at this
      cases r <;> cases q <;> simp [UnitRec.entry] at this <;> simp_all

/-- Two parts of a command, one after the other. -/
theorem Sound.bind {α β : Type} {s : State} {r : Res α} {f : α → State → Res β} (h : Sound s r)
    (hf : ∀ a t, r = .ok a t → Kept s t → Sound t (f a t)) : Sound s (r.bind f) := by
  cases r with
  | ok a t =>
    have g := hf a t rfl h
    simp only [Res.bind_ok]
    cases hr : f a t with
    | ok b t' => rw [hr] at g; exact Kept.trans h g
    | raised t' => rw [hr] at g; exact Kept.trans h g
    | stop e => rw [hr] at g; exact g
    | refuse e => rw [hr] at g; exact g
  | raised t => exact h
  | stop e => exact h
  | refuse e => exact h

theorem Sound.map {α β : Type} {s : State} {r : Res α} (h : Sound s r) (f : α → β) : Sound s (r.map f) :=
  h.bind fun _ _ _ hk => Kept.refl hk.inv

theorem Sound.ok {α : Type} {s : State} (h : s.Inv) (a : α) : Sound s (.ok a s) := Kept.refl h

/-- A fault that R362 lists as raised. -/
theorem Sound.raise {α : Type} {s : State} (h : s.Inv) {c : Cause} (hc : c ≠ .bufLen) (u : UnitId) :
    Sound s (raise c u s : Res α) := by
  show Kept s (s.recordFault c u)
  refine ⟨h.recordFault hc u, fun v => by rw [State.unit?, State.recordFault_units]; rfl, ?_⟩
  unfold State.recordFault
  split <;> rfl

theorem Sound.require {s : State} (h : s.Inv) {c : Cause} (hc : c ≠ .bufLen) (ok : Bool) (u : UnitId) :
    Sound s (require ok c u s) := by
  unfold Machine.require
  split
  · exact Sound.ok h ()
  · exact Sound.raise h hc u

theorem Sound.needCfg {s : State} (h : s.Inv) (cfg : Bool) (u : UnitId) : Sound s (needCfg cfg u s) :=
  Sound.require h (by simp) cfg u

theorem Sound.needFs {s : State} (h : s.Inv) : Sound s (needFs s) := by
  unfold Machine.needFs
  split
  · exact Sound.ok h _
  · exact Sound.raise h (by simp) 0

/-- A well-formed record with the unit's table entry. -/
theorem Sound.put {s : State} (h : s.Inv) {u : UnitId} {r' : UnitRec}
    (he : (s.unit? u).map UnitRec.entry = some r'.entry) (hw : r'.wf s.params = true) : Sound s (put u r' s) := by
  cases hu : s.unit? u with
  | none => simp [hu] at he
  | some r =>
    rw [hu, Option.map_some, Option.some.injEq] at he
    refine ⟨h.putUnit hu he.symm hw, fun v => ?_, rfl⟩
    by_cases hv : v = u
    · subst hv; rw [State.unit?_putUnit_same hu, hu]; simp [he]
    · rw [State.unit?_putUnit_other hv]

/-- A well-formed record in the place of one with the same entry. -/
theorem Sound.put_at {s : State} (h : s.Inv) {u : UnitId} {r r' : UnitRec} (hu : s.unit? u = some r)
    (he : r'.entry = r.entry) (hw : r'.wf s.params = true) : Sound s (Machine.put u r' s) :=
  Sound.put h (by rw [hu, Option.map_some, he]) hw

/-- A draw. -/
theorem Sound.draw {s : State} (h : s.Inv) : Sound s (draw s) := ⟨h.drawn, fun _ => rfl, rfl⟩

theorem Sound.memRead {s : State} (h : s.Inv) {m : Memory} {i : Nat} (hi : i < m.cap) (u : UnitId) :
    Sound s (memRead u m i s) := by rw [memRead_eq hi]; exact Sound.ok h _

theorem Sound.of_later {s : State} {e : F32 × State} {r : Res F32} (h : Sample r s e) : Sound s r := by
  rw [h.1]
  exact ⟨h.2.inv, fun u => by
    have := congrArg (Option.map Prod.fst) (h.2.kin u)
    rw [Option.map_map, Option.map_map] at this
    exact this, by
    have := h.2.rest
    rw [this]⟩

/-! ## Classes BQ, FO, FIR -/

theorem bqStep_sound {s : State} (h : s.Inv) {u : UnitId} (hu : s.classOf u = some .bq) (x : F32) :
    Sound s (bqStep u x s) := by
  obtain ⟨r, hr⟩ := State.Inv.bq_of_class hu
  cases hc : r.cfg with
  | true => exact Sound.of_later (bqStep_sample h (readyBq_iff.2 ⟨r, hr, hc⟩) x)
  | false => rw [bqStep_unset hr hc]; exact Sound.raise (α := F32) h (by simp) u

theorem bqFlush_sound {s : State} (h : s.Inv) {u : UnitId} (hu : s.classOf u = some .bq) : Sound s (bqFlush u s) := by
  obtain ⟨r, hr⟩ := State.Inv.bq_of_class hu
  rw [bqFlush, getBq_eq hr]
  exact Sound.put_at h hr rfl rfl

theorem bqLoad_sound {s : State} (h : s.Inv) {u : UnitId} (hu : s.classOf u = some .bq) (c : BqCoef) :
    Sound s (bqLoad u c s) := by
  obtain ⟨r, hr⟩ := State.Inv.bq_of_class hu
  rw [bqLoad, getBq_eq hr]
  exact Sound.put_at h hr rfl rfl

theorem bqDesign_sound {s : State} (h : s.Inv) {u : UnitId} (hu : s.classOf u = some .bq) (d : Word → BqCoef) :
    Sound s (bqDesign u d s) :=
  (Sound.needFs h).bind fun fs _ _ k => bqLoad_sound k.inv (k.isClass hu) (d fs)

theorem foStep_sound {s : State} (h : s.Inv) {u : UnitId} (hu : s.classOf u = some .fo) (x : F32) :
    Sound s (foStep u x s) := by
  obtain ⟨r, hr⟩ := State.Inv.fo_of_class hu
  cases hc : r.cfg with
  | true => exact Sound.of_later (foStep_sample h (readyFo_iff.2 ⟨r, hr, hc⟩) x)
  | false => rw [foStep_unset hr hc]; exact Sound.raise (α := F32) h (by simp) u

theorem foFlush_sound {s : State} (h : s.Inv) {u : UnitId} (hu : s.classOf u = some .fo) : Sound s (foFlush u s) := by
  obtain ⟨r, hr⟩ := State.Inv.fo_of_class hu
  rw [foFlush, getFo_eq hr]
  exact Sound.put_at h hr rfl rfl

theorem foLoad_sound {s : State} (h : s.Inv) {u : UnitId} (hu : s.classOf u = some .fo) (c : FoCoef) :
    Sound s (foLoad u c s) := by
  obtain ⟨r, hr⟩ := State.Inv.fo_of_class hu
  rw [foLoad, getFo_eq hr]
  exact Sound.put_at h hr rfl rfl

theorem foDesign_sound {s : State} (h : s.Inv) {u : UnitId} (hu : s.classOf u = some .fo) (d : Word → FoCoef) :
    Sound s (foDesign u d s) :=
  (Sound.needFs h).bind fun fs _ _ k => foLoad_sound k.inv (k.isClass hu) (d fs)

theorem firStep_sound {s : State} (h : s.Inv) {u : UnitId} (hu : s.classOf u = some .fir) (x : F32) :
    Sound s (firStep u x s) := by
  obtain ⟨r, hr⟩ := State.Inv.fir_of_class hu
  cases hc : r.cfg with
  | true => exact Sound.of_later (firStep_sample h (readyFir_iff.2 ⟨r, hr, hc⟩) x)
  | false => rw [firStep_unset hr hc]; exact Sound.raise (α := F32) h (by simp) u

theorem firFlush_sound {s : State} (h : s.Inv) {u : UnitId} (hu : s.classOf u = some .fir) :
    Sound s (firFlush u s) := by
  obtain ⟨r, hr⟩ := State.Inv.fir_of_class hu
  have hw := (Fir.wf_iff r).1 (h.unitWf hr)
  rw [firFlush, getFir_eq hr]
  exact Sound.put_at h hr rfl ((Fir.wf_iff _).2 ⟨hw.1, rfl, hw.2.2⟩)

/-- `FIR.LDC` with the unit's own count of words (R104, R204). -/
theorem firLoad_sound {s : State} (h : s.Inv) {u : UnitId} (hu : s.classOf u = some .fir) {cs : List F32}
    (hl : cs.length = s.firOrder u) : Sound s (firLoad u cs s) := by
  obtain ⟨r, hr⟩ := State.Inv.fir_of_class hu
  have hw := (Fir.wf_iff r).1 (h.unitWf hr)
  have hl' : cs.length = r.c.cap := by rw [hl]; simp [State.firOrder, hr]
  rw [firLoad, getFir_eq hr, Res.bind_ok, if_pos hl']
  exact Sound.put_at h hr rfl ((Fir.wf_iff _).2 ⟨Memory.wf_load hw.1 (by omega), hw.2.1, hw.2.2⟩)

/-! ## Classes DL, FD -/

theorem dlStep_sound {s : State} (h : s.Inv) {u : UnitId} (hu : s.classOf u = some .dl) (x : F32) :
    Sound s (dlStep u x s) := by
  obtain ⟨r, hr⟩ := State.Inv.dl_of_class hu
  cases hc : r.cfg with
  | true => exact Sound.of_later (dlStep_sample h (readyDl_iff.2 ⟨r, hr, hc⟩) x)
  | false => rw [dlStep_unset hr hc]; exact Sound.raise (α := F32) h (by simp) u

theorem dlPeek_sound {s : State} (h : s.Inv) {u : UnitId} (hu : s.classOf u = some .dl) : Sound s (dlPeek u s) := by
  obtain ⟨r, hr⟩ := State.Inv.dl_of_class hu
  cases hc : r.cfg with
  | true => rw [dlPeek_sample h (readyDl_iff.2 ⟨r, hr, hc⟩)]; exact Sound.ok h _
  | false => rw [dlPeek_unset hr hc]; exact Sound.raise (α := F32) h (by simp) u

theorem dlFlush_sound {s : State} (h : s.Inv) {u : UnitId} (hu : s.classOf u = some .dl) : Sound s (dlFlush u s) := by
  obtain ⟨r, hr⟩ := State.Inv.dl_of_class hu
  have hw := (Dl.wf_iff r).1 (h.unitWf hr)
  rw [dlFlush, getDl_eq hr]
  exact Sound.put_at h hr rfl ((Dl.wf_iff _).2 ⟨rfl, hw.2⟩)

theorem dlSetup_sound {s : State} (h : s.Inv) {u : UnitId} (hu : s.classOf u = some .dl) (n : Nat) :
    Sound s (dlSetup u n s) := by
  obtain ⟨r, hr⟩ := State.Inv.dl_of_class hu
  have hw := (Dl.wf_iff r).1 (h.unitWf hr)
  by_cases hn : n ≠ 0 ∧ n ≤ r.buf.cap
  · rw [dlSetup, getDl_eq hr, Res.bind_ok, decide_eq_true hn.1, decide_eq_true hn.2]
    exact Sound.put_at h hr rfl ((Dl.wf_iff _).2 ⟨hw.1, hw.2.1, Nat.mod_lt _ (by omega),
      fun _ => ⟨by show 1 ≤ n; omega, hn.2, rfl⟩⟩)
  · rw [dlSetup_refuses hr (by omega)]
    exact Sound.raise (α := Unit) h (by simp) u

theorem fdStep_sound {s : State} (h : s.Inv) {u : UnitId} (hu : s.classOf u = some .fd) (x : F32) :
    Sound s (fdStep u x s) := by
  obtain ⟨r, hr⟩ := State.Inv.fd_of_class hu
  cases hc : r.cfg with
  | true => exact Sound.of_later (fdStep_sample h (readyFd_iff.2 ⟨r, hr, hc⟩) x)
  | false => rw [fdStep_unset hr hc]; exact Sound.raise (α := F32) h (by simp) u

theorem fdPeek_sound {s : State} (h : s.Inv) {u : UnitId} (hu : s.classOf u = some .fd) : Sound s (fdPeek u s) := by
  obtain ⟨r, hr⟩ := State.Inv.fd_of_class hu
  cases hc : r.cfg with
  | true => rw [fdPeek_sample h (readyFd_iff.2 ⟨r, hr, hc⟩)]; exact Sound.ok h _
  | false => rw [fdPeek_unset hr hc]; exact Sound.raise (α := F32) h (by simp) u

theorem fdFlush_sound {s : State} (h : s.Inv) {u : UnitId} (hu : s.classOf u = some .fd) : Sound s (fdFlush u s) := by
  obtain ⟨r, hr⟩ := State.Inv.fd_of_class hu
  have hw := (Fd.wf_iff r).1 (h.unitWf hr)
  rw [fdFlush, getFd_eq hr]
  exact Sound.put_at h hr rfl ((Fd.wf_iff _).2 ⟨rfl, hw.2⟩)

/-- An accepted length leaves a fractional delay line well formed (R29, R219). -/
theorem Fd.wf_setup {r : Fd} (h : r.wf = true) (hl : r.buf.cap < 65536) {n : F32} {k : Nat} (h1 : 1 ≤ k)
    (h2 : k ≤ r.buf.cap) (w : F32) : Fd.wf { r with
      n := n, nint := BitVec.ofNat 16 k, w := w, extractFrom := (r.insertAt + r.buf.cap - k) % r.buf.cap,
      cfg := true } = true := by
  have hw := (Fd.wf_iff r).1 h
  have hni : (BitVec.ofNat 16 k).toNat = k := by
    rw [BitVec.toNat_ofNat]; exact Nat.mod_eq_of_lt (by omega)
  rw [Fd.wf_iff]
  refine ⟨hw.1, hw.2.1, Nat.mod_lt _ (by omega), fun _ => ?_⟩
  dsimp only
  rw [hni]
  exact ⟨h1, h2, rfl⟩

/-- `FD.SETUP` with a length the line accepts, as the record it writes. -/
theorem fdSetup_put {s : State} {u : UnitId} {r : Fd} (hr : s.unit? u = some (.fd r)) {n : F32}
    (hn : fdLengthOk n r.buf.cap = true) : fdSetup u n s = put u (.fd { r with
      n := n, nint := BitVec.ofNat 16 (fceil n), w := fsub (f32OfNat (fceil n)) n,
      extractFrom := (r.insertAt + r.buf.cap - fceil n) % r.buf.cap, cfg := true }) s := by
  simp only [fdSetup, getFd_eq hr, Res.bind_ok, hn, require_true]

theorem fdPut_sound {s : State} (h : s.Inv) {u : UnitId} {r : Fd} (hr : s.unit? u = some (.fd r)) (n w : F32) {k : Nat}
    (h1 : 1 ≤ k) (h2 : k ≤ r.buf.cap) : Sound s (put u (.fd { r with
      n := n, nint := BitVec.ofNat 16 k, w := w, extractFrom := (r.insertAt + r.buf.cap - k) % r.buf.cap,
      cfg := true }) s) := by
  have he : (decide (1 ≤ r.buf.cap) && decide (r.buf.cap < 65536)) = true := h.entryWf hr
  simp only [Bool.and_eq_true, decide_eq_true_eq] at he
  exact Sound.put_at h hr rfl (Fd.wf_setup (h.unitWf hr) he.2 h1 h2 _)

theorem fdCap_lt {s : State} (h : s.Inv) {u : UnitId} {r : Fd} (hr : s.unit? u = some (.fd r)) :
    r.buf.cap < 65536 := by
  have he : (decide (1 ≤ r.buf.cap) && decide (r.buf.cap < 65536)) = true := h.entryWf hr
  simp only [Bool.and_eq_true, decide_eq_true_eq] at he
  exact he.2

theorem fdSetup_sound {s : State} (h : s.Inv) {u : UnitId} (hu : s.classOf u = some .fd) (n : F32) :
    Sound s (fdSetup u n s) := by
  obtain ⟨r, hr⟩ := State.Inv.fd_of_class hu
  cases hn : fdLengthOk n r.buf.cap with
  | true =>
    have hb := fdAccepts_bounds (fdCap_lt h hr) hn
    rw [fdSetup_put hr hn]
    exact fdPut_sound h hr n _ hb.1 hb.2.1
  | false => rw [fdSetup_refuses hr hn]; exact Sound.raise (α := Unit) h (by simp) u

/-! ## Classes WS, TS, PA -/

theorem wsStep_sound {s : State} (h : s.Inv) {u : UnitId} (hu : s.classOf u = some .ws) (x : F32) :
    Sound s (wsStep u x s) := by
  obtain ⟨r, hr⟩ := State.Inv.ws_of_class hu
  cases hc : r.cfg with
  | true =>
    cases hx : isNaN x with
    | true => rw [wsStep_nan hr hc hx]; exact ⟨u, rfl⟩
    | false => exact Sound.of_later (wsStep_sample h (readyWs_iff.2 ⟨r, hr, hc⟩) hx)
  | false => rw [wsStep_unset hr hc]; exact Sound.raise (α := F32) h (by simp) u

theorem wsFlush_sound {s : State} (h : s.Inv) {u : UnitId} (hu : s.classOf u = some .ws) : Sound s (wsFlush u s) := by
  obtain ⟨r, hr⟩ := State.Inv.ws_of_class hu
  rw [wsFlush_eq hr]
  exact Sound.ok h ()

theorem wsSetup_sound {s : State} (h : s.Inv) {u : UnitId} (hu : s.classOf u = some .ws) (lo hi : F32)
    (tab : List F32) : Sound s (wsSetup u lo hi tab s) := by
  obtain ⟨r, hr⟩ := State.Inv.ws_of_class hu
  have hw := (Ws.wf_iff r).1 (h.unitWf hr)
  rw [wsSetup, getWs_eq hr, Res.bind_ok]
  by_cases hl : 2 ≤ tab.length ∧ tab.length ≤ r.tab.cap
  · rw [decide_eq_true hl.1, decide_eq_true hl.2, Bool.and_self, require_true, Res.bind_ok]
    cases hd : flt lo hi with
    | true =>
      rw [require_true, Res.bind_ok]
      exact Sound.put_at h hr rfl ((Ws.wf_iff _).2 ⟨Memory.wf_load hw.1 hl.2, fun _ => ⟨hl.1, hl.2, hd⟩⟩)
    | false => exact Sound.raise (α := Unit) h (by simp) u
  · have : (decide (2 ≤ tab.length) && decide (tab.length ≤ r.tab.cap)) = false := by
      rw [← Bool.not_eq_true, Bool.and_eq_true, decide_eq_true_eq, decide_eq_true_eq]; exact hl
    rw [this]
    exact Sound.raise (α := Unit) h (by simp) u

/-- The children of a tube stage. -/
theorem State.Inv.ts_children {s : State} (h : s.Inv) {u : UnitId} {r : Ts} (hr : s.unit? u = some (.ts r)) :
    s.classOf r.inp = some .bq ∧ s.classOf r.curve = some .ws ∧ s.classOf r.fb = some .fo ∧
      s.classOf r.dc = some .fo := by
  refine ⟨h.child hr (c := (r.inp, .bq)) ?_, h.child hr (c := (r.curve, .ws)) ?_, h.child hr (c := (r.fb, .fo)) ?_,
    h.child hr (c := (r.dc, .fo)) ?_⟩ <;> simp [UnitRec.entry, InstEntry.children]

theorem tsSetup_sound {s : State} (h : s.Inv) {u : UnitId} (hu : s.classOf u = some .ts) (g v rk rp : F32) :
    Sound s (tsSetup u g v rk rp s) := by
  obtain ⟨r, hr⟩ := State.Inv.ts_of_class hu
  rw [tsSetup, getTs_eq hr]
  exact Sound.put_at h hr rfl rfl

theorem tsSetBias_sound {s : State} (h : s.Inv) {u : UnitId} (hu : s.classOf u = some .ts) (b : F32) :
    Sound s (tsSetBias u b s) := by
  obtain ⟨r, hr⟩ := State.Inv.ts_of_class hu
  rw [tsSetBias, getTs_eq hr]
  exact Sound.put_at h hr rfl rfl

theorem tsGain_sound {s : State} (h : s.Inv) {u : UnitId} (hu : s.classOf u = some .ts) (g : F32) :
    Sound s (tsGain u g s) := by
  obtain ⟨r, hr⟩ := State.Inv.ts_of_class hu
  rw [tsGain, getTs_eq hr, Res.bind_ok]
  refine (Sound.needCfg h r.cfg u).bind fun _ t _ k => Sound.put k.inv ?_ rfl
  rw [k.entry u, hr]
  rfl

theorem tsStep_sound {s : State} (h : s.Inv) {u : UnitId} (hu : s.classOf u = some .ts) (x : F32) :
    Sound s (tsStep u x s) := by
  obtain ⟨r, hr⟩ := State.Inv.ts_of_class hu
  obtain ⟨c1, c2, c3, c4⟩ := h.ts_children hr
  rw [tsStep, getTs_eq hr, Res.bind_ok]
  refine (Sound.needCfg h r.cfg u).bind fun _ _ _ k1 => ?_
  refine (bqStep_sound k1.inv (k1.isClass c1) _).bind fun x2 _ _ k2 => ?_
  have k2 := k1.trans k2
  refine (wsStep_sound k2.inv (k2.isClass c2) _).bind fun x4 _ _ k3 => ?_
  have k3 := k2.trans k3
  refine (foStep_sound k3.inv (k3.isClass c3) _).bind fun b _ _ k4 => ?_
  have k4 := k3.trans k4
  refine (tsSetBias_sound k4.inv (k4.isClass hu) b).bind fun _ _ _ k5 => ?_
  have k5 := k4.trans k5
  exact foStep_sound k5.inv (k5.isClass c4) x4

theorem tsFlush_sound {s : State} (h : s.Inv) {u : UnitId} (hu : s.classOf u = some .ts) : Sound s (tsFlush u s) := by
  obtain ⟨r, hr⟩ := State.Inv.ts_of_class hu
  obtain ⟨c1, c2, c3, c4⟩ := h.ts_children hr
  rw [tsFlush, getTs_eq hr, Res.bind_ok]
  refine (tsSetBias_sound h hu c0).bind fun _ _ _ k1 => ?_
  refine (bqFlush_sound k1.inv (k1.isClass c1)).bind fun _ _ _ k2 => ?_
  have k2 := k1.trans k2
  refine (wsFlush_sound k2.inv (k2.isClass c2)).bind fun _ _ _ k3 => ?_
  have k3 := k2.trans k3
  refine (foFlush_sound k3.inv (k3.isClass c3)).bind fun _ _ _ k4 => ?_
  have k4 := k3.trans k4
  exact foFlush_sound k4.inv (k4.isClass c4)

/-- The children of a preamp. -/
theorem State.Inv.pa_children {s : State} (h : s.Inv) {u : UnitId} {r : Pa} (hr : s.unit? u = some (.pa r)) :
    s.classOf r.stage0 = some .ts ∧ s.classOf r.stage1 = some .ts ∧ s.classOf r.stage2 = some .ts := by
  refine ⟨h.child hr (c := (r.stage0, .ts)) ?_, h.child hr (c := (r.stage1, .ts)) ?_,
    h.child hr (c := (r.stage2, .ts)) ?_⟩ <;> simp [UnitRec.entry, InstEntry.children]

theorem paStep_sound {s : State} (h : s.Inv) {u : UnitId} (hu : s.classOf u = some .pa) (x : F32) :
    Sound s (paStep u x s) := by
  obtain ⟨r, hr⟩ := State.Inv.pa_of_class hu
  obtain ⟨c1, c2, c3⟩ := h.pa_children hr
  rw [paStep, getPa_eq hr, Res.bind_ok]
  refine (tsStep_sound h c1 x).bind fun a _ _ k1 => ?_
  refine (tsStep_sound k1.inv (k1.isClass c2) a).bind fun b _ _ k2 => ?_
  exact tsStep_sound k2.inv ((k1.trans k2).isClass c3) b

theorem paFlush_sound {s : State} (h : s.Inv) {u : UnitId} (hu : s.classOf u = some .pa) : Sound s (paFlush u s) := by
  obtain ⟨r, hr⟩ := State.Inv.pa_of_class hu
  obtain ⟨c1, c2, c3⟩ := h.pa_children hr
  rw [paFlush, getPa_eq hr, Res.bind_ok]
  refine (tsFlush_sound h c1).bind fun _ _ _ k1 => ?_
  refine (tsFlush_sound k1.inv (k1.isClass c2)).bind fun _ _ _ k2 => ?_
  exact tsFlush_sound k2.inv ((k1.trans k2).isClass c3)

/-! ## Classes APF, CMB, RV -/

/-- The child of an allpass section. -/
theorem State.Inv.apf_child {s : State} (h : s.Inv) {u : UnitId} {r : Apf} (hr : s.unit? u = some (.apf r)) :
    s.classOf r.dl = some .dl := h.child hr (c := (r.dl, .dl)) (by simp [UnitRec.entry, InstEntry.children])

/-- The child of a comb section. -/
theorem State.Inv.cmb_child {s : State} (h : s.Inv) {u : UnitId} {r : Cmb} (hr : s.unit? u = some (.cmb r)) :
    s.classOf r.dl = some .dl := h.child hr (c := (r.dl, .dl)) (by simp [UnitRec.entry, InstEntry.children])

theorem apfStep_sound {s : State} (h : s.Inv) {u : UnitId} (hu : s.classOf u = some .apf) (x : F32) :
    Sound s (apfStep u x s) := by
  obtain ⟨r, hr⟩ := State.Inv.apf_of_class hu
  have c := h.apf_child hr
  rw [apfStep, getApf_eq hr, Res.bind_ok]
  refine (Sound.needCfg h r.cfg u).bind fun _ _ _ k1 => ?_
  refine (dlPeek_sound k1.inv (k1.isClass c)).bind fun d _ _ k2 => ?_
  exact (dlStep_sound k2.inv ((k1.trans k2).isClass c) _).map _

theorem apfFlush_sound {s : State} (h : s.Inv) {u : UnitId} (hu : s.classOf u = some .apf) :
    Sound s (apfFlush u s) := by
  obtain ⟨r, hr⟩ := State.Inv.apf_of_class hu
  rw [apfFlush, getApf_eq hr]
  exact dlFlush_sound h (h.apf_child hr)

theorem apfSetup_sound {s : State} (h : s.Inv) {u : UnitId} (hu : s.classOf u = some .apf) (n : Nat) (gb gf : F32) :
    Sound s (apfSetup u n gb gf s) := by
  obtain ⟨r, hr⟩ := State.Inv.apf_of_class hu
  rw [apfSetup, getApf_eq hr, Res.bind_ok]
  refine (dlSetup_sound h (h.apf_child hr) n).bind fun _ _ _ k => Sound.put k.inv ?_ rfl
  rw [k.entry u, hr]
  rfl

theorem cmbStep_sound {s : State} (h : s.Inv) {u : UnitId} (hu : s.classOf u = some .cmb) (x : F32) :
    Sound s (cmbStep u x s) := by
  obtain ⟨r, hr⟩ := State.Inv.cmb_of_class hu
  have c := h.cmb_child hr
  rw [cmbStep, getCmb_eq hr, Res.bind_ok]
  refine (Sound.needCfg h r.cfg u).bind fun _ _ _ k1 => ?_
  refine (dlPeek_sound k1.inv (k1.isClass c)).bind fun d _ _ k2 => ?_
  exact (dlStep_sound k2.inv ((k1.trans k2).isClass c) _).map _

theorem cmbFlush_sound {s : State} (h : s.Inv) {u : UnitId} (hu : s.classOf u = some .cmb) :
    Sound s (cmbFlush u s) := by
  obtain ⟨r, hr⟩ := State.Inv.cmb_of_class hu
  rw [cmbFlush, getCmb_eq hr]
  exact dlFlush_sound h (h.cmb_child hr)

theorem cmbSetup_sound {s : State} (h : s.Inv) {u : UnitId} (hu : s.classOf u = some .cmb) (n : Nat) (gb : F32) :
    Sound s (cmbSetup u n gb s) := by
  obtain ⟨r, hr⟩ := State.Inv.cmb_of_class hu
  rw [cmbSetup, getCmb_eq hr, Res.bind_ok]
  refine (dlSetup_sound h (h.cmb_child hr) n).bind fun _ _ _ k => Sound.put k.inv ?_ rfl
  rw [k.entry u, hr]
  rfl

/-- The children of a reverberator. -/
theorem State.Inv.rv_children {s : State} (h : s.Inv) {u : UnitId} {r : Rv} (hr : s.unit? u = some (.rv r)) :
    s.classOf r.apf0 = some .apf ∧ s.classOf r.apf1 = some .apf ∧ s.classOf r.apf2 = some .apf ∧
      s.classOf r.cmb0 = some .cmb ∧ s.classOf r.cmb1 = some .cmb ∧ s.classOf r.cmb2 = some .cmb ∧
      s.classOf r.cmb3 = some .cmb := by
  refine ⟨h.child hr (c := (r.apf0, .apf)) ?_, h.child hr (c := (r.apf1, .apf)) ?_, h.child hr (c := (r.apf2, .apf)) ?_,
    h.child hr (c := (r.cmb0, .cmb)) ?_, h.child hr (c := (r.cmb1, .cmb)) ?_, h.child hr (c := (r.cmb2, .cmb)) ?_,
    h.child hr (c := (r.cmb3, .cmb)) ?_⟩ <;> simp [UnitRec.entry, InstEntry.children]

theorem rvSetCfg_sound {s : State} (h : s.Inv) {u : UnitId} (hu : s.classOf u = some .rv) : Sound s (rvSetCfg u s) := by
  obtain ⟨r, hr⟩ := State.Inv.rv_of_class hu
  rw [rvSetCfg, getRv_eq hr]
  exact Sound.put_at h hr rfl rfl

theorem rvSetup_sound {s : State} (h : s.Inv) {u : UnitId} (hu : s.classOf u = some .rv) : Sound s (rvSetup u s) := by
  obtain ⟨r, hr⟩ := State.Inv.rv_of_class hu
  obtain ⟨a0, a1, a2, b0, b1, b2, b3⟩ := h.rv_children hr
  rw [rvSetup, getRv_eq hr, Res.bind_ok]
  refine (apfSetup_sound h a0 _ _ _).bind fun _ _ _ k1 => ?_
  refine (apfSetup_sound k1.inv (k1.isClass a1) _ _ _).bind fun _ _ _ k => ?_
  have k2 := k1.trans k
  refine (apfSetup_sound k2.inv (k2.isClass a2) _ _ _).bind fun _ _ _ k => ?_
  have k3 := k2.trans k
  refine (cmbSetup_sound k3.inv (k3.isClass b0) _ _).bind fun _ _ _ k => ?_
  have k4 := k3.trans k
  refine (cmbSetup_sound k4.inv (k4.isClass b1) _ _).bind fun _ _ _ k => ?_
  have k5 := k4.trans k
  refine (cmbSetup_sound k5.inv (k5.isClass b2) _ _).bind fun _ _ _ k => ?_
  have k6 := k5.trans k
  refine (cmbSetup_sound k6.inv (k6.isClass b3) _ _).bind fun _ _ _ k => ?_
  have k7 := k6.trans k
  exact rvSetCfg_sound k7.inv (k7.isClass hu)

theorem rvStep_sound {s : State} (h : s.Inv) {u : UnitId} (hu : s.classOf u = some .rv) (x : F32) :
    Sound s (rvStep u x s) := by
  obtain ⟨r, hr⟩ := State.Inv.rv_of_class hu
  obtain ⟨a0, a1, a2, b0, b1, b2, b3⟩ := h.rv_children hr
  rw [rvStep, getRv_eq hr, Res.bind_ok]
  refine (Sound.needCfg h r.cfg u).bind fun _ _ _ k0 => ?_
  refine (apfStep_sound k0.inv (k0.isClass a0) _).bind fun _ _ _ k => ?_
  have k1 := k0.trans k
  refine (apfStep_sound k1.inv (k1.isClass a1) _).bind fun _ _ _ k => ?_
  have k2 := k1.trans k
  refine (apfStep_sound k2.inv (k2.isClass a2) _).bind fun _ _ _ k => ?_
  have k3 := k2.trans k
  refine (cmbStep_sound k3.inv (k3.isClass b0) _).bind fun _ _ _ k => ?_
  have k4 := k3.trans k
  refine (cmbStep_sound k4.inv (k4.isClass b1) _).bind fun _ _ _ k => ?_
  have k5 := k4.trans k
  refine (cmbStep_sound k5.inv (k5.isClass b2) _).bind fun _ _ _ k => ?_
  have k6 := k5.trans k
  exact (cmbStep_sound k6.inv (k6.isClass b3) _).map _

theorem rvFlush_sound {s : State} (h : s.Inv) {u : UnitId} (hu : s.classOf u = some .rv) : Sound s (rvFlush u s) := by
  obtain ⟨r, hr⟩ := State.Inv.rv_of_class hu
  obtain ⟨a0, a1, a2, b0, b1, b2, b3⟩ := h.rv_children hr
  rw [rvFlush, getRv_eq hr, Res.bind_ok]
  refine (apfFlush_sound h a0).bind fun _ _ _ k1 => ?_
  refine (apfFlush_sound k1.inv (k1.isClass a1)).bind fun _ _ _ k => ?_
  have k2 := k1.trans k
  refine (apfFlush_sound k2.inv (k2.isClass a2)).bind fun _ _ _ k => ?_
  have k3 := k2.trans k
  refine (cmbFlush_sound k3.inv (k3.isClass b0)).bind fun _ _ _ k => ?_
  have k4 := k3.trans k
  refine (cmbFlush_sound k4.inv (k4.isClass b1)).bind fun _ _ _ k => ?_
  have k5 := k4.trans k
  refine (cmbFlush_sound k5.inv (k5.isClass b2)).bind fun _ _ _ k => ?_
  have k6 := k5.trans k
  exact cmbFlush_sound k6.inv (k6.isClass b3)

end Sys2Proof.Machine
end

