-- ==== Sys2Proof/Laws/SoundGen.lean ====
section
/-! SUPPORT. The generators, the drum machine's control operations and whole `PROC`s from a state that meets the
invariant: which voice is picked, and that every operation is `Sound`. -/

namespace Sys2Proof.Machine

/-! ## Class KS -/

/-- The children of a voice. -/
theorem State.Inv.ks_children {s : State} (h : s.Inv) {u : UnitId} {r : Ks} (hr : s.unit? u = some (.ks r)) :
    s.classOf r.delay = some .fd ∧ s.classOf r.damp = some .fo :=
  ⟨h.child hr (c := (r.delay, .fd)) (by simp [UnitRec.entry, InstEntry.children]),
    h.child hr (c := (r.damp, .fo)) (by simp [UnitRec.entry, InstEntry.children])⟩

theorem ksTune_sound {s : State} (h : s.Inv) {u : UnitId} (hu : s.classOf u = some .ks) (freq : F32) :
    Sound s (ksTune u freq s) := by
  obtain ⟨r, hr⟩ := State.Inv.ks_of_class hu
  have c := (h.ks_children hr).1
  rw [ksTune, getKs_eq hr, Res.bind_ok]
  exact (Sound.needFs h).bind fun _ _ _ k => fdSetup_sound k.inv (k.isClass c) _

theorem ksTrig_sound {s : State} (h : s.Inv) {u : UnitId} (hu : s.classOf u = some .ks) : Sound s (ksTrig u s) := by
  obtain ⟨r, hr⟩ := State.Inv.ks_of_class hu
  rw [ksTrig, getKs_eq hr]
  exact Sound.put_at h hr rfl rfl

theorem ksMute_sound {s : State} (h : s.Inv) {u : UnitId} (hu : s.classOf u = some .ks) : Sound s (ksMute u s) := by
  obtain ⟨r, hr⟩ := State.Inv.ks_of_class hu
  rw [ksMute, getKs_eq hr]
  exact Sound.put_at h hr rfl rfl

theorem ksExcitation_sound {s : State} (h : s.Inv) {u : UnitId} {r : Ks} (hr : s.unit? u = some (.ks r)) :
    Sound s (ksExcitation u r s) := by
  unfold ksExcitation
  split
  · exact Sound.ok h _
  · refine (Sound.put_at (r' := .ks { r with excite := r.excite - 1 }) h hr rfl rfl).bind fun _ _ _ k => ?_
    exact (Sound.draw k.inv).bind fun _ _ _ k' => Sound.ok k'.inv _

theorem ksStep_sound {s : State} (h : s.Inv) {u : UnitId} (hu : s.classOf u = some .ks) : Sound s (ksStep u s) := by
  obtain ⟨r, hr⟩ := State.Inv.ks_of_class hu
  obtain ⟨c1, c2⟩ := h.ks_children hr
  obtain ⟨d, hd⟩ := State.Inv.fd_of_class c1
  obtain ⟨f, hf⟩ := State.Inv.fo_of_class c2
  cases hdc : d.cfg with
  | false =>
    rw [ksStep, getKs_eq hr, Res.bind_ok, getFd_eq hd, Res.bind_ok, hdc]
    exact Sound.raise (α := F32) h (by simp) _
  | true => cases hfc : f.cfg with
    | false =>
      rw [ksStep, getKs_eq hr, Res.bind_ok, getFd_eq hd, Res.bind_ok, hdc, needCfg_true, Res.bind_ok, getFo_eq hf,
        Res.bind_ok, hfc]
      exact Sound.raise (α := F32) h (by simp) _
    | true =>
      exact Sound.of_later (ksStep_sample h
        (readyKs_iff.2 ⟨r, hr, readyFd_iff.2 ⟨d, hd, hdc⟩, readyFo_iff.2 ⟨f, hf, hfc⟩⟩))

theorem ksFlush_sound {s : State} (h : s.Inv) {u : UnitId} (hu : s.classOf u = some .ks) : Sound s (ksFlush u s) := by
  obtain ⟨r, hr⟩ := State.Inv.ks_of_class hu
  obtain ⟨c1, c2⟩ := h.ks_children hr
  rw [ksFlush, getKs_eq hr, Res.bind_ok]
  refine (Sound.put_at (r' := .ks { r with excite := 0 }) h hr rfl rfl).bind fun _ _ _ k1 => ?_
  refine (fdFlush_sound k1.inv (k1.isClass c1)).bind fun _ _ _ k2 => ?_
  exact foFlush_sound k2.inv ((k1.trans k2).isClass c2)

/-! ## The choice of a voice -/

theorem voiceIndices_range (test : Voice → Bool) (vs : List Voice) : ∀ k i, i ∈ voiceIndices test k vs →
    ∃ v, k ≤ i ∧ vs[i - k]? = some v ∧ test v = true := by
  induction vs with
  | nil => intro k i h; simp [voiceIndices] at h
  | cons v vs ih =>
    intro k i h
    have tail : i ∈ voiceIndices test (k + 1) vs → ∃ w, k ≤ i ∧ (v :: vs)[i - k]? = some w ∧ test w = true := by
      intro h
      obtain ⟨w, h1, h2, h3⟩ := ih (k + 1) i h
      refine ⟨w, by omega, ?_, h3⟩
      rw [show i - k = (i - (k + 1)) + 1 by omega, List.getElem?_cons_succ]
      exact h2
    unfold voiceIndices at h
    split at h
    · rename_i ht
      rcases List.mem_cons.1 h with rfl | h
      · exact ⟨v, Nat.le_refl _, by simp, ht⟩
      · exact tail h
    · exact tail h

theorem voiceIndices_all (vs : List Voice) (h : vs ≠ []) (k : Nat) : voiceIndices (fun _ => true) k vs ≠ [] := by
  cases vs with
  | nil => exact absurd rfl h
  | cons v vs => simp [voiceIndices]

theorem pickFrom_mem (w : Nat) (vs : List Voice) (is : List Nat) : ∀ b, pickFrom w vs b is ∈ b :: is := by
  induction is with
  | nil => intro b; simp [pickFrom]
  | cons i is ih =>
    intro b
    unfold pickFrom
    split
    · exact List.mem_cons_of_mem _ (ih i)
    · rcases List.mem_cons.1 (ih b) with h | h
      · rw [h]; simp
      · exact List.mem_cons_of_mem _ (List.mem_cons_of_mem _ h)

/-- A voice is picked wherever there is one (R328). -/
theorem pickVoice_some (w : Nat) {vs : List Voice} (h : vs ≠ []) : ∃ i v, pickVoice w vs = some i ∧ vs[i]? = some v := by
  have hne : pickCandidates vs ≠ [] := by
    unfold pickCandidates
    dsimp only
    split
    · exact voiceIndices_all vs h 0
    · rename_i hf; simpa using hf
  have hrange : ∀ i ∈ pickCandidates vs, ∃ v, vs[i]? = some v := by
    intro i hi
    unfold pickCandidates at hi
    dsimp only at hi
    split at hi
    all_goals
      obtain ⟨v, -, hv, -⟩ := voiceIndices_range _ vs 0 i hi
      exact ⟨v, hv⟩
  cases hc : pickCandidates vs with
  | nil => exact absurd hc hne
  | cons i is =>
    obtain ⟨v, hv⟩ := hrange _ (hc ▸ pickFrom_mem w vs is i)
    exact ⟨_, v, by simp [pickVoice, hc], hv⟩

/-! ## Class VB -/

/-- The children of an allocator. -/
theorem State.Inv.vb_child {s : State} (h : s.Inv) {u : UnitId} {r : Vb} (hr : s.unit? u = some (.vb r)) {v : Voice}
    (hv : v ∈ r.voices) : s.classOf v.unit = some .ks := by
  refine h.child hr (c := (v.unit, .ks)) ?_
  simp only [UnitRec.entry, InstEntry.children, List.map_map, List.mem_map]
  exact ⟨v, hv, rfl⟩

theorem State.Inv.ageW_pos {s : State} (h : s.Inv) : 1 ≤ s.params.ageW := by
  have := h.params; simp only [Params.wf, Bool.and_eq_true, decide_eq_true_eq] at this; exact this.1.1.1.1

theorem setVoice_units (vs : List Voice) (i : Nat) (note : BitVec 8) (age : Int) :
    (setVoice vs i note age).map Voice.unit = vs.map Voice.unit := by
  induction vs generalizing i with
  | nil => cases i <;> rfl
  | cons v vs ih => cases i with
    | zero => rfl
    | succ i => exact congrArg (v.unit :: ·) (ih i)

theorem setVoice_mem {vs : List Voice} {i : Nat} {note : BitVec 8} {age : Int} {v : Voice}
    (h : v ∈ setVoice vs i note age) : v.age = age ∨ v ∈ vs := by
  induction vs generalizing i with
  | nil => cases i <;> simp [setVoice] at h
  | cons w vs ih => cases i with
    | zero =>
      rcases List.mem_cons.1 h with rfl | h
      · exact .inl rfl
      · exact .inr (List.mem_cons_of_mem _ h)
    | succ i =>
      rcases List.mem_cons.1 h with rfl | h
      · exact .inr (by simp)
      · rcases ih h with h | h
        · exact .inl h
        · exact .inr (List.mem_cons_of_mem _ h)

/-- Binding or unbinding a voice, stamped with the present clock. -/
theorem Vb.wf_setVoice {w : Nat} {r : Vb} (h : r.wf w = true) (i : Nat) (note : BitVec 8) :
    Vb.wf w { r with voices := setVoice r.voices i note r.now } = true := by
  rw [Vb.wf_iff] at h ⊢
  refine ⟨h.1, fun v hv => ?_⟩
  rcases setVoice_mem hv with ha | ha
  · rw [ha]; exact h.1
  · exact h.2 v ha

theorem Vb.entry_setVoice (r : Vb) (i : Nat) (note : BitVec 8) :
    (UnitRec.vb { r with voices := setVoice r.voices i note r.now }).entry = (UnitRec.vb r).entry := by
  simp only [UnitRec.entry, setVoice_units]

theorem vbNoteOn_sound {s : State} (h : s.Inv) {u : UnitId} (hu : s.classOf u = some .vb) (note : BitVec 7) :
    Sound s (vbNoteOn u note s) := by
  obtain ⟨r, hr⟩ := State.Inv.vb_of_class hu
  have he : decide (1 ≤ (r.voices.map Voice.unit).length) = true := h.entryWf hr
  have hne : r.voices ≠ [] := fun hz => by simp [hz] at he
  obtain ⟨i, v, hi, hv⟩ := pickVoice_some s.params.ageW hne
  have hm := List.mem_of_getElem? hv
  simp only [vbNoteOn, getVb_eq hr, Res.bind_ok, hi, romRead_eq hv]
  refine (Sound.put_at h hr (Vb.entry_setVoice r i _) (Vb.wf_setVoice (h.unitWf hr) i _)).bind fun _ _ _ k1 => ?_
  refine (ksTune_sound k1.inv (k1.isClass (h.vb_child hr hm)) _).bind fun _ _ _ k2 => ?_
  exact ksTrig_sound k2.inv ((k1.trans k2).isClass (h.vb_child hr hm))

theorem vbNoteOff_sound {s : State} (h : s.Inv) {u : UnitId} (hu : s.classOf u = some .vb) (note : BitVec 7) :
    Sound s (vbNoteOff u note s) := by
  obtain ⟨r, hr⟩ := State.Inv.vb_of_class hu
  simp only [vbNoteOff, getVb_eq hr, Res.bind_ok]
  split
  · exact Sound.ok h ()
  · split
    · exact Sound.ok h ()
    · rename_i i is hi
      obtain ⟨v, -, hv, -⟩ := voiceIndices_range _ r.voices 0 i (by rw [hi]; simp)
      have hm := List.mem_of_getElem? hv
      rw [romRead_eq (show r.voices[i]? = some v from hv), Res.bind_ok]
      refine (Sound.put_at h hr (Vb.entry_setVoice r i _) (Vb.wf_setVoice (h.unitWf hr) i _)).bind fun _ _ _ k1 => ?_
      exact ksMute_sound k1.inv (k1.isClass (h.vb_child hr hm))

theorem vbSum_sound {s : State} (h : s.Inv) (vs : List Voice) (hv : ∀ v ∈ vs, s.classOf v.unit = some .ks)
    (acc : F32) : Sound s (vbSum vs acc s) := by
  induction vs generalizing s acc with
  | nil => exact Sound.ok h _
  | cons v vs ih =>
    exact (ksStep_sound h (hv v (by simp))).bind fun _ _ _ k =>
      ih k.inv (fun w hw => k.isClass (hv w (by simp [hw]))) _

theorem vbTick_sound {s : State} (h : s.Inv) {u : UnitId} (hu : s.classOf u = some .vb) : Sound s (vbTick u s) := by
  obtain ⟨r, hr⟩ := State.Inv.vb_of_class hu
  rw [vbTick, getVb_eq hr]
  exact Sound.put_at h hr rfl ((Vb.wf_iff _ _).2 ⟨sextW_range h.ageW_pos _, ((Vb.wf_iff _ _).1 (h.unitWf hr)).2⟩)

theorem vbStep_sound {s : State} (h : s.Inv) {u : UnitId} (hu : s.classOf u = some .vb) : Sound s (vbStep u s) := by
  obtain ⟨r, hr⟩ := State.Inv.vb_of_class hu
  have he : decide (1 ≤ (r.voices.map Voice.unit).length) = true := h.entryWf hr
  have hall : ∀ v ∈ r.voices, s.classOf v.unit = some .ks := fun v hv => h.vb_child hr hv
  cases hvs : r.voices with
  | nil => simp [hvs] at he
  | cons v vs =>
    rw [hvs] at hall
    simp only [vbStep, getVb_eq hr, Res.bind_ok, hvs]
    refine (ksStep_sound h (hall v (by simp))).bind fun _ _ _ k1 => ?_
    refine (vbSum_sound k1.inv vs (fun w hw => k1.isClass (hall w (by simp [hw]))) _).bind fun _ _ _ k2 => ?_
    exact (vbTick_sound k2.inv ((k1.trans k2).isClass hu)).map _

theorem vbFlushVoices_sound {s : State} (h : s.Inv) (vs : List Voice) (hv : ∀ v ∈ vs, s.classOf v.unit = some .ks) :
    Sound s (vbFlushVoices vs s) := by
  induction vs generalizing s with
  | nil => exact Sound.ok h _
  | cons v vs ih =>
    exact (ksFlush_sound h (hv v (by simp))).bind fun _ _ _ k => ih k.inv fun w hw => k.isClass (hv w (by simp [hw]))

theorem vbFlush_sound {s : State} (h : s.Inv) {u : UnitId} (hu : s.classOf u = some .vb) : Sound s (vbFlush u s) := by
  obtain ⟨r, hr⟩ := State.Inv.vb_of_class hu
  rw [vbFlush, getVb_eq hr, Res.bind_ok]
  refine (Sound.put_at h hr ?_ ?_).bind fun _ _ _ k =>
    vbFlushVoices_sound k.inv r.voices fun v hv => k.isClass (h.vb_child hr hv)
  · simp [UnitRec.entry, Function.comp_def]
  · refine (Vb.wf_iff _ _).2 ⟨inAgeRange_zero _, fun v hv => ?_⟩
    obtain ⟨w, -, rfl⟩ := List.mem_map.1 hv
    exact inAgeRange_zero _

/-! ## Class DM -/

/-- The child of a drum machine. -/
theorem State.Inv.dm_child {s : State} (h : s.Inv) {u : UnitId} {r : Dm} (hr : s.unit? u = some (.dm r)) :
    s.classOf r.lp = some .bq := h.child hr (c := (r.lp, .bq)) (by simp [UnitRec.entry, InstEntry.children])

theorem ofNat32_ne_zero {k : Nat} (h1 : 1 ≤ k) (h2 : k < 4294967296) : BitVec.ofNat 32 k ≠ 0 := by
  intro hz
  have := congrArg BitVec.toNat hz
  simp at this
  omega

/-- A reload value that `spd_of` defines is not 0 (R281). -/
theorem spdTrunc_ne_zero {t : F32} (h : spdOk t = true) : spdTrunc t ≠ 0 :=
  ofNat32_ne_zero (spd_bounds h).1 (lt_of_lt_of_eq (spd_bounds h).2 (by norm_num))

/-- A nonzero reload value, put back with `cfg` (R283). -/
theorem dmPutSpd_sound {s t : State} (h : s.Inv) (k : Kept s t) {u : UnitId} {r : Dm} (hr : s.unit? u = some (.dm r))
    {w : Word} (hw : w ≠ 0) : Sound t (put u (.dm { r with spd := w, cfg := true }) t) := by
  obtain ⟨hp, hd, -⟩ := (Dm.wf_iff r).1 (h.unitWf hr)
  exact Sound.put k.inv (by rw [k.entry u, hr]; rfl) ((Dm.wf_iff _).2 ⟨hp, hd, fun _ => hw⟩)

/-- A nonzero reload value, put back with a pattern of the ROM (R284). -/
theorem dmPutPattern_sound {s t : State} (h : s.Inv) (k : Kept s t) {u : UnitId} {r : Dm}
    (hr : s.unit? u = some (.dm r)) {w : Word} (hw : w ≠ 0) (bpm : Word) {n : BitVec 16}
    (hn : n.toNat < r.patterns.length) :
    Sound t (put u (.dm { r with bpm := bpm, pattern := n, spd := w, stepIdx := 0 }) t) := by
  obtain ⟨-, hd, -⟩ := (Dm.wf_iff r).1 (h.unitWf hr)
  have hpat := ((DmRom.wf_iff _).1 (h.entryWf hr)).2.2.2.2.2.1
  have hpw := (Pattern.wf_iff _ _).1 (hpat _ (List.getElem_mem hn))
  exact Sound.put k.inv (by rw [k.entry u, hr]; rfl)
    ((Dm.wf_iff _).2 ⟨⟨_, List.getElem?_eq_getElem hn, by show 0 < _; omega⟩, hd, fun _ => hw⟩)

theorem dmSetup_sound {s : State} (h : s.Inv) {u : UnitId} (hu : s.classOf u = some .dm) : Sound s (dmSetup u s) := by
  obtain ⟨r, hr⟩ := State.Inv.dm_of_class hu
  have hw : r.wf = true := h.unitWf hr
  obtain ⟨⟨p, hp, hi⟩, hd, -⟩ := (Dm.wf_iff r).1 hw
  have hbank : r.bank.length = 16 := ((DmRom.wf_iff _).1 (h.entryWf hr)).2.2.2.2.2.2
  have hc : r.bank[0]? = some (r.bank.getD 0 ⟨0, 0, 0, 0, 0⟩) := by
    simp [List.getElem?_eq_getElem (show 0 < r.bank.length by omega)]
  rw [dmSetup, getDm_eq hr, Res.bind_ok]
  refine (Sound.needFs h).bind fun fs t ht k0 => ?_
  rw [romRead_eq hp, Res.bind_ok]
  dsimp only
  cases hs : spdOk (spdQuotient fs r.bpm p.dpb) with
  | false => exact Sound.raise (α := Unit) k0.inv (by simp) u
  | true =>
    have hnz := spdTrunc_ne_zero hs
    rw [require_true, Res.bind_ok, romRead_eq hc, Res.bind_ok]
    exact (bqLoad_sound k0.inv (k0.isClass (h.dm_child hr)) _).bind fun _ _ _ k1 =>
      dmPutSpd_sound h (k0.trans k1) hr hnz

theorem dmCfg_sound {s : State} (h : s.Inv) {u : UnitId} (hu : s.classOf u = some .dm) (n : BitVec 16) (bpm : Word) :
    Sound s (dmCfg u n bpm s) := by
  obtain ⟨r, hr⟩ := State.Inv.dm_of_class hu
  have hw : r.wf = true := h.unitWf hr
  rw [dmCfg, getDm_eq hr, Res.bind_ok]
  refine (Sound.needFs h).bind fun fs t ht k0 => ?_
  by_cases hok : n.toNat < r.patterns.length ∧ bpm ≠ 0
  · have hp : r.patterns[n.toNat]? = some r.patterns[n.toNat] := List.getElem?_eq_getElem hok.1
    rw [decide_eq_true hok.1, decide_eq_true hok.2, Bool.and_self, require_true, Res.bind_ok, romRead_eq hp, Res.bind_ok]
    dsimp only
    cases hs : spdOk (spdQuotient fs bpm r.patterns[n.toNat].dpb) with
    | false => exact Sound.raise (α := Unit) k0.inv (by simp) u
    | true =>
      have hnz := spdTrunc_ne_zero hs
      rw [require_true, Res.bind_ok]
      exact dmPutPattern_sound h k0 hr hnz bpm hok.1
  · have : (decide (n.toNat < r.patterns.length) && decide (bpm ≠ 0)) = false := by
      rw [← Bool.not_eq_true, Bool.and_eq_true, decide_eq_true_eq, decide_eq_true_eq]; exact hok
    rw [this]
    exact Sound.raise (α := Unit) k0.inv (by simp) u

theorem dmFlush_sound {s : State} (h : s.Inv) {u : UnitId} (hu : s.classOf u = some .dm) : Sound s (dmFlush u s) := by
  obtain ⟨r, hr⟩ := State.Inv.dm_of_class hu
  have hw : r.wf = true := h.unitWf hr
  obtain ⟨⟨p, hp, hi⟩, hd, hs⟩ := (Dm.wf_iff r).1 hw
  rw [dmFlush, getDm_eq hr, Res.bind_ok]
  refine (Sound.put_at h hr (by simp [UnitRec.entry, Function.comp_def]) ?_).bind fun _ _ _ k =>
    bqFlush_sound k.inv (k.isClass (h.dm_child hr))
  refine (Dm.wf_iff _).2 ⟨⟨p, hp, by show 0 < _; omega⟩, fun d hd' => ?_, hs⟩
  obtain ⟨e, -, rfl⟩ := List.mem_map.1 hd'
  simp

theorem dmStep_sound {s : State} (h : s.Inv) {u : UnitId} (hu : s.classOf u = some .dm) : Sound s (dmStep u s) := by
  obtain ⟨r, hr⟩ := State.Inv.dm_of_class hu
  obtain ⟨b, hb⟩ := State.Inv.bq_of_class (h.dm_child hr)
  have hw : r.wf = true := h.unitWf hr
  have he : (DmRom.wf ⟨r.drums.map Drum.pcm, r.patterns, r.bank⟩) = true := h.entryWf hr
  have hne : r.lp ≠ u := State.ne_of_unit? hb hr (by simp)
  rw [dmStep, getDm_eq hr, Res.bind_ok]
  refine (Sound.needCfg h r.cfg u).bind fun _ s1 hs1 k0 => ?_
  have hs1 : s1 = s := by
    cases hc : r.cfg with
    | true => rw [hc] at hs1; simpa using hs1.symm
    | false => rw [hc] at hs1; simp at hs1
  subst hs1
  -- a record with the entry and a well-formed content, put back, then the lowpass
  have last : ∀ (q : Dm) (t : State), Kept s1 t → (UnitRec.dm q).entry = (UnitRec.dm r).entry → q.wf = true →
      Sound t ((put u (.dm { q with phase := !q.phase }) t).bind fun _ t => bqStep q.lp q.hold t) := by
    intro q t k hq hqw
    have hlp : q.lp = r.lp := by simp only [UnitRec.entry, InstEntry.dm.injEq] at hq; exact hq.2
    refine (Sound.put k.inv ?_ ?_).bind fun _ _ _ k' => ?_
    · rw [k.entry u, hr, Option.map_some, ← hq]; rfl
    · exact (Dm.wf_iff _).2 ((Dm.wf_iff q).1 hqw)
    · rw [hlp]; exact bqStep_sound k'.inv ((k.trans k').isClass (h.dm_child hr)) _
  cases hph : r.phase with
  | true =>
    rw [if_pos rfl, Res.bind_ok]
    exact last r s1 (Kept.refl h) rfl hw
  | false =>
    rw [if_neg (by simp), dmSubStep_eq h hr hb hph]
    have hB : (if r.divCounter = 0 then dmBoundaryRegs r s1.prng else r).wf = true ∧
        (UnitRec.dm (if r.divCounter = 0 then dmBoundaryRegs r s1.prng else r)).entry = (UnitRec.dm r).entry := by
      split
      · obtain ⟨h1, h2⟩ := dmBoundaryRegs_wf hw he s1.prng
        exact ⟨h1, by simp only [UnitRec.entry, h2]; rfl⟩
      · exact ⟨hw, rfl⟩
    obtain ⟨hP, hPd⟩ := dmPlayRegs_wf hB.1 s1.params
    have hPe : (UnitRec.dm (dmPlayRegs s1.params (if r.divCounter = 0 then dmBoundaryRegs r s1.prng else r))).entry =
        (UnitRec.dm r).entry := by
      rw [← hB.2]; simp only [UnitRec.entry, hPd]; rfl
    have l1 : Later s1 (s1.putUnit r.lp (.bq (dmLp r s1.prng b))) := Later.putUnit h hb
      (by simp only [UnitRec.gist, UnitRec.entry, UnitRec.cfgBit, dmLp]; split <;> rfl) rfl
    obtain ⟨S, hS⟩ : ∃ S : State, S = { s1.putUnit r.lp (.bq (dmLp r s1.prng b)) with
        prng := if dmAtBoundary r then prngAfter (dmDraws r) s1.prng else s1.prng } := ⟨_, rfl⟩
    have lS : Later s1 S := by
      rw [hS]
      split
      · exact l1.drawnTimes (dmDraws r)
      · exact l1
    have hSu : S.unit? u = some (.dm r) := by
      rw [hS]
      show (s1.putUnit r.lp _).unit? u = _
      rw [State.unit?_putUnit_other hne.symm]; exact hr
    have hw' : (UnitRec.dm (dmPlayRegs s1.params
        (if r.divCounter = 0 then dmBoundaryRegs r s1.prng else r))).wf S.params = true := hP
    have hput := Sound.put_at lS.inv hSu hPe hw'
    have kS : Kept s1 S := ⟨lS.inv, fun v => by
      have := congrArg (Option.map Prod.fst) (lS.kin v)
      rw [Option.map_map, Option.map_map] at this
      exact this, by have := lS.rest; rw [this]⟩
    have kP : Kept s1 (S.putUnit u (.dm (dmPlayRegs s1.params
        (if r.divCounter = 0 then dmBoundaryRegs r s1.prng else r)))) := kS.trans hput
    have hL := last _ _ kP hPe hP
    subst hS
    refine Sound.bind (r := .ok _ _) kP fun q t hqt _ => ?_
    cases hqt
    exact hL

/-! ## `PROC` -/

/-- The `PROC` of a Filter, where its `STEP` is `Sound`. -/
theorem procLoop_sound {step : F32 → State → Res F32} {u : UnitId} {c : UnitClass}
    (hstep : ∀ {s : State}, s.Inv → s.classOf u = some c → ∀ x, Sound s (step x s)) (xs : List F32) :
    ∀ {s : State}, s.Inv → s.classOf u = some c → Sound s (procLoop step xs s) := by
  induction xs with
  | nil => intro s h _; exact Sound.ok h _
  | cons x xs ih =>
    intro s h hu
    exact (hstep h hu x).bind fun _ _ _ k => (ih k.inv (k.isClass hu)).map _

/-- The `PROC` of a Generator, where its `STEP` is `Sound`. -/
theorem genLoop_sound {step : State → Res F32} {u : UnitId} {c : UnitClass}
    (hstep : ∀ {s : State}, s.Inv → s.classOf u = some c → Sound s (step s)) (n : Nat) :
    ∀ {s : State}, s.Inv → s.classOf u = some c → Sound s (genLoop step n s) := by
  induction n with
  | zero => intro s h _; exact Sound.ok h _
  | succ n ih =>
    intro s h hu
    exact (hstep h hu).bind fun _ _ _ k => (ih k.inv (k.isClass hu)).map _

/-- The `PROC` of a Filter in closed form, where each sample has one and stays ready. -/
theorem procLoop_sample {step : F32 → State → Res F32} {ev : F32 → State → F32 × State} {ready : State → Prop}
    {ok : F32 → State → Bool} (hkin : ∀ {s t}, Kin s t → ready s → ready t)
    (hstep : ∀ {s : State}, s.Inv → ready s → ∀ {x}, ok x s = true → Sample (step x s) s (ev x s)) (xs : List F32) :
    ∀ {s : State}, s.Inv → ready s → cleanList ok ev xs s = true →
      procLoop step xs s = .ok (evalList ev xs s).1 (evalList ev xs s).2 ∧ Later s (evalList ev xs s).2 := by
  induction xs with
  | nil => intro s h _ _; exact ⟨rfl, Later.refl h⟩
  | cons x xs ih =>
    intro s h hr hc
    simp only [cleanList, Bool.and_eq_true] at hc
    have f := hstep h hr hc.1
    have g := ih f.2.inv (hkin f.2.kin hr) hc.2
    exact ⟨by simp only [procLoop, f.1, Res.bind_ok, g.1, Res.map_ok, evalList], f.2.trans g.2⟩

/-- Nothing to keep clean. -/
theorem cleanList_true (ev : F32 → State → F32 × State) (xs : List F32) :
    ∀ s, cleanList (fun _ _ => true) ev xs s = true := by
  induction xs with
  | nil => intro s; rfl
  | cons x xs ih => intro s; simp [cleanList, ih]

/-- The `PROC` of a Generator in closed form. -/
theorem genLoop_sample {step : State → Res F32} {ev : State → F32 × State} {ready : State → Prop}
    (hkin : ∀ {s t}, Kin s t → ready s → ready t)
    (hstep : ∀ {s : State}, s.Inv → ready s → Sample (step s) s (ev s)) (n : Nat) :
    ∀ {s : State}, s.Inv → ready s →
      genLoop step n s = .ok (evalTimes ev n s).1 (evalTimes ev n s).2 ∧ Later s (evalTimes ev n s).2 := by
  induction n with
  | zero => intro s h _; exact ⟨rfl, Later.refl h⟩
  | succ n ih =>
    intro s h hr
    have f := hstep h hr
    have g := ih f.2.inv (hkin f.2.kin hr)
    exact ⟨by simp only [genLoop, f.1, Res.bind_ok, g.1, Res.map_ok, evalTimes], f.2.trans g.2⟩

end Sys2Proof.Machine
end

