-- ==== Sys2Proof/Laws/Obstacles.lean ====
section
/-! SUPPORT. How a sample ends early: where a tube stage or a voice has an obstacle (`tsObstacle`, `ksObstacle`) its `STEP`
raises `NOT_SETUP` naming it or refuses the NaN, and where it has none it is ready and gives the closed form. -/

namespace Sys2Proof.Machine

/-- What an obstacle makes of a part of a command that began in state `s`. -/
def StopsAt {α : Type} (o : Obstacle) (s : State) (r : Res α) : Prop := match o with
  | .notSetup v => ∃ t : State, r = .raised (t.recordFault .notSetup v) ∧ t.fault = s.fault ∧ t.respOut = s.respOut
  | .nan v => r = .refuse (.waveshaperNaN v)

/-- What follows an early end does not happen. -/
theorem StopsAt.bind {α β : Type} {o : Obstacle} {s : State} {r : Res α} (h : StopsAt o s r) (f : α → State → Res β) :
    StopsAt o s (r.bind f) := by
  cases o with
  | notSetup v => obtain ⟨t, rfl, h1⟩ := h; exact ⟨t, rfl, h1⟩
  | nan v => exact congrArg (Res.bind · f) (show r = _ from h)

/-- An early end seen from an earlier state of the command. -/
theorem StopsAt.from {α : Type} {o : Obstacle} {s t : State} {r : Res α} (h : StopsAt o t r) (l : Later s t) :
    StopsAt o s r := by
  cases o with
  | notSetup v => obtain ⟨q, hr, h1, h2⟩ := h; exact ⟨q, hr, h1.trans l.fault, h2.trans l.respOut⟩
  | nan v => exact h

/-- A part that has no obstacle is ready, and no NaN reaches its curve. -/
theorem tsObstacle_none {s : State} (h : s.Inv) {u : UnitId} (hu : s.classOf u = some .ts) {x : F32}
    (ho : tsObstacle u x s = none) : readyTs s u = true ∧ tsClean u x s = true := by
  obtain ⟨r, hr⟩ := State.Inv.ts_of_class hu
  obtain ⟨c1, c2, c3, c4⟩ := h.ts_children hr
  simp only [tsObstacle, State.ts_eq hr] at ho
  repeat' split at ho
  all_goals try simp at ho
  rename_i h1 h2 h3 h4 h5 h6
  simp only [Bool.not_eq_false] at h1 h2 h3 h5 h6
  refine ⟨readyTs_iff.2 ⟨r, hr, h1, ?_, ?_, ?_, ?_⟩, by simpa [tsClean] using h4⟩
  · rw [readyBq, h2, c1]; rfl
  · rw [readyWs, h3, c2]; rfl
  · rw [readyFo, h5, c3]; rfl
  · rw [readyFo, h6, c4]; rfl

/-- A tube stage with an obstacle stops at it (R241). -/
theorem tsStep_stops {s : State} (h : s.Inv) {u : UnitId} (hu : s.classOf u = some .ts) {x : F32} {o : Obstacle}
    (ho : tsObstacle u x s = some o) : StopsAt o s (tsStep u x s) := by
  obtain ⟨r, hr⟩ := State.Inv.ts_of_class hu
  obtain ⟨c1, c2, c3, c4⟩ := h.ts_children hr
  obtain ⟨b, hb⟩ := State.Inv.bq_of_class c1
  obtain ⟨w, hw⟩ := State.Inv.ws_of_class c2
  obtain ⟨f, hf⟩ := State.Inv.fo_of_class c3
  obtain ⟨d, hd⟩ := State.Inv.fo_of_class c4
  simp only [tsObstacle, State.ts_eq hr, State.bq_eq hb, State.ws_eq hw, State.fo_eq hf, State.fo_eq hd] at ho
  rw [tsStep, getTs_eq hr, Res.bind_ok]
  split at ho
  · rename_i hc
    obtain rfl := Option.some.inj ho
    rw [hc]; exact ⟨s, rfl, rfl, rfl⟩
  rename_i hc
  rw [Bool.not_eq_false] at hc
  rw [hc, needCfg_true, Res.bind_ok]
  split at ho
  · rename_i hbc
    obtain rfl := Option.some.inj ho
    rw [bqStep_unset hb hbc]; exact ⟨s, rfl, rfl, rfl⟩
  rename_i hbc
  rw [Bool.not_eq_false] at hbc
  rw [bqStep_ready hb hbc, Res.bind_ok]
  have hin : tsCurveIn u x s = fadd (bqOut b (fmul x r.gain)) r.bias := by
    simp only [tsCurveIn, State.ts_eq hr, State.bq_eq hb]
  rw [hin] at ho
  generalize hx3 : fadd (bqOut b (fmul x r.gain)) r.bias = x3 at *
  have l1 : Later s (s.putUnit r.inp (.bq (bqNext b (fmul x r.gain)))) := Later.putUnit h hb rfl rfl
  have hw1 : (s.putUnit r.inp (.bq (bqNext b (fmul x r.gain)))).unit? r.curve = some (.ws w) := by
    rw [State.unit?_putUnit_other (State.ne_of_unit? hw hb (by simp))]; exact hw
  have hr1 : (s.putUnit r.inp (.bq (bqNext b (fmul x r.gain)))).unit? u = some (.ts r) := by
    rw [State.unit?_putUnit_other (State.ne_of_unit? hr hb (by simp))]; exact hr
  generalize s.putUnit r.inp (.bq (bqNext b (fmul x r.gain))) = s1 at *
  split at ho
  · rename_i hwc
    obtain rfl := Option.some.inj ho
    rw [wsStep_unset hw1 hwc]; exact StopsAt.from (t := s1) ⟨s1, rfl, rfl, rfl⟩ l1
  rename_i hwc
  rw [Bool.not_eq_false] at hwc
  split at ho
  · rename_i hnan
    obtain rfl := Option.some.inj ho
    rw [wsStep_nan hw1 hwc hnan]; exact (rfl : Res.refuse _ = _)
  rename_i hnan
  rw [Bool.not_eq_true] at hnan
  obtain ⟨hlen, hcap, _⟩ := ((Ws.wf_iff w).1 (h.unitWf hw)).2 hwc
  rw [wsStep_ready hw1 hwc hlen hcap hnan, Res.bind_ok]
  obtain ⟨f1, hf1, hfc1⟩ := l1.kin.fo hf
  split at ho
  · rename_i hfc
    obtain rfl := Option.some.inj ho
    rw [foStep_unset hf1 (hfc1.trans hfc)]; exact StopsAt.from (t := s1) ⟨s1, rfl, rfl, rfl⟩ l1
  rename_i hfc
  rw [Bool.not_eq_false] at hfc
  have e3 := foStep_sample l1.inv (readyFo_iff.2 ⟨f1, hf1, hfc1.trans hfc⟩) (tsFeedback r (wsOut w x3))
  have hr2 : (evalFo r.fb (tsFeedback r (wsOut w x3)) s1).2.unit? u = some (.ts r) := by
    simp only [evalFo]
    rw [State.unit?_putUnit_other (State.ne_of_unit? hr1 hf1 (by simp))]; exact hr1
  rw [e3.1, Res.bind_ok, tsSetBias, getTs_eq hr2, Res.bind_ok, put_eq, Res.bind_ok]
  have l3 := (l1.trans e3.2).trans (Later.putUnit (r' := .ts { r with
    bias := (evalFo r.fb (tsFeedback r (wsOut w x3)) s1).1 }) e3.2.inv hr2 rfl rfl)
  obtain ⟨d1, hd1, hdc1⟩ := l3.kin.fo hd
  split at ho
  · rename_i hdc
    obtain rfl := Option.some.inj ho
    rw [foStep_unset hd1 (hdc1.trans hdc)]; exact StopsAt.from ⟨_, rfl, rfl, rfl⟩ l3
  · simp at ho

/-- A voice with no obstacle is ready. -/
theorem ksObstacle_none {s : State} (h : s.Inv) {u : UnitId} (hu : s.classOf u = some .ks)
    (ho : ksObstacle u s = none) : readyKs s u = true := by
  obtain ⟨r, hr⟩ := State.Inv.ks_of_class hu
  obtain ⟨c1, c2⟩ := h.ks_children hr
  simp only [ksObstacle, State.ks_eq hr] at ho
  repeat' split at ho
  all_goals try simp at ho
  rename_i h1 h2
  simp only [Bool.not_eq_false] at h1 h2
  exact readyKs_iff.2 ⟨r, hr, by rw [readyFd, h1, c1]; rfl, by rw [readyFo, h2, c2]; rfl⟩

/-- A voice with an obstacle raises `NOT_SETUP` naming it and changes nothing else (R314). -/
theorem ksStep_stops {s : State} (h : s.Inv) {u : UnitId} (hu : s.classOf u = some .ks) {w : UnitId}
    (ho : ksObstacle u s = some w) : ksStep u s = .raised (s.recordFault .notSetup w) := by
  obtain ⟨r, hr⟩ := State.Inv.ks_of_class hu
  obtain ⟨c1, c2⟩ := h.ks_children hr
  obtain ⟨d, hd⟩ := State.Inv.fd_of_class c1
  obtain ⟨f, hf⟩ := State.Inv.fo_of_class c2
  simp only [ksObstacle, State.ks_eq hr, State.fd_eq hd, State.fo_eq hf] at ho
  rw [ksStep, getKs_eq hr, Res.bind_ok, getFd_eq hd, Res.bind_ok]
  split at ho
  · rename_i hdc
    obtain rfl := Option.some.inj ho
    rw [hdc]; rfl
  rename_i hdc
  rw [Bool.not_eq_false] at hdc
  rw [hdc, needCfg_true, Res.bind_ok, getFo_eq hf, Res.bind_ok]
  split at ho
  · rename_i hfc
    obtain rfl := Option.some.inj ho
    rw [hfc]; rfl
  · simp at ho

/-- Samples change neither which voices are ready nor what keeps a voice from sounding. -/
theorem Kin.ksObstacle {s t : State} (k : Kin s t) {u : UnitId} {r : Ks} (hr : s.unit? u = some (.ks r)) {d : Fd}
    (hd : s.unit? r.delay = some (.fd d)) {f : Fo} (hf : s.unit? r.damp = some (.fo f)) :
    Machine.ksObstacle u t = Machine.ksObstacle u s := by
  obtain ⟨r', hr', e1, e2⟩ := k.ks hr
  obtain ⟨d', hd', e3, _⟩ := k.fd hd
  obtain ⟨f', hf', e4⟩ := k.fo hf
  simp only [Machine.ksObstacle, State.ks_eq hr, State.ks_eq hr', e1, e2, State.fd_eq hd, State.fd_eq hd', State.fo_eq hf,
    State.fo_eq hf', e3, e4]

/-- Where the voices before one that cannot sound are ready, the sum ends there (R323). -/
theorem vbSum_stops {s : State} (h : s.Inv) (before : List Voice) {x : Voice} (after : List Voice) {w : UnitId}
    (hr : ∀ y ∈ before, readyKs s y.unit = true) (hx : s.classOf x.unit = some .ks) (ho : ksObstacle x.unit s = some w)
    (acc acc' : F32) :
    vbSum (before ++ x :: after) acc s = .raised ((evalVoices before acc' s).2.recordFault .notSetup w) := by
  induction before generalizing s acc acc' with
  | nil => simp only [List.nil_append, vbSum, ksStep_stops h hx ho, Res.bind_raised, evalVoices]
  | cons v vs ih =>
    have e := ksStep_sample h (hr v (by simp))
    obtain ⟨r, hu⟩ := State.Inv.ks_of_class hx
    obtain ⟨c1, c2⟩ := h.ks_children hu
    obtain ⟨d, hd⟩ := State.Inv.fd_of_class c1
    obtain ⟨f, hf⟩ := State.Inv.fo_of_class c2
    simp only [List.cons_append, vbSum, e.1, Res.bind_ok, evalVoices]
    exact ih e.2.inv (fun y hy => e.2.kin.readyKs (hr y (by simp [hy]))) ((e.2.kin.classOf _).trans hx)
      ((e.2.kin.ksObstacle hu hd hf).trans ho) _ _

end Sys2Proof.Machine
end

