-- ==== Sys2Proof/Laws/PerInstr.lean ====
section
/-! SUPPORT. One lemma per command: its words are a command word that passes the checks of R109 and as many operand words
as R104 gives it. -/

namespace Sys2Proof

/-! ## Fields of a command word -/

theorem shift_or {a b k : Nat} (h : b < 2 ^ k) : a * 2 ^ k ||| b = a * 2 ^ k + b := by
  rw [Nat.mul_comm]; exact (Nat.two_pow_add_eq_or_of_lt h a).symm

/-- The value of a built command word. -/
theorem mkCw_toNat (op : BitVec 8) (u : UnitId) (imm : BitVec 16) :
    (mkCw op u imm).toNat = op.toNat * 16777216 + u.toNat * 65536 + imm.toNat := by
  have h1 := imm.isLt
  have h2 := u.isLt
  unfold mkCw
  rw [BitVec.toNat_append, BitVec.toNat_append, Nat.shiftLeft_eq, Nat.shiftLeft_eq, shift_or h2, shift_or h1]
  omega

/-- The opcode of a built command word. -/
@[simp] theorem opField_mkCw (op : BitVec 8) (u : UnitId) (imm : BitVec 16) : opField (mkCw op u imm) = op := by
  apply BitVec.eq_of_toNat_eq
  have h1 := imm.isLt
  have h2 := u.isLt
  have h3 := op.isLt
  rw [opField, BitVec.extractLsb'_toNat, mkCw_toNat, Nat.shiftRight_eq_div_pow]
  omega

/-- The unit id of a built command word. -/
@[simp] theorem unitField_mkCw (op : BitVec 8) (u : UnitId) (imm : BitVec 16) : unitField (mkCw op u imm) = u := by
  apply BitVec.eq_of_toNat_eq
  have h1 := imm.isLt
  have h2 := u.isLt
  rw [unitField, BitVec.extractLsb'_toNat, mkCw_toNat, Nat.shiftRight_eq_div_pow]
  omega

/-- The immediate of a built command word. -/
@[simp] theorem immField_mkCw (op : BitVec 8) (u : UnitId) (imm : BitVec 16) : immField (mkCw op u imm) = imm := by
  apply BitVec.eq_of_toNat_eq
  have h1 := imm.isLt
  rw [immField, BitVec.extractLsb'_toNat, mkCw_toNat, Nat.shiftRight_eq_div_pow]
  omega

/-- A count that fits is carried whole (R102). -/
theorem countImm_toNat {xs : List F32} (h : countFits xs = true) : (countImm xs).toNat = xs.length := by
  rw [countFits, decide_eq_true_eq] at h
  rw [countImm, BitVec.toNat_ofNat]
  exact Nat.mod_eq_of_lt h

/-- The operand words of format S (R102). -/
theorem listCount {xs : List F32} (h : countFits xs = true) : xs.length = (countImm xs).toNat := (countImm_toNat h).symm

/-- The operand words of format T (R102). -/
theorem tableCount {xs : List F32} (h : countFits xs = true) : xs.length + 2 = 2 + (countImm xs).toNat := by
  rw [countImm_toNat h, Nat.add_comm]

/-- Bits 7 and 15 of a note immediate are 0 (R115). -/
theorem noteImm_zeros (note velocity : BitVec 7) :
    (noteImm note velocity).getLsbD 7 = false ∧ (noteImm note velocity).getLsbD 15 = false := by
  unfold noteImm
  constructor
  · rw [BitVec.getLsbD_append, if_neg (by decide), BitVec.getLsbD_append, if_pos (by decide)]; decide
  · rw [BitVec.getLsbD_append, if_neg (by decide), BitVec.getLsbD_append, if_neg (by decide), BitVec.getLsbD_append,
      if_neg (by decide)]
    decide

end Sys2Proof

namespace Sys2Proof.Laws.Framing

open Sys2Proof Sys2Proof.Machine

/-- The words of a well-formed command: a command word the decoder does not reject, and its operand words. -/
def Statement (i : Instr) : Prop :=
  ∀ orders : UnitId → Nat, i.wf orders = true →
    ∃ cw ops, encode i = cw :: ops ∧ ops.length = operandCount orders cw ∧ encodingFault cw = false

/-- What a row of the opcode map asks of the fields and operand words. -/
theorem of_row {orders : UnitId → Nat} {op : BitVec 8} {u : UnitId} {imm : BitVec 16} {ops : List Word} {r : OpRow}
    (h : opRow op = some r) (hl : ops.length = r.format.operands (orders u) imm.toNat)
    (h1 : (decide (op.toNat < 16) && decide (u ≠ 0)) = false)
    (h2 : (match r.format with
      | .z | .w _ | .c => decide (imm ≠ 0)
      | .i | .iw _ | .s | .g | .t => false) = false)
    (h3 : (decide (op = 0xD4 ∨ op = 0xD5) && (imm.getLsbD 7 || imm.getLsbD 15)) = false) :
    ∃ cw ops', mkCw op u imm :: ops = cw :: ops' ∧ ops'.length = operandCount orders cw ∧ encodingFault cw = false := by
  refine ⟨_, _, rfl, ?_, ?_⟩
  · rw [operandCount, opField_mkCw, h, unitField_mkCw, immField_mkCw]; exact hl
  · rw [encodingFault, opField_mkCw, h, unitField_mkCw, immField_mkCw]
    show (_ || _ || _) = false
    rw [h1, h3, Bool.or_false, Bool.false_or]
    exact h2

theorem sysNop : Statement .sysNop :=
  fun _ _ => of_row (r := ⟨"SYS.NOP", .z, false⟩) rfl rfl rfl rfl rfl
theorem sysSetfs (fs : Word) : Statement (.sysSetfs fs) :=
  fun _ _ => of_row (r := ⟨"SYS.SETFS", .w 1, false⟩) rfl rfl rfl rfl rfl
theorem sysRdfs : Statement .sysRdfs :=
  fun _ _ => of_row (r := ⟨"SYS.RDFS", .z, false⟩) rfl rfl rfl rfl rfl
theorem sysDrain : Statement .sysDrain :=
  fun _ _ => of_row (r := ⟨"SYS.DRAIN", .z, false⟩) rfl rfl rfl rfl rfl
theorem sysRaw (imm : BitVec 16) : Statement (.sysRaw imm) :=
  fun _ _ => of_row (r := ⟨"SYS.RAW", .i, true⟩) rfl rfl rfl rfl rfl
theorem sysRdstat : Statement .sysRdstat :=
  fun _ _ => of_row (r := ⟨"SYS.RDSTAT", .z, false⟩) rfl rfl rfl rfl rfl
theorem sysSeed (seed : Word) : Statement (.sysSeed seed) :=
  fun _ _ => of_row (r := ⟨"SYS.SEED", .w 1, false⟩) rfl rfl rfl rfl rfl
theorem sysRand : Statement .sysRand :=
  fun _ _ => of_row (r := ⟨"SYS.RAND", .z, false⟩) rfl rfl rfl rfl rfl
theorem sysRandf : Statement .sysRandf :=
  fun _ _ => of_row (r := ⟨"SYS.RANDF", .z, false⟩) rfl rfl rfl rfl rfl
theorem bqStep (u : UnitId) (x : F32) : Statement (.bqStep u x) :=
  fun _ _ => of_row (r := ⟨"BQ.STEP", .w 1, false⟩) rfl rfl rfl rfl rfl
theorem bqProc (u : UnitId) (xs : List F32) : Statement (.bqProc u xs) :=
  fun _ h => of_row (r := ⟨"BQ.PROC", .s, false⟩) rfl (listCount h) rfl rfl rfl
theorem bqFlush (u : UnitId) : Statement (.bqFlush u) :=
  fun _ _ => of_row (r := ⟨"BQ.FLUSH", .z, false⟩) rfl rfl rfl rfl rfl
theorem bqLdc (u : UnitId) (b0 b1 b2 a1 a2 : F32) : Statement (.bqLdc u b0 b1 b2 a1 a2) :=
  fun _ _ => of_row (r := ⟨"BQ.LDC", .w 5, true⟩) rfl rfl rfl rfl rfl
theorem bqLp (u : UnitId) (f q : F32) : Statement (.bqLp u f q) :=
  fun _ _ => of_row (r := ⟨"BQ.LP", .w 2, true⟩) rfl rfl rfl rfl rfl
theorem bqHp (u : UnitId) (f q : F32) : Statement (.bqHp u f q) :=
  fun _ _ => of_row (r := ⟨"BQ.HP", .w 2, true⟩) rfl rfl rfl rfl rfl
theorem bqBp (u : UnitId) (f q : F32) : Statement (.bqBp u f q) :=
  fun _ _ => of_row (r := ⟨"BQ.BP", .w 2, true⟩) rfl rfl rfl rfl rfl
theorem bqBs (u : UnitId) (f q : F32) : Statement (.bqBs u f q) :=
  fun _ _ => of_row (r := ⟨"BQ.BS", .w 2, true⟩) rfl rfl rfl rfl rfl
theorem bqAp (u : UnitId) (f q : F32) : Statement (.bqAp u f q) :=
  fun _ _ => of_row (r := ⟨"BQ.AP", .w 2, true⟩) rfl rfl rfl rfl rfl
theorem bqPk (u : UnitId) (f gain q : F32) : Statement (.bqPk u f gain q) :=
  fun _ _ => of_row (r := ⟨"BQ.PK", .w 3, true⟩) rfl rfl rfl rfl rfl
theorem bqLs (u : UnitId) (f gain q : F32) : Statement (.bqLs u f gain q) :=
  fun _ _ => of_row (r := ⟨"BQ.LS", .w 3, true⟩) rfl rfl rfl rfl rfl
theorem bqHs (u : UnitId) (f gain q : F32) : Statement (.bqHs u f gain q) :=
  fun _ _ => of_row (r := ⟨"BQ.HS", .w 3, true⟩) rfl rfl rfl rfl rfl
theorem bqRdc (u : UnitId) : Statement (.bqRdc u) :=
  fun _ _ => of_row (r := ⟨"BQ.RDC", .z, false⟩) rfl rfl rfl rfl rfl
theorem foStep (u : UnitId) (x : F32) : Statement (.foStep u x) :=
  fun _ _ => of_row (r := ⟨"FO.STEP", .w 1, false⟩) rfl rfl rfl rfl rfl
theorem foProc (u : UnitId) (xs : List F32) : Statement (.foProc u xs) :=
  fun _ h => of_row (r := ⟨"FO.PROC", .s, false⟩) rfl (listCount h) rfl rfl rfl
theorem foFlush (u : UnitId) : Statement (.foFlush u) :=
  fun _ _ => of_row (r := ⟨"FO.FLUSH", .z, false⟩) rfl rfl rfl rfl rfl
theorem foLdc (u : UnitId) (b0 b1 a1 : F32) : Statement (.foLdc u b0 b1 a1) :=
  fun _ _ => of_row (r := ⟨"FO.LDC", .w 3, true⟩) rfl rfl rfl rfl rfl
theorem foLp (u : UnitId) (f : F32) : Statement (.foLp u f) :=
  fun _ _ => of_row (r := ⟨"FO.LP", .w 1, true⟩) rfl rfl rfl rfl rfl
theorem foHp (u : UnitId) (f : F32) : Statement (.foHp u f) :=
  fun _ _ => of_row (r := ⟨"FO.HP", .w 1, true⟩) rfl rfl rfl rfl rfl
theorem foRdc (u : UnitId) : Statement (.foRdc u) :=
  fun _ _ => of_row (r := ⟨"FO.RDC", .z, false⟩) rfl rfl rfl rfl rfl
theorem firStep (u : UnitId) (x : F32) : Statement (.firStep u x) :=
  fun _ _ => of_row (r := ⟨"FIR.STEP", .w 1, false⟩) rfl rfl rfl rfl rfl
theorem firProc (u : UnitId) (xs : List F32) : Statement (.firProc u xs) :=
  fun _ h => of_row (r := ⟨"FIR.PROC", .s, false⟩) rfl (listCount h) rfl rfl rfl
theorem firFlush (u : UnitId) : Statement (.firFlush u) :=
  fun _ _ => of_row (r := ⟨"FIR.FLUSH", .z, false⟩) rfl rfl rfl rfl rfl
theorem firLdc (u : UnitId) (cs : List F32) : Statement (.firLdc u cs) :=
  fun _ h => of_row (r := ⟨"FIR.LDC", .c, false⟩) rfl (of_decide_eq_true h) rfl rfl rfl
theorem dlStep (u : UnitId) (x : F32) : Statement (.dlStep u x) :=
  fun _ _ => of_row (r := ⟨"DL.STEP", .w 1, false⟩) rfl rfl rfl rfl rfl
theorem dlProc (u : UnitId) (xs : List F32) : Statement (.dlProc u xs) :=
  fun _ h => of_row (r := ⟨"DL.PROC", .s, false⟩) rfl (listCount h) rfl rfl rfl
theorem dlFlush (u : UnitId) : Statement (.dlFlush u) :=
  fun _ _ => of_row (r := ⟨"DL.FLUSH", .z, false⟩) rfl rfl rfl rfl rfl
theorem dlSetup (u : UnitId) (n : BitVec 16) : Statement (.dlSetup u n) :=
  fun _ _ => of_row (r := ⟨"DL.SETUP", .i, false⟩) rfl rfl rfl rfl rfl
theorem dlPeek (u : UnitId) : Statement (.dlPeek u) :=
  fun _ _ => of_row (r := ⟨"DL.PEEK", .z, false⟩) rfl rfl rfl rfl rfl
theorem fdStep (u : UnitId) (x : F32) : Statement (.fdStep u x) :=
  fun _ _ => of_row (r := ⟨"FD.STEP", .w 1, false⟩) rfl rfl rfl rfl rfl
theorem fdProc (u : UnitId) (xs : List F32) : Statement (.fdProc u xs) :=
  fun _ h => of_row (r := ⟨"FD.PROC", .s, false⟩) rfl (listCount h) rfl rfl rfl
theorem fdFlush (u : UnitId) : Statement (.fdFlush u) :=
  fun _ _ => of_row (r := ⟨"FD.FLUSH", .z, false⟩) rfl rfl rfl rfl rfl
theorem fdSetup (u : UnitId) (n : F32) : Statement (.fdSetup u n) :=
  fun _ _ => of_row (r := ⟨"FD.SETUP", .w 1, false⟩) rfl rfl rfl rfl rfl
theorem fdPeek (u : UnitId) : Statement (.fdPeek u) :=
  fun _ _ => of_row (r := ⟨"FD.PEEK", .z, false⟩) rfl rfl rfl rfl rfl
theorem wsStep (u : UnitId) (x : F32) : Statement (.wsStep u x) :=
  fun _ _ => of_row (r := ⟨"WS.STEP", .w 1, false⟩) rfl rfl rfl rfl rfl
theorem wsProc (u : UnitId) (xs : List F32) : Statement (.wsProc u xs) :=
  fun _ h => of_row (r := ⟨"WS.PROC", .s, false⟩) rfl (listCount h) rfl rfl rfl
theorem wsFlush (u : UnitId) : Statement (.wsFlush u) :=
  fun _ _ => of_row (r := ⟨"WS.FLUSH", .z, false⟩) rfl rfl rfl rfl rfl
theorem wsSetup (u : UnitId) (min max : F32) (tab : List F32) : Statement (.wsSetup u min max tab) :=
  fun _ h => of_row (r := ⟨"WS.SETUP", .t, false⟩) rfl (tableCount h) rfl rfl rfl
theorem tsStep (u : UnitId) (x : F32) : Statement (.tsStep u x) :=
  fun _ _ => of_row (r := ⟨"TS.STEP", .w 1, false⟩) rfl rfl rfl rfl rfl
theorem tsProc (u : UnitId) (xs : List F32) : Statement (.tsProc u xs) :=
  fun _ h => of_row (r := ⟨"TS.PROC", .s, false⟩) rfl (listCount h) rfl rfl rfl
theorem tsFlush (u : UnitId) : Statement (.tsFlush u) :=
  fun _ _ => of_row (r := ⟨"TS.FLUSH", .z, false⟩) rfl rfl rfl rfl rfl
theorem tsSetup (u : UnitId) (gain supply rk rp : F32) : Statement (.tsSetup u gain supply rk rp) :=
  fun _ _ => of_row (r := ⟨"TS.SETUP", .w 4, false⟩) rfl rfl rfl rfl rfl
theorem tsGain (u : UnitId) (gain : F32) : Statement (.tsGain u gain) :=
  fun _ _ => of_row (r := ⟨"TS.GAIN", .w 1, true⟩) rfl rfl rfl rfl rfl
theorem tsRdgain (u : UnitId) : Statement (.tsRdgain u) :=
  fun _ _ => of_row (r := ⟨"TS.RDGAIN", .z, false⟩) rfl rfl rfl rfl rfl
theorem paStep (u : UnitId) (x : F32) : Statement (.paStep u x) :=
  fun _ _ => of_row (r := ⟨"PA.STEP", .w 1, false⟩) rfl rfl rfl rfl rfl
theorem paProc (u : UnitId) (xs : List F32) : Statement (.paProc u xs) :=
  fun _ h => of_row (r := ⟨"PA.PROC", .s, false⟩) rfl (listCount h) rfl rfl rfl
theorem paFlush (u : UnitId) : Statement (.paFlush u) :=
  fun _ _ => of_row (r := ⟨"PA.FLUSH", .z, false⟩) rfl rfl rfl rfl rfl
theorem apfStep (u : UnitId) (x : F32) : Statement (.apfStep u x) :=
  fun _ _ => of_row (r := ⟨"APF.STEP", .w 1, false⟩) rfl rfl rfl rfl rfl
theorem apfProc (u : UnitId) (xs : List F32) : Statement (.apfProc u xs) :=
  fun _ h => of_row (r := ⟨"APF.PROC", .s, false⟩) rfl (listCount h) rfl rfl rfl
theorem apfFlush (u : UnitId) : Statement (.apfFlush u) :=
  fun _ _ => of_row (r := ⟨"APF.FLUSH", .z, false⟩) rfl rfl rfl rfl rfl
theorem apfSetup (u : UnitId) (n : BitVec 16) (gb gf : F32) : Statement (.apfSetup u n gb gf) :=
  fun _ _ => of_row (r := ⟨"APF.SETUP", .iw 2, false⟩) rfl rfl rfl rfl rfl
theorem cmbStep (u : UnitId) (x : F32) : Statement (.cmbStep u x) :=
  fun _ _ => of_row (r := ⟨"CMB.STEP", .w 1, false⟩) rfl rfl rfl rfl rfl
theorem cmbProc (u : UnitId) (xs : List F32) : Statement (.cmbProc u xs) :=
  fun _ h => of_row (r := ⟨"CMB.PROC", .s, false⟩) rfl (listCount h) rfl rfl rfl
theorem cmbFlush (u : UnitId) : Statement (.cmbFlush u) :=
  fun _ _ => of_row (r := ⟨"CMB.FLUSH", .z, false⟩) rfl rfl rfl rfl rfl
theorem cmbSetup (u : UnitId) (n : BitVec 16) (gb : F32) : Statement (.cmbSetup u n gb) :=
  fun _ _ => of_row (r := ⟨"CMB.SETUP", .iw 1, false⟩) rfl rfl rfl rfl rfl
theorem rvStep (u : UnitId) (x : F32) : Statement (.rvStep u x) :=
  fun _ _ => of_row (r := ⟨"RV.STEP", .w 1, false⟩) rfl rfl rfl rfl rfl
theorem rvProc (u : UnitId) (xs : List F32) : Statement (.rvProc u xs) :=
  fun _ h => of_row (r := ⟨"RV.PROC", .s, false⟩) rfl (listCount h) rfl rfl rfl
theorem rvFlush (u : UnitId) : Statement (.rvFlush u) :=
  fun _ _ => of_row (r := ⟨"RV.FLUSH", .z, false⟩) rfl rfl rfl rfl rfl
theorem rvSetup (u : UnitId) : Statement (.rvSetup u) :=
  fun _ _ => of_row (r := ⟨"RV.SETUP", .z, false⟩) rfl rfl rfl rfl rfl
theorem ksStep (u : UnitId) : Statement (.ksStep u) :=
  fun _ _ => of_row (r := ⟨"KS.STEP", .z, false⟩) rfl rfl rfl rfl rfl
theorem ksProc (u : UnitId) (n : BitVec 16) : Statement (.ksProc u n) :=
  fun _ _ => of_row (r := ⟨"KS.PROC", .g, false⟩) rfl rfl rfl rfl rfl
theorem ksFlush (u : UnitId) : Statement (.ksFlush u) :=
  fun _ _ => of_row (r := ⟨"KS.FLUSH", .z, false⟩) rfl rfl rfl rfl rfl
theorem ksTune (u : UnitId) (freq : F32) : Statement (.ksTune u freq) :=
  fun _ _ => of_row (r := ⟨"KS.TUNE", .w 1, false⟩) rfl rfl rfl rfl rfl
theorem ksTrig (u : UnitId) : Statement (.ksTrig u) :=
  fun _ _ => of_row (r := ⟨"KS.TRIG", .z, false⟩) rfl rfl rfl rfl rfl
theorem ksMute (u : UnitId) : Statement (.ksMute u) :=
  fun _ _ => of_row (r := ⟨"KS.MUTE", .z, false⟩) rfl rfl rfl rfl rfl
theorem vbStep (u : UnitId) : Statement (.vbStep u) :=
  fun _ _ => of_row (r := ⟨"VB.STEP", .z, false⟩) rfl rfl rfl rfl rfl
theorem vbProc (u : UnitId) (n : BitVec 16) : Statement (.vbProc u n) :=
  fun _ _ => of_row (r := ⟨"VB.PROC", .g, false⟩) rfl rfl rfl rfl rfl
theorem vbFlush (u : UnitId) : Statement (.vbFlush u) :=
  fun _ _ => of_row (r := ⟨"VB.FLUSH", .z, false⟩) rfl rfl rfl rfl rfl
theorem vbNoteon (u : UnitId) (note velocity : BitVec 7) : Statement (.vbNoteon u note velocity) :=
  fun _ _ => of_row (r := ⟨"VB.NOTEON", .i, true⟩) rfl rfl rfl rfl
    (by rw [(noteImm_zeros note velocity).1, (noteImm_zeros note velocity).2]; rfl)
theorem vbNoteoff (u : UnitId) (note velocity : BitVec 7) : Statement (.vbNoteoff u note velocity) :=
  fun _ _ => of_row (r := ⟨"VB.NOTEOFF", .i, true⟩) rfl rfl rfl rfl
    (by rw [(noteImm_zeros note velocity).1, (noteImm_zeros note velocity).2]; rfl)
theorem dmStep (u : UnitId) : Statement (.dmStep u) :=
  fun _ _ => of_row (r := ⟨"DM.STEP", .z, false⟩) rfl rfl rfl rfl rfl
theorem dmProc (u : UnitId) (n : BitVec 16) : Statement (.dmProc u n) :=
  fun _ _ => of_row (r := ⟨"DM.PROC", .g, false⟩) rfl rfl rfl rfl rfl
theorem dmFlush (u : UnitId) : Statement (.dmFlush u) :=
  fun _ _ => of_row (r := ⟨"DM.FLUSH", .z, false⟩) rfl rfl rfl rfl rfl
theorem dmSetup (u : UnitId) : Statement (.dmSetup u) :=
  fun _ _ => of_row (r := ⟨"DM.SETUP", .z, false⟩) rfl rfl rfl rfl rfl
theorem dmCfg (u : UnitId) (pattern : BitVec 16) (bpm : Word) : Statement (.dmCfg u pattern bpm) :=
  fun _ _ => of_row (r := ⟨"DM.CFG", .iw 1, true⟩) rfl rfl rfl rfl rfl
theorem dmRdcfg (u : UnitId) : Statement (.dmRdcfg u) :=
  fun _ _ => of_row (r := ⟨"DM.RDCFG", .z, false⟩) rfl rfl rfl rfl rfl

end Sys2Proof.Laws.Framing
end

