-- ==== Sys2Proof/Tests/Slice0.lean ====
section
/-! SUPPORT. Tests: ill-formed commands are refused; words written out from the encodings of spec/30_encoding.md decode
to their commands; one step of each operation gives the value spec/95_test_vectors.md states (section in each comment)
or hand arithmetic from the rule gives; and a witness for the hypotheses of each claim. -/

set_option Elab.async false

namespace Sys2Proof.Tests

open Sys2Proof Sys2Proof.Machine

/-! ## Small states -/

/-- A block with the given units and `FS = 48000`. -/
def small (us : List (UnitId × UnitRec)) : State :=
  { State.init Params.reference [] with units := us, fs := 48000, fsSet := true }

/-- The state a step leads to, where it leads to one. -/
def after (o : Host.Outcome State Fault Refusal) (s : State) : State := match o with
  | .next t => t
  | _ => s

/-- The response words of a step from a state without any, with the status afterwards. -/
def answer (o : Host.Outcome State Fault Refusal) : Option (List Word × Word) := match o with
  | .next t => some (t.respOut, statusWord t)
  | _ => none

/-- The unit at which a step was refused for a NaN. -/
def refusedAt (o : Host.Outcome State Fault Refusal) : Option UnitId := match o with
  | .refused (.waveshaperNaN u) => some u
  | _ => none

/-- The state a step leads to, as plain data. -/
def next? (o : Host.Outcome State Fault Refusal) : Option State := match o with
  | .next t => some t
  | _ => none

/-- The record of a unit after a step. -/
def unitOf (o : Host.Outcome State Fault Refusal) (u : UnitId) : Option UnitRec := match o with
  | .next t => t.unit? u
  | _ => none

/-- A record as it may stand after setup, every memory zero. -/
def setUp : UnitRec → UnitRec
  | .bq r => .bq { r with coef := ⟨0x3F800000, 0, 0, 0, 0⟩, cfg := true }
  | .fo r => .fo { r with coef := ⟨0x3F000000, 0x3F000000, 0⟩, cfg := true }
  | .fir r => .fir { r with c := r.c.load [0x3F000000], cfg := true }
  | .dl r => .dl { r with n := 1, extractFrom := r.buf.cap - 1, cfg := true }
  | .fd r => .fd { r with n := 0x3F800000, nint := 1, w := 0, extractFrom := r.buf.cap - 1, cfg := true }
  | .ws r => .ws { r with tab := r.tab.load [0, 0x3F800000, 0x40800000], len := 3, min := 0, max := 0x40000000, cfg := true }
  | .ts r => .ts { r with gain := 0x40000000, supply := 0x41200000, rk := 0x3F800000, rp := 0x40800000, cfg := true }
  | .pa r => .pa r
  | .apf r => .apf { r with gb := 0x3F333333, gf := 0xBF333333, cfg := true }
  | .cmb r => .cmb { r with gb := 0x3F4D4FDF, cfg := true }
  | .rv r => .rv { r with cfg := true }
  | .ks r => .ks r
  | .vb r => .vb r
  | .dm r => .dm { r with spd := 60, cfg := true }

/-- The reference table with every unit set up, `FS = 480` and the generator at 69 (program P4 of section 4). -/
def live : State :=
  let s := State.init Params.reference InstTable.reference
  { s with units := s.units.map fun e => (e.1, setUp e.2), fs := 480, fsSet := true, prng := 69 }

/-- The reference table with no unit set up and `FS = 48000`. -/
def idle : State := { State.init Params.reference InstTable.reference with fs := 48000, fsSet := true }

/-- The reference table with nothing written but the generator. -/
def fresh : State := { State.init Params.reference InstTable.reference with prng := 69 }

theorem countFits_replicate (n : Nat) (v : F32) : countFits (List.replicate n v) = decide (n < 65536) := by
  rw [countFits, List.length_replicate]

/-- What the invariant asks, as one computable check. -/
def checks (s : State) : Bool :=
  s.params.wf && InstTable.wf s.inst && (s.inst.all fun e => InstEntry.resetFits s.params e.2) &&
    (s.units.all fun e => UnitRec.wf s.params e.2) && decide (s.fsSet = true ↔ s.fs ≠ 0) &&
    decide (1 ≤ s.prng.toNat) && decide (s.prng.toNat ≤ 2147483646) && s.faultRegsWf && s.mboxWf

theorem inv_of_checks {s : State} (h : checks s = true) : s.Inv := by
  simp only [checks, Bool.and_eq_true, decide_eq_true_eq] at h
  obtain ⟨⟨⟨⟨⟨⟨⟨⟨h1, h2⟩, h3⟩, h4⟩, h5⟩, h6⟩, h7⟩, h8⟩, h9⟩ := h
  exact ⟨h1, h2, h3, h4, h5, ⟨h6, h7⟩, h8, h9⟩

theorem of_next? {o : Host.Outcome State Fault Refusal} {t : State} (h : next? o = some t) : o = .next t := by
  cases o <;> simp_all [next?]

/-- `live` with one unit as it is after reset. -/
def without (u : UnitId) : State := match idle.unit? u with
  | some r => live.putUnit u r
  | none => live

theorem live_inv : live.Inv := inv_of_checks (by decide +kernel)
theorem idle_inv : idle.Inv := inv_of_checks (by decide +kernel)
theorem fresh_inv : fresh.Inv := inv_of_checks (by decide +kernel)
theorem without_inv : ∀ u ∈ [(8 : UnitId), 9, 10, 11, 15, 18, 24, 44, 45, 48, 52, 54, 56, 58], (without u).Inv := fun u h =>
  inv_of_checks ((show ∀ u ∈ [(8 : UnitId), 9, 10, 11, 15, 18, 24, 44, 45, 48, 52, 54, 56, 58], checks (without u) = true by decide +kernel) u h)

/-! ## Ill-formed commands (one for each check of `Instr.wf`) -/

/-- One word more than a count of sixteen bits can say. -/
theorem test_long_lists_refused (o : UnitId → Nat) : ∀ i ∈ [Instr.bqProc 1, .foProc 2, .firProc 3, .dlProc 4, .fdProc 5,
    .wsProc 6, .wsSetup 6 0 0, .tsProc 7, .paProc 12, .apfProc 55, .cmbProc 57, .rvProc 28],
    (i (List.replicate 65536 0)).wf o = false := by
  have h : countFits (List.replicate 65536 0) = false := countFits_replicate 65536 0
  generalize List.replicate 65536 (0 : F32) = l at h
  simp only [List.mem_cons, List.not_mem_nil, or_false]
  rintro i (rfl | rfl | rfl | rfl | rfl | rfl | rfl | rfl | rfl | rfl | rfl | rfl) <;> exact h

theorem test_wrong_fir_count_refused : (Instr.firLdc 3 [0, 0, 0]).wf (fun _ => 4) = false ∧
    (Instr.firLdc 3 [0, 0, 0, 0, 0]).wf (fun _ => 4) = false ∧ (Instr.firLdc 1 [0]).wf (fun _ => 0) = false := by decide

theorem test_fitting_lists_accepted : (Instr.bqProc 1 (List.replicate 65535 0)).wf (fun _ => 0) = true ∧
    (Instr.bqProc 1 []).wf (fun _ => 0) = true ∧ (Instr.firLdc 3 [0, 0, 0, 0]).wf (fun _ => 4) = true :=
  ⟨countFits_replicate 65535 0, rfl, rfl⟩

/-! ## Decoding words written out from R101, R102, R108 (class and code, unit, immediate) -/

/-- The decoder on the reference table. -/
def dec (ws : List Word) : Except DecodeError (Instr × List Word) :=
  decode (InstTable.firOrder InstTable.reference) ws

theorem test_decode_sys :
    dec [0x00000000] = .ok (.sysNop, []) ∧ dec [0x01000000, 48000] = .ok (.sysSetfs 48000, []) ∧
    dec [0x02000000] = .ok (.sysRdfs, []) ∧ dec [0x03000000] = .ok (.sysDrain, []) ∧
    dec [0x0400ABCD] = .ok (.sysRaw 0xABCD, []) ∧ dec [0x05000000] = .ok (.sysRdstat, []) ∧
    dec [0x06000000, 69] = .ok (.sysSeed 69, []) ∧ dec [0x07000000] = .ok (.sysRand, []) ∧
    dec [0x08000000] = .ok (.sysRandf, []) := ⟨rfl, rfl, rfl, rfl, rfl, rfl, rfl, rfl, rfl⟩

theorem test_decode_bq :
    dec [0x10010000, 7] = .ok (.bqStep 1 7, []) ∧ dec [0x11010002, 7, 8, 9] = .ok (.bqProc 1 [7, 8], [9]) ∧
    dec [0x12010000] = .ok (.bqFlush 1, []) ∧ dec [0x13010000, 1, 2, 3, 4, 5] = .ok (.bqLdc 1 1 2 3 4 5, []) ∧
    dec [0x14010000, 1, 2] = .ok (.bqLp 1 1 2, []) ∧ dec [0x15010000, 1, 2] = .ok (.bqHp 1 1 2, []) ∧
    dec [0x16010000, 1, 2] = .ok (.bqBp 1 1 2, []) ∧ dec [0x17010000, 1, 2] = .ok (.bqBs 1 1 2, []) ∧
    dec [0x18010000, 1, 2] = .ok (.bqAp 1 1 2, []) ∧ dec [0x19010000, 1, 2, 3] = .ok (.bqPk 1 1 2 3, []) ∧
    dec [0x1A010000, 1, 2, 3] = .ok (.bqLs 1 1 2 3, []) ∧ dec [0x1B010000, 1, 2, 3] = .ok (.bqHs 1 1 2 3, []) ∧
    dec [0x1C010000] = .ok (.bqRdc 1, []) := ⟨rfl, rfl, rfl, rfl, rfl, rfl, rfl, rfl, rfl, rfl, rfl, rfl, rfl⟩

theorem test_decode_fo :
    dec [0x20020000, 7] = .ok (.foStep 2 7, []) ∧ dec [0x21020001, 7] = .ok (.foProc 2 [7], []) ∧
    dec [0x22020000] = .ok (.foFlush 2, []) ∧ dec [0x23020000, 1, 2, 3] = .ok (.foLdc 2 1 2 3, []) ∧
    dec [0x24020000, 1] = .ok (.foLp 2 1, []) ∧ dec [0x25020000, 1] = .ok (.foHp 2 1, []) ∧
    dec [0x2C020000] = .ok (.foRdc 2, []) := ⟨rfl, rfl, rfl, rfl, rfl, rfl, rfl⟩

theorem test_decode_fir :
    dec [0x30030000, 7] = .ok (.firStep 3 7, []) ∧ dec [0x31030000] = .ok (.firProc 3 [], []) ∧
    dec [0x32030000] = .ok (.firFlush 3, []) ∧ dec [0x33030000, 1, 2, 3, 4] = .ok (.firLdc 3 [1, 2, 3, 4], []) ∧
    -- one word long at a unit that is no FIR (R104)
    dec [0x33010000, 1, 2] = .ok (.firLdc 1 [], [1, 2]) := ⟨rfl, rfl, rfl, rfl, rfl⟩

theorem test_decode_dl_fd :
    dec [0x40040000, 7] = .ok (.dlStep 4 7, []) ∧ dec [0x41040002, 7, 8] = .ok (.dlProc 4 [7, 8], []) ∧
    dec [0x42040000] = .ok (.dlFlush 4, []) ∧ dec [0x43040003] = .ok (.dlSetup 4 3, []) ∧
    dec [0x44040000] = .ok (.dlPeek 4, []) ∧ dec [0x50050000, 7] = .ok (.fdStep 5 7, []) ∧
    dec [0x51050001, 7] = .ok (.fdProc 5 [7], []) ∧ dec [0x52050000] = .ok (.fdFlush 5, []) ∧
    dec [0x53050000, 7] = .ok (.fdSetup 5 7, []) ∧ dec [0x54050000] = .ok (.fdPeek 5, []) :=
  ⟨rfl, rfl, rfl, rfl, rfl, rfl, rfl, rfl, rfl, rfl⟩

theorem test_decode_ws_ts_pa :
    dec [0x60060000, 7] = .ok (.wsStep 6 7, []) ∧ dec [0x61060001, 7] = .ok (.wsProc 6 [7], []) ∧
    dec [0x62060000] = .ok (.wsFlush 6, []) ∧ dec [0x63060002, 1, 2, 3, 4] = .ok (.wsSetup 6 1 2 [3, 4], []) ∧
    dec [0x70070000, 7] = .ok (.tsStep 7 7, []) ∧ dec [0x71070001, 7] = .ok (.tsProc 7 [7], []) ∧
    dec [0x72070000] = .ok (.tsFlush 7, []) ∧ dec [0x73070000, 1, 2, 3, 4] = .ok (.tsSetup 7 1 2 3 4, []) ∧
    dec [0x74070000, 7] = .ok (.tsGain 7 7, []) ∧ dec [0x75070000] = .ok (.tsRdgain 7, []) ∧
    dec [0x800C0000, 7] = .ok (.paStep 12 7, []) ∧ dec [0x810C0001, 7] = .ok (.paProc 12 [7], []) ∧
    dec [0x820C0000] = .ok (.paFlush 12, []) := ⟨rfl, rfl, rfl, rfl, rfl, rfl, rfl, rfl, rfl, rfl, rfl, rfl, rfl⟩

theorem test_decode_apf_cmb_rv :
    dec [0x90370000, 7] = .ok (.apfStep 55 7, []) ∧ dec [0x91370001, 7] = .ok (.apfProc 55 [7], []) ∧
    dec [0x92370000] = .ok (.apfFlush 55, []) ∧ dec [0x93370003, 1, 2] = .ok (.apfSetup 55 3 1 2, []) ∧
    dec [0xA0390000, 7] = .ok (.cmbStep 57 7, []) ∧ dec [0xA1390001, 7] = .ok (.cmbProc 57 [7], []) ∧
    dec [0xA2390000] = .ok (.cmbFlush 57, []) ∧ dec [0xA3390002, 1] = .ok (.cmbSetup 57 2 1, []) ∧
    dec [0xB01C0000, 7] = .ok (.rvStep 28 7, []) ∧ dec [0xB11C0001, 7] = .ok (.rvProc 28 [7], []) ∧
    dec [0xB21C0000] = .ok (.rvFlush 28, []) ∧ dec [0xB31C0000] = .ok (.rvSetup 28, []) :=
  ⟨rfl, rfl, rfl, rfl, rfl, rfl, rfl, rfl, rfl, rfl, rfl, rfl⟩

theorem test_decode_ks_vb_dm :
    dec [0xC02B0000] = .ok (.ksStep 43, []) ∧ dec [0xC12B000A] = .ok (.ksProc 43 10, []) ∧
    dec [0xC22B0000] = .ok (.ksFlush 43, []) ∧ dec [0xC42B0000, 7] = .ok (.ksTune 43 7, []) ∧
    dec [0xC52B0000] = .ok (.ksTrig 43, []) ∧ dec [0xC62B0000] = .ok (.ksMute 43, []) ∧
    dec [0xD02E0000] = .ok (.vbStep 46, []) ∧ dec [0xD12E0004] = .ok (.vbProc 46 4, []) ∧
    dec [0xD22E0000] = .ok (.vbFlush 46, []) ∧ dec [0xD42E643C] = .ok (.vbNoteon 46 60 100, []) ∧
    dec [0xD52E003C] = .ok (.vbNoteoff 46 60 0, []) ∧ dec [0xE0350000] = .ok (.dmStep 53, []) ∧
    dec [0xE1350008] = .ok (.dmProc 53 8, []) ∧ dec [0xE2350000] = .ok (.dmFlush 53, []) ∧
    dec [0xE3350000] = .ok (.dmSetup 53, []) ∧ dec [0xE4350001, 90] = .ok (.dmCfg 53 1 90, []) ∧
    dec [0xE5350000] = .ok (.dmRdcfg 53, []) :=
  ⟨rfl, rfl, rfl, rfl, rfl, rfl, rfl, rfl, rfl, rfl, rfl, rfl, rfl, rfl, rfl, rfl, rfl⟩

/-- The encoding vectors of section 3.9 and 3.8, and streams that end inside a command (R104). -/
theorem test_decode_rejects :
    dec [0xF0000000] = .error .reservedOpcode ∧ dec [0x09000000] = .error .reservedOpcode ∧
    dec [0xC32B0000] = .error .reservedOpcode ∧ dec [0x12010001] = .error .immNotZero ∧
    dec [0x00010000] = .error .unitNotZero ∧ dec [0xD42E0080] = .error .noteBitsNotZero ∧
    dec [0xD52E8000] = .error .noteBitsNotZero ∧ dec [0x10010000] = .error .incomplete ∧
    dec [0x11010002, 1] = .error .incomplete ∧ dec [] = .error .incomplete :=
  ⟨rfl, rfl, rfl, rfl, rfl, rfl, rfl, rfl, rfl, rfl⟩

/-- The decoder through the host's name: `BQ.STEP u1, 1.0` with its operand in bits 63 to 32. -/
theorem test_decodeTableWord : decodeTableWord 64 0x3F80000010010000 = some (.bqStep 1 0x3F800000) ∧
    decodeTableWord 32 0x33030000 = some (.firLdc 3 [0, 0, 0, 0]) ∧ decodeTableWord 32 0xF0000000 = none := ⟨rfl, rfl, rfl⟩

/-- A placed command is the first to run after reset. -/
theorem test_withFetchWord : answer (step (State.reset.withFetchWord 32 0x05000000)) = some ([0], 0) ∧
    answer (step (State.reset.withFetchWord 64 0x45_06000000)) = some ([], 0) ∧
    (after (step (State.reset.withFetchWord 64 0x45_06000000)) State.reset).prng = 69 := by decide +kernel

/-- The examples of R113, with f32 operands as bit patterns, and the pseudo-instructions of R114. -/
theorem test_text : [Instr.dlSetup 4 3, .vbNoteon 46 60 100, .ksProc 43 64, .sysDrain, .sysSetfs 48000].map Instr.text =
    ["DL.SETUP u4, 3", "VB.NOTEON u46, 60, 100", "KS.PROC u43, 64", "SYS.DRAIN", "SYS.SETFS 0x0000BB80"] ∧
    [Instr.dlProc 4 [0x3F800000, 0x40000000], .wsSetup 6 0xBF800000 0x3F800000 [0xBF800000, 0x3F800000]].map Instr.text =
    ["DL.PROC u4, [0x3F800000, 0x40000000]", "WS.SETUP u6, 0xBF800000, 0x3F800000, [0xBF800000, 0x3F800000]"] := by
  decide +kernel
theorem test_pseudo : encode (pseudoFoDcblock 2) = [0x25020000, 0x41F80000] ∧ encode (pseudoBqNotch 1 2 3) =
    [0x17010000, 2, 3] ∧ encode pseudoBuffer = [0x03000000] := ⟨rfl, rfl, rfl⟩

/-! ## Class SYS (section 3.1) -/

theorem test_sysNop : answer (exec .sysNop fresh) = some ([], 0) := by decide +kernel
theorem test_sysRaw : answer (exec (.sysRaw 0x1234) fresh) = some ([], 0) := by decide +kernel
theorem test_sysRdstat : answer (exec .sysRdstat (fresh.withFault 2 1)) = some ([0x00000121], 0x00000121) := by
  decide +kernel
theorem test_sysSetfs : (after (exec (.sysSetfs 48000) fresh) fresh).fs = 48000 ∧
    (after (exec (.sysSetfs 48000) fresh) fresh).fsSet = true ∧
    answer (exec (.sysSetfs 48000) idle) = some ([], 0x00000071) ∧ answer (exec (.sysSetfs 0) fresh) = some ([], 0x71) := by
  decide +kernel
theorem test_sysRdfs : answer (exec .sysRdfs idle) = some ([0x0000BB80], 0) ∧
    answer (exec .sysRdfs fresh) = some ([], 0x00000021) := by decide +kernel
theorem test_sysSeed : (after (exec (.sysSeed 2147483646) fresh) fresh).prng = 2147483646#31 ∧
    answer (exec (.sysSeed 0) fresh) = some ([], 0x91) ∧ answer (exec (.sysSeed 2147483647) fresh) = some ([], 0x91) := by
  decide +kernel
theorem test_sysRand : answer (exec .sysRand idle) = some ([0x000041A7], 0) ∧
    answer (exec .sysRand { fresh with prng := 2147483646 }) = some ([2147466840], 0) := by decide +kernel
theorem test_sysRandf : answer (exec .sysRandf idle) = some ([0xBF7FFEF9], 0) ∧
    answer (exec .sysRandf { fresh with prng := 16807 }) = some ([0xBF3CA714], 0) := by decide +kernel
/-- A full drain of two messages: `BQ.LDC` is applied, `SYS.RAW` is nothing (R143, R144). -/
theorem test_sysDrain :
    let s := { fresh with mbox := [⟨0x13010000, [1, 2, 3, 4, 5]⟩, ⟨0x04000001, []⟩] }
    unitOf (exec .sysDrain s) 1 = some (.bq ⟨⟨1, 2, 3, 4, 5⟩, 0, 0, true⟩) ∧ answer (exec .sysDrain s) = some ([], 0) := by
  decide +kernel
/-- A message that faults ends the drain; the one behind it stays (R143, R368). -/
theorem test_sysDrain_fault :
    let s := { fresh with mbox := [⟨0x14010000, [0, 0]⟩, ⟨0x04000001, []⟩] }
    answer (exec .sysDrain s) = some ([], 0x00010021) := by decide +kernel

/-! ## Classes BQ, FO, FIR (sections 3.2, 3.3) -/

/-- The record of section 3.2: 0.5, 0.25, 0.125, -0.5, 0.25. -/
def bq1 : Bq := ⟨⟨0x3F000000, 0x3E800000, 0x3E000000, 0xBF000000, 0x3E800000⟩, 0, 0, true⟩

theorem test_bqStep : answer (exec (.bqStep 1 0x3F800000) (small [(1, .bq bq1)])) = some ([0x3F000000], 0) ∧
    unitOf (exec (.bqStep 1 0x3F800000) (small [(1, .bq bq1)])) 1 = some (.bq { bq1 with s0 := 0x3F000000 }) ∧
    answer (exec (.bqStep 1 0x3F800000) fresh) = some ([], 0x00000121) := by decide +kernel
theorem test_bqProc :
    answer (exec (.bqProc 1 [0x3F800000, 0, 0, 0]) (small [(1, .bq bq1)])) =
      some ([0x3F000000, 0x3F000000, 0x3E800000, 0], 0) ∧
    unitOf (exec (.bqProc 1 [0x3F800000, 0, 0, 0]) (small [(1, .bq bq1)])) 1 =
      some (.bq { bq1 with s0 := 0xBD800000 }) := by decide +kernel
theorem test_bqFlush : unitOf (exec (.bqFlush 1) (small [(1, .bq { bq1 with s0 := 1, s1 := 2 })])) 1 = some (.bq bq1) := by
  decide +kernel
theorem test_bqLdc : unitOf (exec (.bqLdc 1 1 2 3 4 5) (small [(1, .bq { bq1 with s0 := 9, cfg := false })])) 1 =
    some (.bq ⟨⟨1, 2, 3, 4, 5⟩, 9, 0, true⟩) := by decide +kernel
theorem test_bqRdc : answer (exec (.bqRdc 1) (small [(1, .bq bq1)])) =
    some ([0x3F000000, 0x3E800000, 0x3E000000, 0xBF000000, 0x3E800000], 0) := by decide +kernel
/-- Every design needs `FS` (status `0x00000021`) and with it sets the unit up, `s` kept (R166). -/
theorem test_bqDesigns : ∀ i ∈ [Instr.bqLp 1 0x43C80000 0x3F333333, .bqHp 1 1 2, .bqBp 1 1 2, .bqBs 1 1 2, .bqAp 1 1 2,
    .bqPk 1 1 2 3, .bqLs 1 1 2 3, .bqHs 1 1 2 3],
    answer (exec i fresh) = some ([], 0x00000021) ∧
    (((after (exec i idle) idle).bq 1).cfg = true ∧ ((after (exec i idle) idle).bq 1).s0 = 0) := by decide +kernel

/-- The record of section 3.3: 0.5, 0.5, -0.25. -/
def fo2 : Fo := ⟨⟨0x3F000000, 0x3F000000, 0xBE800000⟩, 0, true⟩

theorem test_foStep : answer (exec (.foStep 2 0x3F800000) (small [(2, .fo fo2)])) = some ([0x3F000000], 0) ∧
    answer (exec (.foStep 2 0) fresh) = some ([], 0x221) := by decide +kernel
/-- 0.5, 1.125, 0.78125; then `s[0]` is 0.1953125. -/
theorem test_foProc :
    answer (exec (.foProc 2 [0x3F800000, 0x3F800000, 0]) (small [(2, .fo fo2)])) =
      some ([0x3F000000, 0x3F900000, 0x3F480000], 0) ∧
    unitOf (exec (.foProc 2 [0x3F800000, 0x3F800000, 0]) (small [(2, .fo fo2)])) 2 =
      some (.fo { fo2 with s0 := 0x3E480000 }) := by decide +kernel
theorem test_foFlush : unitOf (exec (.foFlush 2) (small [(2, .fo { fo2 with s0 := 1 })])) 2 = some (.fo fo2) := by
  decide +kernel
theorem test_foLdc : unitOf (exec (.foLdc 2 1 2 3) (small [(2, .fo { fo2 with s0 := 9, cfg := false })])) 2 =
    some (.fo ⟨⟨1, 2, 3⟩, 9, true⟩) := by decide +kernel
theorem test_foRdc : answer (exec (.foRdc 2) (small [(2, .fo fo2)])) = some ([0x3F000000, 0x3F000000, 0xBE800000], 0) := by
  decide +kernel
theorem test_foDesigns : ∀ i ∈ [Instr.foLp 2 0x447A0000, .foHp 2 0x41F80000], answer (exec i fresh) = some ([], 0x21) ∧
    ((after (exec i idle) idle).fo 2).cfg = true := by decide +kernel

/-- The filter of section 3.3: `O = 4`, `P = 8`. -/
def fir3 : Fir :=
  ⟨(Memory.empty 4).load [0x3F000000, 0x3E800000, 0x3E000000, 0x3D800000], Memory.empty 8, 0, true⟩

theorem test_firStep : answer (exec (.firStep 3 0x3F800000) (small [(3, .fir fir3)])) = some ([0x3F000000], 0) ∧
    answer (exec (.firStep 3 0x3F800000) fresh) = some ([], 0x00000321) := by decide +kernel
/-- Ten samples on a ring of eight: it wraps once and `pos` is 2. -/
theorem test_firProc :
    let xs := [0x3F800000, 0, 0, 0, 0, 0x40A00000, 0x40C00000, 0x40E00000, 0x41000000, 0x41100000]
    answer (exec (.firProc 3 xs) (small [(3, .fir fir3)])) = some ([0x3F000000, 0x3E800000, 0x3E000000, 0x3D800000, 0,
      0x40200000, 0x40880000, 0x40B40000, 0x40DA0000, 0x40F80000], 0) ∧
    unitOf (exec (.firProc 3 xs) (small [(3, .fir fir3)])) 3 = some (.fir { fir3 with
      h := ⟨8, [(0, 0x41000000), (1, 0x41100000), (5, 0x40A00000), (6, 0x40C00000), (7, 0x40E00000)]⟩, pos := 2 }) := by
  decide +kernel
theorem test_firFlush : unitOf (exec (.firFlush 3) (small [(3, .fir { fir3 with h := ⟨8, [(0, 5)]⟩, pos := 2 })])) 3 =
    some (.fir { fir3 with pos := 2 }) := by decide +kernel
theorem test_firLdc :
    unitOf (exec (.firLdc 3 [0x3F000000, 0x3E800000, 0x3E000000, 0x3D800000]) fresh) 3 = some (.fir fir3) ∧
    answer (exec (.firLdc 1 []) fresh) = some ([], 0x00000111) := by decide +kernel

/-! ## Classes DL, FD (section 3.4) -/

/-- A line of capacity 8 with `n = 3`. -/
def dl4 : Dl := ⟨Memory.empty 8, 0, 5, 3, true⟩

theorem test_dlSetup : unitOf (exec (.dlSetup 4 3) fresh) 4 = some (.dl dl4) ∧
    unitOf (exec (.dlSetup 4 8) fresh) 4 = some (.dl ⟨Memory.empty 8, 0, 0, 8, true⟩) ∧
    answer (exec (.dlSetup 4 0) fresh) = some ([], 0x431) ∧ answer (exec (.dlSetup 4 9) fresh) = some ([], 0x431) := by
  decide +kernel
theorem test_dlStep : unitOf (exec (.dlStep 4 7) (small [(4, .dl { dl4 with insertAt := 7, extractFrom := 4 })])) 4 =
    some (.dl { dl4 with buf := ⟨8, [(7, 7)]⟩, insertAt := 0, extractFrom := 5 }) ∧
    answer (exec (.dlStep 4 7) fresh) = some ([], 0x421) := by decide +kernel
theorem test_dlProc :
    answer (exec (.dlProc 4 [1, 2, 3, 4, 5, 6]) (small [(4, .dl dl4)])) = some ([0, 0, 0, 1, 2, 3], 0) := by
  decide +kernel
theorem test_dlFlush : unitOf (exec (.dlFlush 4) (small [(4, .dl { dl4 with buf := ⟨8, [(7, 7)]⟩, insertAt := 6 })])) 4 =
    some (.dl { dl4 with insertAt := 6 }) := by decide +kernel
theorem test_dlPeek : answer (exec (.dlPeek 4) (small [(4, .dl { dl4 with buf := ⟨8, [(5, 0x40800000)]⟩ })])) =
    some ([0x40800000], 0) := by decide +kernel

/-- A line of capacity 8 with `n = 2.25`. -/
def fd5 : Fd := ⟨Memory.empty 8, 0, 5, 0x40100000, 3, 0x3F400000, true⟩

theorem test_fdSetup : unitOf (exec (.fdSetup 5 0x40100000) fresh) 5 = some (.fd fd5) ∧
    unitOf (exec (.fdSetup 5 0x41000000) fresh) 5 = some (.fd ⟨Memory.empty 8, 0, 0, 0x41000000, 8, 0, true⟩) := by
  decide +kernel
theorem test_fdSetup_refused : answer (exec (.fdSetup 5 0x3F000000) fresh) = some ([], 0x00000531) ∧
    answer (exec (.fdSetup 5 0x41080000) fresh) = some ([], 0x00000531) ∧
    answer (exec (.fdSetup 5 0x7FC00000) fresh) = some ([], 0x00000531) := by decide +kernel
theorem test_fdStep : unitOf (exec (.fdStep 5 7) (small [(5, .fd fd5)])) 5 =
    some (.fd { fd5 with buf := ⟨8, [(0, 7)]⟩, insertAt := 1, extractFrom := 6 }) := by decide +kernel
theorem test_fdProc : answer (exec (.fdProc 5 [0x3F800000, 0x40000000, 0x40400000, 0x40800000, 0x40A00000, 0x40C00000])
    (small [(5, .fd fd5)])) = some ([0, 0, 0x3F400000, 0x3FE00000, 0x40300000, 0x40700000], 0) := by decide +kernel
theorem test_fdFlush : unitOf (exec (.fdFlush 5) (small [(5, .fd { fd5 with buf := ⟨8, [(0, 7)]⟩ })])) 5 =
    some (.fd fd5) := by decide +kernel
/-- 4.75 = 4.0 * 0.25 + 5.0 * 0.75. -/
theorem test_fdPeek :
    answer (exec (.fdPeek 5) (small [(5, .fd { fd5 with buf := ⟨8, [(5, 0x40800000), (6, 0x40A00000)]⟩ })])) =
      some ([0x40980000], 0) := by decide +kernel

/-! ## Classes WS, TS, PA (section 3.5, program P5) -/

/-- The curve of section 3.5: 0.0, 1.0, 4.0 on 0.0 to 2.0. -/
def ws6 : Ws := ⟨(Memory.empty 16).load [0, 0x3F800000, 0x40800000], 3, 0, 0x40000000, true⟩

theorem test_wsSetup : unitOf (exec (.wsSetup 6 0 0x40000000 [0, 0x3F800000, 0x40800000]) fresh) 6 = some (.ws ws6) ∧
    answer (exec (.wsSetup 6 0 0x3F800000 [0]) fresh) = some ([], 0x641) ∧
    answer (exec (.wsSetup 6 0 0x3F800000 (List.replicate 17 0)) fresh) = some ([], 0x641) ∧
    answer (exec (.wsSetup 6 0x3F800000 0x3F800000 [0, 0x3F800000]) fresh) = some ([], 0x651) := by decide +kernel
theorem test_wsStep_edge : answer (exec (.wsStep 6 0x3F7FFFFF) (small [(6, .ws
    ⟨(Memory.empty 16).load [0xBF800000, 0x3F800000], 2, 0xBF800000, 0x3F800000, true⟩)])) = some ([0x3F800000], 0) := by
  decide +kernel
theorem test_wsStep_nan : refusedAt (exec (.wsStep 6 0x7FC00000) (small [(6, .ws ws6)])) = some 6 := by
  decide +kernel
theorem test_wsProc : answer (exec (.wsProc 6 [0xBF800000, 0, 0x3F000000, 0x3F800000, 0x3FC00000, 0x3FE00000, 0x40000000,
    0x7F800000]) (small [(6, .ws ws6)])) =
    some ([0, 0, 0x3F000000, 0x3F800000, 0x40200000, 0x40500000, 0x40800000, 0x40800000], 0) := by decide +kernel
theorem test_wsFlush : next? (exec (.wsFlush 6) (small [(6, .ws ws6)])) = some (small [(6, .ws ws6)]) := by decide +kernel

/-- The stage of program P5 with its children. -/
def ts7 : List (UnitId × UnitRec) :=
  [(7, .ts ⟨8, 9, 10, 11, 0x40000000, 0x41200000, 0x3F800000, 0x40800000, 0, true⟩),
    (8, .bq ⟨⟨0x3F800000, 0, 0, 0, 0⟩, 0, 0, true⟩), (9, .ws ws6), (10, .fo ⟨⟨0x3F000000, 0, 0⟩, 0, true⟩),
    (11, .fo ⟨⟨0x3F800000, 0xBF800000, 0⟩, 0, true⟩)]

theorem test_tsSetup :
    unitOf (exec (.tsSetup 7 1 2 3 4) fresh) 7 = some (.ts ⟨8, 9, 10, 11, 1, 2, 3, 4, 0, true⟩) := by decide +kernel
/-- The bias of the next sample is 1.1875. -/
theorem test_tsStep : answer (exec (.tsStep 7 0x3E800000) (small ts7)) = some ([0x3F000000], 0) ∧
    ((after (exec (.tsStep 7 0x3E800000) (small ts7)) (small ts7)).ts 7).bias = 0x3F980000 := by decide +kernel
theorem test_tsProc : answer (exec (.tsProc 7 [0x3E800000, 0x3E800000, 0]) (small ts7)) =
    some ([0x3F000000, 0x40240000, 0xC00C8000], 0) := by decide +kernel
theorem test_tsFlush : next? (exec (.tsFlush 7) (after (exec (.tsStep 7 0x3E800000) (small ts7)) (small ts7))) =
    some { small ts7 with respOut := [0x3F000000] } := by decide +kernel
theorem test_tsGain : ((after (exec (.tsGain 7 0x40800000) (small ts7)) (small ts7)).ts 7).gain = 0x40800000 ∧
    answer (exec (.tsGain 7 0x40800000) fresh) = some ([], 0x721) := by decide +kernel
theorem test_tsRdgain : answer (exec (.tsRdgain 7) (small ts7)) = some ([0x40000000], 0) := by decide +kernel

/-- The preamp vector of section 3.5: units 13, 18, 23 configured as in P5. -/
def pa12 : State := small ([(12, .pa ⟨13, 18, 23⟩)] ++ [13, 18, 23].flatMap fun k =>
  [(BitVec.ofNat 8 k, .ts ⟨BitVec.ofNat 8 (k + 1), BitVec.ofNat 8 (k + 2), BitVec.ofNat 8 (k + 3), BitVec.ofNat 8 (k + 4),
      0x40000000, 0x41200000, 0x3F800000, 0x40800000, 0, true⟩),
    (BitVec.ofNat 8 (k + 1), .bq ⟨⟨0x3F800000, 0, 0, 0, 0⟩, 0, 0, true⟩), (BitVec.ofNat 8 (k + 2), .ws ws6),
    (BitVec.ofNat 8 (k + 3), .fo ⟨⟨0x3F000000, 0, 0⟩, 0, true⟩),
    (BitVec.ofNat 8 (k + 4), .fo ⟨⟨0x3F800000, 0xBF800000, 0⟩, 0, true⟩)])

theorem test_paStep : answer (exec (.paStep 12 0x3E800000) pa12) = some ([0x40800000], 0) := by decide +kernel
/-- 4.0, 0.0; the biases are then 0.8671875, 0.75, 0.75. -/
theorem test_paProc : answer (exec (.paProc 12 [0x3E800000, 0x3E800000]) pa12) = some ([0x40800000, 0], 0) ∧
    [13, 18, 23].map (fun k => ((after (exec (.paProc 12 [0x3E800000, 0x3E800000]) pa12) pa12).ts k).bias) =
      [0x3F5E0000, 0x3F400000, 0x3F400000] := by decide +kernel
theorem test_paFlush : next? (exec (.paFlush 12) (after (exec (.paStep 12 0x3E800000) pa12) pa12)) =
    some { pa12 with respOut := [0x40800000] } := by decide +kernel

/-! ## Classes APF, CMB, RV (section 3.6) -/

/-- The two sections of section 3.6, with gains 0.5. -/
def sections : State := small [(55, .apf ⟨56, 0x3F000000, 0xBF000000, true⟩), (56, .dl dl4),
  (57, .cmb ⟨58, 0x3F000000, true⟩), (58, .dl ⟨Memory.empty 8, 0, 6, 2, true⟩)]

theorem test_apfSetup : unitOf (exec (.apfSetup 55 3 0x3F000000 0xBF000000) fresh) 55 =
      some (.apf ⟨56, 0x3F000000, 0xBF000000, true⟩) ∧
    unitOf (exec (.apfSetup 55 3 0x3F000000 0xBF000000) fresh) 56 = some (.dl dl4) ∧
    answer (exec (.apfSetup 55 9 0 0) fresh) = some ([], 0x00003831) := by decide +kernel
theorem test_apfStep : answer (exec (.apfStep 55 0x3F800000) sections) = some ([0xBF000000], 0) := by decide +kernel
theorem test_apfProc : answer (exec (.apfProc 55 [0x3F800000, 0, 0, 0, 0, 0, 0, 0, 0, 0]) sections) =
    some ([0xBF000000, 0, 0, 0x3F400000, 0, 0, 0x3EC00000, 0, 0, 0x3E400000], 0) := by decide +kernel
theorem test_apfFlush : unitOf (exec (.apfFlush 55) (after (exec (.apfStep 55 1) sections) sections)) 56 =
    some (.dl { dl4 with insertAt := 1, extractFrom := 6 }) := by decide +kernel
theorem test_cmbSetup : unitOf (exec (.cmbSetup 57 2 0x3F000000) fresh) 57 = some (.cmb ⟨58, 0x3F000000, true⟩) ∧
    unitOf (exec (.cmbSetup 57 2 0x3F000000) fresh) 58 = some (.dl ⟨Memory.empty 8, 0, 6, 2, true⟩) := by decide +kernel
theorem test_cmbStep : answer (exec (.cmbStep 57 0x3F800000) sections) = some ([0x3F800000], 0) := by decide +kernel
theorem test_cmbProc : answer (exec (.cmbProc 57 [0x3F800000, 0, 0, 0, 0, 0, 0, 0]) sections) =
    some ([0x3F800000, 0, 0x3F000000, 0, 0x3E800000, 0, 0x3E000000, 0], 0) := by decide +kernel
theorem test_cmbFlush : unitOf (exec (.cmbFlush 57) (after (exec (.cmbStep 57 1) sections) sections)) 58 =
    some (.dl ⟨Memory.empty 8, 1, 7, 2, true⟩) := by decide +kernel
/-- The seven lengths of R270 on the reference rings: 113 of 113 and 2251 of 2251 end with equal cursors. -/
theorem test_rvSetup : ((after (exec (.rvSetup 28) fresh) fresh).rv 28).cfg = true ∧
    [30, 32, 34, 36, 38, 40, 42].map (fun k => ((after (exec (.rvSetup 28) fresh) fresh).dl k).n) =
      [347, 113, 37, 1601, 1867, 2053, 2251] ∧
    unitOf (exec (.rvSetup 28) fresh) 29 = some (.apf ⟨30, 0x3F333333, 0xBF333333, true⟩) ∧
    unitOf (exec (.rvSetup 28) fresh) 35 = some (.cmb ⟨36, 0x3F4D4FDF, true⟩) := by decide +kernel
/-- The first response of an impulse, the rings being zero. -/
theorem test_rvStep : answer (exec (.rvStep 28 0x3F800000) live) = some ([0x3F5CE076], 0) ∧
    answer (exec (.rvStep 28 0x3F800000) fresh) = some ([], 0x00001C21) := by decide +kernel
theorem test_rvProc : answer (exec (.rvProc 28 [0x3F800000]) live) = some ([0x3F5CE076], 0) := by decide +kernel
theorem test_rvFlush : [30, 32, 34, 36, 38, 40, 42].map (fun k =>
    ((after (exec (.rvFlush 28) (after (exec (.rvStep 28 0x3F800000) live) live)) live).dl k).buf.cells) =
      [[], [], [], [], [], [], []] := by decide +kernel

/-! ## Classes KS, VB (section 3.8, program P3) -/

/-- A voice just triggered, its ring zero, the generator at 1. -/
def ks43 : State := { live with prng := 1 }.putUnit 43 (.ks ⟨44, 45, 0x3F7F0000, 128⟩)

/-- `n = 7.5` at `FS = 800`. -/
theorem test_ksTune : unitOf (exec (.ksTune 43 0x42C80000) { fresh with fs := 800, fsSet := true }) 44 =
      some (.fd ⟨Memory.empty 2048, 0, 2040, 0x40F00000, 8, 0x3F000000, true⟩) ∧
    answer (exec (.ksTune 43 0x41200000) idle) = some ([], 0x00002C31) ∧
    answer (exec (.ksTune 43 0) idle) = some ([], 0x00002C31) := by decide +kernel
theorem test_ksTrig : unitOf (exec (.ksTrig 43) fresh) 43 = some (.ks ⟨44, 45, 0x3F7F0000, 128⟩) := by decide +kernel
theorem test_ksMute : unitOf (exec (.ksMute 43) fresh) 43 = some (.ks ⟨44, 45, 0x3F000000, 0⟩) := by decide +kernel
theorem test_ksStep : answer (exec (.ksStep 43) ks43) = some ([0xBF7FFEF9], 0) ∧
    (after (exec (.ksStep 43) ks43) ks43).prng = 16807#31 ∧
    unitOf (exec (.ksStep 43) ks43) 43 = some (.ks ⟨44, 45, 0x3F7F0000, 127⟩) := by decide +kernel
theorem test_ksStep_untriggered : answer (exec (.ksStep 43) live) = some ([0], 0) ∧
    (after (exec (.ksStep 43) live) live).prng = 69#31 ∧ answer (exec (.ksStep 43) fresh) = some ([], 0x00002C21) := by
  decide +kernel
/-- The ten responses, on the ring tuned to 7.5. -/
theorem test_ksProc :
    let s := ks43.putUnit 44 (.fd ⟨Memory.empty 2048, 0, 2040, 0x40F00000, 8, 0x3F000000, true⟩)
    answer (exec (.ksProc 43 10) s) = some ([0xBF7FFEF9, 0xBF3CA714, 0x3F02DEB4, 0xBDA95E78, 0x3D8636F0, 0xBF0FE495,
      0xBF67E9C5, 0x3DDEA34C, 0xBEA55AB4, 0x3EC2E425], 0) := by decide +kernel
theorem test_ksFlush : unitOf (exec (.ksFlush 43) ks43) 43 = some (.ks ⟨44, 45, 0x3F7F0000, 0⟩) := by decide +kernel

/-- Voice 0 bound to note 60, stamped 0, re-tuned and triggered, as in program P3. -/
theorem test_vbNoteon :
    unitOf (exec (.vbNoteon 46 60 100) idle) 46 = some (.vb ⟨[⟨47, 60, 0⟩, ⟨50, 0, 0⟩], 0⟩) ∧
    unitOf (exec (.vbNoteon 46 60 100) idle) 48 =
      some (.fd ⟨Memory.empty 2048, 0, 1865, 0x4336F7E2, 183, 0x3D01E000, true⟩) ∧
    unitOf (exec (.vbNoteon 46 60 100) idle) 47 = some (.ks ⟨48, 49, 0x3F7F0000, 128⟩) := by decide +kernel
/-- The older of two bound voices is stolen (command 15 of program P3). -/
theorem test_vbNoteon_steals :
    let s := idle.putUnit 46 (.vb ⟨[⟨47, 67, 4⟩, ⟨50, 64, 0⟩], 6⟩)
    unitOf (exec (.vbNoteon 46 72 90) s) 46 = some (.vb ⟨[⟨47, 67, 4⟩, ⟨50, 72, 6⟩], 6⟩) := by decide +kernel
/-- Voice 0 is released: unbound, stamped 4, gain 0.5 (message 11 of program P3). -/
theorem test_vbNoteoff :
    let s := idle.putUnit 46 (.vb ⟨[⟨47, 60, 0⟩, ⟨50, 64, 0⟩], 4⟩)
    unitOf (exec (.vbNoteoff 46 60 0) s) 46 = some (.vb ⟨[⟨47, 0, 4⟩, ⟨50, 64, 0⟩], 4⟩) ∧
    unitOf (exec (.vbNoteoff 46 60 0) s) 47 = some (.ks ⟨48, 49, 0x3F000000, 0⟩) ∧
    next? (exec (.vbNoteoff 46 61 0) s) = some s := by decide +kernel
/-- Two voices just triggered share the generator: the responses of command 10 of program P3 start with -1.7369087. -/
def vb46 : State := { (live.putUnit 47 (.ks ⟨48, 49, 0x3F7F0000, 128⟩)).putUnit 50 (.ks ⟨51, 52, 0x3F7F0000, 128⟩) with
  prng := 1 }

theorem test_vbStep : answer (exec (.vbStep 46) vb46) = some ([0xBFDE5306], 0) ∧
    unitOf (exec (.vbStep 46) vb46) 46 = some (.vb ⟨[⟨47, 0, 0⟩, ⟨50, 0, 0⟩], 1⟩) := by decide +kernel
theorem test_vbStep_wraps : unitOf (exec (.vbStep 46) (live.putUnit 46 (.vb ⟨[⟨47, 0, 0⟩, ⟨50, 0, 0⟩], 2147483647⟩))) 46 =
    some (.vb ⟨[⟨47, 0, 0⟩, ⟨50, 0, 0⟩], -2147483648⟩) := by decide +kernel
/-- All four responses of that command, on the rings its notes tune. -/
theorem test_vbProc :
    let s := (vb46.putUnit 48 (.fd ⟨Memory.empty 2048, 0, 1865, 0x4336F7E2, 183, 0x3D01E000, true⟩)).putUnit 51
      (.fd ⟨Memory.empty 2048, 0, 1902, 0x43111E70, 146, 0x3F619000, true⟩)
    answer (exec (.vbProc 46 4) s) = some ([0xBFDE5306, 0x3EDB65CA, 0xBEFE3B6E, 0xBF0C559D], 0) ∧
    (after (exec (.vbProc 46 4) s) s).prng = 1457850878#31 := by decide +kernel
theorem test_vbFlush :
    let s := vb46.putUnit 46 (.vb ⟨[⟨47, 67, 4⟩, ⟨50, 72, 6⟩], 6⟩)
    unitOf (exec (.vbFlush 46) s) 46 = some (.vb ⟨[⟨47, 0, 0⟩, ⟨50, 0, 0⟩], 0⟩) ∧
    unitOf (exec (.vbFlush 46) s) 47 = some (.ks ⟨48, 49, 0x3F7F0000, 0⟩) := by decide +kernel

/-- The wrapped comparison of section 3.8. -/
theorem test_pickVoice : pickVoice 32 [⟨1, 5, 0x7FFFFFF0⟩, ⟨2, 5, sextW 32 0x80000010⟩] = some 0 ∧
    pickVoice 32 [⟨1, 5, 0⟩, ⟨2, 5, sextW 32 0x80000000⟩] = some 1 ∧
    pickVoice 32 [⟨1, 5, 0⟩, ⟨2, 0, 7⟩, ⟨3, 0, 7⟩] = some 1 := by decide +kernel

/-! ## Class DM (section 3.7, program P4) -/

/-- `spd_of(480, 120, 2) = 60`; `BANK[0]` goes to the child. -/
theorem test_dmSetup : ((after (exec (.dmSetup 53) { fresh with fs := 480, fsSet := true }) fresh).dm 53).spd = 60 ∧
    ((after (exec (.dmSetup 53) { fresh with fs := 480, fsSet := true }) fresh).bq 54).coef =
      ⟨0x3E800000, 0x3F000000, 0x3E800000, 0, 0⟩ ∧
    answer (exec (.dmSetup 53) fresh) = some ([], 0x00000021) := by decide +kernel
/-- `spd_of` in the vectors of section 3.7. -/
theorem test_spd : [spdTrunc (spdQuotient 48000 90 4), spdTrunc (spdQuotient 44100 120 4),
    spdTrunc (spdQuotient 44100 137 3), spdTrunc (spdQuotient 48000 1 1)] = [4000, 2756, 3218, 1439999] := by decide +kernel
/-- The first sample: a boundary, two draws, voice 0 armed at 3 and playing, `BANK[14]` in the child. -/
theorem test_dmStep : answer (exec (.dmStep 53) live) = some ([0x3C340000], 0) ∧
    (after (exec (.dmStep 53) live) live).prng = 163439358#31 ∧
    ((after (exec (.dmStep 53) live) live).dm 53).drums.map Drum.cursor = [2, 0] ∧
    ((after (exec (.dmStep 53) live) live).dm 53).stepIdx = 1 ∧
    ((after (exec (.dmStep 53) live) live).dm 53).divCounter = 59 ∧
    ((after (exec (.dmStep 53) live) live).bq 54).coef.b0 = 0x3EF00000 := by decide +kernel
theorem test_dmProc : answer (exec (.dmProc 53 8) live) = some ([0x3C340000, 0x3C790000, 0x3CC12000, 0x3CCE4800,
    0x3C959200, 0x3C836480, 0x3C05B240, 0x3BBAD920], 0) := by decide +kernel
theorem test_dmFlush : let s := after (exec (.dmStep 53) live) live
    ((after (exec (.dmFlush 53) s) s).dm 53) = live.dm 53 ∧ ((after (exec (.dmFlush 53) s) s).bq 54).s0 = 0 ∧
    ((after (exec (.dmFlush 53) s) s).bq 54).coef.b0 = 0x3EF00000 := by decide +kernel
/-- `spd_of(480, 90, 1) = 160`; `div_counter` is kept. -/
theorem test_dmCfg : let s := after (exec (.dmCfg 53 1 90) live) live
    (s.dm 53) = { live.dm 53 with bpm := 90, pattern := 1, spd := 160 } ∧
    answer (exec (.dmCfg 53 2 120) live) = some ([], 0x00003581) ∧ answer (exec (.dmCfg 53 0 0) live) = some ([], 0x3581) := by
  decide +kernel
theorem test_dmRdcfg : answer (exec (.dmRdcfg 53) fresh) = some ([0x78, 0], 0) := by decide +kernel

/-! ## Faults and ports (section 3.9, program P6) -/

/-- The status after each vector of section 3.9, the commands arriving on the port. -/
theorem test_fault_vectors : [[0xF0000000], [0x09000000], [0xC32B0000], [0x10020000, 0x3F800000], [0x103B0000, 0x3F800000],
    [0x12010001], [0x00010000], [0x10010000, 0x3F800000], [0x43040000], [0xD42E0080]].map
      (fun ws => answer (step { fresh with cmdIn := ws })) =
    [0x11, 0x11, 0x2B11, 0x211, 0x3B11, 0x111, 0x111, 0x121, 0x431, 0x2E11].map fun w => some ([], w) := by decide +kernel
theorem test_post : (after (step { fresh with turns := [.producer], ctlIn := [0x40040000, 0x3F800000] }) fresh).funit = 4 ∧
    (after (step { fresh with turns := [.producer], ctlIn := [0xD42E643C] }) fresh).mbox = [⟨0xD42E643C, []⟩] := by
  decide +kernel
theorem test_post_full :
    let s := { fresh with mbox := List.replicate 16 ⟨0x04000002, []⟩ }
    let t := after (step { s with turns := [.producer], ctlIn := [0x04000001] }) s
    t.ctlOut = [.dropped] ∧ t.mbox = s.mbox ∧ t.fault = false := by decide +kernel
/-- A command after a fault is consumed and ignored; the reset event clears the fault (R368, R369). -/
theorem test_after_fault : let s := { fresh.withFault 1 4 with cmdIn := [0x10010000, 0x3F800000, 0x05000000] }
    (after (step s) s).cmdIn = [0x05000000] ∧ answer (step s) = some ([], 0x411) ∧
    answer (step { s with turns := [.reset] }) = some ([], 0) := by decide +kernel

/-! ## Rounding (R9): ties to even, a subnormal, overflow, division by zero -/

theorem test_rounding : fadd 0x3F800000 0x33800000 = 0x3F800000 ∧ fadd 0x3F800001 0x33800000 = 0x3F800002 ∧
    fmul 0x00800000 0x3F000000 = 0x00400000 ∧ fmul 0x7F7FFFFF 0x40000000 = 0x7F800000 ∧
    fdiv 0x3F800000 0 = 0x7F800000 ∧ fdiv 0xBF800000 0 = 0xFF800000 ∧ fdiv 0x3F800000 0x40400000 = 0x3EAAAAAB ∧
    fsub 0x3F800000 0x3F800000 = 0 := by decide +kernel

/-! ## The hypotheses of every claim are met: one witness for each, at a boundary of each clause -/

theorem witness_EncodeThenDecode : (Instr.firLdc 3 [1, 2, 3, 4]).wf (InstTable.firOrder InstTable.reference) = true ∧
    (Instr.wsSetup 6 0 0 []).wf (fun _ => 0) = true := by decide

theorem witness_DecodeThenEncode : decode (InstTable.firOrder InstTable.reference) [0x33030000, 1, 2, 3, 4, 5] =
    .ok (.firLdc 3 [1, 2, 3, 4], [5]) := rfl

theorem witness_WrittenWordsDecode : InstTable.firOrder InstTable.reference 3 = 4 := by decide

theorem witness_StepRunsDecoded :
    (State.engineTurn { fresh with cmdIn := encode .sysNop ++ [7] } []) ∧
    (State.engineTurn { fresh with turns := [.engine, .producer], cmdIn := encode (.bqProc 1 [2]) ++ [] } [.producer]) ∧
    (Instr.bqProc 1 [2]).wf fresh.firOrder = true ∧ fresh.cmdIn = [] ∧
    [(2 : Word), 3].length < operandCount fresh.firOrder 0x11010003 :=
  ⟨.inl ⟨rfl, rfl⟩, .inr rfl, by decide +kernel, rfl, by decide +kernel⟩

theorem witness_ReservedEncodingsFault : fresh.engineTurn [] ∧ fresh.fault = false ∧
    [(0xF0000000 : Word), 0x09000000, 0x00010000, 0x10010001, 0xD42E0080].map (fun cw =>
      (operandCount fresh.firOrder cw, encodingFault cw)) = [(0, true), (0, true), (0, true), (1, true), (0, true)] ∧
    [(0x08000000 : Word), 0x0400FFFF, 0x10FF0000, 0xD42E7F7F].map (fun cw =>
      (operandCount fresh.firOrder cw, encodingFault cw)) = [(0, false), (0, false), (1, false), (0, false)] :=
  ⟨.inl ⟨rfl, rfl⟩, rfl, by decide +kernel, by decide +kernel⟩

theorem witness_WrongClassFaults : (Instr.bqStep 59 1).target = some (59, .bq) ∧ fresh.classOf 59 = none ∧
    (Instr.firLdc 1 []).target = some (1, .fir) ∧ fresh.classOf 1 = some .bq ∧ fresh.fault = false := by decide +kernel

theorem witness_FaultStopsTheBlock :
    (exec (.bqStep 1 0) fresh = .next (fresh.withFault 2 1) ∧ fresh.fault = false) ∧
    (fresh.withFault 2 1).fault = true ∧
    State.engineTurn { fresh.withFault 2 1 with cmdIn := [0xF0000000] } [] ∧
    operandCount (fresh.withFault 2 1).firOrder 0xF0000000 ≤ 0 ∧ operandCount (fresh.withFault 2 1).firOrder 0x44040000 ≤ 0 :=
  ⟨⟨of_next? (by decide +kernel), rfl⟩, rfl, .inl ⟨rfl, rfl⟩, by decide +kernel, by decide +kernel⟩

theorem witness_OnlyResetClearsFault :
    let s := { fresh.withFault 2 1 with turns := [.producer, .reset], ctlIn := [0x04000000] }
    s.fault = true ∧ (∀ ts, s.turns ≠ .reset :: ts) ∧
    step s = .next { s with turns := [.reset], ctlIn := [], ctlOut := [.dropped] } ∧
    ({ s with turns := [.reset] }).turns = .reset :: [] :=
  ⟨rfl, by simp, of_next? (by decide +kernel), rfl⟩

theorem witness_ResetValues : ({ live.withFault 2 1 with turns := [.reset, .engine] }).turns = .reset :: [.engine] := rfl

theorem witness_StepKeepsInvariant : live.Inv ∧
    step { live with cmdIn := [0x07000000] } = .next { live with prng := 1159683#31, respOut := [1159683] } :=
  ⟨live_inv, of_next? (by decide +kernel)⟩

theorem witness_StepOnlyRefusesNaN : live.Inv ∧
    State.Inv { live with cmdIn := [0x60060000, 0x7FC00000] } :=
  ⟨live_inv, inv_of_checks (by decide +kernel)⟩

theorem witness_CommandFrame : exec .sysNop live = .next live ∧
    exec (.bqFlush 1) live = .next live ∧ (Instr.bqFlush 1).usesPrng = false ∧ (Instr.bqFlush 1) ≠ .sysDrain :=
  ⟨of_next? (by decide +kernel), of_next? (by decide +kernel), rfl, by decide⟩

theorem witness_CommandReach : (Instr.paFlush 12).target = some (12, .pa) ∧ exec (.paFlush 12) live = .next live ∧
    (6 : UnitId) ∉ live.family 12 ∧ (27 : UnitId) ∈ live.family 12 ∧ Instr.sysRand.target = none ∧
    exec .sysRand live = .next { live with prng := 1159683#31, respOut := [1159683] } :=
  ⟨rfl, of_next? (by decide +kernel), by decide +kernel, by decide +kernel, rfl, of_next? (by decide +kernel)⟩

theorem witness_StorageLaws : live.unit? 1 = some (.bq (live.bq 1)) ∧ (2 : UnitId) ≠ 1 ∧
    (Memory.mk 8 [(7, 1)]).wf = true ∧ 7 < (Memory.mk 8 [(7, 1)]).cap ∧ (Memory.mk 8 [(7, 1)]).cap ≤ 8 := by decide +kernel

theorem witness_PostRule :
    let s := { fresh with turns := [.producer], ctlIn := [0xE4350001, 120] }
    s.ctlIn = 0xE4350001 :: [120] ∧ operandCount s.firOrder 0xE4350001 ≤ 1 ∧ s.fault = false ∧
    (fresh.withFault 1 1).fault = true ∧ mailable 0xE4350001 = true ∧ mailable 0x10010000 = false ∧ mailable 0xFF000000 = false ∧
    s.mbox.length < s.params.mboxDepth ∧
    fresh.params.mboxDepth ≤ (List.replicate 16 (Message.mk 0x04000000 [])).length ∧
    (List.replicate 15 (Message.mk 0x04000000 [])).length < fresh.params.mboxDepth := by decide +kernel

theorem witness_ProducerIsolated : ({ live with turns := [.producer] }).turns = .producer :: [] := rfl

theorem witness_DrainExecutesOldestFirst :
    let m : Message := ⟨0x13010000, [1, 2, 3, 4, 5]⟩
    let b : Message := ⟨0xD42E0080, []⟩
    fresh.fault = false ∧ fresh.mbox = [] ∧ m.wf = true ∧
    decodeCommand m.cw m.operands = .ok (.bqLdc 1 1 2 3 4 5) ∧
    exec (.bqLdc 1 1 2 3 4 5) { fresh with mbox := [] } =
      .next (fresh.putUnit 1 (.bq { fresh.bq 1 with coef := ⟨1, 2, 3, 4, 5⟩, cfg := true })) ∧
    b.wf = true ∧ decodeCommand b.cw b.operands = .error .noteBitsNotZero :=
  ⟨rfl, rfl, by decide +kernel, rfl, of_next? (by decide +kernel), by decide +kernel, rfl⟩

theorem witness_DrainCompletes : live.Inv ∧ live.fault = false ∧
    State.Inv { live with mbox := List.replicate 16 ⟨0xE4350001, [90]⟩ } :=
  ⟨live_inv, rfl, inv_of_checks (by decide +kernel)⟩

theorem witness_SamplingFrequency : fresh.fault = false ∧ fresh.fsSet = false ∧ (1 : Word) ≠ 0 ∧ idle.fault = false ∧
    idle.fsSet = true := by decide +kernel

theorem witness_Generator : fresh.fault = false ∧ (1 : Word) ≠ 0 ∧ (2147483646 : Word).toNat < 2147483647 ∧
    2147483647 ≤ (2147483647 : Word).toNat ∧ fresh.params.prngMap = .standard := by decide +kernel

theorem witness_GeneratorRange : 1 ≤ (1 : BitVec 31).toNat ∧ (2147483646 : BitVec 31).toNat ≤ 2147483646 ∧
    fresh.fault = false ∧ exec .sysRand { fresh with prng := 2147483646 } = .next { fresh with prng := 2147466840, respOut := [2147466840] } :=
  ⟨by decide, by decide, rfl, of_next? (by decide +kernel)⟩

/-- `BqStep`, `BqRecord`, `BqDesigns` and `BqGainDesigns` ask the same of the state. -/
theorem witness_Bq : live.fault = false ∧ live.unit? 1 = some (.bq (live.bq 1)) ∧ (live.bq 1).cfg = true ∧
    live.fsSet = true ∧ fresh.fault = false ∧ fresh.unit? 1 = some (.bq (fresh.bq 1)) ∧ (fresh.bq 1).cfg = false ∧
    fresh.fsSet = false := by decide +kernel

/-- `FoStep` and `FoRecord`. -/
theorem witness_Fo : live.fault = false ∧ live.unit? 2 = some (.fo (live.fo 2)) ∧ (live.fo 2).cfg = true ∧
    live.fsSet = true ∧ fresh.fault = false ∧ fresh.unit? 2 = some (.fo (fresh.fo 2)) ∧ (fresh.fo 2).cfg = false ∧
    fresh.fsSet = false := by decide +kernel

/-- Also four coefficients, the order of the filter. -/
theorem witness_Fir : (live.Inv ∧ fresh.Inv) ∧ live.fault = false ∧ live.unit? 3 = some (.fir (live.fir 3)) ∧ (live.fir 3).cfg = true ∧
    [(1 : F32), 2, 3, 4].length = (live.fir 3).c.cap ∧ fresh.fault = false ∧ fresh.unit? 3 = some (.fir (fresh.fir 3)) ∧
    (fresh.fir 3).cfg = false := ⟨⟨live_inv, fresh_inv⟩, by decide +kernel⟩

/-- Lengths 0, 1, 8 and 9 on a ring of eight. -/
theorem witness_Dl : (live.Inv ∧ fresh.Inv) ∧ live.fault = false ∧ live.unit? 4 = some (.dl (live.dl 4)) ∧ (live.dl 4).cfg = true ∧
    fresh.fault = false ∧ fresh.unit? 4 = some (.dl (fresh.dl 4)) ∧ (fresh.dl 4).cfg = false ∧
    (live.dl 4).buf.cap < (9 : BitVec 16).toNat ∧ (8 : BitVec 16).toNat ≤ (live.dl 4).buf.cap ∧ (1 : BitVec 16) ≠ 0 :=
  ⟨⟨live_inv, fresh_inv⟩, by decide +kernel⟩

theorem witness_DlRoundTrip : live.Inv ∧ live.fault = false ∧ live.unit? 4 = some (.dl (live.dl 4)) ∧
    (live.dl 4).cfg = true ∧ ∀ i, (live.dl 4).buf.get i = 0 := ⟨live_inv, by decide +kernel, by decide +kernel, by decide +kernel, fun _ => rfl⟩

/-- Lengths just below 1.0, 1.0, 8.0, just above 8.0, and a NaN on a ring of eight. -/
theorem witness_Fd : (live.Inv ∧ fresh.Inv) ∧ live.fault = false ∧ live.unit? 5 = some (.fd (live.fd 5)) ∧ (live.fd 5).cfg = true ∧
    fresh.fault = false ∧ fresh.unit? 5 = some (.fd (fresh.fd 5)) ∧ (fresh.fd 5).cfg = false ∧
    isNaN 0x7FC00000 = true ∧ flt 0x3F7FFFFF c1 = true ∧ flt (f32OfNat (live.fd 5).buf.cap) 0x41000001 = true ∧
    [(0x3F800000 : F32), 0x41000000].map isNaN = [false, false] ∧
    [(0x3F800000 : F32), 0x41000000].map (flt · c1) = [false, false] ∧
    [(0x3F800000 : F32), 0x41000000].map (flt (f32OfNat (live.fd 5).buf.cap)) = [false, false] :=
  ⟨⟨live_inv, fresh_inv⟩, by decide +kernel⟩

/-- Tables of 1, 2, 16 and 17 points; a domain of one point, one that runs backwards, one with a NaN end. -/
theorem witness_WsSetup : live.Inv ∧ live.fault = false ∧ live.unit? 6 = some (.ws (live.ws 6)) ∧
    [(0 : F32)].length < 2 ∧ (live.ws 6).tab.cap < (List.replicate 17 (0 : F32)).length ∧ 2 ≤ [(0 : F32), 1].length ∧
    (List.replicate 16 (0 : F32)).length ≤ (live.ws 6).tab.cap ∧ flt 0x3F800000 0x3F800000 = false ∧
    flt 0x3F800000 0 = false ∧ flt 0 0x7FC00000 = false ∧ flt 0 0x00000001 = true := ⟨live_inv, by decide +kernel⟩

theorem witness_WsStepAndFlush : (live.Inv ∧ fresh.Inv) ∧ live.fault = false ∧ live.unit? 6 = some (.ws (live.ws 6)) ∧
    (live.ws 6).cfg = true ∧ fresh.fault = false ∧ fresh.unit? 6 = some (.ws (fresh.ws 6)) ∧ (fresh.ws 6).cfg = false ∧
    isNaN 0x7F800001 = true ∧ isNaN 0x7F800000 = false := ⟨⟨live_inv, fresh_inv⟩, by decide +kernel⟩

theorem witness_TsControl : (live.Inv ∧ fresh.Inv) ∧ live.fault = false ∧ live.unit? 7 = some (.ts (live.ts 7)) ∧
    (live.ts 7).cfg = true ∧ fresh.fault = false ∧ fresh.unit? 7 = some (.ts (fresh.ts 7)) ∧ (fresh.ts 7).cfg = false :=
  ⟨⟨live_inv, fresh_inv⟩, by decide +kernel⟩

/-- Stage 7 has units 8 to 11 as its children. -/
def stage (s : State) : Bool :=
  decide (s.fault = false ∧ s.unit? 7 = some (.ts (s.ts 7)) ∧ s.unit? (s.ts 7).inp = some (.bq (s.bq 8)) ∧
    s.unit? (s.ts 7).curve = some (.ws (s.ws 9)) ∧ s.unit? (s.ts 7).fb = some (.fo (s.fo 10)) ∧
    s.unit? (s.ts 7).dc = some (.fo (s.fo 11)))
/-- Which of the stage and its four parts are set up. -/
def parts (s : State) : List Bool := [(s.ts 7).cfg, (s.bq 8).cfg, (s.ws 9).cfg, (s.fo 10).cfg, (s.fo 11).cfg]
/-- The value that reaches the curve. -/
def atCurve (s : State) (x : F32) : F32 := fadd (bqOut (s.bq 8) (fmul x (s.ts 7).gain)) (s.ts 7).bias

/-- The result an operation chooses when it has none is a NaN (R9). -/
theorem isNaN_nanResult (op : FOp) (a b : F32) : isNaN (nanResult op a b) = true := by
  simp only [nanResult, isNaN_eq, decide_eq_true_eq]
  have h : ffrac (Config.nanBits op a b) < 8388608 := Nat.mod_lt _ (by decide)
  split <;> rw [fpack_toNat (by omega)] <;> split <;> omega

theorem witness_TsStep : (stage fresh = true ∧ parts fresh = [false, false, false, false, false]) ∧
    (stage (without 8) = true ∧ parts (without 8) = [true, false, true, true, true]) ∧
    (stage (without 9) = true ∧ parts (without 9) = [true, true, false, true, true]) ∧
    (stage (without 10) = true ∧ parts (without 10) = [true, true, true, false, true] ∧ isNaN (atCurve (without 10) 0) = false) ∧
    (stage (without 11) = true ∧ parts (without 11) = [true, true, true, true, false] ∧ isNaN (atCurve (without 11) 0) = false) ∧
    (stage live = true ∧ parts live = [true, true, true, true, true] ∧ isNaN (atCurve live 0x3F800000) = false) := by
  decide +kernel
theorem witness_TsStep_inv : fresh.Inv ∧ (without 8).Inv ∧ (without 9).Inv ∧ (without 10).Inv ∧ (without 11).Inv ∧ live.Inv :=
  ⟨fresh_inv, without_inv _ (by decide), without_inv _ (by decide), without_inv _ (by decide), without_inv _ (by decide), live_inv⟩
/-- A NaN sample reaches the curve as a NaN. -/
theorem witness_TsStep_nan : isNaN (atCurve live 0x7FC00000) = true := by
  have h : fmul 0x7FC00000 (live.ts 7).gain = nanResult .mul 0x7FC00000 (live.ts 7).gain := rfl
  have h2 : ∀ x, isNaN x = true → isNaN (fmul (live.bq 8).coef.b0 x) = true := fun x hx => by
    simp only [fmul, hx, Bool.or_true, if_true, isNaN_nanResult]
  have h3 : ∀ x y, isNaN x = true → isNaN (fadd x y) = true := fun x y hx => by
    simp only [fadd, hx, Bool.true_or, if_true, isNaN_nanResult]
  exact h3 _ _ (h3 _ _ (h2 _ (h ▸ isNaN_nanResult ..)))

theorem witness_PaStepAndFlush : live.Inv ∧ live.fault = false ∧ live.unit? 12 = some (.pa (live.pa 12)) ∧
    readyTs live 13 = true ∧ readyTs live 18 = true ∧ readyTs live 23 = true ∧ (live.pa 12) = ⟨13, 18, 23⟩ ∧
    tsClean 13 0x3E800000 live = true ∧ paClean 12 0x3E800000 live = true := ⟨live_inv, by decide +kernel⟩

/-- What each of the three stages of preamp 12 meets, for a sample. -/
def paObstacles (x : F32) (s : State) : List (Option Obstacle) :=
  let a := evalTs 13 x s
  let b := evalTs 18 a.1 a.2
  [tsObstacle 13 x s, tsObstacle 18 a.1 a.2, tsObstacle 23 b.1 b.2]

/-- Nothing; the curve of the first stage, the second stage itself, the input filter of the third. -/
theorem witness_PaStepAndFlush_stops : paObstacles 0x3E800000 live = [none, none, none] ∧
    ((without 15).Inv ∧ (without 15).unit? 12 = some (.pa ⟨13, 18, 23⟩) ∧
      (paObstacles 0x3E800000 (without 15)).head? = some (some (.notSetup 15))) ∧
    ((without 18).Inv ∧ (without 18).unit? 12 = some (.pa ⟨13, 18, 23⟩) ∧
      (paObstacles 0x3E800000 (without 18)).take 2 = [none, some (.notSetup 18)]) ∧
    ((without 24).Inv ∧ (without 24).unit? 12 = some (.pa ⟨13, 18, 23⟩) ∧
      paObstacles 0x3E800000 (without 24) = [none, none, some (.notSetup 24)]) ∧
    [15, 18, 24].map (fun u => (without u).fault) = [false, false, false] :=
  ⟨by decide +kernel, ⟨without_inv _ (by decide), by decide +kernel⟩, ⟨without_inv _ (by decide), by decide +kernel⟩,
    ⟨without_inv _ (by decide), by decide +kernel⟩, by decide +kernel⟩
/-- A NaN sample reaches the curve of the first stage. -/
theorem witness_PaStepAndFlush_nan : tsObstacle 13 0x7FC00000 live = some (.nan 15) := by
  have h3 : ∀ x y, isNaN x = true → isNaN (fadd x y) = true := fun x y hx => by
    simp only [fadd, hx, Bool.true_or, if_true, isNaN_nanResult]
  have h2 : ∀ x, isNaN x = true → isNaN (fmul (live.bq 14).coef.b0 x) = true := fun x hx => by
    simp only [fmul, hx, Bool.or_true, if_true, isNaN_nanResult]
  have h1 : fmul 0x7FC00000 (live.ts 13).gain = nanResult .mul 0x7FC00000 (live.ts 13).gain := rfl
  have h : isNaN (tsCurveIn 13 0x7FC00000 live) = true := h3 _ _ (h3 _ _ (h2 _ (h1 ▸ isNaN_nanResult ..)))
  have hc : (live.ts 13).cfg = true ∧ (live.bq (live.ts 13).inp).cfg = true ∧ (live.ws 15).cfg = true ∧
    (live.ts 13).curve = 15 := by decide +kernel
  simp only [tsObstacle, h, hc, Bool.true_eq_false, if_false, if_true]

theorem witness_SectionSetupAndFlush : live.fault = false ∧ live.unit? 55 = some (.apf (live.apf 55)) ∧
    live.unit? (live.apf 55).dl = some (.dl (live.dl 56)) ∧ live.unit? 57 = some (.cmb (live.cmb 57)) ∧
    live.unit? (live.cmb 57).dl = some (.dl (live.dl 58)) ∧ (live.dl 56).buf.cap < (9 : BitVec 16).toNat ∧
    (8 : BitVec 16).toNat ≤ (live.dl 56).buf.cap ∧ (8 : BitVec 16).toNat ≤ (live.dl 58).buf.cap ∧
    (live.dl 58).buf.cap < (9 : BitVec 16).toNat := by decide +kernel

theorem witness_SectionStep : (live.Inv ∧ fresh.Inv ∧ (without 56).Inv ∧ (without 58).Inv) ∧
    (∀ s ∈ [live, fresh, without 56, without 58], s.fault = false ∧ s.unit? 55 = some (.apf (s.apf 55)) ∧
      s.unit? (s.apf 55).dl = some (.dl (s.dl 56)) ∧ s.unit? 57 = some (.cmb (s.cmb 57)) ∧
      s.unit? (s.cmb 57).dl = some (.dl (s.dl 58))) ∧
    [live, fresh, without 56, without 58].map (fun s => [(s.apf 55).cfg, (s.dl 56).cfg, (s.cmb 57).cfg, (s.dl 58).cfg]) =
      [[true, true, true, true], [false, false, false, false], [true, false, true, true], [true, true, true, false]] :=
  ⟨⟨live_inv, fresh_inv, without_inv _ (by decide), without_inv _ (by decide)⟩, by decide +kernel⟩

/-- Four of the rings are exactly long enough. -/
theorem witness_Rv : (live.Inv ∧ fresh.Inv) ∧ live.fault = false ∧ live.unit? 28 = some (.rv (live.rv 28)) ∧
    readyRv live 28 = true ∧ fresh.fault = false ∧ fresh.unit? 28 = some (.rv (fresh.rv 28)) ∧ (fresh.rv 28).cfg = false ∧
    347 ≤ (fresh.dl (fresh.apf (fresh.rv 28).apf0).dl).buf.cap ∧ 113 ≤ (fresh.dl (fresh.apf (fresh.rv 28).apf1).dl).buf.cap ∧
    37 ≤ (fresh.dl (fresh.apf (fresh.rv 28).apf2).dl).buf.cap ∧ 1601 ≤ (fresh.dl (fresh.cmb (fresh.rv 28).cmb0).dl).buf.cap ∧
    1867 ≤ (fresh.dl (fresh.cmb (fresh.rv 28).cmb1).dl).buf.cap ∧ 2053 ≤ (fresh.dl (fresh.cmb (fresh.rv 28).cmb2).dl).buf.cap ∧
    2251 ≤ (fresh.dl (fresh.cmb (fresh.rv 28).cmb3).dl).buf.cap := ⟨⟨live_inv, fresh_inv⟩, by decide +kernel⟩

/-- Without `FS`; a pitch whose length fits the ring of 2048; pitches too high, too low, and 0. -/
theorem witness_KsControl : (idle.Inv ∧ fresh.Inv) ∧ idle.fault = false ∧ idle.unit? 43 = some (.ks (idle.ks 43)) ∧
    idle.unit? (idle.ks 43).delay = some (.fd (idle.fd 44)) ∧ idle.fsSet = true ∧ fresh.fault = false ∧ fresh.fsSet = false ∧
    fresh.unit? 43 = some (.ks (fresh.ks 43)) ∧ fresh.unit? (fresh.ks 43).delay = some (.fd (fresh.fd 44)) ∧
    [(0x43DC0000 : F32), 0x47BB8000, 0x3F800000, 0].map (fun q => fdAccepts (tuneLength idle q) (idle.fd 44).buf.cap) =
      [true, false, false, false] := ⟨⟨idle_inv, fresh_inv⟩, by decide +kernel⟩

theorem witness_KsStep : (live.Inv ∧ (without 44).Inv ∧ (without 45).Inv ∧ ks43.Inv) ∧
    (∀ s ∈ [live, without 44, without 45, ks43], s.fault = false ∧ s.unit? 43 = some (.ks (s.ks 43)) ∧
      s.unit? (s.ks 43).delay = some (.fd (s.fd 44)) ∧ s.unit? (s.ks 43).damp = some (.fo (s.fo 45))) ∧
    [live, without 44, without 45, ks43].map (fun s => ((s.fd 44).cfg, (s.fo 45).cfg, (s.ks 43).excite)) =
      [(true, true, 0), (false, true, 0), (true, false, 0), (true, true, 128)] :=
  ⟨⟨live_inv, without_inv _ (by decide), without_inv _ (by decide), inv_of_checks (by decide +kernel)⟩, by decide +kernel⟩

/-- All bound, stamps up to half the range apart; one unbound. -/
theorem witness_OldestVoiceIsPicked :
    (∀ v ∈ [Voice.mk 1 5 0, ⟨2, 6, 2147483647⟩, ⟨3, 7, 0⟩], 0 ≤ sextW 32 (2147483647 - v.age)) ∧
    (∃ v ∈ [Voice.mk 1 5 3, ⟨2, 0, 4⟩], v.note = 0) ∧ (∀ v ∈ [Voice.mk 1 5 3, ⟨2, 0, 4⟩], 0 ≤ sextW 32 (4 - v.age)) := by
  decide

/-- Note 60 fits a ring of 2048 at 48000; note 0, with the same state, does not. -/
theorem witness_VbNoteOn : idle.Inv ∧ idle.fault = false ∧ idle.unit? 46 = some (.vb (idle.vb 46)) ∧ idle.fsSet = true ∧
    pickVoice 32 (idle.vb 46).voices = some 0 ∧
    [(60 : BitVec 7), 0].map (fun k => fdAccepts (tuneLength idle (noteFreq idle.params k)) (idle.fd 48).buf.cap) = [true, false] :=
  ⟨idle_inv, by decide +kernel⟩

/-- Both voices hold note 64: the lower is released. Note 65 is not held. -/
theorem witness_VbNoteOff :
    let s := idle.putUnit 46 (.vb ⟨[⟨47, 64, 0⟩, ⟨50, 64, 1⟩], 2⟩)
    s.Inv ∧ s.fault = false ∧ s.unit? 46 = some (.vb (s.vb 46)) ∧ (s.vb 46).voices[0]? = some ⟨47, 64, 0⟩ ∧
    (∀ v ∈ (s.vb 46).voices, v.note ≠ (65 : BitVec 7).setWidth 8) ∧ (64 : BitVec 7) ≠ 0 ∧
    (64 : BitVec 8) = (64 : BitVec 7).setWidth 8 := ⟨inv_of_checks (by decide +kernel), by decide +kernel⟩

/-- Both voices ready; the line of the first, the damping filter of the second not set up. -/
theorem witness_VbStepAndFlush : (live.Inv ∧ (without 48).Inv ∧ (without 52).Inv) ∧
    ([live, without 48, without 52].all fun s => decide (s.fault = false ∧ s.unit? 46 = some (.vb (live.vb 46)))) = true ∧
    (live.vb 46).voices = ⟨47, 0, 0⟩ :: [⟨50, 0, 0⟩] ∧ (live.vb 46).voices = [⟨47, 0, 0⟩] ++ ⟨50, 0, 0⟩ :: [] ∧
    readyVb live 46 = true ∧ ksObstacle 47 (without 48) = some 48 ∧ readyKs (without 52) 47 = true ∧
    ksObstacle 50 (without 52) = some 52 :=
  ⟨⟨live_inv, without_inv _ (by decide), without_inv _ (by decide)⟩, by decide +kernel⟩

/-- The quotient of R281 for the first pattern, at the reset tempo; a frequency of 1 makes it less than 1.0. -/
def spdAt (s : State) (bpm : Word) : F32 :=
  fdiv (fdiv (fdiv (f32OfU32 s.fs) c2) (fdiv (f32OfU32 bpm) c60)) (f32OfU32 ((s.dm 53).patterns.headD ⟨0, []⟩).dpb)

/-- Patterns 0, 1 (the last) and 2; tempos 0 and 120; a rate that is undefined. -/
theorem witness_DmControl : (live.Inv ∧ fresh.Inv ∧ State.Inv { live with fs := 1 }) ∧ live.fault = false ∧
    live.unit? 53 = some (.dm (live.dm 53)) ∧ fresh.unit? 53 = some (.dm (fresh.dm 53)) ∧ fresh.fsSet = false ∧
    live.fsSet = true ∧ (live.dm 53).patterns.length ≤ (2 : BitVec 16).toNat ∧
    (live.dm 53).patterns[(1 : BitVec 16).toNat]?.isSome = true ∧ (live.dm 53).patterns[(live.dm 53).pattern.toNat]? =
      some ((live.dm 53).patterns.headD ⟨0, []⟩) ∧ (120 : Word) ≠ 0 ∧ (live.dm 53).bank[0]?.isSome = true ∧
    (fle c1 (spdAt live 120) && flt (spdAt live 120) 0x4F800000) = true ∧
    (fle c1 (spdAt { live with fs := 1 } 120) && flt (spdAt { live with fs := 1 } 120) 0x4F800000) = false :=
  ⟨⟨live_inv, fresh_inv, inv_of_checks (by decide +kernel)⟩, by decide +kernel⟩

theorem witness_NopAndRawDoNothing : opField 0x00000001 = 0x00 ∧ (0x00000001 : Word) ≠ 0 ∧ opField 0x04010000 = 0x04 ∧
    unitField 0x04010000 ≠ 0 := by decide

/-- `live` stands at a boundary of its sequencer. -/
theorem witness_DmStepAndFlush : (live.Inv ∧ fresh.Inv ∧ (without 54).Inv) ∧ (without 54).fault = false ∧
    (without 54).unit? 53 = some (.dm (live.dm 53)) ∧ (without 54).unit? 54 = some (.bq (idle.bq 54)) ∧
    (idle.bq 54).cfg = false ∧ live.fault = false ∧ live.unit? 53 = some (.dm (live.dm 53)) ∧
    live.unit? (live.dm 53).lp = some (.bq (live.bq 54)) ∧ (live.dm 53).cfg = true ∧ (live.bq 54).cfg = true ∧
    dmAtBoundary (live.dm 53) = true ∧ fresh.fault = false ∧ fresh.unit? 53 = some (.dm (fresh.dm 53)) ∧
    fresh.unit? (fresh.dm 53).lp = some (.bq (fresh.bq 54)) ∧ (fresh.dm 53).cfg = false :=
  ⟨⟨live_inv, fresh_inv, without_inv _ (by decide)⟩, by decide +kernel⟩

/-- `FilterProcIsRepeatedStep` and `GeneratorProcIsRepeatedStep`: a unit of every class. -/
theorem witness_ProcIsRepeatedStep : live.fault = false ∧
    [(1 : UnitId), 2, 3, 4, 5, 6, 7, 12, 55, 57, 28, 43, 46, 53].map live.classOf = [some .bq, some .fo, some .fir, some .dl,
      some .fd, some .ws, some .ts, some .pa, some .apf, some .cmb, some .rv, some .ks, some .vb, some .dm] := by decide +kernel

/-- `LinearProcCompletes`, `CurveProcCompletes` and `GeneratorProcCompletes`: every class ready, and samples that stay off NaN. -/
theorem witness_ProcCompletes : live.Inv ∧ live.fault = false ∧ readyBq live 1 = true ∧ readyFo live 2 = true ∧
    readyFir live 3 = true ∧ readyDl live 4 = true ∧ readyFd live 5 = true ∧ readyApf live 55 = true ∧
    readyCmb live 57 = true ∧ readyRv live 28 = true ∧ readyWs live 6 = true ∧ readyTs live 7 = true ∧
    readyPa live 12 = true ∧ readyKs live 43 = true ∧ readyVb live 46 = true ∧ readyDm live 53 = true ∧
    cleanList (wsClean 6) (evalWs 6) [0, 0x7F800000] live = true ∧
    cleanList (tsClean 7) (evalTs 7) [0x3E800000, 0] live = true ∧
    cleanList (paClean 12) (evalPa 12) [0x3E800000] live = true := ⟨live_inv, by decide +kernel⟩

/-- A tie: 1 + 2^-24 lies half way between 1 and its successor. -/
theorem witness_ArithmeticRoundsToNearest : fexp 0x3F800000 < 255 ∧ fexp 0x33800000 < 255 ∧ fexp 0x3F800001 < 255 ∧
    fval 0x3F800000 + fval 0x33800000 ≠ 0 ∧ (fval 0x3F800000 + fval 0x33800000).natAbs < overflowAt ∧
    fmag 0x3F800001 ≠ fmag (fadd 0x3F800000 0x33800000) ∧
    (fval 0x3F800001 - (fval 0x3F800000 + fval 0x33800000)).natAbs =
      (fval (fadd 0x3F800000 0x33800000) - (fval 0x3F800000 + fval 0x33800000)).natAbs := by
  decide +kernel

/-- Sums of 0, of the largest f32 and 2^103 (the threshold itself), and of the largest and the f32 below 2^103; products
31 * 2^100 by 1082401 * 2^3 (the threshold) and by the f32 below; the largest f32 over 1, over 1/2 and over 0; 0 over 0. -/
theorem witness_ArithmeticRoundsToNearest_edges :
    ([0x3F800000, 0xBF800000, 0x80000000, 0x7F7FFFFF, 0x73000000, 0x72FFFFFF, 0x73F80000, 0x4B042108, 0x4B042107, 0x3F000000].all
      fun x => decide (fexp x < 255)) = true ∧
    fval 0x3F800000 + fval 0xBF800000 = 0 ∧ fval 0x80000000 + fval 0x80000000 = 0 ∧
    (fval 0x7F7FFFFF + fval 0x73000000).natAbs = overflowAt ∧ (fval 0x7F7FFFFF + fval 0x72FFFFFF).natAbs < overflowAt ∧
    fmag 0x73F80000 * fmag 0x4B042108 = overflowAt * 2 ^ 149 ∧ fmag 0x73F80000 * fmag 0x4B042107 < overflowAt * 2 ^ 149 ∧
    fmag 0x7F7FFFFF * 2 ^ 149 < overflowAt * fmag 0x3F800000 ∧ overflowAt * fmag 0x3F000000 ≤ fmag 0x7F7FFFFF * 2 ^ 149 ∧
    fmag 0x80000000 = 0 ∧ fmag 0x3F800000 ≠ 0 := by decide +kernel

/-- IEEE 754: the largest f32 plus half its last place is a tie that goes to infinity; plus less it stays. -/
theorem test_add_overflow : fadd 0x7F7FFFFF 0x73000000 = 0x7F800000 ∧ fadd 0xFF7FFFFF 0xF3000000 = 0xFF800000 ∧
    fadd 0x7F7FFFFF 0x72FFFFFF = 0x7F7FFFFF := by decide +kernel

end Sys2Proof.Tests
end

section
/-! PROOF of O60. Addition, subtraction, multiplication and division of finite values round to nearest, ties to even
(R9). The rounding itself is settled in Laws/Float; here its result is read as an f32, and the distances of the
statement are compared with the distance that rounding minimises. -/

namespace Sys2Proof.Machine

/-! ## Nearest, ties to even -/

/-- No finite f32 has a smaller distance `d` than `r`, and where one of another magnitude has the same, the last bit of
`r` is even (R9). -/
def NearestEven (d : F32 → Nat) (r : F32) : Prop :=
  ∀ y : F32, fexp y < 255 → d r ≤ d y ∧ (fmag y ≠ fmag r → d y = d r → r.toNat % 2 = 0)

/-- A value nearest by one distance is nearest by any other that ranks it against the rest in the same way. -/
theorem NearestEven.of_ranking {d d' : F32 → Nat} {r : F32} (h : NearestEven d r)
    (hle : ∀ y, d r ≤ d y → d' r ≤ d' y) (hge : ∀ y, d' y ≤ d' r → d y ≤ d r) : NearestEven d' r := by
  intro y hy
  obtain ⟨hmin, heven⟩ := h y hy
  exact ⟨hle y hmin, fun hne heq => heven hne (le_antisymm (hge y heq.le) hmin)⟩

/-- Two values are ranked by their distances from `n` as their midpoint lies to `n`. -/
theorem natAbs_sub_le_iff_midpoint (x y n : Nat) : ((x : Int) - n).natAbs ≤ ((y : Int) - n).natAbs ↔
    (x ≤ y ∧ 2 * n ≤ x + y) ∨ (y ≤ x ∧ x + y ≤ 2 * n) := by
  omega

/-! ## A rounding as an f32 -/

theorem fpack_toNat_mod_two {m : Nat} (h : m < 2147483648) (neg : Bool) : (fpack neg m).toNat % 2 = m % 2 := by
  rw [fpack_toNat h]
  split <;> omega

/-- Below the overflow threshold a rounding is finite, keeps the sign and is nearest to `n * 2^-k`. -/
theorem fpack_roundMag_finite (neg : Bool) {n k : Nat} (h : n < overflowAt * 2 ^ k) :
    fexp (fpack neg (roundMag n k)) < 255 ∧ fsign (fpack neg (roundMag n k)) = neg ∧
      NearestEven (fun z => ((fmag z : Int) * 2 ^ k - n).natAbs) (fpack neg (roundMag n k)) := by
  have hfin := (roundMag_lt_iff n k).2 h
  have h31 : roundMag n k < 2147483648 := by omega
  refine ⟨by rw [fexp_fpack h31]; omega, fsign_fpack h31 neg, fun y _ => ?_⟩
  have hnear := roundMag_nearest hfin (y.toNat % 2147483648)
  rw [← fmag_eq] at hnear
  push_cast at hnear
  simpa only [fmag_fpack h31, fpack_toNat_mod_two h31] using hnear

theorem finf_eq (neg : Bool) : finf neg = if neg then 0xFF800000 else 0x7F800000 := by
  cases neg <;> rfl

theorem fpack_roundMag_overflow (neg : Bool) {n k : Nat} (h : overflowAt * 2 ^ k ≤ n) :
    fpack neg (roundMag n k) = if neg then 0xFF800000 else 0x7F800000 := by
  rw [roundMag_overflow h, ← finf_eq, finf]

/-! ## Sums and differences -/

/-- A sum that is exactly zero. -/
theorem fadd_of_eq_zero {a b : F32} (ha : fexp a < 255) (hb : fexp b < 255) (hv : fval a + fval b = 0) :
    fadd a b = if fsign a && fsign b then 0x80000000 else 0x00000000 := by
  rw [fadd_finite ha hb, if_pos hv]
  cases fsign a && fsign b <;> rfl

theorem fadd_of_ne_zero {a b : F32} (ha : fexp a < 255) (hb : fexp b < 255) (hv : fval a + fval b ≠ 0) :
    fadd a b = fpack (decide (fval a + fval b < 0)) (roundMag (fval a + fval b).natAbs 0) := by
  rw [fadd_finite ha hb, if_neg hv]

theorem natAbs_fmag_sub_le (z : F32) (v : Int) :
    ((fmag z : Int) - v.natAbs).natAbs ≤ (fval z - v).natAbs := by
  unfold fval
  split <;> omega

theorem natAbs_fval_sub_of_sign {z : F32} {v : Int} (h : fsign z = decide (v < 0)) :
    (fval z - v).natAbs = ((fmag z : Int) - v.natAbs).natAbs := by
  unfold fval
  rw [h]
  by_cases hv : v < 0 <;> (simp only [hv, decide_true, decide_false, if_true, Bool.false_eq_true, if_false]; omega)

/-- Of the values with the magnitude nearest to that of `v`, the one with the sign of `v` is nearest to `v`. -/
theorem NearestEven.signed {v : Int} {r : F32} (hs : fsign r = decide (v < 0))
    (h : NearestEven (fun z => ((fmag z : Int) * 2 ^ 0 - v.natAbs).natAbs) r) :
    NearestEven (fun z => (fval z - v).natAbs) r := by
  have hr := natAbs_fval_sub_of_sign hs
  refine h.of_ranking (fun y hy => ?_) (fun y hy => ?_)
  all_goals
    have hy' := natAbs_fmag_sub_le y v
    omega

theorem fadd_rounds {a b : F32} (ha : fexp a < 255) (hb : fexp b < 255) (hv : fval a + fval b ≠ 0)
    (hlt : (fval a + fval b).natAbs < overflowAt) :
    fexp (fadd a b) < 255 ∧ fsign (fadd a b) = decide (fval a + fval b < 0) ∧
      NearestEven (fun z => (fval z - (fval a + fval b)).natAbs) (fadd a b) := by
  rw [fadd_of_ne_zero ha hb hv]
  obtain ⟨hexp, hsign, hnear⟩ := fpack_roundMag_finite (decide (fval a + fval b < 0)) (k := 0) (by simpa using hlt)
  exact ⟨hexp, hsign, hnear.signed hsign⟩

theorem fadd_overflows {a b : F32} (ha : fexp a < 255) (hb : fexp b < 255)
    (h : overflowAt ≤ (fval a + fval b).natAbs) :
    fadd a b = if fval a + fval b < 0 then 0xFF800000 else 0x7F800000 := by
  have hv : fval a + fval b ≠ 0 := fun h0 => absurd (h0 ▸ h) (by decide)
  rw [fadd_of_ne_zero ha hb hv, fpack_roundMag_overflow _ (by simpa using h)]
  simp only [decide_eq_true_eq]

/-- Changing the sign keeps the exponent field. -/
theorem fexp_fneg (x : F32) : fexp (fneg x) = fexp x := by
  have hshift : ∀ z : F32, fexp z = (z.toNat >>> 23) % 2 ^ 8 := fun z => by
    rw [Nat.shiftRight_eq_div_pow]; rfl
  rw [hshift, hshift, fneg, BitVec.toNat_xor, Nat.shiftRight_xor_distrib, Nat.xor_mod_two_pow]
  simp

/-- A difference of finite values is the sum with the subtrahend's sign changed. -/
theorem fsub_finite {a b : F32} (ha : fexp a < 255) (hb : fexp b < 255) : fsub a b = fadd a (fneg b) := by
  have hb' : fexp (fneg b) < 255 := (fexp_fneg b).symm ▸ hb
  have hsome : ∃ r, addCore a (fneg b) = some r := by
    simp only [addCore, finite_not_special ha, finite_not_special hb', Bool.false_eq_true, if_false]
    split
    · exact ⟨_, rfl⟩
    · exact ⟨_, rfl⟩
  obtain ⟨r, hr⟩ := hsome
  simp only [fsub, fadd, hr, finite_not_special ha, finite_not_special hb, finite_not_special hb', Bool.or_self,
    Bool.false_eq_true, if_false, Option.getD_some]

/-! ## Products -/

theorem fmul_rounds {a b : F32} (ha : fexp a < 255) (hb : fexp b < 255)
    (hlt : fmag a * fmag b < overflowAt * 2 ^ 149) :
    fexp (fmul a b) < 255 ∧ fsign (fmul a b) = (fsign a != fsign b) ∧
      NearestEven (fun z => ((fmag z : Int) * 2 ^ 149 - (fmag a * fmag b : Nat)).natAbs) (fmul a b) := by
  rw [fmul_finite ha hb]
  exact fpack_roundMag_finite _ hlt

theorem fmul_overflows {a b : F32} (ha : fexp a < 255) (hb : fexp b < 255)
    (h : overflowAt * 2 ^ 149 ≤ fmag a * fmag b) :
    fmul a b = if fsign a != fsign b then 0xFF800000 else 0x7F800000 := by
  rw [fmul_finite ha hb, fpack_roundMag_overflow _ h]

/-! ## Quotients -/

/-- Twice the integer quotient, and one more where the division leaves a remainder: what `fdiv` rounds. -/
def stickyQuot (num b : Nat) : Nat := 2 * (num / b) + if num / b * b = num then 0 else 1

theorem stickyQuot_le_iff {b : Nat} (hb : 0 < b) (num t : Nat) : stickyQuot num b ≤ 2 * t ↔ num ≤ t * b := by
  have hlt : num / b < t ↔ num < t * b := Nat.div_lt_iff_lt_mul hb
  unfold stickyQuot
  split
  next hexact =>
    rw [← hexact, Nat.mul_div_cancel _ hb, Nat.mul_le_mul_right_iff hb]
    omega
  next hrem =>
    have hne : num ≠ t * b := by
      rintro rfl
      exact hrem (by rw [Nat.mul_div_cancel _ hb])
    omega

theorem le_stickyQuot_iff {b : Nat} (hb : 0 < b) (num t : Nat) : 2 * t ≤ stickyQuot num b ↔ t * b ≤ num := by
  rw [← Nat.le_div_iff_mul_le hb]
  unfold stickyQuot
  split
  · omega
  · omega

/-- At any scale the sticky quotient lies to an even bound as the exact quotient `n / b` does. -/
theorem stickyQuot_scaled_le_iff {b : Nat} (hb : 0 < b) (n t j : Nat) :
    stickyQuot (n * 2 ^ j) b ≤ t * 2 ^ (j + 1) ↔ n ≤ t * b := by
  rw [show t * 2 ^ (j + 1) = 2 * (t * 2 ^ j) by ring, stickyQuot_le_iff hb, mul_right_comm,
    Nat.mul_le_mul_right_iff (by positivity)]

theorem le_stickyQuot_scaled_iff {b : Nat} (hb : 0 < b) (n t j : Nat) :
    t * 2 ^ (j + 1) ≤ stickyQuot (n * 2 ^ j) b ↔ t * b ≤ n := by
  rw [show t * 2 ^ (j + 1) = 2 * (t * 2 ^ j) by ring, le_stickyQuot_iff hb, mul_right_comm,
    Nat.mul_le_mul_right_iff (by positivity)]

/-- Distances from the sticky quotient rank magnitudes as distances from `n / b` do: with one bit to spare, every
midpoint of two magnitudes is an even bound. -/
theorem natAbs_sub_stickyQuot_le_iff {b : Nat} (hb : 0 < b) (n j x y : Nat) :
    ((x : Int) * 2 ^ (j + 2) - stickyQuot (n * 2 ^ (j + 1)) b).natAbs ≤
        ((y : Int) * 2 ^ (j + 2) - stickyQuot (n * 2 ^ (j + 1)) b).natAbs ↔
      ((x : Int) * b - n).natAbs ≤ ((y : Int) * b - n).natAbs := by
  have hscale : n * 2 ^ (j + 1) = 2 * n * 2 ^ j := by ring
  have hle := stickyQuot_scaled_le_iff hb (2 * n) (x + y) j
  have hge := le_stickyQuot_scaled_iff hb (2 * n) (x + y) j
  have hN := natAbs_sub_le_iff_midpoint (x * 2 ^ (j + 2)) (y * 2 ^ (j + 2)) (stickyQuot (2 * n * 2 ^ j) b)
  have hn := natAbs_sub_le_iff_midpoint (x * b) (y * b) n
  have hmid : x * 2 ^ (j + 2) + y * 2 ^ (j + 2) = 2 * ((x + y) * 2 ^ (j + 1)) := by ring
  simp only [Nat.mul_le_mul_right_iff hb, ← add_mul, ← hle, ← hge] at hn
  simp only [Nat.mul_le_mul_right_iff (show 0 < 2 ^ (j + 2) by positivity), hmid,
    Nat.mul_le_mul_left_iff (show 0 < 2 by decide), ← hn] at hN
  rw [hscale]
  exact_mod_cast hN

theorem fdiv_eq_stickyQuot {a b : F32} (ha : fexp a < 255) (hb : fexp b < 255) (h0 : fmag b ≠ 0) :
    fdiv a b = fpack (fsign a != fsign b) (roundMag (stickyQuot (fmag a * 2 ^ 149 * 2 ^ 310) (fmag b)) 311) := by
  have hnum : fmag a * 2 ^ 149 * 2 ^ 310 = fmag a <<< 459 := by rw [Nat.shiftLeft_eq, mul_assoc, ← pow_add]
  rw [hnum]
  exact fdiv_finite ha hb h0

theorem fdiv_rounds {a b : F32} (ha : fexp a < 255) (hb : fexp b < 255) (h0 : fmag b ≠ 0)
    (hlt : fmag a * 2 ^ 149 < overflowAt * fmag b) :
    fexp (fdiv a b) < 255 ∧ fsign (fdiv a b) = (fsign a != fsign b) ∧
      NearestEven (fun z => ((fmag z : Int) * fmag b - (fmag a * 2 ^ 149 : Nat)).natAbs) (fdiv a b) := by
  have hpos : 0 < fmag b := Nat.pos_of_ne_zero h0
  have hrank := natAbs_sub_stickyQuot_le_iff hpos (fmag a * 2 ^ 149) 309
  simp only [Nat.reduceAdd] at hrank
  have hbelow : stickyQuot (fmag a * 2 ^ 149 * 2 ^ 310) (fmag b) < overflowAt * 2 ^ 311 := by
    have hge := le_stickyQuot_scaled_iff hpos (fmag a * 2 ^ 149) overflowAt 310
    rwa [← not_le, hge, not_le]
  rw [fdiv_eq_stickyQuot ha hb h0]
  obtain ⟨hexp, hsign, hnear⟩ := fpack_roundMag_finite (fsign a != fsign b) hbelow
  exact ⟨hexp, hsign, hnear.of_ranking (fun y => (hrank _ _).1) (fun y => (hrank _ _).2)⟩

theorem fdiv_overflows {a b : F32} (ha : fexp a < 255) (hb : fexp b < 255) (h0 : fmag b ≠ 0)
    (h : overflowAt * fmag b ≤ fmag a * 2 ^ 149) :
    fdiv a b = if fsign a != fsign b then 0xFF800000 else 0x7F800000 := by
  rw [fdiv_eq_stickyQuot ha hb h0,
    fpack_roundMag_overflow _ ((le_stickyQuot_scaled_iff (Nat.pos_of_ne_zero h0) _ _ 310).2 h)]

/-- Division by zero: a NaN of two zeros, else the infinity of the sign. -/
theorem fdiv_by_zero {a b : F32} (ha : fexp a < 255) (hb : fexp b < 255) (h0 : fmag b = 0) :
    fdiv a b = if fmag a = 0 then nanResult .div a b else finf (fsign a != fsign b) := by
  simp only [fdiv, finite_not_special ha, finite_not_special hb, Bool.or_self, Bool.false_eq_true, if_false, h0, if_true]

theorem isNaN_fdiv_zeros {a b : F32} (ha : fexp a < 255) (hb : fexp b < 255) (ha0 : fmag a = 0) (hb0 : fmag b = 0) :
    isNaN (fdiv a b) = true := by
  rw [fdiv_by_zero ha hb hb0, if_pos ha0, nanResult, isNaN_eq, decide_eq_true_eq]
  have hfrac : ffrac (Config.nanBits .div a b) < 8388608 := Nat.mod_lt _ (by decide)
  generalize hm : (if ffrac (Config.nanBits .div a b) = 0 then 0x400000 else ffrac (Config.nanBits .div a b)) = m
  have hm1 : 0 < m ∧ m < 8388608 := by split at hm <;> omega
  rw [fpack_toNat (by omega)]
  split <;> omega

/-! ## The obligation -/

/-- Settles O60: each operation on finite values is a sign and one rounding of the exact magnitude. -/
theorem arithmeticRoundsToNearest : Obligations.ArithmeticRoundsToNearest := by
  refine ⟨fun a b ha hb => ⟨fadd_of_eq_zero ha hb, fadd_rounds ha hb, fadd_overflows ha hb⟩,
    fun a b => fsub_finite,
    fun a b ha hb => ⟨fmul_rounds ha hb, fmul_overflows ha hb⟩,
    fun a b ha hb h0 => ⟨fdiv_rounds ha hb h0, fdiv_overflows ha hb h0⟩,
    fun a b ha hb h0 => ⟨fun hne => ?_, fun ha0 => isNaN_fdiv_zeros ha hb ha0 h0⟩⟩
  rw [fdiv_by_zero ha hb h0, if_neg hne, finf_eq]

end Sys2Proof.Machine
end

section
/-! SUPPORT. What a whole command does to a state that meets the invariant: it ends in one that does, or refuses a NaN
at a waveshaper, whatever the command, `SYS.DRAIN` included. -/

namespace Sys2Proof

/-- The commands a message may carry (R111). -/
def Instr.mailable : Instr → Bool
  | .sysRaw _ | .bqLdc _ _ _ _ _ _ | .bqLp _ _ _ | .bqHp _ _ _ | .bqBp _ _ _ | .bqBs _ _ _ | .bqAp _ _ _
  | .bqPk _ _ _ _ | .bqLs _ _ _ _ | .bqHs _ _ _ _ | .foLdc _ _ _ _ | .foLp _ _ | .foHp _ _ | .tsGain _ _
  | .vbNoteon _ _ _ | .vbNoteoff _ _ _ | .dmCfg _ _ _ => true
  | _ => false

end Sys2Proof

namespace Sys2Proof.Machine

/-! ## Parts of a command that may also change `FS` and the channel -/

/-- How a part of a command may end from a state that meets the invariant: `Sound` without what it leaves unchanged. -/
def Safe {α : Type} : Res α → Prop
  | .ok _ t => t.Inv
  | .raised t => t.Inv
  | .stop _ => False
  | .refuse e => ∃ u, e = .waveshaperNaN u

/-- How a command may end from a state that meets the invariant. -/
def SafeOutcome : Host.Outcome State Fault Refusal → Prop
  | .next t => t.Inv
  | .fault _ => False
  | .refused e => ∃ u, e = .waveshaperNaN u

theorem Sound.safe {α : Type} {s : State} {r : Res α} (h : Sound s r) : Safe r := by
  cases r with
  | ok a t => exact Kept.inv h
  | raised t => exact Kept.inv h
  | stop e => exact h
  | refuse e => exact h

theorem Safe.map {α β : Type} {r : Res α} (h : Safe r) (f : α → β) : Safe (r.map f) := by
  cases r <;> exact h

/-- A sound part, then one that is safe where it goes on. -/
theorem Sound.safe_bind {α β : Type} {s : State} {r : Res α} {f : α → State → Res β} (h : Sound s r)
    (hf : ∀ a t, Kept s t → Safe (f a t)) : Safe (r.bind f) := by
  cases r with
  | ok a t => exact hf a t h
  | raised t => exact Kept.inv h
  | stop e => exact h
  | refuse e => exact h

theorem Safe.conclude {r : Res (List Word)} (h : Safe r) : SafeOutcome (conclude r) := by
  cases r with
  | ok ws t => exact State.Inv.respond h ws
  | raised t => exact h
  | stop e => exact h
  | refuse e => exact h

/-- A command whose rule is sound on a unit of its class (R109 check 2, R368). -/
theorem command_safe {s : State} (h : s.Inv) {u : UnitId} {c : UnitClass} {body : State → Res (List Word)}
    (hb : s.classOf u = some c → Sound s (body s)) : SafeOutcome (command u c body s) := by
  unfold command checked
  split
  · exact h
  · split
    · rename_i hc
      exact (hb hc).safe.conclude
    · exact (Sound.raise (α := List Word) h (by simp) u).safe.conclude

theorem sysCommand_safe {s : State} (h : s.Inv) {body : State → Res (List Word)} (hb : Safe (body s)) :
    SafeOutcome (sysCommand body s) := by
  unfold sysCommand
  split
  · exact h
  · exact hb.conclude

/-- Check (2) of R109 inside a drain. -/
theorem Sound.checked {α : Type} {s : State} (h : s.Inv) {u : UnitId} {c : UnitClass} {body : State → Res α}
    (hb : s.classOf u = some c → Sound s (body s)) : Sound s (checked u c body s) := by
  unfold Machine.checked
  split
  · rename_i hc
    exact hb hc
  · exact Sound.raise h (by simp) u

/-! ## Class SYS -/

/-- `FS` is written with a value that is not 0 (R141). -/
theorem sysSetfs_safe {s : State} (h : s.Inv) (fs : Word) : Safe (sysSetfs fs s) := by
  unfold sysSetfs
  cases hok : !s.fsSet && decide (fs ≠ 0) with
  | true =>
    obtain ⟨-, hfs⟩ : s.fsSet = false ∧ fs ≠ 0 := by simpa using hok
    exact ⟨h.params, h.inst, h.defaults, h.units, ⟨fun _ => hfs, fun _ => rfl⟩, h.prng, h.faultRegs, h.mbox⟩
  | false => exact (Sound.raise (α := Unit) h (by simp) 0).safe

/-- A seed is accepted only inside the generator's range (R147). -/
theorem sysSeed_sound {s : State} (h : s.Inv) (seed : Word) : Sound s (sysSeed seed s) := by
  unfold sysSeed
  cases hok : decide (seed ≠ 0) && decide (seed.toNat < 2147483647) with
  | true =>
    obtain ⟨h0, hlt⟩ : seed ≠ 0 ∧ seed.toNat < 2147483647 := by simpa using hok
    have hpos : seed.toNat ≠ 0 := fun hz => h0 (BitVec.toNat_inj.1 (by simpa using hz))
    have hval : (seed.setWidth 31).toNat = seed.toNat := by
      rw [BitVec.toNat_setWidth]; exact Nat.mod_eq_of_lt (by omega)
    exact ⟨⟨h.params, h.inst, h.defaults, h.units, h.fs, by dsimp only; omega, h.faultRegs, h.mbox⟩,
      fun _ => rfl, rfl⟩
  | false => exact Sound.raise (α := Unit) h (by simp) 0

theorem State.mboxWf_iff (s : State) :
    s.mboxWf = true ↔ s.mbox.length ≤ s.params.mboxDepth ∧ ∀ m ∈ s.mbox, m.wf = true := by
  simp [State.mboxWf]

/-- Another legal channel. -/
theorem State.Inv.withMbox {s : State} (h : s.Inv) {ms : List Message} (hl : ms.length ≤ s.params.mboxDepth)
    (hm : ∀ m ∈ ms, m.wf = true) : State.Inv { s with mbox := ms } :=
  ⟨h.params, h.inst, h.defaults, h.units, h.fs, h.prng, h.faultRegs, (State.mboxWf_iff _).2 ⟨hl, hm⟩⟩

/-! ## Draining the channel -/

theorem noUnit_eq_ok {u : UnitId} {r : Except DecodeError Instr} {j : Instr} :
    noUnit u r = .ok j ↔ u = 0 ∧ r = .ok j := by
  unfold noUnit
  split
  · simp only [*, true_and]
  · simp only [*, reduceCtorEq, false_and]
theorem noImm_eq_ok {imm : BitVec 16} {i j : Instr} : noImm imm i = .ok j ↔ imm = 0 ∧ i = j := by
  unfold noImm
  split
  · simp only [*, Except.ok.injEq, true_and]
  · simp only [*, reduceCtorEq, false_and]
theorem noteBits_eq_ok {imm : BitVec 16} {i j : Instr} :
    noteBits imm i = .ok j ↔ (imm.getLsbD 7 = false ∧ imm.getLsbD 15 = false) ∧ i = j := by
  unfold noteBits
  split
  · simp only [*, Except.ok.injEq, true_and]
  · simp only [*, reduceCtorEq, false_and]

theorem mailable_row {cw : Word} (h : mailable cw = true) :
    ∃ r, opRow (opField cw) = some r ∧ r.mailable = true := by
  unfold mailable at h
  split at h
  · exact ⟨_, ‹_›, h⟩
  · cases h

/-- The mailable rows of the opcode map (R108, R111). -/
def mailableOps : List Nat :=
  [0x04, 0x13, 0x14, 0x15, 0x16, 0x17, 0x18, 0x19, 0x1A, 0x1B, 0x23, 0x24, 0x25, 0x74, 0xD4, 0xD5, 0xE4]

theorem mailable_opcode {cw : Word} (h : mailable cw = true) : (opField cw).toNat ∈ mailableOps := by
  have rows : ∀ op : BitVec 8, (opRow op).all (fun r => !r.mailable || decide (op.toNat ∈ mailableOps)) = true := by
    decide +kernel
  obtain ⟨r, hr, hm⟩ := mailable_row h
  have hrow := rows (opField cw)
  rw [hr, Option.all_some, hm] at hrow
  exact of_decide_eq_true hrow

/-- A mailable row decodes to a mailable command. -/
theorem decodeCommand_mailable {cw : Word} {xs : List Word} {i : Instr} (hm : mailable cw = true)
    (hd : decodeCommand cw xs = .ok i) : i.mailable = true := by
  have hop := mailable_opcode hm
  simp only [mailableOps, List.mem_cons, List.not_mem_nil, or_false] at hop
  rcases hop with hop | hop | hop | hop | hop | hop | hop | hop | hop | hop | hop | hop | hop | hop | hop | hop | hop
  all_goals
    simp only [decodeCommand, hop, noUnit_eq_ok, noImm_eq_ok, noteBits_eq_ok, Except.ok.injEq] at hd
    obtain ⟨-, rfl⟩ := hd
    rfl

/-- Only `FIR.LDC` decodes to `FIR.LDC`, with its unit field and all its operand words (R204). -/
theorem decodeCommand_firLdc {cw : Word} {xs : List Word} {u : UnitId} {cs : List F32}
    (hd : decodeCommand cw xs = .ok (.firLdc u cs)) : (opField cw).toNat = 0x33 ∧ u = unitField cw ∧ cs = xs := by
  unfold decodeCommand at hd
  dsimp only at hd
  split at hd
  all_goals
    simp only [noUnit_eq_ok, noImm_eq_ok, noteBits_eq_ok, Except.ok.injEq, reduceCtorEq, and_false] at hd
  rename_i hop
  obtain ⟨-, hi⟩ := hd
  cases hi
  exact ⟨hop, rfl, rfl⟩

/-- `decode` gives a `FIR.LDC` exactly as many words as its unit has coefficients (R104, R204). -/
theorem decode_firLdc_length {orders : UnitId → Nat} {ws rest : List Word} {u : UnitId} {cs : List F32}
    (hd : decode orders ws = .ok (.firLdc u cs, rest)) : cs.length = orders u := by
  cases ws with
  | nil => cases hd
  | cons cw ws =>
    simp only [decode] at hd
    split at hd
    · cases hd
    · rename_i hlen
      split at hd
      · rename_i i hi
        simp only [Except.ok.injEq, Prod.mk.injEq] at hd
        obtain ⟨rfl, -⟩ := hd
        obtain ⟨hop, rfl, rfl⟩ := decodeCommand_firLdc hi
        have hrow : opRow (opField cw) = some ⟨"FIR.LDC", .c, false⟩ := by simp only [opRow, hop]
        have hcount : operandCount orders cw = orders (unitField cw) := by
          simp only [operandCount, hrow, Format.operands]
        rw [List.length_take]
        omega
      · cases hd

/-- Each mailable command with its check (2) of R109 (R143). -/
theorem applyMailable_sound {s : State} (h : s.Inv) {i : Instr} (hi : i.mailable = true) :
    Sound s (applyMailable i s) := by
  cases i with
  | sysRaw imm => exact Sound.ok h ()
  | bqLdc u b0 b1 b2 a1 a2 => exact Sound.checked h fun hc => bqLoad_sound h hc _
  | bqLp u f q => exact Sound.checked h fun hc => bqDesign_sound h hc _
  | bqHp u f q => exact Sound.checked h fun hc => bqDesign_sound h hc _
  | bqBp u f q => exact Sound.checked h fun hc => bqDesign_sound h hc _
  | bqBs u f q => exact Sound.checked h fun hc => bqDesign_sound h hc _
  | bqAp u f q => exact Sound.checked h fun hc => bqDesign_sound h hc _
  | bqPk u f gain q => exact Sound.checked h fun hc => bqDesign_sound h hc _
  | bqLs u f gain q => exact Sound.checked h fun hc => bqDesign_sound h hc _
  | bqHs u f gain q => exact Sound.checked h fun hc => bqDesign_sound h hc _
  | foLdc u b0 b1 a1 => exact Sound.checked h fun hc => foLoad_sound h hc _
  | foLp u f => exact Sound.checked h fun hc => foDesign_sound h hc _
  | foHp u f => exact Sound.checked h fun hc => foDesign_sound h hc _
  | tsGain u gain => exact Sound.checked h fun hc => tsGain_sound h hc gain
  | vbNoteon u note velocity => exact Sound.checked h fun hc => vbNoteOn_sound h hc note
  | vbNoteoff u note velocity => exact Sound.checked h fun hc => vbNoteOff_sound h hc note
  | dmCfg u pattern bpm => exact Sound.checked h fun hc => dmCfg_sound h hc pattern bpm
  | _ => cases hi

/-- A whole mailable message is executed or raises `ILLEGAL_CMD` (R143). -/
theorem applyMessage_sound {s : State} (h : s.Inv) {m : Message} (hm : m.wf = true) : Sound s (applyMessage m s) := by
  have hcw : mailable m.cw = true := (Bool.and_eq_true _ _ ▸ hm).1
  rw [applyMessage, if_pos hm]
  split
  · rename_i i hi
    exact applyMailable_sound h (decodeCommand_mailable hcw hi)
  · exact Sound.raise h (by simp) _

/-- Draining legal messages, no more than the channel holds (R143). -/
theorem drainLoop_safe (ms : List Message) : ∀ {s : State}, s.Inv → ms.length ≤ s.params.mboxDepth →
    (∀ m ∈ ms, m.wf = true) → Safe (drainLoop ms s) := by
  induction ms with
  | nil => intro s h _ _; exact h
  | cons m ms ih =>
    intro s h hl hw
    have hl' : ms.length ≤ s.params.mboxDepth := Nat.le_of_succ_le hl
    have hw' : ∀ m ∈ ms, m.wf = true := fun x hx => hw x (List.mem_cons_of_mem _ hx)
    have hm := applyMessage_sound (h.withMbox hl' hw') (hw m List.mem_cons_self)
    exact hm.safe_bind fun _ t k => ih k.inv (k.params ▸ hl') hw'

/-! ## Reading back -/

theorem bqRdc_sound {s : State} (h : s.Inv) {u : UnitId} (hu : s.classOf u = some .bq) {β : Type} (f : Bq → β) :
    Sound s ((getBq u s).bind fun b s => (needCfg b.cfg u s).map fun _ => f b) := by
  obtain ⟨r, hr⟩ := State.Inv.bq_of_class hu
  rw [getBq_eq hr]
  exact (Sound.needCfg h r.cfg u).map _
theorem foRdc_sound {s : State} (h : s.Inv) {u : UnitId} (hu : s.classOf u = some .fo) {β : Type} (f : Fo → β) :
    Sound s ((getFo u s).bind fun r s => (needCfg r.cfg u s).map fun _ => f r) := by
  obtain ⟨r, hr⟩ := State.Inv.fo_of_class hu
  rw [getFo_eq hr]
  exact (Sound.needCfg h r.cfg u).map _
theorem tsRdgain_sound {s : State} (h : s.Inv) {u : UnitId} (hu : s.classOf u = some .ts) {β : Type} (f : Ts → β) :
    Sound s ((getTs u s).bind fun r s => (needCfg r.cfg u s).map fun _ => f r) := by
  obtain ⟨r, hr⟩ := State.Inv.ts_of_class hu
  rw [getTs_eq hr]
  exact (Sound.needCfg h r.cfg u).map _
theorem dmRdcfg_sound {s : State} (h : s.Inv) {u : UnitId} (hu : s.classOf u = some .dm) {β : Type} (f : Dm → β) :
    Sound s ((getDm u s).map f) := by
  obtain ⟨r, hr⟩ := State.Inv.dm_of_class hu
  rw [getDm_eq hr]
  exact Sound.ok h _

/-! ## Every command -/

/-- From a state that meets the invariant every command, its words as R104 counts them, ends in such a state or refuses
a NaN at a waveshaper. -/
theorem exec_safe {s : State} (h : s.Inv) {i : Instr} (hi : ∀ u cs, i = .firLdc u cs → cs.length = s.firOrder u) :
    SafeOutcome (exec i s) := by
  cases i with
  | sysNop => exact sysCommand_safe h (body := fun s => .ok [] s) h
  | sysSetfs fs => exact sysCommand_safe h (body := fun s => silent (sysSetfs fs s)) ((sysSetfs_safe h fs).map _)
  | sysRdfs => exact sysCommand_safe h (body := fun s => single (needFs s)) ((Sound.needFs h).map _).safe
  | sysDrain =>
    obtain ⟨hl, hm⟩ := (State.mboxWf_iff s).1 h.mbox
    exact sysCommand_safe h (body := fun s => silent (drainLoop s.mbox s)) ((drainLoop_safe s.mbox h hl hm).map _)
  | sysRaw imm => exact sysCommand_safe h (body := fun s => .ok [] s) h
  | sysRdstat => exact State.Inv.respond h _
  | sysSeed seed =>
    exact sysCommand_safe h (body := fun s => silent (sysSeed seed s))
      ((sysSeed_sound h seed).map _).safe
  | sysRand =>
    exact sysCommand_safe h (body := fun s => single ((draw s).map fun d => d.setWidth 32))
      (((Sound.draw h).map _).map _).safe
  | sysRandf =>
    exact sysCommand_safe h (body := fun s => single ((draw s).map fun d => prngToFloat s.params d))
      (((Sound.draw h).map _).map _).safe
  | bqStep u x => exact command_safe h fun hc => (bqStep_sound h hc _).map _
  | bqProc u xs => exact command_safe h fun hc => procLoop_sound (fun h hc x => bqStep_sound h hc x) xs h hc
  | bqFlush u => exact command_safe h fun hc => (bqFlush_sound h hc).map _
  | bqLdc u b0 b1 b2 a1 a2 => exact command_safe h fun hc => (bqLoad_sound h hc _).map _
  | bqLp u f q => exact command_safe h fun hc => (bqDesign_sound h hc _).map _
  | bqHp u f q => exact command_safe h fun hc => (bqDesign_sound h hc _).map _
  | bqBp u f q => exact command_safe h fun hc => (bqDesign_sound h hc _).map _
  | bqBs u f q => exact command_safe h fun hc => (bqDesign_sound h hc _).map _
  | bqAp u f q => exact command_safe h fun hc => (bqDesign_sound h hc _).map _
  | bqPk u f gain q => exact command_safe h fun hc => (bqDesign_sound h hc _).map _
  | bqLs u f gain q => exact command_safe h fun hc => (bqDesign_sound h hc _).map _
  | bqHs u f gain q => exact command_safe h fun hc => (bqDesign_sound h hc _).map _
  | bqRdc u => exact command_safe h fun hc => bqRdc_sound h hc _
  | foStep u x => exact command_safe h fun hc => (foStep_sound h hc _).map _
  | foProc u xs => exact command_safe h fun hc => procLoop_sound (fun h hc x => foStep_sound h hc x) xs h hc
  | foFlush u => exact command_safe h fun hc => (foFlush_sound h hc).map _
  | foLdc u b0 b1 a1 => exact command_safe h fun hc => (foLoad_sound h hc _).map _
  | foLp u f => exact command_safe h fun hc => (foDesign_sound h hc _).map _
  | foHp u f => exact command_safe h fun hc => (foDesign_sound h hc _).map _
  | foRdc u => exact command_safe h fun hc => foRdc_sound h hc _
  | firStep u x => exact command_safe h fun hc => (firStep_sound h hc _).map _
  | firProc u xs => exact command_safe h fun hc => procLoop_sound (fun h hc x => firStep_sound h hc x) xs h hc
  | firFlush u => exact command_safe h fun hc => (firFlush_sound h hc).map _
  | firLdc u cs => exact command_safe h fun hc => (firLoad_sound h hc (hi u cs rfl)).map _
  | dlStep u x => exact command_safe h fun hc => (dlStep_sound h hc _).map _
  | dlProc u xs => exact command_safe h fun hc => procLoop_sound (fun h hc x => dlStep_sound h hc x) xs h hc
  | dlFlush u => exact command_safe h fun hc => (dlFlush_sound h hc).map _
  | dlSetup u n => exact command_safe h fun hc => (dlSetup_sound h hc _).map _
  | dlPeek u => exact command_safe h fun hc => (dlPeek_sound h hc).map _
  | fdStep u x => exact command_safe h fun hc => (fdStep_sound h hc _).map _
  | fdProc u xs => exact command_safe h fun hc => procLoop_sound (fun h hc x => fdStep_sound h hc x) xs h hc
  | fdFlush u => exact command_safe h fun hc => (fdFlush_sound h hc).map _
  | fdSetup u n => exact command_safe h fun hc => (fdSetup_sound h hc _).map _
  | fdPeek u => exact command_safe h fun hc => (fdPeek_sound h hc).map _
  | wsStep u x => exact command_safe h fun hc => (wsStep_sound h hc _).map _
  | wsProc u xs => exact command_safe h fun hc => procLoop_sound (fun h hc x => wsStep_sound h hc x) xs h hc
  | wsFlush u => exact command_safe h fun hc => (wsFlush_sound h hc).map _
  | wsSetup u min max tab => exact command_safe h fun hc => (wsSetup_sound h hc _ _ _).map _
  | tsStep u x => exact command_safe h fun hc => (tsStep_sound h hc _).map _
  | tsProc u xs => exact command_safe h fun hc => procLoop_sound (fun h hc x => tsStep_sound h hc x) xs h hc
  | tsFlush u => exact command_safe h fun hc => (tsFlush_sound h hc).map _
  | tsSetup u gain supply rk rp => exact command_safe h fun hc => (tsSetup_sound h hc _ _ _ _).map _
  | tsGain u gain => exact command_safe h fun hc => (tsGain_sound h hc _).map _
  | tsRdgain u => exact command_safe h fun hc => tsRdgain_sound h hc _
  | paStep u x => exact command_safe h fun hc => (paStep_sound h hc _).map _
  | paProc u xs => exact command_safe h fun hc => procLoop_sound (fun h hc x => paStep_sound h hc x) xs h hc
  | paFlush u => exact command_safe h fun hc => (paFlush_sound h hc).map _
  | apfStep u x => exact command_safe h fun hc => (apfStep_sound h hc _).map _
  | apfProc u xs => exact command_safe h fun hc => procLoop_sound (fun h hc x => apfStep_sound h hc x) xs h hc
  | apfFlush u => exact command_safe h fun hc => (apfFlush_sound h hc).map _
  | apfSetup u n gb gf => exact command_safe h fun hc => (apfSetup_sound h hc _ _ _).map _
  | cmbStep u x => exact command_safe h fun hc => (cmbStep_sound h hc _).map _
  | cmbProc u xs => exact command_safe h fun hc => procLoop_sound (fun h hc x => cmbStep_sound h hc x) xs h hc
  | cmbFlush u => exact command_safe h fun hc => (cmbFlush_sound h hc).map _
  | cmbSetup u n gb => exact command_safe h fun hc => (cmbSetup_sound h hc _ _).map _
  | rvStep u x => exact command_safe h fun hc => (rvStep_sound h hc _).map _
  | rvProc u xs => exact command_safe h fun hc => procLoop_sound (fun h hc x => rvStep_sound h hc x) xs h hc
  | rvFlush u => exact command_safe h fun hc => (rvFlush_sound h hc).map _
  | rvSetup u => exact command_safe h fun hc => (rvSetup_sound h hc).map _
  | ksStep u => exact command_safe h fun hc => (ksStep_sound h hc).map _
  | ksProc u n => exact command_safe h fun hc => genLoop_sound (fun h hc => ksStep_sound h hc) n.toNat h hc
  | ksFlush u => exact command_safe h fun hc => (ksFlush_sound h hc).map _
  | ksTune u freq => exact command_safe h fun hc => (ksTune_sound h hc _).map _
  | ksTrig u => exact command_safe h fun hc => (ksTrig_sound h hc).map _
  | ksMute u => exact command_safe h fun hc => (ksMute_sound h hc).map _
  | vbStep u => exact command_safe h fun hc => (vbStep_sound h hc).map _
  | vbProc u n => exact command_safe h fun hc => genLoop_sound (fun h hc => vbStep_sound h hc) n.toNat h hc
  | vbFlush u => exact command_safe h fun hc => (vbFlush_sound h hc).map _
  | vbNoteon u note velocity => exact command_safe h fun hc => (vbNoteOn_sound h hc _).map _
  | vbNoteoff u note velocity => exact command_safe h fun hc => (vbNoteOff_sound h hc _).map _
  | dmStep u => exact command_safe h fun hc => (dmStep_sound h hc).map _
  | dmProc u n => exact command_safe h fun hc => genLoop_sound (fun h hc => dmStep_sound h hc) n.toNat h hc
  | dmFlush u => exact command_safe h fun hc => (dmFlush_sound h hc).map _
  | dmSetup u => exact command_safe h fun hc => (dmSetup_sound h hc).map _
  | dmCfg u n bpm => exact command_safe h fun hc => (dmCfg_sound h hc _ _).map _
  | dmRdcfg u => exact command_safe h fun hc => dmRdcfg_sound h hc _

end Sys2Proof.Machine
end

section
/-! PROOF of O11. A step keeps the invariant: the engine by `exec_safe`, the producer because a post leaves a legal
channel, the reset event because a unit right after reset is well formed and keeps its table entry. -/

namespace Sys2Proof.Machine

/-! ## The ports -/

/-- The port streams and the schedule are no part of the invariant. -/
theorem State.Inv.withPorts {s : State} (h : s.Inv) (cmdIn respOut ctlIn : List Word) (ctlOut : List PostAnswer)
    (turns : List Turn) : State.Inv { s with
      cmdIn := cmdIn, respOut := respOut, ctlIn := ctlIn, ctlOut := ctlOut, turns := turns } :=
  ⟨h.params, h.inst, h.defaults, h.units, h.fs, h.prng, h.faultRegs, h.mbox⟩

/-! ## The reset event (R390, R391) -/

theorem UnitRec.fresh_entry (p : Params) (e : InstEntry) : (UnitRec.fresh p e).entry = e := by
  cases e <;> simp [UnitRec.fresh, UnitRec.entry, Function.comp_def]

theorem State.init_inst (p : Params) (t : InstTable) : (State.init p t).inst = t := by
  simp [State.init, State.inst, UnitRec.fresh_entry, Function.comp_def]

/-- A unit right after reset, with legal static parameters. -/
theorem UnitRec.fresh_wf {p : Params} {e : InstEntry} (he : e.wf = true) (hp : InstEntry.resetFits p e = true) :
    (UnitRec.fresh p e).wf p = true := by
  cases e with
  | fir o l =>
    obtain ⟨ho, hl⟩ : 1 ≤ o ∧ o ≤ l := by simpa [InstEntry.wf] using he
    exact (Fir.wf_iff _).2 ⟨rfl, rfl, by show 0 < l; omega⟩
  | dl l =>
    have hl : 1 ≤ l := by simpa [InstEntry.wf] using he
    exact (Dl.wf_iff _).2 ⟨rfl, hl, hl, by simp⟩
  | fd l =>
    obtain ⟨hl, -⟩ : 1 ≤ l ∧ l < 65536 := by simpa [InstEntry.wf] using he
    exact (Fd.wf_iff _).2 ⟨rfl, hl, hl, by simp⟩
  | vb voices => exact (Vb.wf_iff _ _).2 ⟨inAgeRange_zero _, by simp [inAgeRange_zero]⟩
  | dm rom lp =>
    have hpat : p.dmDefaultPattern.toNat < rom.patterns.length := of_decide_eq_true hp
    obtain ⟨-, -, -, -, -, hrom, -⟩ := (DmRom.wf_iff _).1 he
    obtain ⟨-, hlen, -⟩ := (Pattern.wf_iff _ _).1 (hrom _ (List.getElem_mem hpat))
    exact (Dm.wf_iff _).2 ⟨⟨_, List.getElem?_eq_getElem hpat, by show 0 < _; omega⟩, by simp, by simp⟩
  | _ => rfl

/-- The block right after reset, for every legal configuration. -/
theorem State.init_inv {p : Params} {t : InstTable} (hp : p.wf = true) (ht : t.wf = true)
    (hd : (t.all fun e => InstEntry.resetFits p e.2) = true) : (State.init p t).Inv where
  params := hp
  inst := by rw [State.init_inst]; exact ht
  defaults := by rw [State.init_inst]; exact hd
  units := by
    simp only [State.init, List.all_map, List.all_eq_true, Function.comp_apply]
    intro e he
    exact UnitRec.fresh_wf (((InstTable.wf_iff t).1 ht).2.1 e he).2 (List.all_eq_true.1 hd e he)
  fs := by simp [State.init]
  prng := by simp [State.init]
  faultRegs := rfl
  mbox := by simp [State.mboxWf, State.init]

theorem State.Inv.resetBlock {s : State} (h : s.Inv) : s.resetBlock.Inv :=
  (State.init_inv h.params h.inst h.defaults).withPorts _ _ _ _ _

/-! ## The producer (R372) -/

/-- No mailable command has operand words that depend on a FIR order (R104, R111). -/
theorem operandCount_mailable {cw : Word} (h : mailable cw = true) (o o' : UnitId → Nat) :
    operandCount o cw = operandCount o' cw := by
  have rows : ∀ op : BitVec 8, (opRow op).all (fun r => !r.mailable || decide (r.format ≠ .c)) = true := by
    decide +kernel
  obtain ⟨r, hr, hm⟩ := mailable_row h
  have hrow := rows (opField cw)
  rw [hr, Option.all_some, hm] at hrow
  have hc : r.format ≠ .c := of_decide_eq_true hrow
  simp only [operandCount, hr]
  cases hf : r.format with
  | c => exact absurd hf hc
  | _ => rfl

/-- A post, of a message that is whole where it is mailable. -/
theorem State.Inv.post {s : State} (h : s.Inv) {m : Message} (hm : mailable m.cw = true → m.wf = true) :
    (s.post m).Inv := by
  have answered : ∀ {t : State}, t.Inv → ∀ a, (t.answer a).Inv := fun h a => h.withPorts _ _ _ _ _
  unfold State.post
  split
  · exact answered h _
  split
  · exact answered (h.recordFault (by simp) _) _
  rename_i hmail
  split
  · exact answered h _
  rename_i hroom
  obtain ⟨-, hall⟩ := (State.mboxWf_iff s).1 h.mbox
  refine answered (h.withMbox ?_ ?_) _
  · simp only [List.length_append, List.length_singleton]; omega
  · intro x hx
    rcases List.mem_append.1 hx with hx | hx
    · exact hall x hx
    · rw [List.mem_singleton.1 hx]
      exact hm (by simpa using hmail)

theorem producerStep_inv {s : State} (h : s.Inv) : (producerStep s).Inv := by
  unfold producerStep
  split
  · exact h
  · rename_i cw rest _
    dsimp only
    split
    · exact h
    · rename_i hlen
      refine (h.withPorts _ _ _ _ _ : State.Inv { s with ctlIn := _ }).post fun hmail => ?_
      have hcount := operandCount_mailable hmail s.firOrder fun _ => 0
      simp only at hcount hmail
      simp only [Message.wf, hmail, Bool.true_and, decide_eq_true_eq, List.length_take]
      omega

/-! ## The engine (R109, R368) -/

theorem engineStep_inv {s t : State} (h : s.Inv) (hs : engineStep s = .next t) : t.Inv := by
  unfold engineStep at hs
  split at hs
  · cases hs
    exact h
  · rename_i cw rest _
    dsimp only at hs
    split at hs
    · rename_i i rest' hd
      have hsafe := exec_safe (i := i) (h.withPorts rest' s.respOut s.ctlIn s.ctlOut s.turns)
        fun u cs hi => decode_firLdc_length (hi ▸ hd)
      rw [hs] at hsafe
      exact hsafe
    · cases hs
      exact h
    · cases hs
      unfold rejectCommand
      split
      · exact h.withPorts _ _ _ _ _
      · exact (h.withPorts _ _ _ _ _ : State.Inv { s with cmdIn := _ }).recordFault (by simp) _

/-! ## The obligation -/

/-- Settles O11: by the agent whose turn it is. -/
theorem stepKeepsInvariant : Obligations.StepKeepsInvariant := by
  intro s t h hs
  unfold step at hs
  split at hs
  · exact engineStep_inv h hs
  · exact engineStep_inv (h.withPorts _ _ _ _ _) hs
  · cases hs
    exact producerStep_inv (h.withPorts _ _ _ _ _)
  · cases hs
    exact (h.withPorts _ _ _ _ _ : State.Inv { s with turns := _ }).resetBlock

end Sys2Proof.Machine
end

section
/-! SUPPORT. The frame of a command, from any state: what no part of a command changes, part by part. Nothing here needs
the invariant: a part that stops changes nothing, and what is put back carries the entry of the record it replaces. -/

namespace Sys2Proof.Machine

/-! ## The frame -/

/-- What command `i` leaves unchanged on the way from `s` to `t` (R24, R42, R79, R80, R141, R143, R146). -/
structure Frame (i : Instr) (s t : State) : Prop where
  params : t.params = s.params
  inst : t.inst = s.inst
  cmdIn : t.cmdIn = s.cmdIn
  ctlIn : t.ctlIn = s.ctlIn
  ctlOut : t.ctlOut = s.ctlOut
  turns : t.turns = s.turns
  respOut : ∃ ws, t.respOut = s.respOut ++ ws
  mbox : i ≠ .sysDrain → t.mbox = s.mbox
  fs : (∀ fs, i ≠ .sysSetfs fs) → t.fs = s.fs ∧ t.fsSet = s.fsSet
  prng : i.usesPrng = false → t.prng = s.prng

/-- A part of a command keeps to its frame, however it ends. -/
def Framed {α : Type} (i : Instr) (s : State) : Res α → Prop
  | .ok _ t => Frame i s t
  | .raised t => Frame i s t
  | .stop _ => True
  | .refuse _ => True

/-- A command keeps to its frame. -/
def FramedOutcome (i : Instr) (s : State) : Host.Outcome State Fault Refusal → Prop
  | .next t => Frame i s t
  | .fault _ => True
  | .refused _ => True

theorem Frame.refl (i : Instr) (s : State) : Frame i s s :=
  ⟨rfl, rfl, rfl, rfl, rfl, rfl, ⟨[], (List.append_nil _).symm⟩, fun _ => rfl, fun _ => ⟨rfl, rfl⟩, fun _ => rfl⟩

theorem Frame.trans {i : Instr} {a b c : State} (h : Frame i a b) (h' : Frame i b c) : Frame i a c where
  params := h'.params.trans h.params
  inst := h'.inst.trans h.inst
  cmdIn := h'.cmdIn.trans h.cmdIn
  ctlIn := h'.ctlIn.trans h.ctlIn
  ctlOut := h'.ctlOut.trans h.ctlOut
  turns := h'.turns.trans h.turns
  respOut := by
    obtain ⟨v, hv⟩ := h.respOut
    obtain ⟨w, hw⟩ := h'.respOut
    exact ⟨v ++ w, by rw [hw, hv, List.append_assoc]⟩
  mbox := fun hi => (h'.mbox hi).trans (h.mbox hi)
  fs := fun hi => ⟨(h'.fs hi).1.trans (h.fs hi).1, (h'.fs hi).2.trans (h.fs hi).2⟩
  prng := fun hi => (h'.prng hi).trans (h.prng hi)

/-- Only units and fault registers differ. -/
theorem Frame.of_units (i : Instr) {s t : State} (hi : t.inst = s.inst) (h : t = { s with
    units := t.units, fault := t.fault, cause := t.cause, funit := t.funit }) : Frame i s t where
  params := by rw [h]
  inst := hi
  cmdIn := by rw [h]
  ctlIn := by rw [h]
  ctlOut := by rw [h]
  turns := by rw [h]
  respOut := ⟨[], by rw [h, List.append_nil]⟩
  mbox := fun _ => by rw [h]
  fs := fun _ => ⟨by rw [h], by rw [h]⟩
  prng := fun _ => by rw [h]

theorem State.inst_recordFault (s : State) (c : Cause) (u : UnitId) : (s.recordFault c u).inst = s.inst := by
  simp only [State.inst, State.recordFault_units]

theorem Frame.recordFault (i : Instr) (s : State) (c : Cause) (u : UnitId) : Frame i s (s.recordFault c u) :=
  .of_units i (s.inst_recordFault c u) (by unfold State.recordFault; split <;> rfl)

theorem Frame.respond (i : Instr) (s : State) (ws : List Word) : Frame i s (s.respond ws) :=
  ⟨rfl, rfl, rfl, rfl, rfl, rfl, ⟨ws, rfl⟩, fun _ => rfl, fun _ => ⟨rfl, rfl⟩, fun _ => rfl⟩

/-- A record with the entry the table gives its id. -/
theorem Frame.putUnit (i : Instr) {s : State} {u : UnitId} {r : UnitRec} (h : s.inst.lookup u = some r.entry) :
    Frame i s (s.putUnit u r) := by
  rw [State.inst_lookup, Option.map_eq_some_iff] at h
  obtain ⟨q, hq, he⟩ := h
  exact .of_units i (State.inst_putUnit hq he.symm) rfl

/-- Another state of the generator, by a command that may draw or seed (R146, R147). -/
theorem Frame.withPrng {i : Instr} (hi : i.usesPrng = true) (s : State) (p : BitVec 31) :
    Frame i s { s with prng := p } :=
  ⟨rfl, rfl, rfl, rfl, rfl, rfl, ⟨[], (List.append_nil _).symm⟩, fun _ => rfl, fun _ => ⟨rfl, rfl⟩,
    fun h => absurd (hi.symm.trans h) (by decide)⟩

/-- `FS` written by `SYS.SETFS` (R141). -/
theorem Frame.withFs (s : State) (fs : Word) : Frame (.sysSetfs fs) s { s with fs := fs, fsSet := true } :=
  ⟨rfl, rfl, rfl, rfl, rfl, rfl, ⟨[], (List.append_nil _).symm⟩, fun _ => rfl, fun h => absurd rfl (h fs), fun _ => rfl⟩

/-- Messages taken out by `SYS.DRAIN` (R80, R143). -/
theorem Frame.withMbox (s : State) (ms : List Message) : Frame .sysDrain s { s with mbox := ms } :=
  ⟨rfl, rfl, rfl, rfl, rfl, rfl, ⟨[], (List.append_nil _).symm⟩, fun h => absurd rfl h, fun _ => ⟨rfl, rfl⟩,
    fun _ => rfl⟩

/-- What the table says of a unit found later in the command. -/
theorem Frame.lookup {i : Instr} {s t : State} (k : Frame i s t) {u : UnitId} {r : UnitRec} (h : t.unit? u = some r) :
    s.inst.lookup u = some r.entry := by
  rw [← k.inst, State.inst_lookup, h, Option.map_some]

/-! ## Composition -/

section
variable {α β : Type} {i : Instr} {s t : State}

theorem Framed.ok (k : Frame i s t) (a : α) : Framed i s (.ok a t) := k

theorem Framed.bind {r : Res α} {f : α → State → Res β} (h : Framed i s r)
    (hf : ∀ a t, r = .ok a t → Frame i s t → Framed i s (f a t)) : Framed i s (r.bind f) := by
  cases r with
  | ok a t => exact hf a t rfl h
  | raised t => exact h
  | stop e => trivial
  | refuse e => trivial

theorem Framed.map {r : Res α} (h : Framed i s r) (f : α → β) : Framed i s (r.map f) :=
  h.bind fun _ _ _ k => k

theorem Framed.conclude {r : Res (List Word)} (h : Framed i s r) : FramedOutcome i s (conclude r) := by
  cases r with
  | ok ws t => exact Frame.trans h (Frame.respond i t ws)
  | raised t => exact h
  | stop e => trivial
  | refuse e => trivial

theorem raise_framed (k : Frame i s t) (c : Cause) (u : UnitId) : Framed i s (raise c u t : Res α) :=
  k.trans (Frame.recordFault i t c u)

theorem require_framed (k : Frame i s t) (ok : Bool) (c : Cause) (u : UnitId) : Framed i s (require ok c u t) := by
  unfold require
  split
  · exact k
  · exact raise_framed k c u

theorem needCfg_framed (k : Frame i s t) (cfg : Bool) (u : UnitId) : Framed i s (needCfg cfg u t) :=
  require_framed k cfg .notSetup u

theorem needFs_framed (k : Frame i s t) : Framed i s (needFs t) := by
  unfold needFs
  split
  · exact k
  · exact raise_framed k .notSetup 0

/-- A record put back with the entry the table gives its id. -/
theorem put_framed (k : Frame i s t) {u : UnitId} {r : UnitRec} {e : InstEntry} (h : s.inst.lookup u = some e)
    (he : r.entry = e := by simp [UnitRec.entry, setVoice_units, Function.comp_def]) : Framed i s (put u r t) :=
  k.trans (Frame.putUnit i (by rw [k.inst, h, he]))

theorem memRead_framed (k : Frame i s t) (u : UnitId) (m : Memory) (j : Nat) : Framed i s (memRead u m j t) := by
  unfold memRead
  split
  · exact k
  · trivial

theorem romRead_framed (k : Frame i s t) (u : UnitId) (l : List α) (j : Nat) : Framed i s (romRead u l j t) := by
  unfold romRead
  split
  · exact k
  · trivial

/-- A write that goes on gives the memory with the element set. -/
theorem memWrite_framed {u : UnitId} {m : Memory} {j : Nat} {v : F32} {f : Memory → State → Res β}
    (hf : Framed i s (f (m.set j v) t)) : Framed i s ((memWrite u m j v t).bind f) := by
  by_cases hj : j < m.cap
  · rw [memWrite_eq hj]
    exact hf
  · rw [memWrite, Memory.write?_none (Nat.le_of_not_lt hj)]
    trivial

theorem draw_framed (k : Frame i s t) (hi : i.usesPrng = true) : Framed i s (draw t) :=
  k.trans (Frame.withPrng hi t _)

theorem checked_framed (k : Frame i s t) (u : UnitId) (c : UnitClass) {body : State → Res α}
    (hb : Framed i s (body t)) : Framed i s (checked u c body t) := by
  unfold checked
  split
  · exact hb
  · exact raise_framed k .illegalCmd u

end

/-! ## Finding a unit of a class -/

/-- The record of `u` is of the class read, or the model stops. -/
def Finds {α : Type} (form : α → UnitRec) (u : UnitId) (s : State) (r : Res α) : Prop :=
  (∃ a, s.unit? u = some (form a) ∧ r = .ok a s) ∨ r = .stop (.badInstance u)

theorem getBq_finds (u : UnitId) (s : State) : Finds .bq u s (getBq u s) := by
  unfold getBq
  split
  · exact .inl ⟨_, ‹_›, rfl⟩
  · exact .inr rfl
theorem getFo_finds (u : UnitId) (s : State) : Finds .fo u s (getFo u s) := by
  unfold getFo
  split
  · exact .inl ⟨_, ‹_›, rfl⟩
  · exact .inr rfl
theorem getFir_finds (u : UnitId) (s : State) : Finds .fir u s (getFir u s) := by
  unfold getFir
  split
  · exact .inl ⟨_, ‹_›, rfl⟩
  · exact .inr rfl
theorem getDl_finds (u : UnitId) (s : State) : Finds .dl u s (getDl u s) := by
  unfold getDl
  split
  · exact .inl ⟨_, ‹_›, rfl⟩
  · exact .inr rfl
theorem getFd_finds (u : UnitId) (s : State) : Finds .fd u s (getFd u s) := by
  unfold getFd
  split
  · exact .inl ⟨_, ‹_›, rfl⟩
  · exact .inr rfl
theorem getWs_finds (u : UnitId) (s : State) : Finds .ws u s (getWs u s) := by
  unfold getWs
  split
  · exact .inl ⟨_, ‹_›, rfl⟩
  · exact .inr rfl
theorem getTs_finds (u : UnitId) (s : State) : Finds .ts u s (getTs u s) := by
  unfold getTs
  split
  · exact .inl ⟨_, ‹_›, rfl⟩
  · exact .inr rfl
theorem getPa_finds (u : UnitId) (s : State) : Finds .pa u s (getPa u s) := by
  unfold getPa
  split
  · exact .inl ⟨_, ‹_›, rfl⟩
  · exact .inr rfl
theorem getApf_finds (u : UnitId) (s : State) : Finds .apf u s (getApf u s) := by
  unfold getApf
  split
  · exact .inl ⟨_, ‹_›, rfl⟩
  · exact .inr rfl
theorem getCmb_finds (u : UnitId) (s : State) : Finds .cmb u s (getCmb u s) := by
  unfold getCmb
  split
  · exact .inl ⟨_, ‹_›, rfl⟩
  · exact .inr rfl
theorem getRv_finds (u : UnitId) (s : State) : Finds .rv u s (getRv u s) := by
  unfold getRv
  split
  · exact .inl ⟨_, ‹_›, rfl⟩
  · exact .inr rfl
theorem getKs_finds (u : UnitId) (s : State) : Finds .ks u s (getKs u s) := by
  unfold getKs
  split
  · exact .inl ⟨_, ‹_›, rfl⟩
  · exact .inr rfl
theorem getVb_finds (u : UnitId) (s : State) : Finds .vb u s (getVb u s) := by
  unfold getVb
  split
  · exact .inl ⟨_, ‹_›, rfl⟩
  · exact .inr rfl
theorem getDm_finds (u : UnitId) (s : State) : Finds .dm u s (getDm u s) := by
  unfold getDm
  split
  · exact .inl ⟨_, ‹_›, rfl⟩
  · exact .inr rfl

/-- A part of a command that goes on with the record of `u`. -/
theorem Finds.framed {α β : Type} {form : α → UnitRec} {u : UnitId} {i : Instr} {s t : State} {r : Res α}
    {f : α → State → Res β} (h : Finds form u t r) (k : Frame i s t)
    (hf : ∀ a, s.inst.lookup u = some (form a).entry → Framed i s (f a t)) : Framed i s (r.bind f) := by
  obtain ⟨a, ha, rfl⟩ | rfl := h
  · exact hf a (k.lookup ha)
  · trivial

section
variable {i : Instr} {s t : State} (k : Frame i s t)
include k

/-! ## Classes BQ, FO, FIR -/

theorem bqStep_framed (u : UnitId) (x : F32) : Framed i s (bqStep u x t) :=
  (getBq_finds u t).framed k fun b hb =>
  (needCfg_framed k b.cfg u).bind fun _ _ _ k => (put_framed k hb).map _

theorem bqFlush_framed (u : UnitId) : Framed i s (bqFlush u t) :=
  (getBq_finds u t).framed k fun _ hb => put_framed k hb

theorem bqLoad_framed (u : UnitId) (c : BqCoef) : Framed i s (bqLoad u c t) :=
  (getBq_finds u t).framed k fun _ hb => put_framed k hb

theorem bqSwap_framed (u : UnitId) (c : BqCoef) : Framed i s (bqSwap u c t) :=
  (getBq_finds u t).framed k fun _ hb => put_framed k hb

theorem bqDesign_framed (u : UnitId) (design : Word → BqCoef) : Framed i s (bqDesign u design t) :=
  (needFs_framed k).bind fun fs _ _ k => bqLoad_framed k u (design fs)

theorem foStep_framed (u : UnitId) (x : F32) : Framed i s (foStep u x t) :=
  (getFo_finds u t).framed k fun r hr =>
  (needCfg_framed k r.cfg u).bind fun _ _ _ k => (put_framed k hr).map _

theorem foFlush_framed (u : UnitId) : Framed i s (foFlush u t) :=
  (getFo_finds u t).framed k fun _ hr => put_framed k hr

theorem foLoad_framed (u : UnitId) (c : FoCoef) : Framed i s (foLoad u c t) :=
  (getFo_finds u t).framed k fun _ hr => put_framed k hr

theorem foDesign_framed (u : UnitId) (design : Word → FoCoef) : Framed i s (foDesign u design t) :=
  (needFs_framed k).bind fun fs _ _ k => foLoad_framed k u (design fs)

theorem firTaps_framed (u : UnitId) (c h : Memory) (p left : Nat) (j : Nat) (acc : F32) :
    Framed i s (firTaps u c h p j left acc t) := by
  induction left generalizing t j acc with
  | zero => exact k
  | succ left ih =>
    exact (memRead_framed k u c j).bind fun ck _ _ k =>
      (memRead_framed k u h _).bind fun v _ _ k => ih k (j + 1) (fadd acc (fmul ck v))

theorem firStep_framed (u : UnitId) (x : F32) : Framed i s (firStep u x t) :=
  (getFir_finds u t).framed k fun r hr =>
  (needCfg_framed k r.cfg u).bind fun _ _ _ k =>
  memWrite_framed <|
  (memRead_framed k u r.c 0).bind fun _ _ _ k =>
  (memRead_framed k u _ r.pos).bind fun _ _ _ k =>
  (firTaps_framed k u r.c _ r.pos _ 1 _).bind fun _ _ _ k => (put_framed k hr).map _

theorem firFlush_framed (u : UnitId) : Framed i s (firFlush u t) :=
  (getFir_finds u t).framed k fun _ hr => put_framed k hr

theorem firLoad_framed (u : UnitId) (cs : List F32) : Framed i s (firLoad u cs t) := by
  refine (getFir_finds u t).framed k fun r hr => ?_
  split
  · exact put_framed k hr
  · trivial

/-! ## Classes DL, FD -/

theorem dlSetup_framed (u : UnitId) (n : Nat) : Framed i s (dlSetup u n t) :=
  (getDl_finds u t).framed k fun _ hr =>
  (require_framed k _ .delayLen u).bind fun _ _ _ k => put_framed k hr

theorem dlPeek_framed (u : UnitId) : Framed i s (dlPeek u t) :=
  (getDl_finds u t).framed k fun r _ =>
  (needCfg_framed k r.cfg u).bind fun _ _ _ k => memRead_framed k u r.buf r.extractFrom

theorem dlStep_framed (u : UnitId) (x : F32) : Framed i s (dlStep u x t) :=
  (getDl_finds u t).framed k fun r hr =>
  (needCfg_framed k r.cfg u).bind fun _ _ _ k =>
  (memRead_framed k u r.buf r.extractFrom).bind fun _ _ _ k =>
  memWrite_framed ((put_framed k hr).map _)

theorem dlFlush_framed (u : UnitId) : Framed i s (dlFlush u t) :=
  (getDl_finds u t).framed k fun _ hr => put_framed k hr

theorem fdSetup_framed (u : UnitId) (n : F32) : Framed i s (fdSetup u n t) :=
  (getFd_finds u t).framed k fun _ hr =>
  (require_framed k _ .delayLen u).bind fun _ _ _ k => put_framed k hr

theorem fdPeek_framed (u : UnitId) : Framed i s (fdPeek u t) :=
  (getFd_finds u t).framed k fun r _ =>
  (needCfg_framed k r.cfg u).bind fun _ _ _ k =>
  (memRead_framed k u r.buf r.extractFrom).bind fun _ _ _ k => (memRead_framed k u r.buf _).map _

theorem fdStep_framed (u : UnitId) (x : F32) : Framed i s (fdStep u x t) :=
  (fdPeek_framed k u).bind fun _ _ _ k =>
  (getFd_finds u _).framed k fun _ hr => memWrite_framed ((put_framed k hr).map _)

theorem fdFlush_framed (u : UnitId) : Framed i s (fdFlush u t) :=
  (getFd_finds u t).framed k fun _ hr => put_framed k hr

/-! ## Classes WS, TS, PA -/

theorem wsSetup_framed (u : UnitId) (min max : F32) (tab : List F32) : Framed i s (wsSetup u min max tab t) :=
  (getWs_finds u t).framed k fun _ hr =>
  (require_framed k _ .wsTable u).bind fun _ _ _ k =>
  (require_framed k _ .wsDomain u).bind fun _ _ _ k => put_framed k hr

theorem wsInterpolate_framed (u : UnitId) (r : Ws) (x : F32) : Framed i s (wsInterpolate u r x t) := by
  unfold wsInterpolate
  dsimp only
  split
  · exact memRead_framed k u r.tab _
  · exact (memRead_framed k u r.tab _).bind fun _ _ _ k => (memRead_framed k u r.tab _).map _

theorem wsStep_framed (u : UnitId) (x : F32) : Framed i s (wsStep u x t) := by
  refine (getWs_finds u t).framed k fun r _ => (needCfg_framed k r.cfg u).bind fun _ _ _ k => ?_
  split
  · trivial
  split
  · exact memRead_framed k u r.tab 0
  split
  · exact memRead_framed k u r.tab _
  · exact wsInterpolate_framed k u r x

theorem wsFlush_framed (u : UnitId) : Framed i s (wsFlush u t) :=
  (getWs_finds u t).framed k fun _ _ => k

theorem tsSetup_framed (u : UnitId) (gain supply rk rp : F32) : Framed i s (tsSetup u gain supply rk rp t) :=
  (getTs_finds u t).framed k fun _ hr => put_framed k hr

theorem tsSetBias_framed (u : UnitId) (b : F32) : Framed i s (tsSetBias u b t) :=
  (getTs_finds u t).framed k fun _ hr => put_framed k hr

theorem tsGain_framed (u : UnitId) (gain : F32) : Framed i s (tsGain u gain t) :=
  (getTs_finds u t).framed k fun r hr =>
  (needCfg_framed k r.cfg u).bind fun _ _ _ k => put_framed k hr

theorem tsStep_framed (u : UnitId) (x : F32) : Framed i s (tsStep u x t) :=
  (getTs_finds u t).framed k fun r _ =>
  (needCfg_framed k r.cfg u).bind fun _ _ _ k =>
  (bqStep_framed k r.inp _).bind fun _ _ _ k =>
  (wsStep_framed k r.curve _).bind fun x4 _ _ k =>
  (foStep_framed k r.fb _).bind fun b _ _ k =>
  (tsSetBias_framed k u b).bind fun _ _ _ k => foStep_framed k r.dc x4

theorem tsFlush_framed (u : UnitId) : Framed i s (tsFlush u t) :=
  (getTs_finds u t).framed k fun r _ =>
  (tsSetBias_framed k u c0).bind fun _ _ _ k =>
  (bqFlush_framed k r.inp).bind fun _ _ _ k =>
  (wsFlush_framed k r.curve).bind fun _ _ _ k =>
  (foFlush_framed k r.fb).bind fun _ _ _ k => foFlush_framed k r.dc

theorem paStep_framed (u : UnitId) (x : F32) : Framed i s (paStep u x t) :=
  (getPa_finds u t).framed k fun r _ =>
  (tsStep_framed k r.stage0 x).bind fun a _ _ k =>
  (tsStep_framed k r.stage1 a).bind fun b _ _ k => tsStep_framed k r.stage2 b

theorem paFlush_framed (u : UnitId) : Framed i s (paFlush u t) :=
  (getPa_finds u t).framed k fun r _ =>
  (tsFlush_framed k r.stage0).bind fun _ _ _ k =>
  (tsFlush_framed k r.stage1).bind fun _ _ _ k => tsFlush_framed k r.stage2

/-! ## Classes APF, CMB, RV -/

theorem apfSetup_framed (u : UnitId) (n : Nat) (gb gf : F32) : Framed i s (apfSetup u n gb gf t) :=
  (getApf_finds u t).framed k fun r hr =>
  (dlSetup_framed k r.dl n).bind fun _ _ _ k => put_framed k hr

theorem apfStep_framed (u : UnitId) (x : F32) : Framed i s (apfStep u x t) :=
  (getApf_finds u t).framed k fun r _ =>
  (needCfg_framed k r.cfg u).bind fun _ _ _ k =>
  (dlPeek_framed k r.dl).bind fun _ _ _ k => (dlStep_framed k r.dl _).map _

theorem apfFlush_framed (u : UnitId) : Framed i s (apfFlush u t) :=
  (getApf_finds u t).framed k fun r _ => dlFlush_framed k r.dl

theorem cmbSetup_framed (u : UnitId) (n : Nat) (gb : F32) : Framed i s (cmbSetup u n gb t) :=
  (getCmb_finds u t).framed k fun r hr =>
  (dlSetup_framed k r.dl n).bind fun _ _ _ k => put_framed k hr

theorem cmbStep_framed (u : UnitId) (x : F32) : Framed i s (cmbStep u x t) :=
  (getCmb_finds u t).framed k fun r _ =>
  (needCfg_framed k r.cfg u).bind fun _ _ _ k =>
  (dlPeek_framed k r.dl).bind fun _ _ _ k => (dlStep_framed k r.dl _).map _

theorem cmbFlush_framed (u : UnitId) : Framed i s (cmbFlush u t) :=
  (getCmb_finds u t).framed k fun r _ => dlFlush_framed k r.dl

theorem rvSetCfg_framed (u : UnitId) : Framed i s (rvSetCfg u t) :=
  (getRv_finds u t).framed k fun _ hr => put_framed k hr

theorem rvSetup_framed (u : UnitId) : Framed i s (rvSetup u t) :=
  (getRv_finds u t).framed k fun r _ =>
  (apfSetup_framed k r.apf0 _ _ _).bind fun _ _ _ k =>
  (apfSetup_framed k r.apf1 _ _ _).bind fun _ _ _ k =>
  (apfSetup_framed k r.apf2 _ _ _).bind fun _ _ _ k =>
  (cmbSetup_framed k r.cmb0 _ _).bind fun _ _ _ k =>
  (cmbSetup_framed k r.cmb1 _ _).bind fun _ _ _ k =>
  (cmbSetup_framed k r.cmb2 _ _).bind fun _ _ _ k =>
  (cmbSetup_framed k r.cmb3 _ _).bind fun _ _ _ k => rvSetCfg_framed k u

theorem rvStep_framed (u : UnitId) (x : F32) : Framed i s (rvStep u x t) :=
  (getRv_finds u t).framed k fun r _ =>
  (needCfg_framed k r.cfg u).bind fun _ _ _ k =>
  (apfStep_framed k r.apf0 _).bind fun a _ _ k =>
  (apfStep_framed k r.apf1 a).bind fun a _ _ k =>
  (apfStep_framed k r.apf2 a).bind fun a _ _ k =>
  (cmbStep_framed k r.cmb0 a).bind fun _ _ _ k =>
  (cmbStep_framed k r.cmb1 a).bind fun _ _ _ k =>
  (cmbStep_framed k r.cmb2 a).bind fun _ _ _ k => (cmbStep_framed k r.cmb3 a).map _

theorem rvFlush_framed (u : UnitId) : Framed i s (rvFlush u t) :=
  (getRv_finds u t).framed k fun r _ =>
  (apfFlush_framed k r.apf0).bind fun _ _ _ k =>
  (apfFlush_framed k r.apf1).bind fun _ _ _ k =>
  (apfFlush_framed k r.apf2).bind fun _ _ _ k =>
  (cmbFlush_framed k r.cmb0).bind fun _ _ _ k =>
  (cmbFlush_framed k r.cmb1).bind fun _ _ _ k =>
  (cmbFlush_framed k r.cmb2).bind fun _ _ _ k => cmbFlush_framed k r.cmb3

/-! ## Classes KS, VB -/

theorem ksTune_framed (u : UnitId) (freq : F32) : Framed i s (ksTune u freq t) :=
  (getKs_finds u t).framed k fun r _ =>
  (needFs_framed k).bind fun _ _ _ k => fdSetup_framed k r.delay _

theorem ksTrig_framed (u : UnitId) : Framed i s (ksTrig u t) :=
  (getKs_finds u t).framed k fun _ hr => put_framed k hr

theorem ksMute_framed (u : UnitId) : Framed i s (ksMute u t) :=
  (getKs_finds u t).framed k fun _ hr => put_framed k hr

theorem ksExcitation_framed (hi : i.usesPrng = true) {u : UnitId} {r : Ks}
    (hr : s.inst.lookup u = some (UnitRec.ks r).entry) : Framed i s (ksExcitation u r t) := by
  unfold ksExcitation
  split
  · exact k
  · exact (put_framed k hr).bind fun _ _ _ k => (draw_framed k hi).bind fun _ _ _ k => Framed.ok k _

theorem ksStep_framed (hi : i.usesPrng = true) (u : UnitId) : Framed i s (ksStep u t) :=
  (getKs_finds u t).framed k fun r hr =>
  (getFd_finds r.delay t).framed k fun d _ =>
  (needCfg_framed k d.cfg r.delay).bind fun _ t _ k =>
  (getFo_finds r.damp t).framed k fun f _ =>
  (needCfg_framed k f.cfg r.damp).bind fun _ _ _ k =>
  (ksExcitation_framed k hi hr).bind fun _ _ _ k =>
  (fdPeek_framed k r.delay).bind fun p _ _ k =>
  (foStep_framed k r.damp p).bind fun _ _ _ k => (fdStep_framed k r.delay _).map _

theorem ksFlush_framed (u : UnitId) : Framed i s (ksFlush u t) :=
  (getKs_finds u t).framed k fun r hr =>
  (put_framed k hr).bind fun _ _ _ k =>
  (fdFlush_framed k r.delay).bind fun _ _ _ k => foFlush_framed k r.damp

theorem vbNoteOn_framed (u : UnitId) (note : BitVec 7) : Framed i s (vbNoteOn u note t) := by
  refine (getVb_finds u t).framed k fun r hr => ?_
  split
  · trivial
  · rename_i j _
    exact (romRead_framed k u r.voices j).bind fun v _ _ k =>
      (put_framed k hr).bind fun _ _ _ k =>
      (ksTune_framed k v.unit _).bind fun _ _ _ k => ksTrig_framed k v.unit

theorem vbNoteOff_framed (u : UnitId) (note : BitVec 7) : Framed i s (vbNoteOff u note t) := by
  refine (getVb_finds u t).framed k fun r hr => ?_
  split
  · exact k
  split
  · exact k
  · rename_i j _ _
    exact (romRead_framed k u r.voices j).bind fun v _ _ k =>
      (put_framed k hr).bind fun _ _ _ k => ksMute_framed k v.unit

theorem vbSum_framed (hi : i.usesPrng = true) (vs : List Voice) (acc : F32) : Framed i s (vbSum vs acc t) := by
  induction vs generalizing t acc with
  | nil => exact k
  | cons v vs ih => exact (ksStep_framed k hi v.unit).bind fun _ _ _ k => ih k _

theorem vbTick_framed (u : UnitId) : Framed i s (vbTick u t) :=
  (getVb_finds u t).framed k fun _ hr => put_framed k hr

theorem vbStep_framed (hi : i.usesPrng = true) (u : UnitId) : Framed i s (vbStep u t) := by
  refine (getVb_finds u t).framed k fun r _ => ?_
  split
  · trivial
  · rename_i v vs _
    exact (ksStep_framed k hi v.unit).bind fun _ _ _ k =>
      (vbSum_framed k hi vs _).bind fun _ _ _ k => (vbTick_framed k u).map _

theorem vbFlushVoices_framed (vs : List Voice) : Framed i s (vbFlushVoices vs t) := by
  induction vs generalizing t with
  | nil => exact k
  | cons v vs ih => exact (ksFlush_framed k v.unit).bind fun _ _ _ k => ih k

theorem vbFlush_framed (u : UnitId) : Framed i s (vbFlush u t) :=
  (getVb_finds u t).framed k fun r hr =>
  (put_framed k hr).bind fun _ _ _ k =>
  vbFlushVoices_framed k r.voices

end

/-! ## Class DM -/

theorem Res.bind_eq_ok {α β : Type} {r : Res α} {f : α → State → Res β} {b : β} {t : State} (h : r.bind f = .ok b t) :
    ∃ a s, r = .ok a s ∧ f a s = .ok b t := by
  cases r with
  | ok a s => exact ⟨a, s, rfl, h⟩
  | raised s => cases h
  | stop e => cases h
  | refuse e => cases h

theorem armDrums_pcm (mask : Word) (ds : List Drum) : ∀ (v : Nat) (p : BitVec 31),
    (armDrums mask v ds p).1.map Drum.pcm = ds.map Drum.pcm := by
  induction ds with
  | nil => intro v p; rfl
  | cons d ds ih =>
    intro v p
    unfold armDrums
    split <;> simp [ih]

theorem mixDrums_pcm (p : Params) (mix : F32) (ds : List Drum) :
    (mixDrums p mix ds).2.map Drum.pcm = ds.map Drum.pcm := by
  simp [mixDrums_eq, Function.comp_def]

/-- The record a boundary leaves has the entry of the one before (R285, R286). -/
theorem dmBoundary_entry {u : UnitId} {r r' : Dm} {s t : State} (h : dmBoundary u r s = .ok r' t) :
    (UnitRec.dm r').entry = (UnitRec.dm r).entry := by
  obtain ⟨p, s1, -, h⟩ := Res.bind_eq_ok h
  obtain ⟨mask, s2, -, h⟩ := Res.bind_eq_ok h
  obtain ⟨_, s3, -, h⟩ := Res.bind_eq_ok h
  obtain ⟨_, s4, -, h⟩ := Res.bind_eq_ok h
  obtain ⟨_, s5, -, h⟩ := Res.bind_eq_ok h
  obtain ⟨_, s6, -, h⟩ := Res.bind_eq_ok h
  cases h
  simp [UnitRec.entry, armDrums_pcm]

/-- The record a sub-step leaves has the entry of the one before (R285). -/
theorem dmSubStep_entry {u : UnitId} {r r' : Dm} {s t : State} (h : dmSubStep u r s = .ok r' t) :
    (UnitRec.dm r').entry = (UnitRec.dm r).entry := by
  obtain ⟨q, s1, hq, h⟩ := Res.bind_eq_ok h
  obtain ⟨_, s2, -, h⟩ := Res.bind_eq_ok h
  have hqr : (UnitRec.dm q).entry = (UnitRec.dm r).entry := by
    split at hq
    · exact dmBoundary_entry hq
    · cases hq
      rfl
  cases h
  rw [← hqr]
  simp [UnitRec.entry, mixDrums_pcm]

section
variable {i : Instr} {s t : State} (k : Frame i s t)
include k

theorem dmSetup_framed (u : UnitId) : Framed i s (dmSetup u t) :=
  (getDm_finds u t).framed k fun r hr =>
  (needFs_framed k).bind fun _ _ _ k =>
  (romRead_framed k u r.patterns _).bind fun _ _ _ k =>
  (require_framed k _ .dmParam u).bind fun _ _ _ k =>
  (romRead_framed k u r.bank 0).bind fun c _ _ k =>
  (bqLoad_framed k r.lp c).bind fun _ _ _ k => put_framed k hr

theorem dmCfg_framed (u : UnitId) (pattern : BitVec 16) (bpm : Word) : Framed i s (dmCfg u pattern bpm t) :=
  (getDm_finds u t).framed k fun r hr =>
  (needFs_framed k).bind fun _ _ _ k =>
  (require_framed k _ .dmParam u).bind fun _ _ _ k =>
  (romRead_framed k u r.patterns _).bind fun _ _ _ k =>
  (require_framed k _ .dmParam u).bind fun _ _ _ k => put_framed k hr

theorem dmBoundary_framed (hi : i.usesPrng = true) {u : UnitId} {r : Dm}
    (hr : s.inst.lookup u = some (UnitRec.dm r).entry) : Framed i s (dmBoundary u r t) :=
  (romRead_framed k u r.patterns _).bind fun p _ _ k =>
  (romRead_framed k u p.steps _).bind fun _ _ _ k =>
  (put_framed (k.trans (Frame.withPrng hi _ _)) hr (by simp [UnitRec.entry, armDrums_pcm])).bind fun _ _ _ k =>
  (draw_framed k hi).bind fun _ _ _ k =>
  (romRead_framed k u r.bank _).bind fun c _ _ k => (bqSwap_framed k r.lp c).map _

theorem dmSubStep_framed (hi : i.usesPrng = true) {u : UnitId} {r : Dm}
    (hr : s.inst.lookup u = some (UnitRec.dm r).entry) : Framed i s (dmSubStep u r t) := by
  refine Framed.bind ?_ fun q t' hq k' => ?_
  · split
    · exact dmBoundary_framed k hi hr
    · exact k
  · have hqr : (UnitRec.dm q).entry = (UnitRec.dm r).entry := by
      split at hq
      · exact dmBoundary_entry hq
      · cases hq
        rfl
    exact (put_framed k' hr (by rw [← hqr]; simp [UnitRec.entry, mixDrums_pcm])).map _

theorem dmStep_framed (hi : i.usesPrng = true) (u : UnitId) : Framed i s (dmStep u t) := by
  refine (getDm_finds u t).framed k fun r hr => (needCfg_framed k r.cfg u).bind fun _ t _ k => ?_
  refine Framed.bind ?_ fun q t' hq k' => ?_
  · split
    · exact k
    · exact dmSubStep_framed k hi hr
  · have hqr : (UnitRec.dm q).entry = (UnitRec.dm r).entry := by
      split at hq
      · cases hq
        rfl
      · exact dmSubStep_entry hq
    exact (put_framed k' hr (by rw [← hqr]; rfl)).bind fun _ _ _ k => bqStep_framed k q.lp q.hold

theorem dmFlush_framed (u : UnitId) : Framed i s (dmFlush u t) :=
  (getDm_finds u t).framed k fun r hr =>
  (put_framed k hr).bind fun _ _ _ k => bqFlush_framed k r.lp

/-! ## `PROC` -/

omit k in
theorem procLoop_framed {step : F32 → State → Res F32} (hstep : ∀ {t}, Frame i s t → ∀ x, Framed i s (step x t))
    (xs : List F32) : ∀ {t}, Frame i s t → Framed i s (procLoop step xs t) := by
  induction xs with
  | nil => intro t k; exact k
  | cons x xs ih => intro t k; exact (hstep k x).bind fun _ _ _ k => (ih k).map _

omit k in
theorem genLoop_framed {step : State → Res F32} (hstep : ∀ {t}, Frame i s t → Framed i s (step t)) (n : Nat) :
    ∀ {t}, Frame i s t → Framed i s (genLoop step n t) := by
  induction n with
  | zero => intro t k; exact k
  | succ n ih => intro t k; exact (hstep k).bind fun _ _ _ k => (ih k).map _

/-! ## Class SYS -/

theorem sysSeed_framed (hi : i.usesPrng = true) (seed : Word) : Framed i s (sysSeed seed t) :=
  (require_framed k _ .seedBad 0).bind fun _ t _ k => k.trans (Frame.withPrng hi t _)

theorem applyMailable_framed (j : Instr) : Framed i s (applyMailable j t) := by
  cases j with
  | sysRaw imm => exact k
  | bqLdc u b0 b1 b2 a1 a2 => exact checked_framed k u .bq (bqLoad_framed k u _)
  | bqLp u f q => exact checked_framed k u .bq (bqDesign_framed k u _)
  | bqHp u f q => exact checked_framed k u .bq (bqDesign_framed k u _)
  | bqBp u f q => exact checked_framed k u .bq (bqDesign_framed k u _)
  | bqBs u f q => exact checked_framed k u .bq (bqDesign_framed k u _)
  | bqAp u f q => exact checked_framed k u .bq (bqDesign_framed k u _)
  | bqPk u f gain q => exact checked_framed k u .bq (bqDesign_framed k u _)
  | bqLs u f gain q => exact checked_framed k u .bq (bqDesign_framed k u _)
  | bqHs u f gain q => exact checked_framed k u .bq (bqDesign_framed k u _)
  | foLdc u b0 b1 a1 => exact checked_framed k u .fo (foLoad_framed k u _)
  | foLp u f => exact checked_framed k u .fo (foDesign_framed k u _)
  | foHp u f => exact checked_framed k u .fo (foDesign_framed k u _)
  | tsGain u gain => exact checked_framed k u .ts (tsGain_framed k u gain)
  | vbNoteon u note velocity => exact checked_framed k u .vb (vbNoteOn_framed k u note)
  | vbNoteoff u note velocity => exact checked_framed k u .vb (vbNoteOff_framed k u note)
  | dmCfg u pattern bpm => exact checked_framed k u .dm (dmCfg_framed k u pattern bpm)
  | _ => trivial

theorem applyMessage_framed (m : Message) : Framed i s (applyMessage m t) := by
  unfold applyMessage
  split
  · split
    · exact applyMailable_framed k _
    · exact raise_framed k .illegalCmd _
  · trivial

end

theorem sysSetfs_framed {s t : State} {fs : Word} (k : Frame (.sysSetfs fs) s t) :
    Framed (.sysSetfs fs) s (sysSetfs fs t) :=
  (require_framed k _ .fsBad 0).bind fun _ t _ k => k.trans (Frame.withFs t fs)

theorem drainLoop_framed (ms : List Message) {s t : State} (k : Frame .sysDrain s t) :
    Framed .sysDrain s (drainLoop ms t) := by
  induction ms generalizing t with
  | nil => exact k
  | cons m ms ih =>
    exact (applyMessage_framed (k.trans (Frame.withMbox t ms)) m).bind fun _ _ _ k => ih k

/-! ## Every command -/

theorem command_framed {i : Instr} {s : State} {u : UnitId} {c : UnitClass} {body : State → Res (List Word)}
    (hb : Framed i s (body s)) : FramedOutcome i s (command u c body s) := by
  unfold command
  split
  · exact Frame.refl i s
  · exact (checked_framed (Frame.refl i s) u c hb).conclude

theorem sysCommand_framed {i : Instr} {s : State} {body : State → Res (List Word)} (hb : Framed i s (body s)) :
    FramedOutcome i s (sysCommand body s) := by
  unfold sysCommand
  split
  · exact Frame.refl i s
  · exact hb.conclude

/-- Every command keeps to its frame, from every state. -/
theorem exec_framed (i : Instr) (s : State) : FramedOutcome i s (exec i s) := by
  have k := Frame.refl i s
  cases i with
  | sysNop => exact sysCommand_framed (body := fun s => .ok [] s) k
  | sysSetfs fs =>
    exact sysCommand_framed (body := fun s => silent (sysSetfs fs s))
      ((sysSetfs_framed k).map _)
  | sysRdfs => exact sysCommand_framed (body := fun s => single (needFs s)) ((needFs_framed k).map _)
  | sysDrain =>
    exact sysCommand_framed (body := fun s => silent (drainLoop s.mbox s))
      ((drainLoop_framed s.mbox k).map _)
  | sysRaw imm => exact sysCommand_framed (body := fun s => .ok [] s) k
  | sysRdstat => exact Frame.respond .sysRdstat s _
  | sysSeed seed =>
    exact sysCommand_framed (body := fun s => silent (sysSeed seed s))
      ((sysSeed_framed k rfl seed).map _)
  | sysRand =>
    exact sysCommand_framed (body := fun s => single ((draw s).map fun d => d.setWidth 32))
      (((draw_framed k rfl).map _).map _)
  | sysRandf =>
    exact sysCommand_framed (body := fun s => single ((draw s).map fun d => prngToFloat s.params d))
      (((draw_framed k rfl).map _).map _)
  | bqStep u x => exact command_framed ((bqStep_framed k u _).map _)
  | bqProc u xs => exact command_framed (procLoop_framed (fun k => bqStep_framed k u) xs k)
  | bqFlush u => exact command_framed ((bqFlush_framed k u).map _)
  | bqLdc u b0 b1 b2 a1 a2 => exact command_framed ((bqLoad_framed k u _).map _)
  | bqLp u f q => exact command_framed ((bqDesign_framed k u _).map _)
  | bqHp u f q => exact command_framed ((bqDesign_framed k u _).map _)
  | bqBp u f q => exact command_framed ((bqDesign_framed k u _).map _)
  | bqBs u f q => exact command_framed ((bqDesign_framed k u _).map _)
  | bqAp u f q => exact command_framed ((bqDesign_framed k u _).map _)
  | bqPk u f gain q => exact command_framed ((bqDesign_framed k u _).map _)
  | bqLs u f gain q => exact command_framed ((bqDesign_framed k u _).map _)
  | bqHs u f gain q => exact command_framed ((bqDesign_framed k u _).map _)
  | bqRdc u => exact command_framed ((getBq_finds u s).framed k fun r _ => (needCfg_framed k r.cfg u).map _)
  | foStep u x => exact command_framed ((foStep_framed k u _).map _)
  | foProc u xs => exact command_framed (procLoop_framed (fun k => foStep_framed k u) xs k)
  | foFlush u => exact command_framed ((foFlush_framed k u).map _)
  | foLdc u b0 b1 a1 => exact command_framed ((foLoad_framed k u _).map _)
  | foLp u f => exact command_framed ((foDesign_framed k u _).map _)
  | foHp u f => exact command_framed ((foDesign_framed k u _).map _)
  | foRdc u => exact command_framed ((getFo_finds u s).framed k fun r _ => (needCfg_framed k r.cfg u).map _)
  | firStep u x => exact command_framed ((firStep_framed k u _).map _)
  | firProc u xs => exact command_framed (procLoop_framed (fun k => firStep_framed k u) xs k)
  | firFlush u => exact command_framed ((firFlush_framed k u).map _)
  | firLdc u cs => exact command_framed ((firLoad_framed k u _).map _)
  | dlStep u x => exact command_framed ((dlStep_framed k u _).map _)
  | dlProc u xs => exact command_framed (procLoop_framed (fun k => dlStep_framed k u) xs k)
  | dlFlush u => exact command_framed ((dlFlush_framed k u).map _)
  | dlSetup u n => exact command_framed ((dlSetup_framed k u _).map _)
  | dlPeek u => exact command_framed ((dlPeek_framed k u).map _)
  | fdStep u x => exact command_framed ((fdStep_framed k u _).map _)
  | fdProc u xs => exact command_framed (procLoop_framed (fun k => fdStep_framed k u) xs k)
  | fdFlush u => exact command_framed ((fdFlush_framed k u).map _)
  | fdSetup u n => exact command_framed ((fdSetup_framed k u _).map _)
  | fdPeek u => exact command_framed ((fdPeek_framed k u).map _)
  | wsStep u x => exact command_framed ((wsStep_framed k u _).map _)
  | wsProc u xs => exact command_framed (procLoop_framed (fun k => wsStep_framed k u) xs k)
  | wsFlush u => exact command_framed ((wsFlush_framed k u).map _)
  | wsSetup u min max tab => exact command_framed ((wsSetup_framed k u _ _ _).map _)
  | tsStep u x => exact command_framed ((tsStep_framed k u _).map _)
  | tsProc u xs => exact command_framed (procLoop_framed (fun k => tsStep_framed k u) xs k)
  | tsFlush u => exact command_framed ((tsFlush_framed k u).map _)
  | tsSetup u gain supply rk rp => exact command_framed ((tsSetup_framed k u _ _ _ _).map _)
  | tsGain u gain => exact command_framed ((tsGain_framed k u _).map _)
  | tsRdgain u => exact command_framed ((getTs_finds u s).framed k fun r _ => (needCfg_framed k r.cfg u).map _)
  | paStep u x => exact command_framed ((paStep_framed k u _).map _)
  | paProc u xs => exact command_framed (procLoop_framed (fun k => paStep_framed k u) xs k)
  | paFlush u => exact command_framed ((paFlush_framed k u).map _)
  | apfStep u x => exact command_framed ((apfStep_framed k u _).map _)
  | apfProc u xs => exact command_framed (procLoop_framed (fun k => apfStep_framed k u) xs k)
  | apfFlush u => exact command_framed ((apfFlush_framed k u).map _)
  | apfSetup u n gb gf => exact command_framed ((apfSetup_framed k u _ _ _).map _)
  | cmbStep u x => exact command_framed ((cmbStep_framed k u _).map _)
  | cmbProc u xs => exact command_framed (procLoop_framed (fun k => cmbStep_framed k u) xs k)
  | cmbFlush u => exact command_framed ((cmbFlush_framed k u).map _)
  | cmbSetup u n gb => exact command_framed ((cmbSetup_framed k u _ _).map _)
  | rvStep u x => exact command_framed ((rvStep_framed k u _).map _)
  | rvProc u xs => exact command_framed (procLoop_framed (fun k => rvStep_framed k u) xs k)
  | rvFlush u => exact command_framed ((rvFlush_framed k u).map _)
  | rvSetup u => exact command_framed ((rvSetup_framed k u).map _)
  | ksStep u => exact command_framed ((ksStep_framed k rfl u).map _)
  | ksProc u n => exact command_framed (genLoop_framed (fun k => ksStep_framed k rfl u) n.toNat k)
  | ksFlush u => exact command_framed ((ksFlush_framed k u).map _)
  | ksTune u freq => exact command_framed ((ksTune_framed k u _).map _)
  | ksTrig u => exact command_framed ((ksTrig_framed k u).map _)
  | ksMute u => exact command_framed ((ksMute_framed k u).map _)
  | vbStep u => exact command_framed ((vbStep_framed k rfl u).map _)
  | vbProc u n => exact command_framed (genLoop_framed (fun k => vbStep_framed k rfl u) n.toNat k)
  | vbFlush u => exact command_framed ((vbFlush_framed k u).map _)
  | vbNoteon u note velocity => exact command_framed ((vbNoteOn_framed k u _).map _)
  | vbNoteoff u note velocity => exact command_framed ((vbNoteOff_framed k u _).map _)
  | dmStep u => exact command_framed ((dmStep_framed k rfl u).map _)
  | dmProc u n => exact command_framed (genLoop_framed (fun k => dmStep_framed k rfl u) n.toNat k)
  | dmFlush u => exact command_framed ((dmFlush_framed k u).map _)
  | dmSetup u => exact command_framed ((dmSetup_framed k u).map _)
  | dmCfg u n bpm => exact command_framed ((dmCfg_framed k u _ _).map _)
  | dmRdcfg u => exact command_framed ((getDm_finds u s).framed k fun _ _ => Framed.ok k _)

theorem exec_frame {i : Instr} {s t : State} (h : exec i s = .next t) : Frame i s t := by
  have hf := exec_framed i s
  rwa [h] at hf

end Sys2Proof.Machine
end

section
/-! PROOF of O13 and O14, from the frame of a command; for O13 also of a post and of the reset event. -/

namespace Sys2Proof.Machine

/-- Same parameters and same table of units (R8, R22). -/
def SameConfig (s t : State) : Prop := t.params = s.params ∧ t.inst = s.inst

theorem State.post_config (s : State) (m : Message) : SameConfig s (s.post m) := by
  unfold State.post
  split
  · exact ⟨rfl, rfl⟩
  split
  · exact ⟨s.recordFault_params _ _, s.inst_recordFault _ _⟩
  split
  · exact ⟨rfl, rfl⟩
  · exact ⟨rfl, rfl⟩

theorem producerStep_config (s : State) : SameConfig s (producerStep s) := by
  unfold producerStep
  split
  · exact ⟨rfl, rfl⟩
  · dsimp only
    split
    · exact ⟨rfl, rfl⟩
    · exact State.post_config { s with ctlIn := _ } _

theorem State.resetBlock_config (s : State) : SameConfig s s.resetBlock := ⟨rfl, State.init_inst s.params s.inst⟩

theorem rejectCommand_config (cw : Word) (s : State) : SameConfig s (rejectCommand cw s) := by
  unfold rejectCommand
  split
  · exact ⟨rfl, rfl⟩
  · exact ⟨s.recordFault_params _ _, s.inst_recordFault _ _⟩

theorem engineStep_config {s t : State} (h : engineStep s = .next t) : SameConfig s t := by
  unfold engineStep at h
  split at h
  · cases h
    exact ⟨rfl, rfl⟩
  · dsimp only at h
    split at h
    · have k := exec_frame h
      exact ⟨k.params, k.inst⟩
    · cases h
      exact ⟨rfl, rfl⟩
    · cases h
      exact rejectCommand_config _ { s with cmdIn := _ }

/-- Settles O13: by the agent whose turn it is. -/
theorem configurationFixed : Obligations.ConfigurationFixed := by
  intro s t h
  unfold step at h
  split at h
  · exact engineStep_config h
  · rename_i ts _
    exact engineStep_config (s := { s with turns := ts }) h
  · rename_i ts _
    cases h
    exact producerStep_config { s with turns := ts }
  · rename_i ts _
    cases h
    exact State.resetBlock_config { s with turns := ts }

/-- Settles O14: the fields of the frame, but for the table of units. -/
theorem commandFrame : Obligations.CommandFrame := by
  intro i s t h
  have k := exec_frame h
  exact ⟨k.params, k.cmdIn, k.ctlIn, k.ctlOut, k.turns, k.respOut, k.mbox, k.fs, k.prng⟩

end Sys2Proof.Machine
end

section
/-! PROOF of O12. From a state that meets the invariant every agent acts: the engine by `exec_safe`, which leaves a
command no end but a next state or the refusal of a NaN; the producer and the reset event in one update each. -/

namespace Sys2Proof.Machine

theorem SafeOutcome.progress {o : Host.Outcome State Fault Refusal} (h : SafeOutcome o) :
    (∃ t, o = .next t) ∨ ∃ u, o = .refused (.waveshaperNaN u) := by
  cases o with
  | next t => exact .inl ⟨t, rfl⟩
  | fault e => exact h.elim
  | refused e =>
    obtain ⟨u, rfl⟩ := h
    exact .inr ⟨u, rfl⟩

/-- The engine runs a decoded command, waits, or rejects the words it consumes (R109, R368). -/
theorem engineStep_progress {s : State} (h : s.Inv) :
    (∃ t, engineStep s = .next t) ∨ ∃ u, engineStep s = .refused (.waveshaperNaN u) := by
  unfold engineStep
  split
  · exact .inl ⟨_, rfl⟩
  · dsimp only
    split
    · rename_i i rest hd
      exact (exec_safe (h.withPorts rest s.respOut s.ctlIn s.ctlOut s.turns)
        fun u cs hi => decode_firLdc_length (hi ▸ hd)).progress
    · exact .inl ⟨_, rfl⟩
    · exact .inl ⟨_, rfl⟩

/-- Settles O12: by the agent whose turn it is. -/
theorem stepOnlyRefusesNaN : Obligations.StepOnlyRefusesNaN := by
  intro s h
  unfold step
  split
  · exact engineStep_progress h
  · exact engineStep_progress (h.withPorts _ _ _ _ _)
  · exact .inl ⟨_, rfl⟩
  · exact .inl ⟨_, rfl⟩

end Sys2Proof.Machine
end

section
/-! PROOF of O16, from the laws of records and memories. -/

namespace Sys2Proof.Machine

/-- Settles O16: a record by `State.putUnit`, an element by `Memory.set`, and no access past the capacity. -/
theorem storageLaws : Obligations.StorageLaws := by
  refine ⟨fun s u r r' hu => ⟨State.unit?_putUnit_same hu, fun v hv => State.unit?_putUnit_other hv s r', rfl⟩,
    fun m i v hm hi => ⟨Memory.wf_set hm hi v, m.set_cap i v, Memory.get_set_same hm i v,
      fun j hj => Memory.get_set_other hj m v, Memory.write?_eq hi v, Memory.read?_eq hi⟩,
    fun m i v hi => ⟨Memory.write?_none hi v, Memory.read?_none hi⟩⟩

end Sys2Proof.Machine
end

section
/-! SUPPORT. The words of a well-formed command decode to it, whatever follows them on the port (R100 to R108). -/

namespace Sys2Proof.Laws.Framing

/-- Every command has the words of its row of the opcode map (R104, R108, R109). -/
theorem every_command (i : Instr) : Statement i := by
  cases i with
  | sysNop => exact sysNop
  | sysSetfs fs => exact sysSetfs fs
  | sysRdfs => exact sysRdfs
  | sysDrain => exact sysDrain
  | sysRaw imm => exact sysRaw imm
  | sysRdstat => exact sysRdstat
  | sysSeed seed => exact sysSeed seed
  | sysRand => exact sysRand
  | sysRandf => exact sysRandf
  | bqStep u x => exact bqStep u x
  | bqProc u xs => exact bqProc u xs
  | bqFlush u => exact bqFlush u
  | bqLdc u b0 b1 b2 a1 a2 => exact bqLdc u b0 b1 b2 a1 a2
  | bqLp u f q => exact bqLp u f q
  | bqHp u f q => exact bqHp u f q
  | bqBp u f q => exact bqBp u f q
  | bqBs u f q => exact bqBs u f q
  | bqAp u f q => exact bqAp u f q
  | bqPk u f gain q => exact bqPk u f gain q
  | bqLs u f gain q => exact bqLs u f gain q
  | bqHs u f gain q => exact bqHs u f gain q
  | bqRdc u => exact bqRdc u
  | foStep u x => exact foStep u x
  | foProc u xs => exact foProc u xs
  | foFlush u => exact foFlush u
  | foLdc u b0 b1 a1 => exact foLdc u b0 b1 a1
  | foLp u f => exact foLp u f
  | foHp u f => exact foHp u f
  | foRdc u => exact foRdc u
  | firStep u x => exact firStep u x
  | firProc u xs => exact firProc u xs
  | firFlush u => exact firFlush u
  | firLdc u cs => exact firLdc u cs
  | dlStep u x => exact dlStep u x
  | dlProc u xs => exact dlProc u xs
  | dlFlush u => exact dlFlush u
  | dlSetup u n => exact dlSetup u n
  | dlPeek u => exact dlPeek u
  | fdStep u x => exact fdStep u x
  | fdProc u xs => exact fdProc u xs
  | fdFlush u => exact fdFlush u
  | fdSetup u n => exact fdSetup u n
  | fdPeek u => exact fdPeek u
  | wsStep u x => exact wsStep u x
  | wsProc u xs => exact wsProc u xs
  | wsFlush u => exact wsFlush u
  | wsSetup u min max tab => exact wsSetup u min max tab
  | tsStep u x => exact tsStep u x
  | tsProc u xs => exact tsProc u xs
  | tsFlush u => exact tsFlush u
  | tsSetup u gain supply rk rp => exact tsSetup u gain supply rk rp
  | tsGain u gain => exact tsGain u gain
  | tsRdgain u => exact tsRdgain u
  | paStep u x => exact paStep u x
  | paProc u xs => exact paProc u xs
  | paFlush u => exact paFlush u
  | apfStep u x => exact apfStep u x
  | apfProc u xs => exact apfProc u xs
  | apfFlush u => exact apfFlush u
  | apfSetup u n gb gf => exact apfSetup u n gb gf
  | cmbStep u x => exact cmbStep u x
  | cmbProc u xs => exact cmbProc u xs
  | cmbFlush u => exact cmbFlush u
  | cmbSetup u n gb => exact cmbSetup u n gb
  | rvStep u x => exact rvStep u x
  | rvProc u xs => exact rvProc u xs
  | rvFlush u => exact rvFlush u
  | rvSetup u => exact rvSetup u
  | ksStep u => exact ksStep u
  | ksProc u n => exact ksProc u n
  | ksFlush u => exact ksFlush u
  | ksTune u freq => exact ksTune u freq
  | ksTrig u => exact ksTrig u
  | ksMute u => exact ksMute u
  | vbStep u => exact vbStep u
  | vbProc u n => exact vbProc u n
  | vbFlush u => exact vbFlush u
  | vbNoteon u note velocity => exact vbNoteon u note velocity
  | vbNoteoff u note velocity => exact vbNoteoff u note velocity
  | dmStep u => exact dmStep u
  | dmProc u n => exact dmProc u n
  | dmFlush u => exact dmFlush u
  | dmSetup u => exact dmSetup u
  | dmCfg u pattern bpm => exact dmCfg u pattern bpm
  | dmRdcfg u => exact dmRdcfg u

end Sys2Proof.Laws.Framing

namespace Sys2Proof

theorem noteBits_noteImm (note velocity : BitVec 7) (i : Instr) : noteBits (noteImm note velocity) i = .ok i :=
  if_pos (noteImm_zeros note velocity)

theorem noteField_noteImm (note velocity : BitVec 7) : noteField (noteImm note velocity) = note :=
  BitVec.extractLsb'_append_eq_right

theorem velocityField_noteImm (note velocity : BitVec 7) :
    velocityField (noteImm note velocity) = velocity := by
  unfold velocityField noteImm
  rw [BitVec.extractLsb'_append_eq_of_le (by decide), BitVec.extractLsb'_append_eq_of_le (by decide)]
  exact BitVec.extractLsb'_append_eq_right

/-- A note operation's immediate gives back the note and the velocity packed in it (R115). -/
theorem noteBits_unpack (note velocity : BitVec 7) (f : BitVec 7 → BitVec 7 → Instr) :
    noteBits (noteImm note velocity) (f (noteField (noteImm note velocity)) (velocityField (noteImm note velocity))) =
      .ok (f note velocity) := by
  rw [noteBits_noteImm, noteField_noteImm, velocityField_noteImm]

/-- The fields and operand words of an encoded command give the command back (R101, R102). -/
theorem decodeCommand_encode {i : Instr} {cw : Word} {ops : List Word} (h : encode i = cw :: ops) :
    decodeCommand cw ops = .ok i := by
  cases i
  all_goals
    obtain ⟨rfl, rfl⟩ := List.cons.inj h
    unfold decodeCommand
    rw [opField_mkCw, unitField_mkCw, immField_mkCw]
  case vbNoteon u note velocity => exact noteBits_unpack note velocity (.vbNoteon u)
  case vbNoteoff u note velocity => exact noteBits_unpack note velocity (.vbNoteoff u)
  all_goals rfl

theorem decode_encode {orders : UnitId → Nat} {i : Instr} (h : i.wf orders = true) (rest : List Word) :
    decode orders (encode i ++ rest) = .ok (i, rest) := by
  obtain ⟨cw, ops, he, hlen, -⟩ := Laws.Framing.every_command i orders h
  have hshort : ¬ (ops ++ rest).length < operandCount orders cw := by rw [List.length_append]; omega
  rw [he, List.cons_append, decode]
  rw [if_neg hshort, ← hlen, List.take_left, List.drop_left, decodeCommand_encode he]

theorem decode_incomplete {orders : UnitId → Nat} {cw : Word} {rest : List Word}
    (h : rest.length < operandCount orders cw) : decode orders (cw :: rest) = .error .incomplete :=
  if_pos h

end Sys2Proof
end

section
/-! PROOF of O4. The engine's turn is one `engineStep`, which decodes what stands at the front of the command port. -/

namespace Sys2Proof.Machine

theorem step_of_engineTurn {s : State} {ts : List Turn} (h : s.engineTurn ts) :
    step s = engineStep { s with turns := ts } := by
  unfold step
  obtain ⟨hs, rfl⟩ | hs := h
  · rw [hs]
    exact congrArg engineStep (by rw [← hs])
  · rw [hs]

theorem engineStep_of_decode {s : State} {i : Instr} {rest : List Word}
    (h : decode s.firOrder s.cmdIn = .ok (i, rest)) : engineStep s = exec i { s with cmdIn := rest } := by
  unfold engineStep
  split
  · rename_i hin
    rw [hin] at h
    cases h
  · rename_i hin
    rw [hin] at h
    dsimp only
    rw [h]

theorem engineStep_waits {s : State}
    (h : s.cmdIn = [] ∨ ∃ cw rest, s.cmdIn = cw :: rest ∧ rest.length < operandCount s.firOrder cw) :
    engineStep s = .next s := by
  unfold engineStep
  obtain hin | ⟨cw, rest, hin, hshort⟩ := h
  · rw [hin]
  · rw [hin]
    dsimp only
    rw [decode_incomplete hshort]

/-- Settles O4: the words of `i` decode to `i`, and an incomplete command to none. -/
theorem stepRunsDecoded : Obligations.StepRunsDecoded := by
  refine ⟨fun s ts i rest hturn hwf hin => ?_, fun s ts hturn hwait => ?_⟩
  · rw [step_of_engineTurn hturn]
    exact engineStep_of_decode (s := { s with turns := ts }) (hin ▸ decode_encode hwf rest)
  · rw [step_of_engineTurn hturn]
    exact engineStep_waits (s := { s with turns := ts }) hwait

end Sys2Proof.Machine
end
section
/-! SUPPORT. The reach of a command, from any state: which units each part of it can change. A part on unit `u` alone
spares every `v ≠ u`; a part that calls the children of `u` spares every unit `Beside` `u`; only PA, RV and VB go one
level further. As in the tests, the many small proofs are checked one after the other, since all at once they can exhaust
the threads. -/

namespace Sys2Proof.Machine

set_option Elab.async false

/-! ## Parts that change no unit -/

/-- A part of a command leaves every unit as it is, however it ends. -/
def KeepsUnits {α : Type} (s : State) : Res α → Prop
  | .ok _ t => t.units = s.units
  | .raised t => t.units = s.units
  | .stop _ => True
  | .refuse _ => True

section
variable {α β : Type} {s : State}

theorem KeepsUnits.ok (a : α) : KeepsUnits s (.ok a s) := rfl

theorem KeepsUnits.bind {r : Res α} {f : α → State → Res β} (h : KeepsUnits s r)
    (hf : ∀ a t, KeepsUnits t (f a t)) : KeepsUnits s (r.bind f) := by
  cases r with
  | ok a t =>
    have hb := hf a t
    simp only [Res.bind_ok]
    cases hr : f a t with
    | ok b t' => rw [hr] at hb; exact Eq.trans hb h
    | raised t' => rw [hr] at hb; exact Eq.trans hb h
    | stop e => trivial
    | refuse e => trivial
  | raised t => exact h
  | stop e => trivial
  | refuse e => trivial

theorem KeepsUnits.map {r : Res α} (h : KeepsUnits s r) (f : α → β) : KeepsUnits s (r.map f) :=
  h.bind fun _ _ => KeepsUnits.ok _

theorem raise_keepsUnits (c : Cause) (u : UnitId) (s : State) : KeepsUnits s (raise c u s : Res α) :=
  s.recordFault_units c u

theorem require_keepsUnits (ok : Bool) (c : Cause) (u : UnitId) (s : State) : KeepsUnits s (require ok c u s) := by
  unfold require
  split
  · exact KeepsUnits.ok ()
  · exact raise_keepsUnits c u s

theorem needCfg_keepsUnits (cfg : Bool) (u : UnitId) (s : State) : KeepsUnits s (needCfg cfg u s) :=
  require_keepsUnits cfg .notSetup u s

theorem needFs_keepsUnits (s : State) : KeepsUnits s (needFs s) := by
  unfold needFs
  split
  · exact KeepsUnits.ok _
  · exact raise_keepsUnits .notSetup 0 s

theorem memRead_keepsUnits (u : UnitId) (m : Memory) (j : Nat) (s : State) : KeepsUnits s (memRead u m j s) := by
  unfold memRead
  split
  · exact KeepsUnits.ok _
  · trivial

theorem romRead_keepsUnits (u : UnitId) (l : List α) (j : Nat) (s : State) : KeepsUnits s (romRead u l j s) := by
  unfold romRead
  split
  · exact KeepsUnits.ok _
  · trivial

theorem draw_keepsUnits (s : State) : KeepsUnits s (draw s) := rfl

theorem Finds.keepsUnits {form : α → UnitRec} {u : UnitId} {r : Res α} (h : Finds form u s r) : KeepsUnits s r := by
  obtain ⟨a, -, rfl⟩ | rfl := h
  · exact KeepsUnits.ok a
  · trivial

end

theorem firTaps_keepsUnits (u : UnitId) (c h : Memory) (p left : Nat) :
    ∀ (j : Nat) (acc : F32) (s : State), KeepsUnits s (firTaps u c h p j left acc s) := by
  induction left with
  | zero => intro j acc s; exact KeepsUnits.ok acc
  | succ left ih =>
    intro j acc s
    exact (memRead_keepsUnits u c j s).bind fun _ t => (memRead_keepsUnits u h _ t).bind fun _ t => ih _ _ t

theorem dlPeek_keepsUnits (u : UnitId) (s : State) : KeepsUnits s (dlPeek u s) :=
  (getDl_finds u s).keepsUnits.bind fun r t =>
  (needCfg_keepsUnits r.cfg u t).bind fun _ t => memRead_keepsUnits u r.buf r.extractFrom t

theorem fdPeek_keepsUnits (u : UnitId) (s : State) : KeepsUnits s (fdPeek u s) :=
  (getFd_finds u s).keepsUnits.bind fun r t =>
  (needCfg_keepsUnits r.cfg u t).bind fun _ t =>
  (memRead_keepsUnits u r.buf r.extractFrom t).bind fun _ t => (memRead_keepsUnits u r.buf _ t).map _

theorem wsInterpolate_keepsUnits (u : UnitId) (r : Ws) (x : F32) (s : State) :
    KeepsUnits s (wsInterpolate u r x s) := by
  unfold wsInterpolate
  dsimp only
  split
  · exact memRead_keepsUnits u r.tab _ s
  · exact (memRead_keepsUnits u r.tab _ s).bind fun _ t => (memRead_keepsUnits u r.tab _ t).map _

theorem wsStep_keepsUnits (u : UnitId) (x : F32) (s : State) : KeepsUnits s (wsStep u x s) := by
  refine (getWs_finds u s).keepsUnits.bind fun r t => (needCfg_keepsUnits r.cfg u t).bind fun _ t => ?_
  split
  · trivial
  split
  · exact memRead_keepsUnits u r.tab 0 t
  split
  · exact memRead_keepsUnits u r.tab _ t
  · exact wsInterpolate_keepsUnits u r x t

theorem wsFlush_keepsUnits (u : UnitId) (s : State) : KeepsUnits s (wsFlush u s) :=
  (getWs_finds u s).keepsUnits.bind fun _ _ => KeepsUnits.ok ()

/-! ## Units out of reach -/

/-- From `s` to `t` unit `v` stays as it is, and so does the table that says which units a command can reach. -/
structure Spares (v : UnitId) (s t : State) : Prop where
  inst : t.inst = s.inst
  unit : t.unit? v = s.unit? v

/-- A part of a command spares unit `v`, however it ends. -/
def Spared {α : Type} (v : UnitId) (s : State) : Res α → Prop
  | .ok _ t => Spares v s t
  | .raised t => Spares v s t
  | .stop _ => True
  | .refuse _ => True

/-- A command spares unit `v`. -/
def SparedOutcome (v : UnitId) (s : State) : Host.Outcome State Fault Refusal → Prop
  | .next t => Spares v s t
  | .fault _ => True
  | .refused _ => True

/-- Unit `v` is neither `u` nor a child of `u`. -/
structure Beside (v : UnitId) (s : State) (u : UnitId) : Prop where
  ne : v ≠ u
  notChild : v ∉ s.childIds u

/-- Unit `v` is none of those a command on `u` may reach: it is not `u`, no child of `u` and no child of a child. -/
def Outside (v : UnitId) (s : State) (u : UnitId) : Prop := v ∉ s.family u

theorem State.childIds_of_lookup {s : State} {u : UnitId} {e : InstEntry} (h : s.inst.lookup u = some e) :
    s.childIds u = e.children.map Prod.fst := by
  rw [State.inst_lookup, Option.map_eq_some_iff] at h
  obtain ⟨r, hr, rfl⟩ := h
  rw [State.childIds, hr]

section
variable {v u c : UnitId} {s : State} {e : InstEntry}

theorem Beside.child (h : Beside v s u) (he : s.inst.lookup u = some e)
    (hc : c ∈ e.children.map Prod.fst := by simp [UnitRec.entry, InstEntry.children]) : v ≠ c := by
  rintro rfl
  exact h.notChild (State.childIds_of_lookup he ▸ hc)

theorem Outside.beside (h : Outside v s u) : Beside v s u := by
  simp only [Outside, State.family, List.mem_cons, List.mem_append, not_or] at h
  obtain ⟨hne, hchild, -⟩ := h
  exact ⟨hne, hchild⟩

theorem Outside.child (h : Outside v s u) (he : s.inst.lookup u = some e)
    (hc : c ∈ e.children.map Prod.fst := by simp [UnitRec.entry, InstEntry.children]) : Beside v s c := by
  rw [← State.childIds_of_lookup he] at hc
  refine ⟨fun hvc => h.beside.notChild (hvc ▸ hc), fun hgrand => h ?_⟩
  exact List.mem_cons_of_mem _ (List.mem_append_right _ (List.mem_flatMap.2 ⟨c, hc, hgrand⟩))

end

/-! ## Composition -/

section
variable {α β : Type} {v : UnitId} {s t : State}

theorem Spares.refl (v : UnitId) (s : State) : Spares v s s := ⟨rfl, rfl⟩

theorem Spares.of_units (k : Spares v s t) {t' : State} (h : t'.units = t.units) : Spares v s t' where
  inst := by rw [← k.inst, State.inst, State.inst, h]
  unit := by rw [← k.unit, State.unit?, State.unit?, h]

theorem Spares.withPrng (k : Spares v s t) (p : BitVec 31) : Spares v s { t with prng := p } :=
  k.of_units rfl

theorem KeepsUnits.spared {r : Res α} (h : KeepsUnits t r) (k : Spares v s t) : Spared v s r := by
  cases r with
  | ok a t' => exact k.of_units h
  | raised t' => exact k.of_units h
  | stop e => trivial
  | refuse e => trivial

theorem Spared.bind {r : Res α} {f : α → State → Res β} (h : Spared v s r)
    (hf : ∀ a t, r = .ok a t → Spares v s t → Spared v s (f a t)) : Spared v s (r.bind f) := by
  cases r with
  | ok a t => exact hf a t rfl h
  | raised t => exact h
  | stop e => trivial
  | refuse e => trivial

theorem Spared.map {r : Res α} (h : Spared v s r) (f : α → β) : Spared v s (r.map f) :=
  h.bind fun _ _ _ k => k

/-- A part that changes no unit, then one that spares `v`. -/
theorem KeepsUnits.then_spared {r : Res α} {f : α → State → Res β} (h : KeepsUnits t r) (k : Spares v s t)
    (hf : ∀ a t, Spares v s t → Spared v s (f a t)) : Spared v s (r.bind f) :=
  (h.spared k).bind fun a t _ k => hf a t k

/-- A part that goes on with the record of `u`. -/
theorem Finds.then_spared {form : α → UnitRec} {u : UnitId} {r : Res α} {f : α → State → Res β}
    (h : Finds form u t r) (k : Spares v s t)
    (hf : ∀ a, s.inst.lookup u = some (form a).entry → Spared v s (f a t)) : Spared v s (r.bind f) := by
  obtain ⟨a, ha, rfl⟩ | rfl := h
  · exact hf a (by rw [← k.inst, State.inst_lookup, ha, Option.map_some])
  · trivial

/-- Another unit's record put back with the entry the table gives its id. -/
theorem put_spared (k : Spares v s t) {u : UnitId} (hv : v ≠ u) {r : UnitRec} {e : InstEntry}
    (h : s.inst.lookup u = some e)
    (he : r.entry = e := by simp [UnitRec.entry, setVoice_units, Function.comp_def]) : Spared v s (put u r t) := by
  rw [← k.inst, State.inst_lookup, Option.map_eq_some_iff] at h
  obtain ⟨q, hq, hqe⟩ := h
  exact ⟨(State.inst_putUnit hq (he.trans hqe.symm)).trans k.inst,
    (State.unit?_putUnit_other hv t r).trans k.unit⟩

/-- A write that goes on gives the memory with the element set. -/
theorem memWrite_spared {u : UnitId} {m : Memory} {j : Nat} {x : F32} {f : Memory → State → Res β}
    (hf : Spared v s (f (m.set j x) t)) : Spared v s ((memWrite u m j x t).bind f) := by
  by_cases hj : j < m.cap
  · rw [memWrite_eq hj]
    exact hf
  · rw [memWrite, Memory.write?_none (Nat.le_of_not_lt hj)]
    trivial

end

section
variable {v u : UnitId} {s t : State} (k : Spares v s t) (hv : v ≠ u)
include k hv

/-! ## Classes BQ, FO, FIR -/

theorem bqStep_spared (x : F32) : Spared v s (bqStep u x t) :=
  (getBq_finds u t).then_spared k fun b hb =>
  (needCfg_keepsUnits b.cfg u t).then_spared k fun _ _ k => (put_spared k hv hb).map _

theorem bqFlush_spared : Spared v s (bqFlush u t) :=
  (getBq_finds u t).then_spared k fun _ hb => put_spared k hv hb

theorem bqLoad_spared (c : BqCoef) : Spared v s (bqLoad u c t) :=
  (getBq_finds u t).then_spared k fun _ hb => put_spared k hv hb

theorem bqSwap_spared (c : BqCoef) : Spared v s (bqSwap u c t) :=
  (getBq_finds u t).then_spared k fun _ hb => put_spared k hv hb

theorem bqDesign_spared (design : Word → BqCoef) : Spared v s (bqDesign u design t) :=
  (needFs_keepsUnits t).then_spared k fun fs _ k => bqLoad_spared k hv (design fs)

theorem foStep_spared (x : F32) : Spared v s (foStep u x t) :=
  (getFo_finds u t).then_spared k fun r hr =>
  (needCfg_keepsUnits r.cfg u t).then_spared k fun _ _ k => (put_spared k hv hr).map _

theorem foFlush_spared : Spared v s (foFlush u t) :=
  (getFo_finds u t).then_spared k fun _ hr => put_spared k hv hr

theorem foLoad_spared (c : FoCoef) : Spared v s (foLoad u c t) :=
  (getFo_finds u t).then_spared k fun _ hr => put_spared k hv hr

theorem foDesign_spared (design : Word → FoCoef) : Spared v s (foDesign u design t) :=
  (needFs_keepsUnits t).then_spared k fun fs _ k => foLoad_spared k hv (design fs)

theorem firStep_spared (x : F32) : Spared v s (firStep u x t) :=
  (getFir_finds u t).then_spared k fun r hr =>
  (needCfg_keepsUnits r.cfg u t).then_spared k fun _ t k =>
  memWrite_spared <|
  (memRead_keepsUnits u r.c 0 t).then_spared k fun _ t k =>
  (memRead_keepsUnits u _ r.pos t).then_spared k fun _ t k =>
  (firTaps_keepsUnits u r.c _ r.pos _ 1 _ t).then_spared k fun _ _ k => (put_spared k hv hr).map _

theorem firFlush_spared : Spared v s (firFlush u t) :=
  (getFir_finds u t).then_spared k fun _ hr => put_spared k hv hr

theorem firLoad_spared (cs : List F32) : Spared v s (firLoad u cs t) := by
  refine (getFir_finds u t).then_spared k fun r hr => ?_
  split
  · exact put_spared k hv hr
  · trivial

/-! ## Classes DL, FD, WS -/

theorem dlSetup_spared (n : Nat) : Spared v s (dlSetup u n t) :=
  (getDl_finds u t).then_spared k fun _ hr =>
  (require_keepsUnits _ .delayLen u t).then_spared k fun _ _ k => put_spared k hv hr

theorem dlStep_spared (x : F32) : Spared v s (dlStep u x t) :=
  (getDl_finds u t).then_spared k fun r hr =>
  (needCfg_keepsUnits r.cfg u t).then_spared k fun _ t k =>
  (memRead_keepsUnits u r.buf r.extractFrom t).then_spared k fun _ _ k =>
  memWrite_spared ((put_spared k hv hr).map _)

theorem dlFlush_spared : Spared v s (dlFlush u t) :=
  (getDl_finds u t).then_spared k fun _ hr => put_spared k hv hr

theorem fdSetup_spared (n : F32) : Spared v s (fdSetup u n t) :=
  (getFd_finds u t).then_spared k fun _ hr =>
  (require_keepsUnits _ .delayLen u t).then_spared k fun _ _ k => put_spared k hv hr

theorem fdStep_spared (x : F32) : Spared v s (fdStep u x t) :=
  (fdPeek_keepsUnits u t).then_spared k fun _ t k =>
  (getFd_finds u t).then_spared k fun _ hr => memWrite_spared ((put_spared k hv hr).map _)

theorem fdFlush_spared : Spared v s (fdFlush u t) :=
  (getFd_finds u t).then_spared k fun _ hr => put_spared k hv hr

theorem wsSetup_spared (min max : F32) (tab : List F32) : Spared v s (wsSetup u min max tab t) :=
  (getWs_finds u t).then_spared k fun _ hr =>
  (require_keepsUnits _ .wsTable u t).then_spared k fun _ t k =>
  (require_keepsUnits _ .wsDomain u t).then_spared k fun _ _ k => put_spared k hv hr

/-! ## Registers of composites -/

theorem tsSetup_spared (gain supply rk rp : F32) : Spared v s (tsSetup u gain supply rk rp t) :=
  (getTs_finds u t).then_spared k fun _ hr => put_spared k hv hr

theorem tsSetBias_spared (b : F32) : Spared v s (tsSetBias u b t) :=
  (getTs_finds u t).then_spared k fun _ hr => put_spared k hv hr

theorem tsGain_spared (gain : F32) : Spared v s (tsGain u gain t) :=
  (getTs_finds u t).then_spared k fun r hr =>
  (needCfg_keepsUnits r.cfg u t).then_spared k fun _ _ k => put_spared k hv hr

theorem rvSetCfg_spared : Spared v s (rvSetCfg u t) :=
  (getRv_finds u t).then_spared k fun _ hr => put_spared k hv hr

theorem ksTrig_spared : Spared v s (ksTrig u t) :=
  (getKs_finds u t).then_spared k fun _ hr => put_spared k hv hr

theorem ksMute_spared : Spared v s (ksMute u t) :=
  (getKs_finds u t).then_spared k fun _ hr => put_spared k hv hr

theorem ksExcitation_spared {r : Ks} (hr : s.inst.lookup u = some (UnitRec.ks r).entry) :
    Spared v s (ksExcitation u r t) := by
  unfold ksExcitation
  split
  · exact k
  · exact (put_spared k hv hr).bind fun _ t _ k => (draw_keepsUnits t).then_spared k fun _ _ k => k

theorem vbTick_spared : Spared v s (vbTick u t) :=
  (getVb_finds u t).then_spared k fun _ hr => put_spared k hv hr

theorem dmCfg_spared (pattern : BitVec 16) (bpm : Word) : Spared v s (dmCfg u pattern bpm t) :=
  (getDm_finds u t).then_spared k fun r hr =>
  (needFs_keepsUnits t).then_spared k fun _ t k =>
  (require_keepsUnits _ .dmParam u t).then_spared k fun _ t k =>
  (romRead_keepsUnits u r.patterns _ t).then_spared k fun _ t k =>
  (require_keepsUnits _ .dmParam u t).then_spared k fun _ _ k => put_spared k hv hr

end

section
variable {v u : UnitId} {s t : State} (k : Spares v s t) (hv : Beside v s u)
include k hv

/-! ## Composites of one level: TS, APF, CMB, KS, DM -/

theorem tsStep_spared (x : F32) : Spared v s (tsStep u x t) :=
  (getTs_finds u t).then_spared k fun r hr =>
  (needCfg_keepsUnits r.cfg u t).then_spared k fun _ _ k =>
  (bqStep_spared k (hv.child hr) _).bind fun _ t _ k =>
  (wsStep_keepsUnits r.curve _ t).then_spared k fun x4 _ k =>
  (foStep_spared k (hv.child hr) _).bind fun b _ _ k =>
  (tsSetBias_spared k hv.ne b).bind fun _ _ _ k => foStep_spared k (hv.child hr) x4

theorem tsFlush_spared : Spared v s (tsFlush u t) :=
  (getTs_finds u t).then_spared k fun r hr =>
  (tsSetBias_spared k hv.ne c0).bind fun _ _ _ k =>
  (bqFlush_spared k (hv.child hr)).bind fun _ t _ k =>
  (wsFlush_keepsUnits r.curve t).then_spared k fun _ _ k =>
  (foFlush_spared k (hv.child hr)).bind fun _ _ _ k => foFlush_spared k (hv.child hr)

theorem apfSetup_spared (n : Nat) (gb gf : F32) : Spared v s (apfSetup u n gb gf t) :=
  (getApf_finds u t).then_spared k fun _ hr =>
  (dlSetup_spared k (hv.child hr) n).bind fun _ _ _ k => put_spared k hv.ne hr

theorem apfStep_spared (x : F32) : Spared v s (apfStep u x t) :=
  (getApf_finds u t).then_spared k fun r hr =>
  (needCfg_keepsUnits r.cfg u t).then_spared k fun _ t k =>
  (dlPeek_keepsUnits r.dl t).then_spared k fun _ _ k => (dlStep_spared k (hv.child hr) _).map _

theorem apfFlush_spared : Spared v s (apfFlush u t) :=
  (getApf_finds u t).then_spared k fun _ hr => dlFlush_spared k (hv.child hr)

theorem cmbSetup_spared (n : Nat) (gb : F32) : Spared v s (cmbSetup u n gb t) :=
  (getCmb_finds u t).then_spared k fun _ hr =>
  (dlSetup_spared k (hv.child hr) n).bind fun _ _ _ k => put_spared k hv.ne hr

theorem cmbStep_spared (x : F32) : Spared v s (cmbStep u x t) :=
  (getCmb_finds u t).then_spared k fun r hr =>
  (needCfg_keepsUnits r.cfg u t).then_spared k fun _ t k =>
  (dlPeek_keepsUnits r.dl t).then_spared k fun _ _ k => (dlStep_spared k (hv.child hr) _).map _

theorem cmbFlush_spared : Spared v s (cmbFlush u t) :=
  (getCmb_finds u t).then_spared k fun _ hr => dlFlush_spared k (hv.child hr)

theorem ksTune_spared (freq : F32) : Spared v s (ksTune u freq t) :=
  (getKs_finds u t).then_spared k fun _ hr =>
  (needFs_keepsUnits t).then_spared k fun _ _ k => fdSetup_spared k (hv.child hr) _

theorem ksStep_spared : Spared v s (ksStep u t) :=
  (getKs_finds u t).then_spared k fun r hr =>
  (getFd_finds r.delay t).then_spared k fun d _ =>
  (needCfg_keepsUnits d.cfg r.delay t).then_spared k fun _ t k =>
  (getFo_finds r.damp t).then_spared k fun f _ =>
  (needCfg_keepsUnits f.cfg r.damp t).then_spared k fun _ _ k =>
  (ksExcitation_spared k hv.ne hr).bind fun _ t _ k =>
  (fdPeek_keepsUnits r.delay t).then_spared k fun p _ k =>
  (foStep_spared k (hv.child hr) p).bind fun _ _ _ k => (fdStep_spared k (hv.child hr) _).map _

theorem ksFlush_spared : Spared v s (ksFlush u t) :=
  (getKs_finds u t).then_spared k fun _ hr =>
  (put_spared k hv.ne hr).bind fun _ _ _ k =>
  (fdFlush_spared k (hv.child hr)).bind fun _ _ _ k => foFlush_spared k (hv.child hr)

theorem dmSetup_spared : Spared v s (dmSetup u t) :=
  (getDm_finds u t).then_spared k fun r hr =>
  (needFs_keepsUnits t).then_spared k fun _ t k =>
  (romRead_keepsUnits u r.patterns _ t).then_spared k fun _ t k =>
  (require_keepsUnits _ .dmParam u t).then_spared k fun _ t k =>
  (romRead_keepsUnits u r.bank 0 t).then_spared k fun c _ k =>
  (bqLoad_spared k (hv.child hr) c).bind fun _ _ _ k => put_spared k hv.ne hr

theorem dmFlush_spared : Spared v s (dmFlush u t) :=
  (getDm_finds u t).then_spared k fun _ hr =>
  (put_spared k hv.ne hr).bind fun _ _ _ k => bqFlush_spared k (hv.child hr)

theorem dmBoundary_spared {r : Dm} (hr : s.inst.lookup u = some (UnitRec.dm r).entry) :
    Spared v s (dmBoundary u r t) :=
  (romRead_keepsUnits u r.patterns _ t).then_spared k fun p t k =>
  (romRead_keepsUnits u p.steps _ t).then_spared k fun _ _ k =>
  (put_spared (k.withPrng _) hv.ne hr (by simp [UnitRec.entry, armDrums_pcm])).bind fun _ t _ k =>
  (draw_keepsUnits t).then_spared k fun _ t k =>
  (romRead_keepsUnits u r.bank _ t).then_spared k fun c _ k => (bqSwap_spared k (hv.child hr) c).map _

theorem dmSubStep_spared {r : Dm} (hr : s.inst.lookup u = some (UnitRec.dm r).entry) :
    Spared v s (dmSubStep u r t) := by
  refine Spared.bind ?_ fun q t' hq k' => ?_
  · split
    · exact dmBoundary_spared k hv hr
    · exact k
  · have hqr : (UnitRec.dm q).entry = (UnitRec.dm r).entry := by
      split at hq
      · exact dmBoundary_entry hq
      · cases hq
        rfl
    exact (put_spared k' hv.ne hr (by rw [← hqr]; simp [UnitRec.entry, mixDrums_pcm])).map _

theorem dmStep_spared : Spared v s (dmStep u t) := by
  refine (getDm_finds u t).then_spared k fun r hr =>
    (needCfg_keepsUnits r.cfg u t).then_spared k fun _ t k => ?_
  refine Spared.bind ?_ fun q t' hq k' => ?_
  · split
    · exact k
    · exact dmSubStep_spared k hv hr
  · have hqr : (UnitRec.dm q).entry = (UnitRec.dm r).entry := by
      split at hq
      · cases hq
        rfl
      · exact dmSubStep_entry hq
    rw [← hqr] at hr
    exact (put_spared k' hv.ne hr).bind fun _ _ _ k => bqStep_spared k (hv.child hr) q.hold

end

/-! ## Composites of two levels: PA, RV, VB -/

theorem romRead_mem {α : Type} {u : UnitId} {l : List α} {j : Nat} {a : α} {s t : State}
    (h : romRead u l j s = .ok a t) : a ∈ l := by
  unfold romRead at h
  split at h
  · rename_i hj
    cases h
    exact List.mem_of_getElem? hj
  · cases h

section
variable {v : UnitId} {s t : State} (k : Spares v s t)
include k

theorem vbSum_spared (vs : List Voice) (hvs : ∀ w ∈ vs, Beside v s w.unit) (acc : F32) :
    Spared v s (vbSum vs acc t) := by
  induction vs generalizing t acc with
  | nil => exact k
  | cons w vs ih =>
    rw [List.forall_mem_cons] at hvs
    exact (ksStep_spared k hvs.1).bind fun _ _ _ k => ih k hvs.2 _

theorem vbFlushVoices_spared (vs : List Voice) (hvs : ∀ w ∈ vs, Beside v s w.unit) :
    Spared v s (vbFlushVoices vs t) := by
  induction vs generalizing t with
  | nil => exact k
  | cons w vs ih =>
    rw [List.forall_mem_cons] at hvs
    exact (ksFlush_spared k hvs.1).bind fun _ _ _ k => ih k hvs.2

end

theorem Outside.voice {v u : UnitId} {s : State} (hv : Outside v s u) {r : Vb}
    (hr : s.inst.lookup u = some (UnitRec.vb r).entry) : ∀ w ∈ r.voices, Beside v s w.unit := fun w hw =>
  hv.child hr (by
    simp only [UnitRec.entry, InstEntry.children, List.map_map]
    exact List.mem_map.2 ⟨w, hw, rfl⟩)

section
variable {v u : UnitId} {s t : State} (k : Spares v s t) (hv : Outside v s u)
include k hv

theorem paStep_spared (x : F32) : Spared v s (paStep u x t) :=
  (getPa_finds u t).then_spared k fun _ hr =>
  (tsStep_spared k (hv.child hr) x).bind fun a _ _ k =>
  (tsStep_spared k (hv.child hr) a).bind fun b _ _ k =>
  tsStep_spared k (hv.child hr) b

theorem paFlush_spared : Spared v s (paFlush u t) :=
  (getPa_finds u t).then_spared k fun _ hr =>
  (tsFlush_spared k (hv.child hr)).bind fun _ _ _ k =>
  (tsFlush_spared k (hv.child hr)).bind fun _ _ _ k =>
  tsFlush_spared k (hv.child hr)

theorem rvSetup_spared : Spared v s (rvSetup u t) :=
  (getRv_finds u t).then_spared k fun _ hr =>
  (apfSetup_spared k (hv.child hr) _ _ _).bind fun _ _ _ k =>
  (apfSetup_spared k (hv.child hr) _ _ _).bind fun _ _ _ k =>
  (apfSetup_spared k (hv.child hr) _ _ _).bind fun _ _ _ k =>
  (cmbSetup_spared k (hv.child hr) _ _).bind fun _ _ _ k =>
  (cmbSetup_spared k (hv.child hr) _ _).bind fun _ _ _ k =>
  (cmbSetup_spared k (hv.child hr) _ _).bind fun _ _ _ k =>
  (cmbSetup_spared k (hv.child hr) _ _).bind fun _ _ _ k =>
  rvSetCfg_spared k hv.beside.ne

theorem rvStep_spared (x : F32) : Spared v s (rvStep u x t) :=
  (getRv_finds u t).then_spared k fun r hr =>
  (needCfg_keepsUnits r.cfg u t).then_spared k fun _ _ k =>
  (apfStep_spared k (hv.child hr) _).bind fun a _ _ k =>
  (apfStep_spared k (hv.child hr) a).bind fun a _ _ k =>
  (apfStep_spared k (hv.child hr) a).bind fun a _ _ k =>
  (cmbStep_spared k (hv.child hr) a).bind fun _ _ _ k =>
  (cmbStep_spared k (hv.child hr) a).bind fun _ _ _ k =>
  (cmbStep_spared k (hv.child hr) a).bind fun _ _ _ k =>
  (cmbStep_spared k (hv.child hr) a).map _

theorem rvFlush_spared : Spared v s (rvFlush u t) :=
  (getRv_finds u t).then_spared k fun _ hr =>
  (apfFlush_spared k (hv.child hr)).bind fun _ _ _ k =>
  (apfFlush_spared k (hv.child hr)).bind fun _ _ _ k =>
  (apfFlush_spared k (hv.child hr)).bind fun _ _ _ k =>
  (cmbFlush_spared k (hv.child hr)).bind fun _ _ _ k =>
  (cmbFlush_spared k (hv.child hr)).bind fun _ _ _ k =>
  (cmbFlush_spared k (hv.child hr)).bind fun _ _ _ k =>
  cmbFlush_spared k (hv.child hr)

theorem vbNoteOn_spared (note : BitVec 7) : Spared v s (vbNoteOn u note t) := by
  refine (getVb_finds u t).then_spared k fun r hr => ?_
  split
  · trivial
  · rename_i j _
    refine ((romRead_keepsUnits u r.voices j t).spared k).bind fun w _ hw k => ?_
    have hvw := hv.voice hr w (romRead_mem hw)
    exact (put_spared k hv.beside.ne hr).bind fun _ _ _ k =>
      (ksTune_spared k hvw _).bind fun _ _ _ k => ksTrig_spared k hvw.ne

theorem vbNoteOff_spared (note : BitVec 7) : Spared v s (vbNoteOff u note t) := by
  refine (getVb_finds u t).then_spared k fun r hr => ?_
  split
  · exact k
  split
  · exact k
  · rename_i j _ _
    refine ((romRead_keepsUnits u r.voices j t).spared k).bind fun w _ hw k => ?_
    exact (put_spared k hv.beside.ne hr).bind fun _ _ _ k =>
      ksMute_spared k (hv.voice hr w (romRead_mem hw)).ne

theorem vbStep_spared : Spared v s (vbStep u t) := by
  refine (getVb_finds u t).then_spared k fun r hr => ?_
  have hvs := hv.voice hr
  split
  · trivial
  · rename_i w vs heq
    rw [heq, List.forall_mem_cons] at hvs
    exact (ksStep_spared k hvs.1).bind fun _ _ _ k =>
      (vbSum_spared k vs hvs.2 _).bind fun _ _ _ k => (vbTick_spared k hv.beside.ne).map _

theorem vbFlush_spared : Spared v s (vbFlush u t) :=
  (getVb_finds u t).then_spared k fun r hr =>
  (put_spared k hv.beside.ne hr).bind fun _ _ _ k =>
  vbFlushVoices_spared k r.voices (hv.voice hr)

end

/-! ## `PROC` -/

section
variable {v : UnitId} {s : State}

theorem procLoop_spared {step : F32 → State → Res F32}
    (hstep : ∀ {t}, Spares v s t → ∀ x, Spared v s (step x t)) (xs : List F32) :
    ∀ {t}, Spares v s t → Spared v s (procLoop step xs t) := by
  induction xs with
  | nil => intro t k; exact k
  | cons x xs ih => intro t k; exact (hstep k x).bind fun _ _ _ k => (ih k).map _

theorem genLoop_spared {step : State → Res F32} (hstep : ∀ {t}, Spares v s t → Spared v s (step t)) (n : Nat) :
    ∀ {t}, Spares v s t → Spared v s (genLoop step n t) := by
  induction n with
  | zero => intro t k; exact k
  | succ n ih => intro t k; exact (hstep k).bind fun _ _ _ k => (ih k).map _

/-! ## Every command on a unit -/

theorem Spared.conclude {r : Res (List Word)} (h : Spared v s r) : SparedOutcome v s (conclude r) := by
  cases r with
  | ok ws t => exact Spares.of_units h (t.respond_units ws)
  | raised t => exact h
  | stop e => trivial
  | refuse e => trivial

theorem command_spared {u : UnitId} {c : UnitClass} {body : State → Res (List Word)}
    (hb : Spared v s (body s)) : SparedOutcome v s (command u c body s) := by
  unfold command checked
  split
  · exact Spares.refl v s
  split
  · exact hb.conclude
  · exact ((raise_keepsUnits .illegalCmd u s).spared (α := List Word) (Spares.refl v s)).conclude

end

/-- A command on `u` spares every unit outside the family of `u`, from every state. -/
theorem exec_spared {i : Instr} {u v : UnitId} {c : UnitClass} {s : State} (ht : i.target = some (u, c))
    (hv : Outside v s u) : SparedOutcome v s (exec i s) := by
  have k := Spares.refl v s
  have hnear := hv.beside
  have hne := hnear.ne
  cases i
  all_goals cases ht
  case bqStep => exact command_spared ((bqStep_spared k hne _).map _)
  case bqProc xs => exact command_spared (procLoop_spared (fun k => bqStep_spared k hne) xs k)
  case bqFlush => exact command_spared ((bqFlush_spared k hne).map _)
  case bqLdc => exact command_spared ((bqLoad_spared k hne _).map _)
  case bqLp | bqHp | bqBp | bqBs | bqAp | bqPk | bqLs | bqHs =>
    exact command_spared ((bqDesign_spared k hne _).map _)
  case bqRdc =>
    exact command_spared ((getBq_finds u s).then_spared k fun r _ => ((needCfg_keepsUnits r.cfg u s).spared k).map _)
  case foStep => exact command_spared ((foStep_spared k hne _).map _)
  case foProc xs => exact command_spared (procLoop_spared (fun k => foStep_spared k hne) xs k)
  case foFlush => exact command_spared ((foFlush_spared k hne).map _)
  case foLdc => exact command_spared ((foLoad_spared k hne _).map _)
  case foLp | foHp => exact command_spared ((foDesign_spared k hne _).map _)
  case foRdc =>
    exact command_spared ((getFo_finds u s).then_spared k fun r _ => ((needCfg_keepsUnits r.cfg u s).spared k).map _)
  case firStep => exact command_spared ((firStep_spared k hne _).map _)
  case firProc xs => exact command_spared (procLoop_spared (fun k => firStep_spared k hne) xs k)
  case firFlush => exact command_spared ((firFlush_spared k hne).map _)
  case firLdc => exact command_spared ((firLoad_spared k hne _).map _)
  case dlStep => exact command_spared ((dlStep_spared k hne _).map _)
  case dlProc xs => exact command_spared (procLoop_spared (fun k => dlStep_spared k hne) xs k)
  case dlFlush => exact command_spared ((dlFlush_spared k hne).map _)
  case dlSetup => exact command_spared ((dlSetup_spared k hne _).map _)
  case dlPeek => exact command_spared (((dlPeek_keepsUnits u s).spared k).map _)
  case fdStep => exact command_spared ((fdStep_spared k hne _).map _)
  case fdProc xs => exact command_spared (procLoop_spared (fun k => fdStep_spared k hne) xs k)
  case fdFlush => exact command_spared ((fdFlush_spared k hne).map _)
  case fdSetup => exact command_spared ((fdSetup_spared k hne _).map _)
  case fdPeek => exact command_spared (((fdPeek_keepsUnits u s).spared k).map _)
  case wsStep x => exact command_spared (((wsStep_keepsUnits u x s).spared k).map _)
  case wsProc xs => exact command_spared (procLoop_spared (fun k x => (wsStep_keepsUnits u x _).spared k) xs k)
  case wsFlush => exact command_spared (((wsFlush_keepsUnits u s).spared k).map _)
  case wsSetup => exact command_spared ((wsSetup_spared k hne _ _ _).map _)
  case tsStep => exact command_spared ((tsStep_spared k hnear _).map _)
  case tsProc xs => exact command_spared (procLoop_spared (fun k => tsStep_spared k hnear) xs k)
  case tsFlush => exact command_spared ((tsFlush_spared k hnear).map _)
  case tsSetup => exact command_spared ((tsSetup_spared k hne _ _ _ _).map _)
  case tsGain => exact command_spared ((tsGain_spared k hne _).map _)
  case tsRdgain =>
    exact command_spared ((getTs_finds u s).then_spared k fun r _ => ((needCfg_keepsUnits r.cfg u s).spared k).map _)
  case paStep => exact command_spared ((paStep_spared k hv _).map _)
  case paProc xs => exact command_spared (procLoop_spared (fun k => paStep_spared k hv) xs k)
  case paFlush => exact command_spared ((paFlush_spared k hv).map _)
  case apfStep => exact command_spared ((apfStep_spared k hnear _).map _)
  case apfProc xs => exact command_spared (procLoop_spared (fun k => apfStep_spared k hnear) xs k)
  case apfFlush => exact command_spared ((apfFlush_spared k hnear).map _)
  case apfSetup => exact command_spared ((apfSetup_spared k hnear _ _ _).map _)
  case cmbStep => exact command_spared ((cmbStep_spared k hnear _).map _)
  case cmbProc xs => exact command_spared (procLoop_spared (fun k => cmbStep_spared k hnear) xs k)
  case cmbFlush => exact command_spared ((cmbFlush_spared k hnear).map _)
  case cmbSetup => exact command_spared ((cmbSetup_spared k hnear _ _).map _)
  case rvStep => exact command_spared ((rvStep_spared k hv _).map _)
  case rvProc xs => exact command_spared (procLoop_spared (fun k => rvStep_spared k hv) xs k)
  case rvFlush => exact command_spared ((rvFlush_spared k hv).map _)
  case rvSetup => exact command_spared ((rvSetup_spared k hv).map _)
  case ksStep => exact command_spared ((ksStep_spared k hnear).map _)
  case ksProc n => exact command_spared (genLoop_spared (fun k => ksStep_spared k hnear) n.toNat k)
  case ksFlush => exact command_spared ((ksFlush_spared k hnear).map _)
  case ksTune => exact command_spared ((ksTune_spared k hnear _).map _)
  case ksTrig => exact command_spared ((ksTrig_spared k hne).map _)
  case ksMute => exact command_spared ((ksMute_spared k hne).map _)
  case vbStep => exact command_spared ((vbStep_spared k hv).map _)
  case vbProc n => exact command_spared (genLoop_spared (fun k => vbStep_spared k hv) n.toNat k)
  case vbFlush => exact command_spared ((vbFlush_spared k hv).map _)
  case vbNoteon => exact command_spared ((vbNoteOn_spared k hv _).map _)
  case vbNoteoff => exact command_spared ((vbNoteOff_spared k hv _).map _)
  case dmStep => exact command_spared ((dmStep_spared k hnear).map _)
  case dmProc n => exact command_spared (genLoop_spared (fun k => dmStep_spared k hnear) n.toNat k)
  case dmFlush => exact command_spared ((dmFlush_spared k hnear).map _)
  case dmSetup => exact command_spared ((dmSetup_spared k hnear).map _)
  case dmCfg => exact command_spared ((dmCfg_spared k hne _ _).map _)
  case dmRdcfg => exact command_spared (((getDm_finds u s).keepsUnits.map _).spared k)

end Sys2Proof.Machine
end

section
/-! PROOF of O15. A command on a unit spares what is outside the unit's family; a command of class SYS has no part that
changes a unit, but for `SYS.DRAIN`. -/

namespace Sys2Proof.Machine

theorem sysSetfs_keepsUnits (fs : Word) (s : State) : KeepsUnits s (sysSetfs fs s) :=
  (require_keepsUnits _ .fsBad 0 s).bind fun _ t => show t.units = t.units from rfl

theorem sysSeed_keepsUnits (seed : Word) (s : State) : KeepsUnits s (sysSeed seed s) :=
  (require_keepsUnits _ .seedBad 0 s).bind fun _ t => show t.units = t.units from rfl

/-- A command of class SYS whose rule changes no unit. -/
theorem sysCommand_units {s t : State} {body : State → Res (List Word)} (hb : KeepsUnits s (body s))
    (h : sysCommand body s = .next t) : t.units = s.units := by
  unfold sysCommand at h
  split at h
  · cases h
    rfl
  · cases hr : body s with
    | ok ws t' =>
      rw [hr] at h hb
      cases h
      exact hb
    | raised t' =>
      rw [hr] at h hb
      cases h
      exact hb
    | stop e => rw [hr] at h; cases h
    | refuse e => rw [hr] at h; cases h

theorem exec_units_of_sys {i : Instr} {s t : State} (ht : i.target = none) (hi : i ≠ .sysDrain)
    (h : exec i s = .next t) : t.units = s.units := by
  cases i
  all_goals cases ht
  case sysNop | sysRaw => exact sysCommand_units (body := fun s => .ok [] s) (KeepsUnits.ok _) h
  case sysSetfs fs =>
    exact sysCommand_units (body := fun s => silent (sysSetfs fs s))
      ((sysSetfs_keepsUnits fs s).map _) h
  case sysRdfs => exact sysCommand_units (body := fun s => single (needFs s)) ((needFs_keepsUnits s).map _) h
  case sysDrain => exact absurd rfl hi
  case sysRdstat =>
    cases h
    rfl
  case sysSeed seed =>
    exact sysCommand_units (body := fun s => silent (sysSeed seed s))
      ((sysSeed_keepsUnits seed s).map _) h
  case sysRand =>
    exact sysCommand_units (body := fun s => single ((draw s).map fun d => d.setWidth 32))
      (((draw_keepsUnits s).map _).map _) h
  case sysRandf =>
    exact sysCommand_units (body := fun s => single ((draw s).map fun d => prngToFloat s.params d))
      (((draw_keepsUnits s).map _).map _) h

/-- Settles O15: by `exec_spared` for a command on a unit, by the rule for one of class SYS. -/
theorem commandReach : Obligations.CommandReach := by
  refine ⟨fun i s t u c ht h v hv => ?_, fun i s t ht hi h => exec_units_of_sys ht hi h⟩
  have hspared := exec_spared (s := s) ht hv
  rw [h] at hspared
  exact hspared.unit

end Sys2Proof.Machine
end

section
/-! SUPPORT. What a command word and its operand words decode to, from any words: a command that is well formed and has
exactly those words, or, where a check of R109 fails, an error (R100 to R110). One lemma per form of the decoder's arms. -/

namespace Sys2Proof

open Sys2Proof.Machine

/-! ## Words and their fields -/

/-- A command word is its three fields (R101). -/
theorem exists_mkCw (cw : Word) : ∃ op u imm, cw = mkCw op u imm := by
  refine ⟨opField cw, unitField cw, immField cw, BitVec.eq_of_toNat_eq ?_⟩
  rw [mkCw_toNat, opField, unitField, immField, BitVec.extractLsb'_toNat, BitVec.extractLsb'_toNat,
    BitVec.extractLsb'_toNat, Nat.shiftRight_eq_div_pow, Nat.shiftRight_eq_div_pow, Nat.shiftRight_eq_div_pow]
  omega

theorem opcode_eq_ofNat {op : BitVec 8} {n : Nat} (h : op.toNat = n) : op = BitVec.ofNat 8 n := by
  rw [← h, BitVec.ofNat_toNat, BitVec.setWidth_eq]

/-- A note operation's immediate is its note and velocity when bits 7 and 15 are 0 (R115). -/
theorem noteImm_fields {imm : BitVec 16} (h7 : imm.getLsbD 7 = false) (h15 : imm.getLsbD 15 = false) :
    noteImm (noteField imm) (velocityField imm) = imm := by
  rw [BitVec.getLsbD_eq_getElem (by decide)] at h7 h15
  apply BitVec.eq_of_getLsbD_eq
  intro j hj
  simp only [noteImm, noteField, velocityField, BitVec.getLsbD_append, BitVec.getLsbD_extractLsb']
  interval_cases j <;> simp [h7, h15]

theorem countFits_of_length {xs : List F32} {imm : BitVec 16} (h : xs.length = imm.toNat) : countFits xs = true :=
  decide_eq_true (h ▸ imm.isLt)

theorem countImm_of_length {xs : List F32} {imm : BitVec 16} (h : xs.length = imm.toNat) : countImm xs = imm := by
  rw [countImm, h, BitVec.ofNat_toNat, BitVec.setWidth_eq]

/-- Reading `k` operand words one by one reads them all. -/
theorem operandWords_eq {xs : List Word} {k : Nat} (h : xs.length = k) :
    (List.range k).map (fun j => xs.getD j 0) = xs := by
  apply List.ext_getElem
  · simp [h]
  · intro j _ hj
    simp [List.getD, hj]

/-- The operand words of format T: two bounds and a table (R102). -/
theorem exists_bounds_table {xs : List Word} {n : Nat} (h : xs.length = 2 + n) :
    ∃ lo hi tab, xs = lo :: hi :: tab ∧ tab.length = n := by
  obtain _ | ⟨lo, _ | ⟨hi, tab⟩⟩ := xs
  · rw [List.length_nil] at h
    omega
  · rw [List.length_singleton] at h
    omega
  · rw [List.length_cons, List.length_cons] at h
    exact ⟨lo, hi, tab, rfl, by omega⟩

/-! ## The opcode map on a built command word -/

/-- The formats whose immediate must be 0 (R109 check 3). -/
def Format.immIsZero : Format → Bool
  | .z | .w _ | .c => true
  | .i | .iw _ | .s | .g | .t => false

theorem encodingFault_reserved {op : BitVec 8} (h : opRow op = none) (u : UnitId) (imm : BitVec 16) :
    encodingFault (mkCw op u imm) = true := by rw [encodingFault, opField_mkCw, h]

/-- The three checks of R109 a used code can fail in decoding. -/
theorem encodingFault_mkCw {op : BitVec 8} {r : OpRow} (h : opRow op = some r) (u : UnitId) (imm : BitVec 16) :
    encodingFault (mkCw op u imm) =
      (decide (op.toNat < 16) && decide (u ≠ 0) || r.format.immIsZero && decide (imm ≠ 0) ||
        decide (op = 0xD4 ∨ op = 0xD5) && (imm.getLsbD 7 || imm.getLsbD 15)) := by
  rw [encodingFault, opField_mkCw, h, unitField_mkCw, immField_mkCw]
  dsimp only
  cases r.format <;> rfl

theorem operandCount_mkCw {op : BitVec 8} {r : OpRow} (h : opRow op = some r) (orders : UnitId → Nat) (u : UnitId)
    (imm : BitVec 16) : operandCount orders (mkCw op u imm) = r.format.operands (orders u) imm.toNat := by
  rw [operandCount, opField_mkCw, h, unitField_mkCw, immField_mkCw]

/-! ## Decoding inverts encoding -/

/-- What the decoder may answer for the words `ws` of one command, `fault` saying whether a check of R109 fails: the
well-formed command that has these words, or an error that is not about missing words. -/
inductive DecodesBack (orders : UnitId → Nat) (ws : List Word) : Bool → Except DecodeError Instr → Prop
  | ok {i : Instr} (hwf : i.wf orders = true) (hws : encode i = ws) : DecodesBack orders ws false (.ok i)
  | error {e : DecodeError} (he : e ≠ .incomplete) : DecodesBack orders ws true (.error e)

section
variable {orders : UnitId → Nat} {op : BitVec 8} {u : UnitId} {imm : BitVec 16} {xs : List Word} {i : Instr} {r : OpRow}

/-- Class SYS: the unit field must be 0, and the rest of the arm is read with it 0. -/
theorem noUnit_decodesBack {d : Except DecodeError Instr} (hrow : opRow op = some r) (hsys : op.toNat < 16)
    (h : DecodesBack orders (mkCw op 0 imm :: xs) (encodingFault (mkCw op 0 imm)) d) :
    DecodesBack orders (mkCw op u imm :: xs) (encodingFault (mkCw op u imm)) (noUnit u d) := by
  by_cases hu : u = 0
  · subst hu
    exact h
  · have hfault : encodingFault (mkCw op u imm) = true := by
      rw [encodingFault_mkCw hrow, decide_eq_true hsys, decide_eq_true hu]
      rfl
    rw [hfault, noUnit, if_neg hu]
    exact .error nofun

/-- Formats Z, Wk and C: the immediate must be 0. -/
theorem noImm_decodesBack (hrow : opRow op = some r) (hzero : r.format.immIsZero = true)
    (hunit : (decide (op.toNat < 16) && decide (u ≠ 0)) = false) (hnote : decide (op = 0xD4 ∨ op = 0xD5) = false)
    (hwf : i.wf orders = true) (hws : encode i = mkCw op u 0 :: xs) :
    DecodesBack orders (mkCw op u imm :: xs) (encodingFault (mkCw op u imm)) (noImm imm i) := by
  rw [encodingFault_mkCw hrow, hzero, hunit, hnote, noImm]
  by_cases himm : imm = 0
  · subst himm
    exact .ok hwf hws
  · rw [if_neg himm, decide_eq_true himm]
    exact .error nofun

/-- The other formats but for the note operations: no field is checked. -/
theorem imm_decodesBack (hrow : opRow op = some r) (himm : r.format.immIsZero = false)
    (hunit : (decide (op.toNat < 16) && decide (u ≠ 0)) = false) (hnote : decide (op = 0xD4 ∨ op = 0xD5) = false)
    (hwf : i.wf orders = true) (hws : encode i = mkCw op u imm :: xs) :
    DecodesBack orders (mkCw op u imm :: xs) (encodingFault (mkCw op u imm)) (.ok i) := by
  rw [encodingFault_mkCw hrow, himm, hunit, hnote]
  exact .ok hwf hws

/-- The note operations: bits 7 and 15 of the immediate must be 0. -/
theorem noteBits_decodesBack (hrow : opRow op = some r) (himm : r.format.immIsZero = false) (hunit : ¬ op.toNat < 16)
    (hnote : op = 0xD4 ∨ op = 0xD5) (hwf : i.wf orders = true)
    (hws : encode i = mkCw op u (noteImm (noteField imm) (velocityField imm)) :: xs) :
    DecodesBack orders (mkCw op u imm :: xs) (encodingFault (mkCw op u imm)) (noteBits imm i) := by
  rw [encodingFault_mkCw hrow, himm, decide_eq_false hunit, decide_eq_true hnote, noteBits]
  by_cases hbits : imm.getLsbD 7 = false ∧ imm.getLsbD 15 = false
  · obtain ⟨h7, h15⟩ := hbits
    rw [noteImm_fields h7 h15] at hws
    simp only [h7, h15]
    exact .ok hwf hws
  · have hset : (imm.getLsbD 7 || imm.getLsbD 15) = true := by
      rw [not_and_or, Bool.not_eq_false, Bool.not_eq_false] at hbits
      exact (Bool.or_eq_true _ _).mpr hbits
    rw [if_neg hbits, hset]
    exact .error nofun

end

/-- A command word with as many operand words as R104 gives it: the decoder's arms, form by form. -/
theorem decodeCommand_decodesBack {orders : UnitId → Nat} {cw : Word} {xs : List Word}
    (hlen : xs.length = operandCount orders cw) :
    DecodesBack orders (cw :: xs) (encodingFault cw) (decodeCommand cw xs) := by
  obtain ⟨op, u, imm, rfl⟩ := exists_mkCw cw
  unfold decodeCommand
  rw [opField_mkCw, unitField_mkCw, immField_mkCw]
  dsimp only
  split
  case h_86 =>
    have hrow : opRow op = none := by
      unfold opRow
      split
      case h_86 => rfl
      all_goals contradiction
    rw [encodingFault_reserved hrow]
    exact .error nofun
  all_goals
    rename_i hop
    obtain rfl := opcode_eq_ofNat hop
    rw [operandCount_mkCw rfl] at hlen
  -- class SYS, whose arms then have one of the forms below
  any_goals apply noUnit_decodesBack rfl (by decide)
  -- formats Z and Wk
  any_goals exact noImm_decodesBack rfl rfl rfl rfl rfl (congrArg (mkCw _ _ _ :: ·) (operandWords_eq hlen))
  -- formats I, G and IWk
  any_goals exact imm_decodesBack rfl rfl rfl rfl rfl (congrArg (mkCw _ _ _ :: ·) (operandWords_eq hlen))
  -- format S
  any_goals
    exact imm_decodesBack rfl rfl rfl rfl (countFits_of_length hlen)
      (congrArg (mkCw _ _ · :: xs) (countImm_of_length hlen))
  · -- FIR.LDC
    exact noImm_decodesBack rfl rfl rfl rfl (decide_eq_true hlen) rfl
  · -- WS.SETUP
    obtain ⟨lo, hi, tab, rfl, htab⟩ := exists_bounds_table hlen
    exact imm_decodesBack rfl rfl rfl rfl (countFits_of_length htab)
      (congrArg (mkCw _ _ · :: lo :: hi :: tab) (countImm_of_length htab))
  · -- VB.NOTEON
    exact noteBits_decodesBack rfl rfl (by decide) (.inl rfl) rfl (congrArg (mkCw _ _ _ :: ·) (operandWords_eq hlen))
  · -- VB.NOTEOFF
    exact noteBits_decodesBack rfl rfl (by decide) (.inr rfl) rfl (congrArg (mkCw _ _ _ :: ·) (operandWords_eq hlen))

theorem encode_of_decodeCommand {orders : UnitId → Nat} {cw : Word} {xs : List Word} {i : Instr}
    (hlen : xs.length = operandCount orders cw) (h : decodeCommand cw xs = .ok i) :
    i.wf orders = true ∧ encode i = cw :: xs := by
  have hback := decodeCommand_decodesBack hlen
  rw [h] at hback
  generalize encodingFault cw = fault at hback
  cases hback with
  | ok hwf hws => exact ⟨hwf, hws⟩

theorem decodeCommand_error {orders : UnitId → Nat} {cw : Word} {xs : List Word}
    (hlen : xs.length = operandCount orders cw) (h : encodingFault cw = true) :
    ∃ e, e ≠ .incomplete ∧ decodeCommand cw xs = .error e := by
  have hback := decodeCommand_decodesBack hlen
  rw [h] at hback
  generalize decodeCommand cw xs = d at hback
  cases hback with
  | error he => exact ⟨_, he, rfl⟩

theorem decodeCommand_ok {orders : UnitId → Nat} {cw : Word} {xs : List Word}
    (hlen : xs.length = operandCount orders cw) (h : encodingFault cw = false) :
    ∃ i, decodeCommand cw xs = .ok i := by
  have hback := decodeCommand_decodesBack hlen
  rw [h] at hback
  generalize decodeCommand cw xs = d at hback
  cases hback with
  | ok => exact ⟨_, rfl⟩

/-! ## A stream of words -/

theorem decode_whole_ok {orders : UnitId → Nat} {cw : Word} {rest : List Word} {i : Instr}
    (hlen : operandCount orders cw ≤ rest.length)
    (h : decodeCommand cw (rest.take (operandCount orders cw)) = .ok i) :
    decode orders (cw :: rest) = .ok (i, rest.drop (operandCount orders cw)) := by
  rw [decode, if_neg (Nat.not_lt.mpr hlen), h]

theorem decode_whole_error {orders : UnitId → Nat} {cw : Word} {rest : List Word} {e : DecodeError}
    (hlen : operandCount orders cw ≤ rest.length)
    (h : decodeCommand cw (rest.take (operandCount orders cw)) = .error e) :
    decode orders (cw :: rest) = .error e := by
  rw [decode, if_neg (Nat.not_lt.mpr hlen), h]

/-- Where a stream decodes, its first word has all its operand words, and these give the command. -/
theorem decode_eq_ok {orders : UnitId → Nat} {ws rest : List Word} {i : Instr} (h : decode orders ws = .ok (i, rest)) :
    ∃ cw xs, ws = cw :: xs ++ rest ∧ xs.length = operandCount orders cw ∧ decodeCommand cw xs = .ok i := by
  cases ws with
  | nil => cases h
  | cons cw tail =>
    by_cases hshort : tail.length < operandCount orders cw
    · rw [decode_incomplete hshort] at h
      cases h
    have hlen := Nat.not_lt.mp hshort
    cases hd : decodeCommand cw (tail.take (operandCount orders cw)) with
    | error e =>
      rw [decode_whole_error hlen hd] at h
      cases h
    | ok j =>
      rw [decode_whole_ok hlen hd] at h
      cases h
      exact ⟨cw, tail.take (operandCount orders cw), by rw [List.cons_append, List.take_append_drop],
        List.length_take_of_le hlen, hd⟩

end Sys2Proof
end

section
/-! PROOF of O1 and O2. Decoding inverts encoding, and encoding decoding. -/

namespace Sys2Proof

/-- Settles O1: this is `decode_encode`. -/
theorem encodeThenDecode : Obligations.EncodeThenDecode :=
  fun _ _ rest hwf => decode_encode hwf rest

/-- Settles O2: the words a command was decoded from are the words it encodes to. -/
theorem decodeThenEncode : Obligations.DecodeThenEncode := by
  intro orders ws i rest h
  obtain ⟨cw, xs, rfl, hlen, hd⟩ := decode_eq_ok h
  obtain ⟨hwf, hws⟩ := encode_of_decodeCommand hlen hd
  exact ⟨hwf, by rw [hws]⟩

end Sys2Proof
end

section
/-! PROOF of O5. A command word decodes exactly when it passes the checks of R109 made in decoding; where one fails, the
engine consumes the command and records the fault. -/

namespace Sys2Proof.Machine

theorem rejectCommand_first {s : State} (h : s.fault = false) (cw : Word) :
    rejectCommand cw s = s.withFault 1 (unitField cw) := by
  rw [rejectCommand, if_neg (Bool.eq_false_iff.mp h), State.recordFault_first h, causeCode]

theorem engineStep_rejects {s : State} {cw : Word} {rest : List Word} {e : DecodeError} (hfault : s.fault = false)
    (hin : s.cmdIn = cw :: rest) (he : e ≠ .incomplete) (h : decode s.firOrder (cw :: rest) = .error e) :
    engineStep s =
      .next (State.withFault { s with cmdIn := rest.drop (operandCount s.firOrder cw) } 1 (unitField cw)) := by
  rw [← rejectCommand_first (s := { s with cmdIn := rest.drop (operandCount s.firOrder cw) }) hfault]
  unfold engineStep
  rw [hin]
  dsimp only
  rw [h]
  cases e with
  | incomplete => exact absurd rfl he
  | reservedOpcode | unitNotZero | immNotZero | noteBitsNotZero => rfl

/-- Settles O5: the codes in use by the opcode map's 256 entries, the rest by `decodeCommand_decodesBack`. -/
theorem reservedEncodingsFault : Obligations.ReservedEncodingsFault := by
  refine ⟨by decide +kernel, fun s ts cw rest hturn hfault hin hlen => ⟨fun hbad => ?_, fun hgood => ?_⟩⟩
  · obtain ⟨e, he, hd⟩ := decodeCommand_error (List.length_take_of_le hlen) hbad
    rw [step_of_engineTurn hturn]
    exact engineStep_rejects (s := { s with turns := ts }) hfault hin he (decode_whole_error hlen hd)
  · obtain ⟨i, hd⟩ := decodeCommand_ok (List.length_take_of_le hlen) hgood
    exact ⟨i, hin ▸ decode_whole_ok hlen hd⟩

end Sys2Proof.Machine
end

section
/-! PROOF of O6. Every command of a unit class passes through `command`, which makes check (2) of R109. -/

namespace Sys2Proof.Machine

theorem exec_eq_command {i : Instr} {u : UnitId} {c : UnitClass} (h : i.target = some (u, c)) :
    ∃ body, exec i = command u c body := by
  cases i
  all_goals cases h
  all_goals exact ⟨_, rfl⟩

/-- Settles O6: by `command_wrongClass`. -/
theorem wrongClassFaults : Obligations.WrongClassFaults := by
  intro i s u c htarget hfault hclass
  obtain ⟨body, hexec⟩ := exec_eq_command htarget
  rw [hexec]
  exact command_wrongClass hfault hclass body

end Sys2Proof.Machine
end

section
/-! SUPPORT. Parts of a command and the response stream, from any state: a part runs alike whatever was responded before
it, and how it ends shows in `FAULT`. So no part responds by itself (R105), and only a part with a waveshaper can refuse
a NaN (R232). -/

namespace Sys2Proof.Machine

/-! ## Running alike -/

/-- The state with another response stream. -/
def State.withResp (s : State) (out : List Word) : State := { s with respOut := out }

@[simp] theorem State.withResp_params (s : State) (out : List Word) : (s.withResp out).params = s.params := rfl
@[simp] theorem State.withResp_fsSet (s : State) (out : List Word) : (s.withResp out).fsSet = s.fsSet := rfl
@[simp] theorem State.withResp_fault (s : State) (out : List Word) : (s.withResp out).fault = s.fault := rfl
@[simp] theorem State.withResp_classOf (s : State) (out : List Word) : (s.withResp out).classOf = s.classOf := rfl
theorem State.recordFault_withResp (s : State) (out : List Word) (c : Cause) (u : UnitId) :
    (s.withResp out).recordFault c u = (s.recordFault c u).withResp out := by
  unfold State.recordFault
  rw [State.withResp_fault]
  split <;> rfl

/-- The same result in another state. -/
def Res.mapState {α : Type} (g : State → State) : Res α → Res α
  | .ok a s => .ok a (g s)
  | .raised s => .raised (g s)
  | .stop e => .stop e
  | .refuse e => .refuse e

/-- How the end of a part shows in `FAULT`: as before where it goes on, 1 where it raised (R361). A NaN is refused only
under the condition `nan`. -/
def Ends {α : Type} (nan : Prop) (s : State) : Res α → Prop
  | .ok _ t => t.fault = s.fault
  | .raised t => t.fault = true
  | .stop _ => True
  | .refuse _ => nan

/-- Results `r` and `r'` of one part, run from `s` and from `s` with the response stream `out`. -/
structure Alike {α : Type} (nan : Prop) (s : State) (out : List Word) (r r' : Res α) : Prop where
  same : r' = r.mapState (·.withResp out)
  ends : Ends nan s r

/-! ## Composition -/

section
variable {α β : Type} {nan : Prop} {s : State} {out : List Word}

theorem Alike.ok (a : α) : Alike nan s out (.ok a s) (.ok a (s.withResp out)) := ⟨rfl, rfl⟩
theorem Alike.stop (e : Fault) : Alike nan s out (.stop e : Res α) (.stop e) := ⟨rfl, trivial⟩
theorem Alike.refuse (h : nan) (e : Refusal) : Alike nan s out (.refuse e : Res α) (.refuse e) := ⟨rfl, h⟩

theorem Alike.bind {r r' : Res α} {f f' : α → State → Res β} (h : Alike nan s out r r')
    (hf : ∀ a t, Alike nan t out (f a t) (f' a (t.withResp out))) : Alike nan s out (r.bind f) (r'.bind f') := by
  obtain ⟨rfl, hends⟩ := h
  cases r with
  | ok a t =>
    obtain ⟨hsame, hends'⟩ := hf a t
    refine ⟨hsame, ?_⟩
    simp only [Res.bind_ok]
    cases hr : f a t with
    | ok b t' => rw [hr] at hends'; exact Eq.trans hends' hends
    | raised t' => rw [hr] at hends'; exact hends'
    | stop e => trivial
    | refuse e => rw [hr] at hends'; exact hends'
  | raised t => exact ⟨rfl, hends⟩
  | stop e => exact ⟨rfl, trivial⟩
  | refuse e => exact ⟨rfl, hends⟩

theorem Alike.map {r r' : Res α} (h : Alike nan s out r r') (f : α → β) :
    Alike nan s out (r.map f) (r'.map f) := h.bind fun a _ => .ok (f a)

theorem raise_alike (c : Cause) (u : UnitId) : Alike nan s out (raise c u s : Res α) (raise c u (s.withResp out)) :=
  ⟨congrArg Res.raised (s.recordFault_withResp out c u), s.recordFault_fault c u⟩

theorem require_alike (ok : Bool) (c : Cause) (u : UnitId) :
    Alike nan s out (require ok c u s) (require ok c u (s.withResp out)) := by
  cases ok with
  | true => exact .ok ()
  | false => exact raise_alike c u

theorem needCfg_alike (cfg : Bool) (u : UnitId) : Alike nan s out (needCfg cfg u s) (needCfg cfg u (s.withResp out)) :=
  require_alike cfg .notSetup u

theorem needFs_alike : Alike nan s out (needFs s) (needFs (s.withResp out)) := by
  unfold needFs
  rw [State.withResp_fsSet]
  split
  · exact .ok s.fs
  · exact raise_alike .notSetup 0

theorem put_alike (u : UnitId) (r : UnitRec) : Alike nan s out (put u r s) (put u r (s.withResp out)) := ⟨rfl, rfl⟩

theorem put_withPrng_alike (u : UnitId) (r : UnitRec) (p : BitVec 31) :
    Alike nan s out (put u r { s with prng := p }) (put u r { s.withResp out with prng := p }) := ⟨rfl, rfl⟩

theorem draw_alike : Alike nan s out (draw s) (draw (s.withResp out)) := ⟨rfl, rfl⟩

theorem memRead_alike (u : UnitId) (m : Memory) (j : Nat) :
    Alike nan s out (memRead u m j s) (memRead u m j (s.withResp out)) := by
  unfold memRead
  cases m.read? j with
  | some v => exact .ok v
  | none => exact .stop _

theorem memWrite_alike (u : UnitId) (m : Memory) (j : Nat) (v : F32) :
    Alike nan s out (memWrite u m j v s) (memWrite u m j v (s.withResp out)) := by
  unfold memWrite
  cases m.write? j v with
  | some m' => exact .ok m'
  | none => exact .stop _

theorem romRead_alike (u : UnitId) (l : List α) (j : Nat) :
    Alike nan s out (romRead u l j s) (romRead u l j (s.withResp out)) := by
  unfold romRead
  cases l[j]? with
  | some v => exact .ok v
  | none => exact .stop _

theorem checked_alike (u : UnitId) (c : UnitClass) {body : State → Res α}
    (hb : Alike nan s out (body s) (body (s.withResp out))) :
    Alike nan s out (checked u c body s) (checked u c body (s.withResp out)) := by
  unfold checked
  rw [State.withResp_classOf]
  split
  · exact hb
  · exact raise_alike .illegalCmd u

/-- The record of a unit does not depend on the response stream. -/
theorem Finds.alike {form : α → UnitRec} {u : UnitId} {get : State → Res α} (h : ∀ t, Finds form u t (get t))
    (hget : ∀ {t : State} {a : α}, t.unit? u = some (form a) → get t = .ok a t) :
    Alike nan s out (get s) (get (s.withResp out)) := by
  obtain ⟨a, ha, hs⟩ | hs := h s
  · have hs' : get (s.withResp out) = _ := hget ha
    rw [hs, hs']
    exact .ok a
  · obtain ⟨a, ha, -⟩ | hs' := h (s.withResp out)
    · rw [hget (t := s) ha] at hs
      cases hs
    · rw [hs, hs']
      exact .stop _

theorem getBq_alike (u : UnitId) : Alike nan s out (getBq u s) (getBq u (s.withResp out)) :=
  Finds.alike (getBq_finds u) getBq_eq
theorem getFo_alike (u : UnitId) : Alike nan s out (getFo u s) (getFo u (s.withResp out)) :=
  Finds.alike (getFo_finds u) getFo_eq
theorem getFir_alike (u : UnitId) : Alike nan s out (getFir u s) (getFir u (s.withResp out)) :=
  Finds.alike (getFir_finds u) getFir_eq
theorem getDl_alike (u : UnitId) : Alike nan s out (getDl u s) (getDl u (s.withResp out)) :=
  Finds.alike (getDl_finds u) getDl_eq
theorem getFd_alike (u : UnitId) : Alike nan s out (getFd u s) (getFd u (s.withResp out)) :=
  Finds.alike (getFd_finds u) getFd_eq
theorem getWs_alike (u : UnitId) : Alike nan s out (getWs u s) (getWs u (s.withResp out)) :=
  Finds.alike (getWs_finds u) getWs_eq
theorem getTs_alike (u : UnitId) : Alike nan s out (getTs u s) (getTs u (s.withResp out)) :=
  Finds.alike (getTs_finds u) getTs_eq
theorem getPa_alike (u : UnitId) : Alike nan s out (getPa u s) (getPa u (s.withResp out)) :=
  Finds.alike (getPa_finds u) getPa_eq
theorem getApf_alike (u : UnitId) : Alike nan s out (getApf u s) (getApf u (s.withResp out)) :=
  Finds.alike (getApf_finds u) getApf_eq
theorem getCmb_alike (u : UnitId) : Alike nan s out (getCmb u s) (getCmb u (s.withResp out)) :=
  Finds.alike (getCmb_finds u) getCmb_eq
theorem getRv_alike (u : UnitId) : Alike nan s out (getRv u s) (getRv u (s.withResp out)) :=
  Finds.alike (getRv_finds u) getRv_eq
theorem getKs_alike (u : UnitId) : Alike nan s out (getKs u s) (getKs u (s.withResp out)) :=
  Finds.alike (getKs_finds u) getKs_eq
theorem getVb_alike (u : UnitId) : Alike nan s out (getVb u s) (getVb u (s.withResp out)) :=
  Finds.alike (getVb_finds u) getVb_eq
theorem getDm_alike (u : UnitId) : Alike nan s out (getDm u s) (getDm u (s.withResp out)) :=
  Finds.alike (getDm_finds u) getDm_eq

/-! ## Classes BQ, FO, FIR -/

theorem bqStep_alike (u : UnitId) (x : F32) : Alike nan s out (bqStep u x s) (bqStep u x (s.withResp out)) :=
  (getBq_alike u).bind fun b _ => (needCfg_alike b.cfg u).bind fun _ _ => (put_alike u _).map _

theorem bqLoad_alike (u : UnitId) (c : BqCoef) : Alike nan s out (bqLoad u c s) (bqLoad u c (s.withResp out)) :=
  (getBq_alike u).bind fun _ _ => put_alike u _

theorem bqSwap_alike (u : UnitId) (c : BqCoef) : Alike nan s out (bqSwap u c s) (bqSwap u c (s.withResp out)) :=
  (getBq_alike u).bind fun _ _ => put_alike u _

theorem bqDesign_alike (u : UnitId) (d : Word → BqCoef) :
    Alike nan s out (bqDesign u d s) (bqDesign u d (s.withResp out)) :=
  needFs_alike.bind fun fs _ => bqLoad_alike u (d fs)

theorem foStep_alike (u : UnitId) (x : F32) : Alike nan s out (foStep u x s) (foStep u x (s.withResp out)) :=
  (getFo_alike u).bind fun r _ => (needCfg_alike r.cfg u).bind fun _ _ => (put_alike u _).map _

theorem foLoad_alike (u : UnitId) (c : FoCoef) : Alike nan s out (foLoad u c s) (foLoad u c (s.withResp out)) :=
  (getFo_alike u).bind fun _ _ => put_alike u _

theorem foDesign_alike (u : UnitId) (d : Word → FoCoef) :
    Alike nan s out (foDesign u d s) (foDesign u d (s.withResp out)) :=
  needFs_alike.bind fun fs _ => foLoad_alike u (d fs)

theorem firTaps_alike (u : UnitId) (c h : Memory) (p left : Nat) : ∀ (j : Nat) (acc : F32) (s : State),
    Alike nan s out (firTaps u c h p j left acc s) (firTaps u c h p j left acc (s.withResp out)) := by
  induction left with
  | zero => intro j acc s; exact .ok acc
  | succ left ih =>
    intro j acc s
    exact (memRead_alike u c j).bind fun _ _ => (memRead_alike u h _).bind fun _ t => ih _ _ t

theorem firStep_alike (u : UnitId) (x : F32) : Alike nan s out (firStep u x s) (firStep u x (s.withResp out)) :=
  (getFir_alike u).bind fun r _ =>
  (needCfg_alike r.cfg u).bind fun _ _ =>
  (memWrite_alike u r.h r.pos x).bind fun h _ =>
  (memRead_alike u r.c 0).bind fun _ _ =>
  (memRead_alike u h r.pos).bind fun _ t =>
  (firTaps_alike u r.c h r.pos (r.c.cap - 1) 1 _ t).bind fun _ _ => (put_alike u _).map _

/-! ## Classes DL, FD -/

theorem dlPeek_alike (u : UnitId) : Alike nan s out (dlPeek u s) (dlPeek u (s.withResp out)) :=
  (getDl_alike u).bind fun r _ => (needCfg_alike r.cfg u).bind fun _ _ => memRead_alike u r.buf r.extractFrom

theorem dlStep_alike (u : UnitId) (x : F32) : Alike nan s out (dlStep u x s) (dlStep u x (s.withResp out)) :=
  (getDl_alike u).bind fun r _ =>
  (needCfg_alike r.cfg u).bind fun _ _ =>
  (memRead_alike u r.buf r.extractFrom).bind fun _ _ =>
  (memWrite_alike u r.buf r.insertAt x).bind fun _ _ => (put_alike u _).map _

theorem fdSetup_alike (u : UnitId) (n : F32) : Alike nan s out (fdSetup u n s) (fdSetup u n (s.withResp out)) :=
  (getFd_alike u).bind fun _ _ => (require_alike _ .delayLen u).bind fun _ _ => put_alike u _

theorem fdPeek_alike (u : UnitId) : Alike nan s out (fdPeek u s) (fdPeek u (s.withResp out)) :=
  (getFd_alike u).bind fun r _ =>
  (needCfg_alike r.cfg u).bind fun _ _ =>
  (memRead_alike u r.buf r.extractFrom).bind fun _ _ => (memRead_alike u r.buf _).map _

theorem fdStep_alike (u : UnitId) (x : F32) : Alike nan s out (fdStep u x s) (fdStep u x (s.withResp out)) :=
  (fdPeek_alike u).bind fun _ _ =>
  (getFd_alike u).bind fun r _ =>
  (memWrite_alike u r.buf r.insertAt x).bind fun _ _ => (put_alike u _).map _

/-! ## Classes WS, TS, PA -/

theorem wsInterpolate_alike (u : UnitId) (r : Ws) (x : F32) :
    Alike nan s out (wsInterpolate u r x s) (wsInterpolate u r x (s.withResp out)) := by
  unfold wsInterpolate
  dsimp only
  split
  · exact memRead_alike u r.tab _
  · exact (memRead_alike u r.tab _).bind fun _ _ => (memRead_alike u r.tab _).map _

theorem wsStep_alike (u : UnitId) (x : F32) : Alike True s out (wsStep u x s) (wsStep u x (s.withResp out)) := by
  refine (getWs_alike u).bind fun r _ => (needCfg_alike r.cfg u).bind fun _ _ => ?_
  split
  · exact .refuse trivial _
  split
  · exact memRead_alike u r.tab 0
  split
  · exact memRead_alike u r.tab _
  · exact wsInterpolate_alike u r x

theorem tsSetBias_alike (u : UnitId) (b : F32) :
    Alike nan s out (tsSetBias u b s) (tsSetBias u b (s.withResp out)) :=
  (getTs_alike u).bind fun _ _ => put_alike u _

theorem tsStep_alike (u : UnitId) (x : F32) : Alike True s out (tsStep u x s) (tsStep u x (s.withResp out)) :=
  (getTs_alike u).bind fun r _ =>
  (needCfg_alike r.cfg u).bind fun _ _ =>
  (bqStep_alike r.inp _).bind fun _ _ =>
  (wsStep_alike r.curve _).bind fun x4 _ =>
  (foStep_alike r.fb _).bind fun b _ =>
  (tsSetBias_alike u b).bind fun _ _ => foStep_alike r.dc x4

theorem tsGain_alike (u : UnitId) (gain : F32) :
    Alike nan s out (tsGain u gain s) (tsGain u gain (s.withResp out)) :=
  (getTs_alike u).bind fun r _ => (needCfg_alike r.cfg u).bind fun _ _ => put_alike u _

theorem paStep_alike (u : UnitId) (x : F32) : Alike True s out (paStep u x s) (paStep u x (s.withResp out)) :=
  (getPa_alike u).bind fun r _ =>
  (tsStep_alike r.stage0 x).bind fun a _ =>
  (tsStep_alike r.stage1 a).bind fun b _ => tsStep_alike r.stage2 b

/-! ## Classes APF, CMB, RV -/

theorem apfStep_alike (u : UnitId) (x : F32) : Alike nan s out (apfStep u x s) (apfStep u x (s.withResp out)) :=
  (getApf_alike u).bind fun r _ =>
  (needCfg_alike r.cfg u).bind fun _ _ =>
  (dlPeek_alike r.dl).bind fun _ _ => (dlStep_alike r.dl _).map _

theorem cmbStep_alike (u : UnitId) (x : F32) : Alike nan s out (cmbStep u x s) (cmbStep u x (s.withResp out)) :=
  (getCmb_alike u).bind fun r _ =>
  (needCfg_alike r.cfg u).bind fun _ _ =>
  (dlPeek_alike r.dl).bind fun _ _ => (dlStep_alike r.dl _).map _

theorem rvStep_alike (u : UnitId) (x : F32) : Alike nan s out (rvStep u x s) (rvStep u x (s.withResp out)) :=
  (getRv_alike u).bind fun r _ =>
  (needCfg_alike r.cfg u).bind fun _ _ =>
  (apfStep_alike r.apf0 _).bind fun a _ =>
  (apfStep_alike r.apf1 a).bind fun a _ =>
  (apfStep_alike r.apf2 a).bind fun a _ =>
  (cmbStep_alike r.cmb0 a).bind fun _ _ =>
  (cmbStep_alike r.cmb1 a).bind fun _ _ =>
  (cmbStep_alike r.cmb2 a).bind fun _ _ => (cmbStep_alike r.cmb3 a).map _

/-! ## Classes KS, VB -/

theorem ksTune_alike (u : UnitId) (freq : F32) :
    Alike nan s out (ksTune u freq s) (ksTune u freq (s.withResp out)) :=
  (getKs_alike u).bind fun r _ => needFs_alike.bind fun _ _ => fdSetup_alike r.delay _

theorem ksTrig_alike (u : UnitId) : Alike nan s out (ksTrig u s) (ksTrig u (s.withResp out)) :=
  (getKs_alike u).bind fun _ _ => put_alike u _

theorem ksMute_alike (u : UnitId) : Alike nan s out (ksMute u s) (ksMute u (s.withResp out)) :=
  (getKs_alike u).bind fun _ _ => put_alike u _

theorem ksExcitation_alike (u : UnitId) (r : Ks) :
    Alike nan s out (ksExcitation u r s) (ksExcitation u r (s.withResp out)) := by
  unfold ksExcitation
  split
  · exact .ok c0
  · exact (put_alike u _).bind fun _ _ => draw_alike.bind fun _ _ => .ok _

theorem ksStep_alike (u : UnitId) : Alike nan s out (ksStep u s) (ksStep u (s.withResp out)) :=
  (getKs_alike u).bind fun r _ =>
  (getFd_alike r.delay).bind fun d _ =>
  (needCfg_alike d.cfg r.delay).bind fun _ _ =>
  (getFo_alike r.damp).bind fun f _ =>
  (needCfg_alike f.cfg r.damp).bind fun _ _ =>
  (ksExcitation_alike u r).bind fun _ _ =>
  (fdPeek_alike r.delay).bind fun p _ =>
  (foStep_alike r.damp p).bind fun _ _ => (fdStep_alike r.delay _).map _

theorem vbNoteOn_alike (u : UnitId) (note : BitVec 7) :
    Alike nan s out (vbNoteOn u note s) (vbNoteOn u note (s.withResp out)) := by
  refine (getVb_alike u).bind fun r t => ?_
  rw [State.withResp_params]
  cases pickVoice t.params.ageW r.voices with
  | none => exact .stop _
  | some i =>
    exact (romRead_alike u r.voices i).bind fun v _ =>
      (put_alike u _).bind fun _ _ => (ksTune_alike v.unit _).bind fun _ _ => ksTrig_alike v.unit

theorem vbNoteOff_alike (u : UnitId) (note : BitVec 7) :
    Alike nan s out (vbNoteOff u note s) (vbNoteOff u note (s.withResp out)) := by
  refine (getVb_alike u).bind fun r t => ?_
  split
  · exact .ok ()
  split
  · exact .ok ()
  · exact (romRead_alike u r.voices _).bind fun v _ => (put_alike u _).bind fun _ _ => ksMute_alike v.unit

theorem vbSum_alike (vs : List Voice) : ∀ (acc : F32) (s : State),
    Alike nan s out (vbSum vs acc s) (vbSum vs acc (s.withResp out)) := by
  induction vs with
  | nil => intro acc s; exact .ok acc
  | cons v vs ih => intro acc s; exact (ksStep_alike v.unit).bind fun _ t => ih _ t

theorem vbTick_alike (u : UnitId) : Alike nan s out (vbTick u s) (vbTick u (s.withResp out)) :=
  (getVb_alike u).bind fun _ _ => put_alike u _

theorem vbStep_alike (u : UnitId) : Alike nan s out (vbStep u s) (vbStep u (s.withResp out)) := by
  refine (getVb_alike u).bind fun r t => ?_
  split
  · exact .stop _
  · rename_i v vs _
    exact (ksStep_alike v.unit).bind fun _ t => (vbSum_alike vs _ t).bind fun _ _ => (vbTick_alike u).map _

/-! ## Class DM -/

theorem dmCfg_alike (u : UnitId) (pattern : BitVec 16) (bpm : Word) :
    Alike nan s out (dmCfg u pattern bpm s) (dmCfg u pattern bpm (s.withResp out)) :=
  (getDm_alike u).bind fun r _ =>
  needFs_alike.bind fun _ _ =>
  (require_alike _ .dmParam u).bind fun _ _ =>
  (romRead_alike u r.patterns _).bind fun _ _ =>
  (require_alike _ .dmParam u).bind fun _ _ => put_alike u _

theorem dmBoundary_alike (u : UnitId) (r : Dm) :
    Alike nan s out (dmBoundary u r s) (dmBoundary u r (s.withResp out)) :=
  (romRead_alike u r.patterns _).bind fun p _ =>
  (romRead_alike u p.steps _).bind fun _ _ =>
  (put_withPrng_alike u _ _).bind fun _ _ =>
  draw_alike.bind fun _ _ =>
  (romRead_alike u r.bank _).bind fun c _ => (bqSwap_alike r.lp c).map _

theorem dmSubStep_alike (u : UnitId) (r : Dm) :
    Alike nan s out (dmSubStep u r s) (dmSubStep u r (s.withResp out)) := by
  refine Alike.bind ?_ fun _ _ => (put_alike u _).map _
  split
  · exact dmBoundary_alike u r
  · exact .ok r

theorem dmStep_alike (u : UnitId) : Alike nan s out (dmStep u s) (dmStep u (s.withResp out)) := by
  refine (getDm_alike u).bind fun r _ => (needCfg_alike r.cfg u).bind fun _ _ => ?_
  refine Alike.bind ?_ fun q _ => (put_alike u _).bind fun _ _ => bqStep_alike q.lp q.hold
  split
  · exact .ok r
  · exact dmSubStep_alike u r

end

/-! ## What follows -/

section
variable {α : Type} {nan : Prop} {s t : State} {r : Res α}

/-- A part run from the stream it finds leaves the stream as it is. -/
theorem Alike.respOut_of_ok (h : Alike nan s s.respOut r r) {a : α} (hr : r = .ok a t) : t.respOut = s.respOut := by
  subst hr
  have hsame : t = t.withResp s.respOut := (Res.ok.inj h.same).2
  rw [hsame]
  rfl

theorem Alike.respOut_of_raised (h : Alike nan s s.respOut r r) (hr : r = .raised t) : t.respOut = s.respOut := by
  subst hr
  have hsame : t = t.withResp s.respOut := Res.raised.inj h.same
  rw [hsame]
  rfl

end

end Sys2Proof.Machine
end

section
/-! PROOF of O55 and O56. A `PROC` runs the parts its `STEP`s run, each alike after the responses of those before it. -/

namespace Sys2Proof.Machine

theorem State.classOf_of_inst {s t : State} (h : t.inst = s.inst) (u : UnitId) : t.classOf u = s.classOf u := by
  rw [← State.inst_classOf, h, State.inst_classOf]

theorem Res.map_map {α β γ : Type} (r : Res α) (f : α → β) (g : β → γ) : (r.map f).map g = r.map fun a => g (f a) := by
  cases r <;> rfl

theorem runSteps_cons_clear {base : List Word} {i : Instr} {is : List Instr} {s t : State} (h : exec i s = .next t)
    (hf : t.fault = false) : runSteps base (i :: is) s = runSteps base is t := by
  simp only [runSteps, h, hf, Bool.false_eq_true, if_false]

theorem runSteps_cons_faulted {base : List Word} {i : Instr} {is : List Instr} {s t : State} (h : exec i s = .next t)
    (hf : t.fault = true) : runSteps base (i :: is) s = .next (t.withResp base) := by
  simp only [runSteps, h]
  exact if_pos hf

/-- A `PROC` with a count is one with a list of that length. -/
theorem genLoop_eq_procLoop (step : State → Res F32) (n : Nat) :
    genLoop step n = procLoop (fun _ => step) (List.replicate n 0) := by
  induction n with
  | zero => rfl
  | succ n ih =>
    funext s
    simp only [genLoop, List.replicate_succ, procLoop, ih]

section
variable {u : UnitId} {c : UnitClass} {instr : F32 → Instr} {step : F32 → State → Res F32}
  (hexec : ∀ x, exec (instr x) = command u c fun s => single (step x s))
  (hstep : ∀ x {s : State} {out : List Word}, Alike True s out (step x s) (step x (s.withResp out)))
include hexec hstep

/-- A `STEP` after the responses `ws` is that part of the `PROC`. -/
theorem exec_step {s : State} (hf : s.fault = false) (hc : s.classOf u = some c) (x : F32) (ws : List Word) :
    exec (instr x) (s.respond ws) = conclude (single ((step x s).mapState (·.withResp (s.respOut ++ ws)))) := by
  have hsame : step x (s.respond ws) = _ := (hstep x).same
  rw [hexec, command_reaches (s := s.respond ws) hf hc, hsame]

/-- The `STEP`s of a list after the responses `ws`, which go out with theirs or are withdrawn with them (R131, R368). -/
theorem runSteps_eq_procLoop (xs : List F32) : ∀ (s : State) (ws : List Word), s.fault = false →
    s.classOf u = some c →
    runSteps s.respOut (xs.map instr) (s.respond ws) = conclude ((procLoop step xs s).map (ws ++ ·)) := by
  induction xs with
  | nil =>
    intro s ws _ _
    rw [procLoop, Res.map_ok, List.append_nil]
    rfl
  | cons x xs ih =>
    intro s ws hf hc
    have hone := exec_step hexec hstep hf hc x ws
    have hends := (hstep x (s := s) (out := s.respOut)).ends
    rw [List.map_cons, procLoop]
    cases hr : step x s with
    | ok y t =>
      rw [hr] at hone hends
      have hout : t.respOut = s.respOut := (hstep x).respOut_of_ok hr
      have hnext : exec (instr x) (s.respond ws) = .next (t.respond (ws ++ [y])) := by
        rw [hone, ← hout, ← State.respond_respond]
        rfl
      have hfault : t.fault = false := Eq.trans hends hf
      have hclass : t.classOf u = some c := (State.classOf_of_inst (exec_frame hnext).inst u).trans hc
      rw [runSteps_cons_clear hnext hfault, ← hout, ih t (ws ++ [y]) hfault hclass, Res.bind_ok, Res.map_map]
      simp only [List.append_assoc, List.singleton_append]
    | raised t =>
      rw [hr] at hone hends
      have hout : t.respOut = s.respOut := (hstep x).respOut_of_raised hr
      rw [runSteps_cons_faulted hone hends, ← hout]
      rfl
    | stop e =>
      rw [hr] at hone
      rw [runSteps, hone]
      rfl
    | refuse e =>
      rw [hr] at hone
      rw [runSteps, hone]
      rfl

theorem command_procLoop_eq_runSteps {s : State} (hf : s.fault = false) (xs : List F32) (hc : s.classOf u = some c) :
    command u c (procLoop step xs) s = runSteps s.respOut (xs.map instr) s := by
  have hsteps := runSteps_eq_procLoop hexec hstep xs s [] hf hc
  rw [State.respond_nil] at hsteps
  rw [command_reaches hf hc, hsteps]
  cases procLoop step xs s <;> rfl

end

/-- The same with a count. -/
theorem command_genLoop_eq_runSteps {u : UnitId} {c : UnitClass} {instr : Instr} {step : State → Res F32}
    (hexec : exec instr = command u c fun s => single (step s))
    (hstep : ∀ {s : State} {out : List Word}, Alike True s out (step s) (step (s.withResp out))) {s : State}
    (hf : s.fault = false) (n : Nat) (hc : s.classOf u = some c) :
    command u c (genLoop step n) s = runSteps s.respOut (List.replicate n instr) s := by
  have h := command_procLoop_eq_runSteps (instr := fun _ => instr) (fun _ => hexec) (fun _ => hstep) hf
    (List.replicate n 0) hc
  rwa [List.map_replicate, ← genLoop_eq_procLoop] at h

/-- Settles O55: class by class, the `STEP`s of a list are its `PROC`. -/
theorem filterProcIsRepeatedStep : Obligations.FilterProcIsRepeatedStep := fun u xs _ hf =>
  ⟨command_procLoop_eq_runSteps (fun _ => rfl) (fun x => bqStep_alike u x) hf xs,
    command_procLoop_eq_runSteps (fun _ => rfl) (fun x => foStep_alike u x) hf xs,
    command_procLoop_eq_runSteps (fun _ => rfl) (fun x => firStep_alike u x) hf xs,
    command_procLoop_eq_runSteps (fun _ => rfl) (fun x => dlStep_alike u x) hf xs,
    command_procLoop_eq_runSteps (fun _ => rfl) (fun x => fdStep_alike u x) hf xs,
    command_procLoop_eq_runSteps (fun _ => rfl) (fun x => wsStep_alike u x) hf xs,
    command_procLoop_eq_runSteps (fun _ => rfl) (fun x => tsStep_alike u x) hf xs,
    command_procLoop_eq_runSteps (fun _ => rfl) (fun x => paStep_alike u x) hf xs,
    command_procLoop_eq_runSteps (fun _ => rfl) (fun x => apfStep_alike u x) hf xs,
    command_procLoop_eq_runSteps (fun _ => rfl) (fun x => cmbStep_alike u x) hf xs,
    command_procLoop_eq_runSteps (fun _ => rfl) (fun x => rvStep_alike u x) hf xs⟩

/-- Settles O56: class by class, `n` `STEP`s are the `PROC` with the count `n`. -/
theorem generatorProcIsRepeatedStep : Obligations.GeneratorProcIsRepeatedStep := fun u n _ hf =>
  ⟨command_genLoop_eq_runSteps rfl (ksStep_alike u) hf n.toNat,
    command_genLoop_eq_runSteps rfl (vbStep_alike u) hf n.toNat,
    command_genLoop_eq_runSteps rfl (dmStep_alike u) hf n.toNat⟩

end Sys2Proof.Machine
end

section
/-! PROOF of O57, O58 and O59. The `PROC` of a unit that is ready gives one closed-form sample after the other. -/

namespace Sys2Proof.Machine

/-- A unit found with a record of one form has that form's class. -/
theorem State.classOf_of_found {α : Type} {s : State} {u : UnitId} {form : α → UnitRec} {p : α → Prop}
    (h : ∃ r, s.unit? u = some (form r) ∧ p r) {c : UnitClass} (hform : ∀ r, (form r).cls = c) :
    s.classOf u = some c := by
  obtain ⟨r, hr, -⟩ := h
  rw [State.classOf_of_unit? hr, hform]

section
variable {s : State} (h : s.Inv) (hf : s.fault = false) {u : UnitId} {c : UnitClass} {ready : State → Bool}
  (hc : s.classOf u = some c) (hkin : ∀ {s t}, Kin s t → ready s = true → ready t = true)
include h hf hc hkin

/-- The `PROC` of a Filter that is ready, where every sample meets the condition `ok`. -/
theorem command_procLoop_completes {step : F32 → State → Res F32} {ev : F32 → State → F32 × State}
    {ok : F32 → State → Bool}
    (hstep : ∀ {s : State}, s.Inv → ready s = true → ∀ {x}, ok x s = true → Sample (step x s) s (ev x s))
    {xs : List F32} (hr : ready s = true) (hok : cleanList ok ev xs s = true) :
    command u c (procLoop step xs) s = .next ((evalList ev xs s).2.respond (evalList ev xs s).1) := by
  obtain ⟨hloop, -⟩ := procLoop_sample hkin hstep xs h hr hok
  rw [command_reaches hf hc, hloop, conclude_ok]

/-- The same where no sample has a condition. -/
theorem command_procLoop_completes_always {step : F32 → State → Res F32} {ev : F32 → State → F32 × State}
    (hstep : ∀ {s : State}, s.Inv → ready s = true → ∀ x, Sample (step x s) s (ev x s)) {xs : List F32}
    (hr : ready s = true) :
    command u c (procLoop step xs) s = .next ((evalList ev xs s).2.respond (evalList ev xs s).1) :=
  command_procLoop_completes h hf hc hkin (ok := fun _ _ => true) (fun h hr x _ => hstep h hr x) hr
    (cleanList_true ev xs s)

/-- The `PROC` of a Generator that is ready. -/
theorem command_genLoop_completes {step : State → Res F32} {ev : State → F32 × State}
    (hstep : ∀ {s : State}, s.Inv → ready s = true → Sample (step s) s (ev s)) {n : Nat} (hr : ready s = true) :
    command u c (genLoop step n) s = .next ((evalTimes ev n s).2.respond (evalTimes ev n s).1) := by
  obtain ⟨hloop, -⟩ := genLoop_sample hkin hstep n h hr
  rw [command_reaches hf hc, hloop, conclude_ok]

end

/-- Settles O57: class by class, from the closed form of one sample. -/
theorem linearProcCompletes : Obligations.LinearProcCompletes := by
  refine fun u xs => ⟨rfl, fun s h hf => ⟨fun hr => ?_, fun hr => ?_, fun hr => ?_, fun hr => ?_, fun hr => ?_,
    fun hr => ?_, fun hr => ?_, fun hr => ?_⟩⟩
  · exact command_procLoop_completes_always h hf (State.classOf_of_found (readyBq_iff.1 hr) fun _ => rfl)
      (fun k hr => k.readyBq hr) (fun h hr => bqStep_sample h hr) hr
  · exact command_procLoop_completes_always h hf (State.classOf_of_found (readyFo_iff.1 hr) fun _ => rfl)
      (fun k hr => k.readyFo hr) (fun h hr => foStep_sample h hr) hr
  · exact command_procLoop_completes_always h hf (State.classOf_of_found (readyFir_iff.1 hr) fun _ => rfl)
      (fun k hr => k.readyFir hr) (fun h hr => firStep_sample h hr) hr
  · exact command_procLoop_completes_always h hf (State.classOf_of_found (readyDl_iff.1 hr) fun _ => rfl)
      (fun k hr => k.readyDl hr) (fun h hr => dlStep_sample h hr) hr
  · exact command_procLoop_completes_always h hf (State.classOf_of_found (readyFd_iff.1 hr) fun _ => rfl)
      (fun k hr => k.readyFd hr) (fun h hr => fdStep_sample h hr) hr
  · exact command_procLoop_completes_always h hf (State.classOf_of_found (readyApf_iff.1 hr) fun _ => rfl)
      (fun k hr => k.readyApf hr) (fun h hr => apfStep_sample h hr) hr
  · exact command_procLoop_completes_always h hf (State.classOf_of_found (readyCmb_iff.1 hr) fun _ => rfl)
      (fun k hr => k.readyCmb hr) (fun h hr => cmbStep_sample h hr) hr
  · exact command_procLoop_completes_always h hf (State.classOf_of_found (readyRv_iff.1 hr) fun _ => rfl)
      (fun k hr => k.readyRv hr) (fun h hr => rvStep_sample h hr) hr

/-- Settles O58: as O57, a sample's condition being that no NaN reaches a curve. -/
theorem curveProcCompletes : Obligations.CurveProcCompletes := by
  refine fun u xs => ⟨rfl, fun s h hf => ⟨fun hr hok => ?_, fun hr hok => ?_, fun hr hok => ?_⟩⟩
  · exact command_procLoop_completes h hf (State.classOf_of_found (readyWs_iff.1 hr) fun _ => rfl)
      (fun k hr => k.readyWs hr) (fun h hr _ hx => wsStep_sample h hr (by simpa [wsClean] using hx)) hr hok
  · exact command_procLoop_completes h hf (State.classOf_of_found (readyTs_iff.1 hr) fun _ => rfl)
      (fun k hr => k.readyTs hr) (fun h hr => tsStep_sample h hr) hr hok
  · exact command_procLoop_completes h hf (State.classOf_of_found (readyPa_iff.1 hr) fun _ => rfl)
      (fun k hr => k.readyPa hr) (fun h hr => paStep_sample h hr) hr hok

/-- Settles O59: as O57, with a count. -/
theorem generatorProcCompletes : Obligations.GeneratorProcCompletes := by
  refine fun u n => ⟨rfl, fun s h hf => ⟨fun hr => ?_, fun hr => ?_, fun hr => ?_⟩⟩
  · exact command_genLoop_completes h hf (State.classOf_of_found (readyKs_iff.1 hr) fun _ => rfl)
      (fun k hr => k.readyKs hr) (fun h hr => ksStep_sample h hr) hr
  · exact command_genLoop_completes h hf (State.classOf_of_found (readyVb_iff.1 hr) fun _ => rfl)
      (fun k hr => k.readyVb hr) (fun h hr => vbStep_sample h hr) hr
  · exact command_genLoop_completes h hf (State.classOf_of_found (readyDm_iff.1 hr) fun _ => rfl)
      (fun k hr => k.readyDm hr) (fun h hr => dmStep_sample h hr) hr

end Sys2Proof.Machine
end

section
/-! PROOF of O19 and O20. A message is executed as its command is, so a drain goes on from the state that command leaves;
and from a state that meets the invariant every message is executed. -/

namespace Sys2Proof.Machine

/-! ## A message and its command -/

theorem applyMailable_alike {nan : Prop} {s : State} {out : List Word} (i : Instr) :
    Alike nan s out (applyMailable i s) (applyMailable i (s.withResp out)) := by
  cases i
  case sysRaw => exact .ok ()
  case bqLdc => exact checked_alike _ .bq (bqLoad_alike _ _)
  case bqLp | bqHp | bqBp | bqBs | bqAp | bqPk | bqLs | bqHs => exact checked_alike _ .bq (bqDesign_alike _ _)
  case foLdc => exact checked_alike _ .fo (foLoad_alike _ _)
  case foLp | foHp => exact checked_alike _ .fo (foDesign_alike _ _)
  case tsGain => exact checked_alike _ .ts (tsGain_alike _ _)
  case vbNoteon => exact checked_alike _ .vb (vbNoteOn_alike _ _)
  case vbNoteoff => exact checked_alike _ .vb (vbNoteOff_alike _ _)
  case dmCfg => exact checked_alike _ .dm (dmCfg_alike _ _ _)
  all_goals exact .stop _

theorem command_silent {s : State} (hf : s.fault = false) (u : UnitId) (c : UnitClass) (rule : State → Res Unit) :
    command u c (fun s => silent (rule s)) s = conclude (silent (checked u c rule s)) := by
  rw [command, if_neg (Bool.eq_false_iff.1 hf), checked, checked]
  split <;> rfl

@[simp] theorem conclude_silent_ok (a : Unit) (s : State) : conclude (silent (.ok a s)) = .next s :=
  congrArg Host.Outcome.next s.respond_nil

/-- A mailable command is its message's rule, without response words (R111, R143). -/
theorem exec_mailable {i : Instr} (hi : i.mailable = true) {s : State} (hf : s.fault = false) :
    exec i s = conclude (silent (applyMailable i s)) := by
  cases i
  all_goals cases hi
  case sysRaw => exact sysCommand_reaches hf fun s => .ok [] s
  all_goals exact command_silent hf _ _ _

/-- What a mailable command that answers `t` says of its message's rule. -/
theorem applyMailable_of_exec {i : Instr} (hi : i.mailable = true) {s t : State} (hf : s.fault = false)
    (h : exec i s = .next t) :
    t.respOut = s.respOut ∧ applyMailable i s = if t.fault then .raised t else .ok () t := by
  have halike : Alike False s s.respOut _ _ := applyMailable_alike i
  have hends := halike.ends
  rw [exec_mailable hi hf] at h
  cases hr : applyMailable i s with
  | ok a t' =>
    rw [hr] at h hends
    obtain rfl : t' = t := by simpa using h
    have hfault : t'.fault = false := Eq.trans hends hf
    exact ⟨halike.respOut_of_ok hr, by rw [hfault]; rfl⟩
  | raised t' =>
    rw [hr] at h hends
    obtain rfl : t' = t := by simpa using h
    have hfault : t'.fault = true := hends
    exact ⟨halike.respOut_of_raised hr, by rw [hfault]; rfl⟩
  | stop e => rw [hr] at h; cases h
  | refuse e => rw [hr] at hends; exact hends.elim

/-- From a state that meets the invariant a mailable command answers: none of them reaches a waveshaper. -/
theorem exec_mailable_answers {i : Instr} (hi : i.mailable = true) {s : State} (h : s.Inv) (hf : s.fault = false) :
    ∃ t, exec i s = .next t ∧ t.Inv := by
  have hsound := applyMailable_sound h hi
  have hends : Ends False s (applyMailable i s) := (applyMailable_alike (out := s.respOut) i).ends
  rw [exec_mailable hi hf]
  cases hr : applyMailable i s with
  | ok a t => rw [hr] at hsound; exact ⟨t, conclude_silent_ok a t, Kept.inv hsound⟩
  | raised t => rw [hr] at hsound; exact ⟨t, rfl, Kept.inv hsound⟩
  | stop e => rw [hr] at hsound; exact hsound.elim
  | refuse e => rw [hr] at hends; exact hends.elim

/-! ## The drain -/

theorem exec_sysDrain {s : State} (hf : s.fault = false) {ms : List Message} (hm : s.mbox = ms) :
    exec .sysDrain s = conclude (silent (drainLoop ms s)) := by
  subst hm
  exact sysCommand_reaches hf fun s => silent (drainLoop s.mbox s)

/-- Settles O19: by the message at the front. -/
theorem drainExecutesOldestFirst : Obligations.DrainExecutesOldestFirst := by
  refine ⟨fun s => ⟨rfl, fun hf hm => ?_⟩, fun s t m ms i hf hm hwf hd hexec => ?_, fun s m ms e hf hm hwf hd => ?_⟩
  · rw [exec_sysDrain hf hm, drainLoop, conclude_silent_ok]
  · have hi : i.mailable = true := decodeCommand_mailable (Bool.and_eq_true _ _ ▸ hwf).1 hd
    have hmbox : t.mbox = ms := (exec_frame hexec).mbox (by rintro rfl; cases hi)
    obtain ⟨hout, happly⟩ := applyMailable_of_exec hi (s := { s with mbox := ms }) hf hexec
    refine ⟨hout, hmbox, ?_⟩
    simp only [exec_sysDrain hf hm, drainLoop, applyMessage, hwf, hd, happly, if_true]
    cases ht : t.fault with
    | true => rfl
    | false => exact (exec_sysDrain ht hmbox).symm
  · simp only [exec_sysDrain hf hm, drainLoop, applyMessage, hwf, hd, if_true, raise, Res.bind_raised, silent_raised,
      conclude_raised]
    rw [State.recordFault_first (s := { s with mbox := ms }) hf, causeCode]

/-- Draining the messages `ms`, by O19 one after the other. -/
theorem exec_sysDrain_completes (ms : List Message) : ∀ {s : State}, s.Inv → s.fault = false → s.mbox = ms →
    ∃ t, exec .sysDrain s = .next t ∧ t.respOut = s.respOut ∧ (t.fault = false → t.mbox = []) := by
  obtain ⟨hempty, hgood, hbad⟩ := drainExecutesOldestFirst
  induction ms with
  | nil => intro s _ hf hm; exact ⟨s, (hempty s).2 hf hm, rfl, fun _ => hm⟩
  | cons m ms ih =>
    intro s h hf hm
    obtain ⟨hroom, hall⟩ := (State.mboxWf_iff s).1 h.mbox
    rw [hm] at hroom hall
    have hwf : m.wf = true := hall m List.mem_cons_self
    cases hd : decodeCommand m.cw m.operands with
    | error e => exact ⟨_, hbad s m ms e hf hm hwf hd, rfl, nofun⟩
    | ok i =>
      have hi : i.mailable = true := decodeCommand_mailable (Bool.and_eq_true _ _ ▸ hwf).1 hd
      have hpop : State.Inv { s with mbox := ms } :=
        h.withMbox (Nat.le_of_succ_le hroom) fun x hx => hall x (List.mem_cons_of_mem _ hx)
      obtain ⟨t, hexec, ht⟩ := exec_mailable_answers hi hpop hf
      obtain ⟨hout, hmbox, hdrain⟩ := hgood s t m ms i hf hm hwf hd hexec
      cases htf : t.fault with
      | true => exact ⟨t, by rw [hdrain, htf]; rfl, hout, fun h => absurd (htf.symm.trans h) (by decide)⟩
      | false =>
        obtain ⟨t', hnext, hout', hdone⟩ := ih ht htf hmbox
        exact ⟨t', by rw [hdrain, htf, ← hnext]; rfl, hout'.trans hout, hdone⟩

/-- Settles O20: by the messages in the channel. -/
theorem drainCompletes : Obligations.DrainCompletes :=
  fun s h hf => exec_sysDrain_completes s.mbox h hf rfl

end Sys2Proof.Machine
end

section
/-! PROOF of O3 and of O21 to O25. Written words are decoded; the commands of class SYS on the block's own registers are
their rules. -/

namespace Sys2Proof.Machine

/-! ## Written words -/

/-- Settles O3: by decoding each, `FIR.LDC` with the order of its unit (R104). -/
theorem writtenWordsDecode : Obligations.WrittenWordsDecode := by
  refine ⟨fun _ => rfl, fun _ => rfl, fun _ => rfl, fun _ => rfl, fun o ho => ?_, fun _ => rfl, fun _ => rfl,
    fun _ => rfl, fun _ => rfl, fun _ => rfl, fun _ => rfl, fun _ => rfl, fun _ => rfl, fun _ => rfl, fun _ => rfl,
    fun _ => rfl, fun _ => rfl, fun _ => rfl⟩
  exact decode_encode (i := .firLdc 3 [0x3F800000, 0x40000000, 0x40400000, 0x40800000])
    (decide_eq_true ho.symm) []

/-! ## Nothing -/

/-- A word of class SYS with a unit that is not 0 fails check (2) of R109. -/
theorem encodingFault_sysUnit {op : BitVec 8} {r : OpRow} (hrow : opRow op = some r) (hsys : op.toNat < 16)
    {u : UnitId} (hu : u ≠ 0) (imm : BitVec 16) : encodingFault (mkCw op u imm) = true := by
  rw [encodingFault_mkCw hrow, decide_eq_true hsys, decide_eq_true hu]
  rfl

/-- Settles O21: the words by their fields, the commands by their rule. -/
theorem nopAndRawDoNothing : Obligations.NopAndRawDoNothing := by
  refine ⟨rfl, fun _ => rfl, rfl, fun cw hop hcw => ?_, fun cw hop hunit => ?_, fun s imm => ?_⟩
  · obtain ⟨op, u, imm, rfl⟩ := exists_mkCw cw
    rw [opField_mkCw] at hop
    subst hop
    by_cases hu : u = 0
    · have himm : imm ≠ 0 := by
        rintro rfl
        exact hcw (by rw [hu]; rfl)
      rw [encodingFault_mkCw rfl, decide_eq_true himm]
      simp [Format.immIsZero]
    · exact encodingFault_sysUnit rfl (by decide) hu imm
  · obtain ⟨op, u, imm, rfl⟩ := exists_mkCw cw
    rw [opField_mkCw] at hop
    rw [unitField_mkCw] at hunit
    subst hop
    exact encodingFault_sysUnit rfl (by decide) hunit imm
  · have hnothing : sysCommand (fun s => .ok [] s) s = .next s := by
      rw [sysCommand]
      split
      · rfl
      · rw [conclude_ok, State.respond_nil]
    exact ⟨hnothing, hnothing⟩

/-! ## The sampling frequency -/

theorem exec_sysSetfs {s : State} (hf : s.fault = false) (fs : Word) :
    exec (.sysSetfs fs) s = conclude (silent (sysSetfs fs s)) :=
  sysCommand_reaches hf fun s => silent (sysSetfs fs s)

theorem exec_sysRdfs {s : State} (hf : s.fault = false) : exec .sysRdfs s = conclude (single (needFs s)) :=
  sysCommand_reaches hf fun s => single (needFs s)

/-- Settles O22: by the check of each rule. -/
theorem samplingFrequency : Obligations.SamplingFrequency := by
  refine ⟨fun _ => rfl, rfl, fun s fs hf => ⟨fun h => ?_, fun hset hfs => ?_, fun hset => ?_, fun hset => ?_⟩⟩
  · have hcheck : (!s.fsSet && decide (fs ≠ 0)) = false := by
      obtain h | h := h
      · rw [h]; rfl
      · rw [h]; simp
    rw [exec_sysSetfs hf, sysSetfs, hcheck, require_false, State.recordFault_first hf]
    rfl
  · rw [exec_sysSetfs hf, sysSetfs, hset, decide_eq_true hfs]
    simp
  · rw [exec_sysRdfs hf, needFs_unset hset, State.recordFault_first hf]
    rfl
  · rw [exec_sysRdfs hf, needFs_set hset]
    rfl

/-! ## The generator -/

theorem prngNext_toNat (p : BitVec 31) : (prngNext p).toNat = 16807 * p.toNat % 2147483647 := by
  have hlt : 16807 * p.toNat % 2147483647 < 2147483647 := Nat.mod_lt _ (by decide)
  rw [prngNext, BitVec.toNat_ofNat]
  exact Nat.mod_eq_of_lt (by omega)

theorem exec_sysSeed {s : State} (hf : s.fault = false) (seed : Word) :
    exec (.sysSeed seed) s = conclude (silent (sysSeed seed s)) :=
  sysCommand_reaches hf fun s => silent (sysSeed seed s)

theorem exec_sysRand {s : State} (hf : s.fault = false) :
    exec .sysRand s =
      .next (State.respond { s with prng := prngNext s.prng } [BitVec.ofNat 32 (prngNext s.prng).toNat]) := by
  rw [BitVec.ofNat_toNat]
  exact sysCommand_reaches hf fun s => single ((draw s).map fun d => d.setWidth 32)

theorem exec_sysRandf {s : State} (hf : s.fault = false) :
    exec .sysRandf s =
      .next (State.respond { s with prng := prngNext s.prng } [prngToFloat s.params (prngNext s.prng)]) :=
  sysCommand_reaches hf fun s => single ((draw s).map fun d => prngToFloat s.params d)

/-- Settles O24: the seed by its check, the draws by the recurrence. -/
theorem generator : Obligations.Generator := by
  refine ⟨fun _ => rfl, rfl, rfl, fun s hf => ⟨fun seed h => ?_, fun seed h0 hlt => ?_, prngNext s.prng,
    prngNext_toNat _, exec_sysRand hf, exec_sysRandf hf, fun hmap => ?_⟩⟩
  · have hcheck : (decide (seed ≠ 0) && decide (seed.toNat < 2147483647)) = false := by
      obtain h | h := h
      · rw [h]; rfl
      · rw [decide_eq_false (Nat.not_lt.2 h), Bool.and_false]
    rw [exec_sysSeed hf, sysSeed, hcheck, require_false, State.recordFault_first hf]
    rfl
  · rw [exec_sysSeed hf, sysSeed, decide_eq_true h0, decide_eq_true hlt, BitVec.ofNat_toNat]
    simp
  · rw [prngToFloat, hmap]
    rfl

/-- Settles O25: the range by `prngNext_range`, the sequence by five draws. -/
theorem generatorRange : Obligations.GeneratorRange := by
  refine ⟨fun s t h1 h2 hf hexec => ?_, by decide⟩
  rw [exec_sysRand hf, Host.Outcome.next.injEq] at hexec
  obtain rfl := hexec
  exact ⟨prngNext_toNat _, prngNext_range h1 h2⟩

end Sys2Proof.Machine

namespace Sys2Proof

/-- Settles O23: `SYS.RDSTAT` runs after a fault too, and its response is `Machine.statusWord`. -/
theorem statusWord : Obligations.StatusWord := ⟨rfl, fun _ => rfl⟩

end Sys2Proof
end

section
/-! PROOF of O26 to O29. Every command of class BQ on a biquad is its rule; the eight designs share one rule, which needs
`FS` and loads the record the design computes. -/

namespace Sys2Proof.Machine

/-! ## Words and faults -/

/-- A command word is mailable where its row of the opcode map says so (R111), for every unit and immediate. -/
theorem mailable_mkCw (op : BitVec 8) (u : UnitId) (imm : BitVec 16) :
    mailable (mkCw op u imm) = (opRow op).any OpRow.mailable := by
  rw [mailable, opField_mkCw]
  cases opRow op <;> rfl

theorem mailable_of_rows {ops : List (BitVec 8)} (hrows : ∀ op ∈ ops, (opRow op).any OpRow.mailable = true)
    (u : UnitId) : ∀ op ∈ ops, mailable (op ++ u ++ 0#16) = true :=
  fun op hop => (mailable_mkCw op u 0).trans (hrows op hop)

/-- A command that raises the first fault ends with it recorded (R361, R368). -/
theorem conclude_raised_first {s : State} (hf : s.fault = false) (c : Cause) (v : UnitId) :
    conclude (.raised (s.recordFault c v)) = .next (s.withFault (causeCode c) v) := by
  rw [State.recordFault_first hf, conclude_raised]

/-! ## The rules of a biquad -/

theorem bqLoad_eq {s : State} {u : UnitId} {b : Bq} (hu : s.unit? u = some (.bq b)) (c : BqCoef) :
    bqLoad u c s = .ok () (s.putUnit u (.bq { b with coef := c, cfg := true })) := by
  rw [bqLoad, getBq_eq hu, Res.bind_ok, put_eq]

section
variable {s : State} {u : UnitId} {b : Bq} (hf : s.fault = false) (hu : s.unit? u = some (.bq b))
include hf hu

/-- A command of class BQ on a biquad passes check (2) of R109. -/
theorem bqCommand_reaches (body : State → Res (List Word)) : command u .bq body s = conclude (body s) :=
  command_reaches hf (State.classOf_of_unit? hu) body

theorem exec_bqStep (x : F32) : exec (.bqStep u x) s = conclude (single (bqStep u x s)) :=
  bqCommand_reaches hf hu fun s => single (bqStep u x s)

theorem exec_bqFlush : exec (.bqFlush u) s = .next (s.putUnit u (.bq { b with s0 := 0, s1 := 0 })) := by
  calc exec (.bqFlush u) s
    _ = conclude (silent (bqFlush u s)) := bqCommand_reaches hf hu fun s => silent (bqFlush u s)
    _ = .next (flushBq u s) := by rw [bqFlush_eq hu, conclude_silent_ok]
    _ = .next (s.putUnit u (.bq { b with s0 := 0, s1 := 0 })) := by rw [flushBq, State.bq_eq hu]; rfl

theorem exec_bqLdc (c : BqCoef) : exec (.bqLdc u c.b0 c.b1 c.b2 c.a1 c.a2) s =
    .next (s.putUnit u (.bq { b with coef := c, cfg := true })) := by
  calc exec (.bqLdc u c.b0 c.b1 c.b2 c.a1 c.a2) s
    _ = conclude (silent (bqLoad u c s)) := bqCommand_reaches hf hu fun s => silent (bqLoad u c s)
    _ = _ := by rw [bqLoad_eq hu, conclude_silent_ok]

theorem exec_bqRdc : exec (.bqRdc u) s = conclude ((needCfg b.cfg u s).map fun _ =>
    [b.coef.b0, b.coef.b1, b.coef.b2, b.coef.a1, b.coef.a2]) := by
  refine (bqCommand_reaches hf hu _).trans ?_
  rw [getBq_eq hu, Res.bind_ok]

/-- A design with `FS` written loads the record it computes (R166). -/
theorem command_bqDesign (hset : s.fsSet = true) (design : Word → BqCoef) :
    command u .bq (fun s => silent (bqDesign u design s)) s =
      .next (s.putUnit u (.bq { b with coef := design s.fs, cfg := true })) := by
  rw [bqCommand_reaches hf hu, bqDesign, needFs_set hset, Res.bind_ok, bqLoad_eq hu, conclude_silent_ok]

/-- A design without `FS` faults, naming the block and not the biquad (R166, R363). -/
theorem command_bqDesign_withoutFs (hunset : s.fsSet = false) (design : Word → BqCoef) :
    command u .bq (fun s => silent (bqDesign u design s)) s = .next (s.withFault 2 0) := by
  rw [bqCommand_reaches hf hu, bqDesign, needFs_unset hunset, Res.bind_raised, silent_raised,
    conclude_raised_first hf, causeCode]

end

/-! ## The obligations -/

/-- Settles O27: by the rule of each command. -/
theorem bqRecord : Obligations.BqRecord := by
  refine fun u c => ⟨rfl, rfl, rfl, mailable_mkCw 0x13 u 0, fun s b hf hu =>
    ⟨exec_bqFlush hf hu, exec_bqLdc hf hu c, fun hcfg => ?_, fun hcfg => ?_⟩⟩
  · rw [exec_bqRdc hf hu, hcfg, needCfg_false, Res.map_raised, conclude_raised_first hf, causeCode]
  · rw [exec_bqRdc hf hu, hcfg, needCfg_true, Res.map_ok, conclude_ok]

/-- Settles O28: each design is `bqDesign` with its own formula. -/
theorem bqDesigns : Obligations.BqDesigns := by
  intro u f q s b hf hu
  refine ⟨rfl, mailable_of_rows (by decide) u, fun hset => ?_, fun hunset => ?_⟩
  · have loads := command_bqDesign hf hu hset
    exact ⟨loads (designLp f q), loads (designHp f q), loads (designBp f q), loads (designBs f q),
      loads (designAp f q)⟩
  · have faults := command_bqDesign_withoutFs hf hu hunset
    simp only [List.forall_mem_cons]
    exact ⟨faults (designLp f q), faults (designHp f q), faults (designBp f q), faults (designBs f q),
      faults (designAp f q), nofun⟩

/-- Settles O29: the peaking equaliser and the shelves are `bqDesign` with their formulas. -/
theorem bqGainDesigns : Obligations.BqGainDesigns := by
  intro u f g q s b hf hu
  refine ⟨rfl, mailable_of_rows (by decide) u, fun hset => ?_, fun hunset => ?_⟩
  · have loads := command_bqDesign hf hu hset
    exact ⟨loads (designPk f g q), loads (designLs f g q), loads (designHs f g q)⟩
  · have faults := command_bqDesign_withoutFs hf hu hunset
    simp only [List.forall_mem_cons]
    exact ⟨faults (designPk f g q), faults (designLs f g q), faults (designHs f g q), nofun⟩

end Sys2Proof.Machine

namespace Sys2Proof

open Machine in
/-- Settles O26: by whether the biquad is set up. -/
theorem bqStep : Obligations.BqStep := by
  refine fun u x => ⟨rfl, fun s b hf hu => ⟨fun hcfg => ?_, fun hcfg => ?_⟩⟩
  · rw [exec_bqStep hf hu, bqStep_unset hu hcfg, single_raised, conclude_raised_first hf, causeCode]
  · rw [exec_bqStep hf hu, bqStep_ready hu hcfg, single_ok, conclude_ok]
    rfl

end Sys2Proof
end

section
/-! PROOF of O30 to O32. A command on a unit of its class ends as its operation does; the rules of FO and FIR give the
operation's result, the two designs through the coefficient record they load. -/

namespace Sys2Proof.Machine

/-! ## A command on a unit of its class -/

section
variable {s t : State} {u : UnitId} {r : UnitRec} (hf : s.fault = false) (hu : s.unit? u = some r)
include hf hu

/-- A command without response words. -/
theorem command_silent_ok {op : State → Res Unit} (hop : op s = .ok () t) :
    command u r.cls (fun s => silent (op s)) s = .next t := by
  rw [command_reaches hf (State.classOf_of_unit? hu), hop, conclude_silent_ok]

theorem command_silent_raised {op : State → Res Unit} {c : Cause} {v : UnitId}
    (hop : op s = .raised (s.recordFault c v)) :
    command u r.cls (fun s => silent (op s)) s = .next (s.withFault (causeCode c) v) := by
  rw [command_reaches hf (State.classOf_of_unit? hu), hop, silent_raised, conclude_raised_first hf]

/-- A command with one response word. -/
theorem command_single_ok {op : State → Res F32} {y : F32} (hop : op s = .ok y t) :
    command u r.cls (fun s => single (op s)) s = .next (t.respond [y]) := by
  rw [command_reaches hf (State.classOf_of_unit? hu), hop, single_ok, conclude_ok]

theorem command_single_raised {op : State → Res F32} {c : Cause} {v : UnitId}
    (hop : op s = .raised (s.recordFault c v)) :
    command u r.cls (fun s => single (op s)) s = .next (s.withFault (causeCode c) v) := by
  rw [command_reaches hf (State.classOf_of_unit? hu), hop, single_raised, conclude_raised_first hf]

end

/-! ## The rules of a first-order section -/

section
variable {s : State} {u : UnitId} {r : Fo} (hu : s.unit? u = some (.fo r))
include hu

theorem flushFo_eq : flushFo u s = s.putUnit u (.fo { r with s0 := c0 }) := by
  rw [flushFo, State.fo_eq hu]

theorem foLoad_eq (c : FoCoef) : foLoad u c s = .ok () (s.putUnit u (.fo { r with coef := c, cfg := true })) := by
  rw [foLoad, getFo_eq hu, Res.bind_ok, put_eq]

/-- A design with `FS` written loads the record it computes (R196, R197). -/
theorem foDesign_withFs (hset : s.fsSet = true) (design : Word → FoCoef) :
    foDesign u design s = .ok () (s.putUnit u (.fo { r with coef := design s.fs, cfg := true })) := by
  rw [foDesign, needFs_set hset, Res.bind_ok, foLoad_eq hu]

theorem exec_foRdc (hf : s.fault = false) : exec (.foRdc u) s =
    conclude ((needCfg r.cfg u s).map fun _ => [r.coef.b0, r.coef.b1, r.coef.a1]) := by
  refine (command_reaches hf (State.classOf_of_unit? hu) _).trans ?_
  rw [getFo_eq hu, Res.bind_ok]

end

/-- A design without `FS` faults, naming the block and not the section (R196, R197, R363). -/
theorem foDesign_withoutFs {s : State} (hunset : s.fsSet = false) (u : UnitId) (design : Word → FoCoef) :
    foDesign u design s = .raised (s.recordFault .notSetup 0) := by
  rw [foDesign, needFs_unset hunset, Res.bind_raised]

/-! ## The rules of a FIR filter -/

section
variable {s : State} {u : UnitId} {r : Fir} (hu : s.unit? u = some (.fir r))
include hu

theorem flushFir_eq : flushFir u s = s.putUnit u (.fir { r with h := Memory.empty r.h.cap }) := by
  rw [flushFir, State.fir_eq hu]

/-- `FIR.LDC` with as many words as the filter has coefficients (R204). -/
theorem firLoad_eq {cs : List F32} (hlen : cs.length = r.c.cap) :
    firLoad u cs s = .ok () (s.putUnit u (.fir { r with c := r.c.load cs, cfg := true })) := by
  rw [firLoad, getFir_eq hu, Res.bind_ok, if_pos hlen, put_eq]

end

/-- The sample just written is the one `c[0]` meets (R201). -/
theorem firOut_eq {r : Fir} (h : r.wf = true) (x : F32) :
    firOut r x = convFrom r.c (r.h.set r.pos x) r.pos 1 (r.c.cap - 1) (fmul (r.c.get 0) x) := by
  obtain ⟨-, hh, -⟩ := (Fir.wf_iff r).1 h
  rw [firOut, Memory.get_set_same hh]

/-! ## The obligations -/

/-- Settles O31: by the rule of each command; the designs are `foDesign` with their own formulas. -/
theorem foRecord : Obligations.FoRecord := by
  refine fun u c f => ⟨rfl, mailable_mkCw 0x23 u 0, mailable_mkCw 0x24 u 0, mailable_mkCw 0x25 u 0,
    fun s r hf hu => ⟨?flush, command_silent_ok hf hu (foLoad_eq hu c), fun hcfg => ?readUnset, fun hcfg => ?read,
      fun hset => ?designs, fun hunset => ?designsWithoutFs⟩⟩
  case flush => exact (command_silent_ok hf hu (foFlush_eq hu)).trans (congrArg Host.Outcome.next (flushFo_eq hu))
  case readUnset =>
    rw [exec_foRdc hu hf, hcfg, needCfg_false, Res.map_raised, conclude_raised_first hf, causeCode]
  case read => rw [exec_foRdc hu hf, hcfg, needCfg_true, Res.map_ok, conclude_ok]
  case designs =>
    have loads := fun design => command_silent_ok hf hu (foDesign_withFs hu hset design)
    exact ⟨loads (foDesignLp f), loads (foDesignHp f)⟩
  case designsWithoutFs =>
    have faults := fun design => command_silent_raised hf hu (foDesign_withoutFs hunset u design)
    exact ⟨faults (foDesignLp f), faults (foDesignHp f)⟩

/-- Settles O32: the sample by `firOut_eq`, the flush and the load by their rules. -/
theorem firOperations : Obligations.FirOperations := by
  refine fun u x cs => ⟨rfl, mailable_mkCw 0x33 u 0, fun s r h hf hu => ⟨fun hcfg => ?unset, fun hcfg => ?ready,
    ?flush, fun hlen => ?load⟩⟩
  case unset => exact command_single_raised hf hu (firStep_unset hu hcfg x)
  case ready =>
    obtain ⟨hstep, -⟩ := firStep_sample h (readyFir_iff.2 ⟨r, hu, hcfg⟩) x
    rw [evalFir, State.fir_eq hu] at hstep
    rw [← firOut_eq (h.unitWf hu) x]
    exact command_single_ok hf hu hstep
  case flush => exact (command_silent_ok hf hu (firFlush_eq hu)).trans (congrArg Host.Outcome.next (flushFir_eq hu))
  case load =>
    obtain ⟨hc, -, -⟩ := (Fir.wf_iff r).1 (h.unitWf hu)
    exact ⟨r.c.load cs, Memory.load_cap r.c cs, Memory.wf_load hc hlen.le, fun _ _ => Memory.get_load_at hc hlen.le,
      command_silent_ok hf hu (firLoad_eq hu hlen)⟩

end Sys2Proof.Machine

namespace Sys2Proof

open Machine in
/-- Settles O30: by whether the section is set up. -/
theorem foStep : Obligations.FoStep := fun _ x => ⟨rfl, fun _ _ hf hu =>
  ⟨fun hcfg => command_single_raised hf hu (foStep_unset hu hcfg x),
    fun hcfg => command_single_ok hf hu (foStep_ready hu hcfg x)⟩⟩

end Sys2Proof
end

section
/-! PROOF of O35. A delay line is a queue: the ring read from `extract_from` holds the next `n` responses in order, and a
sample takes the first of them out and joins the end. -/

namespace Sys2Proof.Machine

/-! ## A delay line as a queue -/

/-- The element of the ring that the line gives `k` samples from now, if it is not overwritten before. -/
def Dl.tap (r : Dl) (k : Nat) : F32 := r.buf.get ((r.extractFrom + k) % r.buf.cap)

/-- The samples on their way through the line, the next response first. -/
def Dl.inTransit (r : Dl) : List F32 := (List.range r.n).map r.tap

/-- The slot `n` ahead of `extract_from` is the one at `insert_at` (R28). -/
theorem extractFrom_add_length {l i n : Nat} (hi : i < l) (hn : n ≤ l) : ((i + l - n) % l + n) % l = i := by
  rw [Nat.mod_add_mod, Nat.sub_add_cancel (by omega), Nat.add_mod_right, Nat.mod_eq_of_lt hi]

/-- Slots of a ring less than `l` apart are different. -/
theorem ring_slots_ne {l e k n : Nat} (hk : k < n) (hn : n - k < l) : (e + k) % l ≠ (e + n) % l := by
  intro h
  have hdvd : l ∣ e + n - (e + k) := (Nat.modEq_iff_dvd' (by omega)).1 h
  exact absurd (Nat.le_of_dvd (by omega) hdvd) (by omega)

section
variable {r : Dl} (h : r.wf = true) (hc : r.cfg = true)
include h

theorem Dl.tap_zero : r.tap 0 = dlOut r := by
  obtain ⟨-, -, hext, -⟩ := (Dl.wf_iff r).1 h
  rw [Dl.tap, Nat.add_zero, Nat.mod_eq_of_lt hext, dlOut]

include hc

/-- `insert_at` is the slot `n` ahead of `extract_from`. -/
theorem Dl.insertAt_eq : r.insertAt = (r.extractFrom + r.n) % r.buf.cap := by
  obtain ⟨-, hins, -, hset⟩ := (Dl.wf_iff r).1 h
  obtain ⟨-, hn, hext⟩ := hset hc
  rw [hext, extractFrom_add_length hins hn]

/-- The tap of the line after a sample: the sample itself at the far end, the next tap of the line before it. -/
theorem Dl.tap_next {k : Nat} (hk : k < r.n) (x : F32) :
    (dlNext r x).tap k = if k + 1 = r.n then x else r.tap (k + 1) := by
  obtain ⟨hbuf, -, -, hset⟩ := (Dl.wf_iff r).1 h
  obtain ⟨-, hn, -⟩ := hset hc
  have hslot : (dlNext r x).tap k = (r.buf.set r.insertAt x).get ((r.extractFrom + (k + 1)) % r.buf.cap) := by
    simp only [Dl.tap, dlNext, Memory.set_cap, Nat.mod_add_mod, Nat.add_assoc, Nat.add_comm 1 k]
  rw [hslot, Dl.insertAt_eq h hc]
  split
  case isTrue hlast => rw [hlast, Memory.get_set_same hbuf]
  case isFalse hmid => rw [Memory.get_set_other (ring_slots_ne (by omega) (by omega)), Dl.tap]

/-- A sample joins the end of the queue and the response leaves its front (R212). -/
theorem Dl.inTransit_next (x : F32) : r.inTransit ++ [x] = dlOut r :: (dlNext r x).inTransit := by
  obtain ⟨-, -, -, hset⟩ := (Dl.wf_iff r).1 h
  obtain ⟨m, hm⟩ : ∃ m, r.n = m + 1 := Nat.exists_eq_add_one.2 (hset hc).1
  have hfront : (List.range m).map (dlNext r x).tap = (List.range m).map (r.tap ∘ Nat.succ) :=
    List.map_congr_left fun k hk => by
      have hkm : k < m := List.mem_range.1 hk
      rw [Dl.tap_next h hc (by omega), if_neg (by omega), Function.comp_apply]
  have hlast : (dlNext r x).tap m = x := by rw [Dl.tap_next h hc (by omega), if_pos hm.symm]
  calc r.inTransit ++ [x]
    _ = r.tap 0 :: ((List.range m).map (r.tap ∘ Nat.succ) ++ [x]) := by
      rw [Dl.inTransit, hm, List.range_succ_eq_map, List.map_cons, List.map_map, List.cons_append]
    _ = dlOut r :: ((List.range m).map (dlNext r x).tap ++ [(dlNext r x).tap m]) := by
      rw [Dl.tap_zero h, hfront, hlast]
    _ = dlOut r :: (dlNext r x).inTransit := by
      rw [Dl.inTransit, show (dlNext r x).n = m + 1 from hm, List.range_succ, List.map_append, List.map_singleton]

end

/-- A line whose ring is zero has `n` zeros on their way. -/
theorem Dl.inTransit_of_zero {r : Dl} (h : ∀ i, r.buf.get i = 0) : r.inTransit = List.replicate r.n 0 := by
  have htap : r.tap = fun _ => 0 := funext fun _ => h _
  rw [Dl.inTransit, htap, List.map_const', List.length_range]

/-! ## A list of samples through a line -/

/-- The responses are what was on its way, then the samples themselves, bit for bit (R216). -/
theorem evalList_evalDl {u : UnitId} (xs : List F32) : ∀ {s : State} {r : Dl}, s.unit? u = some (.dl r) →
    r.wf = true → r.cfg = true → (evalList (evalDl u) xs s).1 = (r.inTransit ++ xs).take xs.length := by
  induction xs with
  | nil => exact fun _ _ _ => rfl
  | cons x xs ih =>
    intro s r hu h hc
    have hrest := ih (State.unit?_putUnit_same (r' := .dl (dlNext r x)) hu) (Dl.wf_next h x) hc
    rw [List.append_cons, Dl.inTransit_next h hc, List.cons_append, List.length_cons, List.take_succ_cons, ← hrest,
      evalList, evalDl, State.dl_eq hu]

theorem evalList_evalDl_respOut (u : UnitId) (xs : List F32) :
    ∀ s, (evalList (evalDl u) xs s).2.respOut = s.respOut := by
  induction xs with
  | nil => exact fun _ => rfl
  | cons x xs ih => exact fun s => ih (evalDl u x s).2

/-- Settles O35: `n` zeros are on their way through the line, and the samples queue behind them. -/
theorem dlRoundTrip : Obligations.DlRoundTrip := by
  intro u xs s r h hf hu hc hzero
  obtain ⟨-, hprocs⟩ := linearProcCompletes u xs
  obtain ⟨-, -, -, hproc, -⟩ := hprocs s h hf
  refine ⟨_, hproc (readyDl_iff.2 ⟨r, hu, hc⟩), ?_⟩
  rw [State.respond_respOut, evalList_evalDl_respOut, evalList_evalDl xs hu (h.unitWf hu) hc,
    Dl.inTransit_of_zero hzero]

end Sys2Proof.Machine
end

section
/-! PROOF of O33, O34, O36 and O37. The other commands of the delay lines, each by its operation's result on a unit of its
class. -/

namespace Sys2Proof.Machine

/-! ## The rules of a delay line -/

section
variable {s : State} {u : UnitId} {r : Dl} (hu : s.unit? u = some (.dl r))
include hu

theorem setupDl_eq (n : Nat) : setupDl u n s = s.putUnit u (.dl { r with
    n := n, extractFrom := (r.insertAt + r.buf.cap - n) % r.buf.cap, cfg := true }) := by
  rw [setupDl, State.dl_eq hu]

theorem flushDl_eq : flushDl u s = s.putUnit u (.dl { r with buf := Memory.empty r.buf.cap }) := by
  rw [flushDl, State.dl_eq hu]

end

/-! ## The rules of a fractional delay line -/

section
variable {s : State} {u : UnitId} {r : Fd} (hu : s.unit? u = some (.fd r))
include hu

theorem setupFd_eq (n : F32) : setupFd u n s = s.putUnit u (.fd { r with
    n := n, nint := BitVec.ofNat 16 (fceil n), w := fsub (f32OfNat (fceil n)) n,
    extractFrom := (r.insertAt + r.buf.cap - fceil n) % r.buf.cap, cfg := true }) := by
  rw [setupFd, State.fd_eq hu]

theorem flushFd_eq : flushFd u s = s.putUnit u (.fd { r with buf := Memory.empty r.buf.cap }) := by
  rw [flushFd, State.fd_eq hu]

end

/-- A length is refused for any of three reasons (R219). -/
theorem fdAccepts_eq_false_iff {n : F32} {l : Nat} :
    fdAccepts n l = false ↔ isNaN n = true ∨ flt n c1 = true ∨ flt (f32OfNat l) n = true := by
  simp only [fdAccepts, Bool.and_eq_false_iff, Bool.not_eq_false', or_assoc]

theorem fdAccepts_eq_true {n : F32} {l : Nat} (hnan : isNaN n = false) (hlow : flt n c1 = false)
    (hhigh : flt (f32OfNat l) n = false) : fdAccepts n l = true := by
  rw [fdAccepts, hnan, hlow, hhigh]
  rfl

/-! ## The obligations -/

/-- Settles O33: by whether the ring can hold the length. -/
theorem dlSetupAndFlush : Obligations.DlSetupAndFlush := by
  refine fun u n => ⟨rfl, rfl, fun s r hf hu => ⟨fun hbad => ?refused, fun h0 hle => ?fits, ?flush⟩⟩
  case refused =>
    have hlen : n.toNat = 0 ∨ r.buf.cap < n.toNat := hbad.imp_left (congrArg BitVec.toNat)
    exact command_silent_raised hf hu (dlSetup_refuses hu hlen)
  case fits =>
    have hlen : n.toNat ≠ 0 := fun h => h0 (BitVec.eq_of_toNat_eq h)
    exact (command_silent_ok hf hu (dlSetup_fits hu hlen hle)).trans (congrArg Host.Outcome.next (setupDl_eq hu _))
  case flush => exact (command_silent_ok hf hu (dlFlush_eq hu)).trans (congrArg Host.Outcome.next (flushDl_eq hu))

/-- Settles O34: by whether the line is set up. -/
theorem dlStepAndPeek : Obligations.DlStepAndPeek := by
  refine fun u x => ⟨rfl, rfl, fun s r h hf hu => ⟨fun hc => ⟨?stepUnset, ?peekUnset⟩, fun hc => ?ready⟩⟩
  case stepUnset => exact command_single_raised hf hu (dlStep_unset hu hc x)
  case peekUnset => exact command_single_raised hf hu (dlPeek_unset hu hc)
  case ready =>
    obtain ⟨-, hins, hext, -⟩ := (Dl.wf_iff r).1 (h.unitWf hu)
    exact ⟨command_single_ok hf hu (dlStep_ready hu hc hext hins x), command_single_ok hf hu (dlPeek_ready hu hc hext)⟩

/-- Settles O36: the next integer of an accepted length is its `fceil`, by `fdAccepts_bounds`. -/
theorem fdSetupAndFlush : Obligations.FdSetupAndFlush := by
  refine fun u n => ⟨rfl, rfl, fun s r h hf hu => ⟨fun hbad => ?refused, fun hnan hlow hhigh => ?fits, ?flush⟩⟩
  case refused => exact command_silent_raised hf hu (fdSetup_refuses hu (fdAccepts_eq_false_iff.2 hbad))
  case fits =>
    have hlen := fdAccepts_eq_true hnan hlow hhigh
    obtain ⟨hpos, hle, hceil, hnext⟩ := fdAccepts_bounds (fdCap_lt h hu) hlen
    exact ⟨fceil n, hpos, hle, hceil, hnext,
      (command_silent_ok hf hu (fdSetup_fits hu hlen)).trans (congrArg Host.Outcome.next (setupFd_eq hu n))⟩
  case flush => exact (command_silent_ok hf hu (fdFlush_eq hu)).trans (congrArg Host.Outcome.next (flushFd_eq hu))

/-- Settles O37: by whether the line is set up. -/
theorem fdStepAndPeek : Obligations.FdStepAndPeek := by
  refine fun u x => ⟨rfl, rfl, fun s r h hf hu => ⟨fun hc => ⟨?stepUnset, ?peekUnset⟩, fun hc => ?ready⟩⟩
  case stepUnset => exact command_single_raised hf hu (fdStep_unset hu hc x)
  case peekUnset => exact command_single_raised hf hu (fdPeek_unset hu hc)
  case ready =>
    obtain ⟨-, hins, hext, -⟩ := (Fd.wf_iff r).1 (h.unitWf hu)
    exact ⟨command_single_ok hf hu (fdStep_ready hu hc hext hins x), command_single_ok hf hu (fdPeek_ready hu hc hext)⟩

end Sys2Proof.Machine
end

section
/-! PROOF of O38 and O39. A waveshaper's setup passes its two checks in order and then writes the table at once; its
sample is `wsOut`, for a value that is not NaN. -/

namespace Sys2Proof.Machine

/-! ## A sample that stops -/

section
variable {s : State} {u v : UnitId} {r : UnitRec} {op : State → Res F32} (hf : s.fault = false)
  (hu : s.unit? u = some r)
include hf hu

theorem command_single_refuse {e : Refusal} (hop : op s = .refuse e) :
    command u r.cls (fun s => single (op s)) s = .refused e := by
  rw [command_reaches hf (State.classOf_of_unit? hu), hop, single_refuse, conclude_refuse]

/-- A unit that is not configured is named by the fault, and no response word is issued (R363, R368). -/
theorem command_single_notSetup (hop : StopsAt (.notSetup v) s (op s)) :
    ∃ t, command u r.cls (fun s => single (op s)) s = .next t ∧ t.fault = true ∧ t.cause = 2 ∧ t.funit = v ∧
      t.respOut = s.respOut := by
  obtain ⟨t, hr, htf, hout⟩ := hop
  refine ⟨t.withFault 2 v, ?_, rfl, rfl, rfl, hout⟩
  rw [command_reaches hf (State.classOf_of_unit? hu), hr, single_raised, conclude_raised_first (htf.trans hf),
    causeCode]

end

/-! ## The rules of a waveshaper -/

section
variable {s : State} {u : UnitId} {r : Ws} (hu : s.unit? u = some (.ws r)) {tab : List F32}
include hu

/-- The table check comes first (R231). -/
theorem wsSetup_tableRefused (hbad : tab.length < 2 ∨ r.tab.cap < tab.length) (mn mx : F32) :
    wsSetup u mn mx tab s = .raised (s.recordFault .wsTable u) := by
  have hcheck : (decide (2 ≤ tab.length) && decide (tab.length ≤ r.tab.cap)) = false := by
    simpa only [Bool.and_eq_false_iff, decide_eq_false_iff_not, Nat.not_le] using hbad
  rw [wsSetup, getWs_eq hu, Res.bind_ok, hcheck, require_false, Res.bind_raised]

/-- With a table that fits, the domain check decides (R231). -/
theorem wsSetup_tableFits (hlow : 2 ≤ tab.length) (hcap : tab.length ≤ r.tab.cap) (mn mx : F32) :
    wsSetup u mn mx tab s = (require (flt mn mx) .wsDomain u s).bind fun _ s =>
      .ok () (s.putUnit u (.ws { tab := r.tab.load tab, len := tab.length, min := mn, max := mx, cfg := true })) := by
  rw [wsSetup, getWs_eq hu, Res.bind_ok, decide_eq_true hlow, decide_eq_true hcap, Bool.and_self, require_true,
    Res.bind_ok]
  rfl

end

/-- Settles O39: by whether the waveshaper is set up, and then by whether the value is NaN. -/
theorem wsStepAndFlush : Obligations.WsStepAndFlush := by
  refine fun u x => ⟨rfl, rfl, fun s r h hf hu => ⟨?flush, fun hc => ?unset, fun hc hx => ?nan, fun hc hx => ?ready⟩⟩
  case flush => exact command_silent_ok hf hu (wsFlush_eq hu)
  case unset => exact command_single_raised hf hu (wsStep_unset hu hc x)
  case nan => exact command_single_refuse hf hu (wsStep_nan hu hc hx)
  case ready =>
    obtain ⟨-, hset⟩ := (Ws.wf_iff r).1 (h.unitWf hu)
    obtain ⟨hlow, hcap, -⟩ := hset hc
    exact command_single_ok hf hu (wsStep_ready hu hc hlow hcap hx)

end Sys2Proof.Machine

namespace Sys2Proof

open Machine in
/-- Settles O38: by the two checks, in their order. -/
theorem wsSetup : Obligations.WsSetup := by
  refine fun u mn mx tab => ⟨rfl, fun s r h hf hu =>
    ⟨fun hbad => ?table, fun hlow hcap hdom => ?domain, fun hlow hcap hdom => ?written⟩⟩
  case table => exact command_silent_raised hf hu (wsSetup_tableRefused hu hbad mn mx)
  case domain =>
    have hop : Machine.wsSetup u mn mx tab s = .raised (s.recordFault .wsDomain u) := by
      rw [wsSetup_tableFits hu hlow hcap, hdom, require_false, Res.bind_raised]
    exact command_silent_raised hf hu hop
  case written =>
    obtain ⟨htab, -⟩ := (Ws.wf_iff r).1 (h.unitWf hu)
    have hop : Machine.wsSetup u mn mx tab s = .ok () (s.putUnit u (.ws
        { tab := r.tab.load tab, len := tab.length, min := mn, max := mx, cfg := true })) := by
      rw [wsSetup_tableFits hu hlow hcap, hdom, require_true, Res.bind_ok]
    exact ⟨r.tab.load tab, Memory.load_cap r.tab tab, Memory.wf_load htab hcap,
      fun _ _ => Memory.get_load_at htab hcap, fun _ => Memory.get_load_above r.tab, command_silent_ok hf hu hop⟩

end Sys2Proof
end

section
/-! PROOF of O40 and O41. The flush of a tube stage reaches its children; its sample is `evalTs`, or stops at the first
obstacle (`tsObstacle`), which the records of the stage and its children say. -/

namespace Sys2Proof.Machine

/-! ## Flushes -/

theorem bqFlush_later {s : State} (h : s.Inv) {u : UnitId} (hu : s.classOf u = some .bq) :
    bqFlush u s = .ok () (flushBq u s) ∧ Later s (flushBq u s) := by
  obtain ⟨b, hb⟩ := State.Inv.bq_of_class hu
  refine ⟨bqFlush_eq hb, ?_⟩
  rw [flushBq, State.bq_eq hb]
  exact Later.putUnit h hb rfl rfl

theorem foFlush_later {s : State} (h : s.Inv) {u : UnitId} (hu : s.classOf u = some .fo) :
    foFlush u s = .ok () (flushFo u s) ∧ Later s (flushFo u s) := by
  obtain ⟨f, hfo⟩ := State.Inv.fo_of_class hu
  refine ⟨foFlush_eq hfo, ?_⟩
  rw [flushFo_eq hfo]
  exact Later.putUnit h hfo rfl rfl

/-- A tube stage is flushed with its children (R243). -/
theorem tsFlush_later {s : State} (h : s.Inv) {u : UnitId} (hu : s.classOf u = some .ts) :
    tsFlush u s = .ok () (flushTs u s) ∧ Later s (flushTs u s) := by
  obtain ⟨r, hr⟩ := State.Inv.ts_of_class hu
  obtain ⟨hinp, hcurve, hfb, hdc⟩ := h.ts_children hr
  have bias : Later s (s.putUnit u (.ts { r with bias := c0 })) := Later.putUnit h hr rfl rfl
  obtain ⟨einp, linp⟩ := bqFlush_later bias.inv ((bias.kin.classOf _).trans hinp)
  have linp := bias.trans linp
  obtain ⟨w, hw⟩ := State.Inv.ws_of_class ((linp.kin.classOf _).trans hcurve)
  obtain ⟨efb, lfb⟩ := foFlush_later linp.inv ((linp.kin.classOf _).trans hfb)
  have lfb := linp.trans lfb
  obtain ⟨edc, ldc⟩ := foFlush_later lfb.inv ((lfb.kin.classOf _).trans hdc)
  rw [flushTs, State.ts_eq hr]
  refine ⟨?_, lfb.trans ldc⟩
  rw [tsFlush, getTs_eq hr, Res.bind_ok, tsSetBias, getTs_eq hr, Res.bind_ok, put_eq, Res.bind_ok, einp, Res.bind_ok,
    wsFlush_eq hw, Res.bind_ok, efb, Res.bind_ok, edc]

/-! ## The registers of a tube stage -/

section
variable {s : State} {u : UnitId} {r : Ts} (hu : s.unit? u = some (.ts r))
include hu

theorem tsSetup_eq (g sv rk rp : F32) : tsSetup u g sv rk rp s =
    .ok () (s.putUnit u (.ts { r with gain := g, supply := sv, rk := rk, rp := rp, cfg := true })) := by
  rw [tsSetup, getTs_eq hu, Res.bind_ok, put_eq]

theorem tsGain_unset (hc : r.cfg = false) (g : F32) : tsGain u g s = .raised (s.recordFault .notSetup u) := by
  rw [tsGain, getTs_eq hu, Res.bind_ok, hc, needCfg_false, Res.bind_raised]

theorem tsGain_ready (hc : r.cfg = true) (g : F32) :
    tsGain u g s = .ok () (s.putUnit u (.ts { r with gain := g })) := by
  rw [tsGain, getTs_eq hu, Res.bind_ok, hc, needCfg_true, Res.bind_ok, put_eq]

theorem exec_tsRdgain (hf : s.fault = false) :
    exec (.tsRdgain u) s = conclude ((needCfg r.cfg u s).map fun _ => [r.gain]) := by
  refine (command_reaches hf (State.classOf_of_unit? hu) _).trans ?_
  rw [getTs_eq hu, Res.bind_ok]

end

/-- Settles O40: the registers by the rule of each command, the flush by `tsFlush_later`. -/
theorem tsControl : Obligations.TsControl := by
  refine fun u g sv rk rp => ⟨rfl, mailable_mkCw 0x74 u 0, fun s r h hf hu =>
    ⟨?setup, fun hc => ⟨?gainUnset, ?readUnset⟩, fun hc => ⟨?gain, ?read⟩, ?flush⟩⟩
  case setup => exact command_silent_ok hf hu (tsSetup_eq hu g sv rk rp)
  case gainUnset => exact command_silent_raised hf hu (tsGain_unset hu hc g)
  case readUnset => rw [exec_tsRdgain hu hf, hc, needCfg_false, Res.map_raised, conclude_raised_first hf, causeCode]
  case gain => exact command_silent_ok hf hu (tsGain_ready hu hc g)
  case read => rw [exec_tsRdgain hu hf, hc, needCfg_true, Res.map_ok, conclude_ok]
  case flush =>
    obtain ⟨hflush, -⟩ := tsFlush_later h (State.classOf_of_unit? hu)
    rw [flushTs, State.ts_eq hu] at hflush
    exact command_silent_ok hf hu hflush

/-! ## A sample of a tube stage -/

section
variable {s : State} {u : UnitId} {r : Ts} {bi : Bq} {w : Ws} {fb dc : Fo} (hu : s.unit? u = some (.ts r))
  (hbi : s.unit? r.inp = some (.bq bi)) (hw : s.unit? r.curve = some (.ws w)) (hfb : s.unit? r.fb = some (.fo fb))
  (hdc : s.unit? r.dc = some (.fo dc)) (x : F32)
include hu

theorem tsStep_unset (hc : r.cfg = false) : tsStep u x s = .raised (s.recordFault .notSetup u) := by
  rw [tsStep, getTs_eq hu, Res.bind_ok, hc, needCfg_false, Res.bind_raised]

include hbi

theorem tsStep_inputUnset (hc : r.cfg = true) (hb : bi.cfg = false) :
    tsStep u x s = .raised (s.recordFault .notSetup r.inp) := by
  rw [tsStep, getTs_eq hu, Res.bind_ok, hc, needCfg_true, Res.bind_ok, bqStep_unset hbi hb, Res.bind_raised]

/-- The value at the curve, through the records of the stage and its input filter (R241). -/
theorem tsCurveIn_eq : tsCurveIn u x s = fadd (bqOut bi (fmul x r.gain)) r.bias := by
  rw [tsCurveIn, State.ts_eq hu, State.bq_eq hbi]

include hw hfb hdc

/-- The first obstacle, through the records of the stage and its children (R241). -/
theorem tsObstacle_eq : tsObstacle u x s =
    if r.cfg = false then some (.notSetup u)
    else if bi.cfg = false then some (.notSetup r.inp)
    else if w.cfg = false then some (.notSetup r.curve)
    else if isNaN (fadd (bqOut bi (fmul x r.gain)) r.bias) = true then some (.nan r.curve)
    else if fb.cfg = false then some (.notSetup r.fb)
    else if dc.cfg = false then some (.notSetup r.dc)
    else none := by
  simp only [tsObstacle, tsCurveIn_eq hu hbi, State.ts_eq hu, State.bq_eq hbi, State.ws_eq hw, State.fo_eq hfb,
    State.fo_eq hdc]

/-- The closed form of a sample, through the records of the stage and its children: they stand under five ids (R22), so
each is found as it was when its turn comes. -/
theorem evalTs_eq (h : s.Inv) : evalTs u x s =
    let x1 := fmul x r.gain
    let x4 := wsOut w (fadd (bqOut bi x1) r.bias)
    let feedback := fmul (fsub r.supply x4) (fdiv r.rk r.rp)
    (foOut dc x4, (((s.putUnit r.inp (.bq (bqNext bi x1))).putUnit r.fb (.fo (foNext fb feedback))).putUnit
      u (.ts { r with bias := foOut fb feedback })).putUnit r.dc (.fo (foNext dc x4))) := by
  have hne : r.dc ≠ r.fb := by
    have hnodup : [r.inp, r.curve, r.fb, r.dc].Nodup := h.children_nodup hu
    intro heq
    simp [heq] at hnodup
  have hfb1 (q : UnitRec) : (s.putUnit r.inp q).fo r.fb = fb :=
    State.fo_eq ((State.unit?_putUnit_other (State.ne_of_unit? hfb hbi (by simp)) s q).trans hfb)
  have hdc3 (q1 q2 q3 : UnitRec) : (((s.putUnit r.inp q1).putUnit r.fb q2).putUnit u q3).fo r.dc = dc := by
    apply State.fo_eq
    rw [State.unit?_putUnit_other (State.ne_of_unit? hdc hu (by simp)), State.unit?_putUnit_other hne,
      State.unit?_putUnit_other (State.ne_of_unit? hdc hbi (by simp)), hdc]
  simp only [evalTs, evalBq, evalFo, tsCurveIn_eq hu hbi, State.ts_eq hu, State.bq_eq hbi, State.ws_eq hw, hfb1, hdc3]

end

/-- A tube stage with no obstacle gives its sample. -/
theorem tsStep_clear {s : State} (h : s.Inv) {u : UnitId} (hu : s.classOf u = some .ts) {x : F32}
    (ho : tsObstacle u x s = none) : Sample (tsStep u x s) s (evalTs u x s) := by
  obtain ⟨hready, hclean⟩ := tsObstacle_none h hu ho
  exact tsStep_sample h hready hclean

end Sys2Proof.Machine

namespace Sys2Proof

open Machine in
/-- Settles O41: by the first obstacle of the stage, if it has one. -/
theorem tsStep : Obligations.TsStep := by
  refine fun u x => ⟨rfl, fun s r bi w fb dc h hf hu hbi hw hfb hdc => ?_⟩
  have hclass : s.classOf u = some .ts := State.classOf_of_unit? hu
  have obstacle : tsObstacle u x s = _ := tsObstacle_eq hu hbi hw hfb hdc x
  have notSetup {v : UnitId} (ho : tsObstacle u x s = some (.notSetup v)) :
      ∃ t, exec (.tsStep u x) s = .next t ∧ t.fault = true ∧ t.cause = 2 ∧ t.funit = v := by
    obtain ⟨t, ht, hfault, hcause, hunit, -⟩ := command_single_notSetup hf hu (tsStep_stops h hclass ho)
    exact ⟨t, ht, hfault, hcause, hunit⟩
  refine ⟨fun hc => ?stage, fun hc hb => ?input, fun hc hb hwc => notSetup ?curve, fun hc hb hwc hx => ?nan,
    fun hc hb hwc hx hfc => notSetup ?feedback, fun hc hb hwc hx hfc hdc' => notSetup ?blocker,
    fun hc hb hwc hx hfc hdc' => ?sample⟩
  case stage => exact command_single_raised hf hu (tsStep_unset hu x hc)
  case input => exact command_single_raised hf hu (tsStep_inputUnset hu hbi x hc hb)
  case curve => simp [obstacle, hc, hb, hwc]
  case nan =>
    have ho : tsObstacle u x s = some (.nan r.curve) := by simp [obstacle, hc, hb, hwc, hx]
    exact command_single_refuse hf hu (tsStep_stops h hclass ho)
  case feedback => simp [obstacle, hc, hb, hwc, hx, hfc]
  case blocker => simp [obstacle, hc, hb, hwc, hx, hfc, hdc']
  case sample =>
    have ho : tsObstacle u x s = none := by simp [obstacle, hc, hb, hwc, hx, hfc, hdc']
    obtain ⟨hstep, -⟩ := tsStep_clear h hclass ho
    rw [evalTs_eq hu hbi hw hfb hdc x h] at hstep
    exact command_single_ok hf hu hstep

end Sys2Proof
end

section
/-! PROOF of O42. A preamp's sample is that of its first stage that stops (R241), or of its last. -/

namespace Sys2Proof.Machine

/-- Nothing follows an early end. -/
theorem StopsAt.bind_eq {α : Type} {o : Obstacle} {s : State} {r : Res α} (h : StopsAt o s r)
    (f : α → State → Res α) : r.bind f = r := by
  cases o with
  | notSetup v => obtain ⟨t, rfl, -⟩ := h; rfl
  | nan v => obtain rfl : r = .refuse (.waveshaperNaN v) := h; rfl

section
variable {s : State} (h : s.Inv) {u : UnitId} {r : Pa} (hu : s.unit? u = some (.pa r)) {x : F32}
include h hu

/-- Where the first stage stops, the preamp's sample is that stage's. -/
theorem paStep_first (h0 : tsObstacle r.stage0 x s ≠ none) : paStep u x s = tsStep r.stage0 x s := by
  obtain ⟨o, ho⟩ := Option.ne_none_iff_exists'.1 h0
  obtain ⟨k0, -, -⟩ := h.pa_children hu
  rw [paStep, getPa_eq hu, Res.bind_ok, (tsStep_stops h k0 ho).bind_eq]

/-- Past the first stage, the second takes its sample. -/
theorem paStep_afterFirst (h0 : tsObstacle r.stage0 x s = none) : let a := evalTs r.stage0 x s
    Later s a.2 ∧ a.2.classOf r.stage1 = some .ts ∧
      paStep u x s = (tsStep r.stage1 a.1 a.2).bind (tsStep r.stage2) := by
  obtain ⟨k0, k1, -⟩ := h.pa_children hu
  obtain ⟨e, l⟩ := tsStep_clear h k0 h0
  exact ⟨l, (l.kin.classOf _).trans k1, by rw [paStep, getPa_eq hu, Res.bind_ok, e, Res.bind_ok]⟩

/-- Past the second stage, the preamp's sample is the third's. -/
theorem paStep_afterSecond (h0 : tsObstacle r.stage0 x s = none) : let a := evalTs r.stage0 x s
    tsObstacle r.stage1 a.1 a.2 = none → let b := evalTs r.stage1 a.1 a.2
    Later s b.2 ∧ b.2.classOf r.stage2 = some .ts ∧ paStep u x s = tsStep r.stage2 b.1 b.2 := by
  intro a h1 b
  obtain ⟨-, -, k2⟩ := h.pa_children hu
  obtain ⟨l, k1, e⟩ := paStep_afterFirst h hu h0
  obtain ⟨e1, l1⟩ := tsStep_clear l.inv k1 h1
  have l1 := l.trans l1
  exact ⟨l1, (l1.kin.classOf _).trans k2, by rw [e, e1, Res.bind_ok]⟩

/-- What ends a preamp's sample: the first obstacle of its first stage that has one (R250). -/
theorem paStep_stops {o : Obstacle} : let a := evalTs r.stage0 x s
    let b := evalTs r.stage1 a.1 a.2
    (tsObstacle r.stage0 x s).or ((tsObstacle r.stage1 a.1 a.2).or (tsObstacle r.stage2 b.1 b.2)) = some o →
      StopsAt o s (paStep u x s) := by
  intro a b ho
  cases h0 : tsObstacle r.stage0 x s with
  | some p =>
    obtain ⟨k0, -, -⟩ := h.pa_children hu
    rw [h0, Option.some_or] at ho
    rw [paStep_first h hu (by simp [h0])]
    exact tsStep_stops h k0 (h0.trans ho)
  | none =>
    rw [h0, Option.none_or] at ho
    cases h1 : tsObstacle r.stage1 a.1 a.2 with
    | some p =>
      obtain ⟨l, k1, e⟩ := paStep_afterFirst h hu h0
      rw [h1, Option.some_or] at ho
      rw [e]
      exact ((tsStep_stops l.inv k1 (h1.trans ho)).from l).bind _
    | none =>
      obtain ⟨l, k2, e⟩ := paStep_afterSecond h hu h0 h1
      rw [h1, Option.none_or] at ho
      rw [e]
      exact (tsStep_stops l.inv k2 ho).from l

end

/-- A preamp is flushed stage by stage (R252). -/
theorem paFlush_eq {s : State} (h : s.Inv) {u : UnitId} {r : Pa} (hu : s.unit? u = some (.pa r)) :
    paFlush u s = .ok () (flushTs r.stage2 (flushTs r.stage1 (flushTs r.stage0 s))) := by
  obtain ⟨k0, k1, k2⟩ := h.pa_children hu
  obtain ⟨e0, l0⟩ := tsFlush_later h k0
  obtain ⟨e1, l1⟩ := tsFlush_later l0.inv ((l0.kin.classOf _).trans k1)
  have l1 := l0.trans l1
  obtain ⟨e2, -⟩ := tsFlush_later l1.inv ((l1.kin.classOf _).trans k2)
  rw [paFlush, getPa_eq hu, Res.bind_ok, e0, Res.bind_ok, e1, Res.bind_ok, e2]

/-- Settles O42: by the first stage that stops. -/
theorem paStepAndFlush : Obligations.PaStepAndFlush := by
  refine fun u x => ⟨rfl, rfl, fun s r h hf hu => ?_⟩
  intro a b c
  have hpa : exec (.paStep u x) s = conclude (single (paStep u x s)) :=
    command_reaches hf (State.classOf_of_unit? hu) fun s => single (paStep u x s)
  have hts {t : State} {v : UnitId} (l : Later s t) (hv : t.classOf v = some .ts) (y : F32) :
      exec (.tsStep v y) t = conclude (single (tsStep v y t)) :=
    command_reaches (l.fault.trans hf) hv fun t => single (tsStep v y t)
  refine ⟨fun ready0 ready1 ready2 clean0 clean1 clean2 => ?ready,
    ⟨fun hstop => ?clear, fun v hstop => ?notSetup, fun v hstop => ?nan⟩, fun h0 => ?first, fun h0 h1 => ?second, fun h0 h1 => ?third, ?flush⟩
  case ready =>
    have hclean : paClean u x s = true := by
      rw [paClean, State.pa_eq hu]
      exact Bool.and_eq_true_iff.2 ⟨Bool.and_eq_true_iff.2 ⟨clean0, clean1⟩, clean2⟩
    obtain ⟨hstep, -⟩ := paStep_sample h (readyPa_iff.2 ⟨r, hu, ready0, ready1, ready2⟩) hclean
    rw [evalPa, State.pa_eq hu] at hstep
    exact command_single_ok hf hu hstep
  case clear =>
    rw [Option.or_eq_none_iff, Option.or_eq_none_iff] at hstop
    obtain ⟨h0, h1, h2⟩ := hstop
    obtain ⟨l, k2, e⟩ := paStep_afterSecond h hu h0 h1
    obtain ⟨hstep, -⟩ := tsStep_clear l.inv k2 h2
    exact command_single_ok hf hu (e.trans hstep)
  case notSetup => exact command_single_notSetup hf hu (paStep_stops h hu hstop)
  case nan => exact command_single_refuse hf hu (paStep_stops h hu hstop)
  case first =>
    obtain ⟨k0, -, -⟩ := h.pa_children hu
    rw [hpa, hts (Later.refl h) k0, paStep_first h hu h0]
  case second =>
    obtain ⟨o, ho⟩ := Option.ne_none_iff_exists'.1 h1
    obtain ⟨l, k1, e⟩ := paStep_afterFirst h hu h0
    rw [hpa, hts l k1, e, (tsStep_stops l.inv k1 ho).bind_eq]
  case third =>
    obtain ⟨l, k2, e⟩ := paStep_afterSecond h hu h0 h1
    rw [hpa, hts l k2, e]
  case flush => exact command_silent_ok hf hu (paFlush_eq h hu)

end Sys2Proof.Machine
end

section
/-! PROOF of O43 and O44. A section passes its setup, its flush and its samples to its delay line; what the line does is
read off the records of the two. -/

namespace Sys2Proof.Machine

/-! ## The rules of an allpass section -/

section
variable {s : State} {u : UnitId} {r : Apf} {d : Dl} (hu : s.unit? u = some (.apf r))
include hu

theorem apfStep_unset (hc : r.cfg = false) (x : F32) : apfStep u x s = .raised (s.recordFault .notSetup u) := by
  rw [apfStep, getApf_eq hu, Res.bind_ok, hc, needCfg_false, Res.bind_raised]

variable (hd : s.unit? r.dl = some (.dl d))
include hd

/-- A section that is set up names its line where that is not (R262, R363). -/
theorem apfStep_lineUnset (hc : r.cfg = true) (hdc : d.cfg = false) (x : F32) :
    apfStep u x s = .raised (s.recordFault .notSetup r.dl) := by
  rw [apfStep, getApf_eq hu, Res.bind_ok, hc, needCfg_true, Res.bind_ok, dlPeek_unset hd hdc, Res.bind_raised]

theorem evalApf_eq (x : F32) : evalApf u x s = (fadd (fmul (fadd x (fmul (dlOut d) r.gb)) r.gf) (dlOut d),
    s.putUnit r.dl (.dl (dlNext d (fadd x (fmul (dlOut d) r.gb))))) := by
  simp only [evalApf, evalDl, State.apf_eq hu, State.dl_eq hd]

theorem setupApf_eq (n : Nat) (gb gf : F32) : setupApf u n gb gf s = (s.putUnit r.dl (.dl { d with
    n := n, extractFrom := (d.insertAt + d.buf.cap - n) % d.buf.cap, cfg := true })).putUnit
      u (.apf { r with gb := gb, gf := gf, cfg := true }) := by
  rw [setupApf, State.apf_eq hu, setupDl_eq hd]

theorem flushApf_eq : flushApf u s = s.putUnit r.dl (.dl { d with buf := Memory.empty d.buf.cap }) := by
  rw [flushApf, State.apf_eq hu, flushDl_eq hd]

theorem apfSetup_fits {n : Nat} (h0 : n ≠ 0) (hle : n ≤ d.buf.cap) (gb gf : F32) :
    apfSetup u n gb gf s = .ok () (setupApf u n gb gf s) := by
  rw [apfSetup, getApf_eq hu, Res.bind_ok, dlSetup_fits hd h0 hle, Res.bind_ok, put_eq, setupApf, State.apf_eq hu]

theorem apfSetup_refuses {n : Nat} (hn : n = 0 ∨ d.buf.cap < n) (gb gf : F32) :
    apfSetup u n gb gf s = .raised (s.recordFault .delayLen r.dl) := by
  rw [apfSetup, getApf_eq hu, Res.bind_ok, dlSetup_refuses hd hn, Res.bind_raised]

theorem apfFlush_eq : apfFlush u s = .ok () (flushApf u s) := by
  rw [apfFlush, getApf_eq hu, Res.bind_ok, dlFlush_eq hd, flushApf, State.apf_eq hu]

end

/-! ## The rules of a comb section -/

section
variable {s : State} {u : UnitId} {r : Cmb} {d : Dl} (hu : s.unit? u = some (.cmb r))
include hu

theorem cmbStep_unset (hc : r.cfg = false) (x : F32) : cmbStep u x s = .raised (s.recordFault .notSetup u) := by
  rw [cmbStep, getCmb_eq hu, Res.bind_ok, hc, needCfg_false, Res.bind_raised]

variable (hd : s.unit? r.dl = some (.dl d))
include hd

/-- A section that is set up names its line where that is not (R266, R363). -/
theorem cmbStep_lineUnset (hc : r.cfg = true) (hdc : d.cfg = false) (x : F32) :
    cmbStep u x s = .raised (s.recordFault .notSetup r.dl) := by
  rw [cmbStep, getCmb_eq hu, Res.bind_ok, hc, needCfg_true, Res.bind_ok, dlPeek_unset hd hdc, Res.bind_raised]

theorem evalCmb_eq (x : F32) : evalCmb u x s = (fadd x (fmul (dlOut d) r.gb),
    s.putUnit r.dl (.dl (dlNext d (fadd x (fmul (dlOut d) r.gb))))) := by
  simp only [evalCmb, evalDl, State.cmb_eq hu, State.dl_eq hd]

theorem setupCmb_eq (n : Nat) (gb : F32) : setupCmb u n gb s = (s.putUnit r.dl (.dl { d with
    n := n, extractFrom := (d.insertAt + d.buf.cap - n) % d.buf.cap, cfg := true })).putUnit
      u (.cmb { r with gb := gb, cfg := true }) := by
  rw [setupCmb, State.cmb_eq hu, setupDl_eq hd]

theorem flushCmb_eq : flushCmb u s = s.putUnit r.dl (.dl { d with buf := Memory.empty d.buf.cap }) := by
  rw [flushCmb, State.cmb_eq hu, flushDl_eq hd]

theorem cmbSetup_fits {n : Nat} (h0 : n ≠ 0) (hle : n ≤ d.buf.cap) (gb : F32) :
    cmbSetup u n gb s = .ok () (setupCmb u n gb s) := by
  rw [cmbSetup, getCmb_eq hu, Res.bind_ok, dlSetup_fits hd h0 hle, Res.bind_ok, put_eq, setupCmb, State.cmb_eq hu]

theorem cmbSetup_refuses {n : Nat} (hn : n = 0 ∨ d.buf.cap < n) (gb : F32) :
    cmbSetup u n gb s = .raised (s.recordFault .delayLen r.dl) := by
  rw [cmbSetup, getCmb_eq hu, Res.bind_ok, dlSetup_refuses hd hn, Res.bind_raised]

theorem cmbFlush_eq : cmbFlush u s = .ok () (flushCmb u s) := by
  rw [cmbFlush, getCmb_eq hu, Res.bind_ok, dlFlush_eq hd, flushCmb, State.cmb_eq hu]

end

/-! ## The obligations -/

/-- Settles O43: by whether the ring of the line can hold the length. -/
theorem sectionSetupAndFlush : Obligations.SectionSetupAndFlush := by
  intro u n gb gf
  have hzero : n ≠ 0 → n.toNat ≠ 0 := fun h0 h => h0 (BitVec.eq_of_toNat_eq h)
  refine ⟨rfl, fun s r d hf hu hd => ⟨fun hbad => ?apfRefused, fun h0 hle => ?apfFits, ?apfFlush⟩,
    fun s r d hf hu hd => ⟨fun hbad => ?cmbRefused, fun h0 hle => ?cmbFits, ?cmbFlush⟩⟩
  case apfRefused =>
    exact command_silent_raised hf hu (apfSetup_refuses hu hd (hbad.imp_left (congrArg BitVec.toNat)) gb gf)
  case apfFits =>
    exact (command_silent_ok hf hu (apfSetup_fits hu hd (hzero h0) hle gb gf)).trans
      (congrArg Host.Outcome.next (setupApf_eq hu hd _ gb gf))
  case apfFlush =>
    exact (command_silent_ok hf hu (apfFlush_eq hu hd)).trans (congrArg Host.Outcome.next (flushApf_eq hu hd))
  case cmbRefused =>
    exact command_silent_raised hf hu (cmbSetup_refuses hu hd (hbad.imp_left (congrArg BitVec.toNat)) gb)
  case cmbFits =>
    exact (command_silent_ok hf hu (cmbSetup_fits hu hd (hzero h0) hle gb)).trans
      (congrArg Host.Outcome.next (setupCmb_eq hu hd _ gb))
  case cmbFlush =>
    exact (command_silent_ok hf hu (cmbFlush_eq hu hd)).trans (congrArg Host.Outcome.next (flushCmb_eq hu hd))

/-- Settles O44: by whether the section and then its line are set up. -/
theorem sectionStep : Obligations.SectionStep := by
  refine fun u x => ⟨rfl, rfl,
    fun s r d h hf hu hd => ⟨fun hc => ?apfUnset, fun hc hdc => ?apfLineUnset, fun hc hdc => ?apfReady⟩,
    fun s r d h hf hu hd => ⟨fun hc => ?cmbUnset, fun hc hdc => ?cmbLineUnset, fun hc hdc => ?cmbReady⟩⟩
  case apfUnset => exact command_single_raised hf hu (apfStep_unset hu hc x)
  case apfLineUnset => exact command_single_raised hf hu (apfStep_lineUnset hu hd hc hdc x)
  case apfReady =>
    obtain ⟨hstep, -⟩ := apfStep_sample h (readyApf_iff.2 ⟨r, hu, hc, readyDl_iff.2 ⟨d, hd, hdc⟩⟩) x
    rw [evalApf_eq hu hd] at hstep
    exact command_single_ok hf hu hstep
  case cmbUnset => exact command_single_raised hf hu (cmbStep_unset hu hc x)
  case cmbLineUnset => exact command_single_raised hf hu (cmbStep_lineUnset hu hd hc hdc x)
  case cmbReady =>
    obtain ⟨hstep, -⟩ := cmbStep_sample h (readyCmb_iff.2 ⟨r, hu, hc, readyDl_iff.2 ⟨d, hd, hdc⟩⟩) x
    rw [evalCmb_eq hu hd] at hstep
    exact command_single_ok hf hu hstep

end Sys2Proof.Machine
end

section
/-! PROOF of O45. A reverberator's setup is the setups of its seven sections in order; each configures its section and
unsets nothing, or raises the fault of its line. -/

namespace Sys2Proof.Machine

/-! ## What setups never change -/

/-- A state reached by setups: it meets the invariant, every unit has its table entry, a unit that was set up still is,
and nothing but units differs. -/
structure SetUp (s t : State) : Prop where
  inv : t.Inv
  unit : ∀ {v r}, s.unit? v = some r →
    ∃ q, t.unit? v = some q ∧ q.entry = r.entry ∧ (r.cfgBit = true → q.cfgBit = true)
  rest : t = { s with units := t.units }

theorem SetUp.refl {s : State} (h : s.Inv) : SetUp s s := ⟨h, fun hv => ⟨_, hv, rfl, id⟩, rfl⟩

section
variable {s t : State} (k : SetUp s t)
include k

theorem SetUp.trans {t' : State} (k' : SetUp t t') : SetUp s t' where
  inv := k'.inv
  unit hv := by
    obtain ⟨q, hq, he, hc⟩ := k.unit hv
    obtain ⟨q', hq', he', hc'⟩ := k'.unit hq
    exact ⟨q', hq', he'.trans he, hc' ∘ hc⟩
  rest := by rw [k'.rest, k.rest]

theorem SetUp.fault : t.fault = s.fault := by rw [k.rest]
theorem SetUp.respOut : t.respOut = s.respOut := by rw [k.rest]

theorem SetUp.isClass {v : UnitId} {c : UnitClass} (hc : s.classOf v = some c) : t.classOf v = some c := by
  obtain ⟨r, hr, rfl⟩ := State.exists_of_classOf hc
  obtain ⟨q, hq, he, -⟩ := k.unit hr
  rw [State.classOf_of_unit? hq, UnitRec.cls, he, UnitRec.cls]

theorem SetUp.dl {v : UnitId} {d : Dl} (hv : s.unit? v = some (.dl d)) :
    ∃ q, t.unit? v = some (.dl q) ∧ q.buf.cap = d.buf.cap ∧ (d.cfg = true → q.cfg = true) := by
  obtain ⟨q, hq, he, hc⟩ := k.unit hv
  cases q <;> simp [UnitRec.entry] at he
  exact ⟨_, hq, he, hc⟩

theorem SetUp.apf {v : UnitId} {r : Apf} (hv : s.unit? v = some (.apf r)) :
    ∃ q, t.unit? v = some (.apf q) ∧ q.dl = r.dl ∧ (r.cfg = true → q.cfg = true) := by
  obtain ⟨q, hq, he, hc⟩ := k.unit hv
  cases q <;> simp [UnitRec.entry] at he
  exact ⟨_, hq, he, hc⟩

theorem SetUp.cmb {v : UnitId} {r : Cmb} (hv : s.unit? v = some (.cmb r)) :
    ∃ q, t.unit? v = some (.cmb q) ∧ q.dl = r.dl ∧ (r.cfg = true → q.cfg = true) := by
  obtain ⟨q, hq, he, hc⟩ := k.unit hv
  cases q <;> simp [UnitRec.entry] at he
  exact ⟨_, hq, he, hc⟩

/-- A reverberator keeps its sections. -/
theorem SetUp.rv {v : UnitId} {r : Rv} (hv : s.unit? v = some (.rv r)) :
    ∃ c, t.unit? v = some (.rv { r with cfg := c }) := by
  obtain ⟨q, hq, he, -⟩ := k.unit hv
  cases q <;> simp only [UnitRec.entry, reduceCtorEq, InstEntry.rv.injEq] at he
  obtain ⟨h0, h1, h2, h3, h4, h5, h6⟩ := he
  exact ⟨_, by rw [hq, ← h0, ← h1, ← h2, ← h3, ← h4, ← h5, ← h6]⟩

theorem SetUp.readyDl {v : UnitId} (hr : readyDl s v = true) : readyDl t v = true := by
  obtain ⟨d, hd, hc⟩ := readyDl_iff.1 hr
  obtain ⟨q, hq, -, hqc⟩ := k.dl hd
  exact readyDl_iff.2 ⟨q, hq, hqc hc⟩

theorem SetUp.readyApf {v : UnitId} (hr : readyApf s v = true) : readyApf t v = true := by
  obtain ⟨r, hv, hc, hd⟩ := readyApf_iff.1 hr
  obtain ⟨q, hq, hdl, hqc⟩ := k.apf hv
  exact readyApf_iff.2 ⟨q, hq, hqc hc, hdl ▸ k.readyDl hd⟩

theorem SetUp.readyCmb {v : UnitId} (hr : readyCmb s v = true) : readyCmb t v = true := by
  obtain ⟨r, hv, hc, hd⟩ := readyCmb_iff.1 hr
  obtain ⟨q, hq, hdl, hqc⟩ := k.cmb hv
  exact readyCmb_iff.2 ⟨q, hq, hqc hc, hdl ▸ k.readyDl hd⟩

end

/-- A unit configured by a record that is well formed and has its table entry. -/
theorem SetUp.putUnit {s : State} (h : s.Inv) {u : UnitId} {r r' : UnitRec} (hu : s.unit? u = some r)
    (he : r'.entry = r.entry) (hc : r'.cfgBit = true) (hw : r'.wf s.params = true) : SetUp s (s.putUnit u r') where
  inv := h.putUnit hu he hw
  unit {v q} hv := by
    by_cases hvu : v = u
    · subst hvu
      obtain rfl : r = q := Option.some.inj (hu.symm.trans hv)
      exact ⟨r', State.unit?_putUnit_same hu, he, fun _ => hc⟩
    · exact ⟨q, (State.unit?_putUnit_other hvu s r').trans hv, rfl, id⟩
  rest := rfl

/-! ## The setup of one section -/

section
variable {s : State} (h : s.Inv) {u : UnitId}
include h

/-- An allpass section and its line. -/
theorem State.Inv.apf_line (hc : s.classOf u = some .apf) :
    ∃ r d, s.unit? u = some (.apf r) ∧ s.unit? r.dl = some (.dl d) := by
  obtain ⟨r, hr⟩ := State.Inv.apf_of_class hc
  obtain ⟨d, hd⟩ := State.Inv.dl_of_class (h.apf_child hr)
  exact ⟨r, d, hr, hd⟩

/-- A comb section and its line. -/
theorem State.Inv.cmb_line (hc : s.classOf u = some .cmb) :
    ∃ r d, s.unit? u = some (.cmb r) ∧ s.unit? r.dl = some (.dl d) := by
  obtain ⟨r, hr⟩ := State.Inv.cmb_of_class hc
  obtain ⟨d, hd⟩ := State.Inv.dl_of_class (h.cmb_child hr)
  exact ⟨r, d, hr, hd⟩

end

/-- A length the ring holds leaves the line well formed (R28, R211). -/
theorem Dl.wf_setup {d : Dl} (hw : d.wf = true) {n : Nat} (h0 : n ≠ 0) (hle : n ≤ d.buf.cap) : Dl.wf { d with
    n := n, extractFrom := (d.insertAt + d.buf.cap - n) % d.buf.cap, cfg := true } = true := by
  obtain ⟨hbuf, hins, -, -⟩ := (Dl.wf_iff d).1 hw
  exact (Dl.wf_iff _).2 ⟨hbuf, hins, Nat.mod_lt _ (by omega), fun _ => ⟨Nat.one_le_iff_ne_zero.2 h0, hle, rfl⟩⟩

/-- A line given a length its ring holds is ready. -/
theorem setupDl_setUp {s : State} (h : s.Inv) {v : UnitId} {d : Dl} (hd : s.unit? v = some (.dl d)) {n : Nat}
    (h0 : n ≠ 0) (hle : n ≤ d.buf.cap) : SetUp s (setupDl v n s) ∧ readyDl (setupDl v n s) v = true := by
  rw [setupDl_eq hd]
  exact ⟨SetUp.putUnit h hd rfl rfl (Dl.wf_setup (h.unitWf hd) h0 hle),
    readyDl_iff.2 ⟨_, State.unit?_putUnit_same hd, rfl⟩⟩

/-- Its section configured after it: the line is still ready and the section holds its record. -/
theorem setupDl_putUnit_setUp {s : State} (h : s.Inv) {u v : UnitId} {r r' : UnitRec} {d : Dl}
    (hu : s.unit? u = some r) (hd : s.unit? v = some (.dl d)) (hne : u ≠ v) (he : r'.entry = r.entry)
    (hc : r'.cfgBit = true) (hw : r'.wf s.params = true) {n : Nat} (h0 : n ≠ 0) (hle : n ≤ d.buf.cap) :
    let t := (setupDl v n s).putUnit u r'
    SetUp s t ∧ t.unit? u = some r' ∧ readyDl t v = true := by
  obtain ⟨kline, hline⟩ := setupDl_setUp h hd h0 hle
  have hu' : (setupDl v n s).unit? u = some r := by rw [setupDl, State.unit?_putUnit_other hne, hu]
  have ksection := SetUp.putUnit kline.inv hu' he hc hw
  exact ⟨kline.trans ksection, State.unit?_putUnit_same hu', ksection.readyDl hline⟩

/-- The setup of a section, as `RV.SETUP` calls it (R270). -/
inductive SectionSetup where
  | apf (u : UnitId) (n : BitVec 16) (gb gf : F32)
  | cmb (u : UnitId) (n : BitVec 16) (gb : F32)

namespace SectionSetup

/-- The section. -/
def unit : SectionSetup → UnitId
  | apf u _ _ _ => u
  | cmb u _ _ => u

/-- Its class. -/
def cls : SectionSetup → UnitClass
  | apf _ _ _ _ => .apf
  | cmb _ _ _ => .cmb

/-- The setup as a command. -/
def instr : SectionSetup → Instr
  | apf u n gb gf => .apfSetup u n gb gf
  | cmb u n gb => .cmbSetup u n gb

/-- The setup as a part of a command. -/
def part : SectionSetup → State → Res Unit
  | apf u n gb gf => apfSetup u n.toNat gb gf
  | cmb u n gb => cmbSetup u n.toNat gb

/-- The state it leaves where the ring of the line is long enough. -/
def after : SectionSetup → State → State
  | apf u n gb gf => setupApf u n.toNat gb gf
  | cmb u n gb => setupCmb u n.toNat gb

/-- The ring of the line is long enough. -/
def Fits (s : State) : SectionSetup → Prop
  | apf u n _ _ => n.toNat ≠ 0 ∧ n.toNat ≤ (s.dl (s.apf u).dl).buf.cap
  | cmb u n _ => n.toNat ≠ 0 ∧ n.toNat ≤ (s.dl (s.cmb u).dl).buf.cap

/-- The section is set up, with its line. -/
def ready (s : State) : SectionSetup → Bool
  | apf u _ _ _ => readyApf s u
  | cmb u _ _ => readyCmb s u

section
variable {s : State} {p : SectionSetup} (hc : s.classOf p.unit = some p.cls)
include hc

theorem exec_instr (hf : s.fault = false) : exec p.instr s = conclude (silent (p.part s)) := by
  cases p with
  | apf u n gb gf => exact command_reaches hf hc fun s => silent (apfSetup u n.toNat gb gf s)
  | cmb u n gb => exact command_reaches hf hc fun s => silent (cmbSetup u n.toNat gb s)

variable (h : s.Inv)
include h

/-- A setup that fits completes and configures its section (R261, R265). -/
theorem part_fits (hp : p.Fits s) :
    p.part s = .ok () (p.after s) ∧ SetUp s (p.after s) ∧ p.ready (p.after s) = true := by
  cases p with
  | apf u n gb gf =>
    obtain ⟨r, d, hu, hd⟩ := h.apf_line (u := u) hc
    rw [Fits, State.apf_eq hu, State.dl_eq hd] at hp
    obtain ⟨h0, hle⟩ := hp
    obtain ⟨k, hsec, hline⟩ := setupDl_putUnit_setUp h hu hd (State.ne_of_unit? hu hd (by simp))
      (r' := .apf { r with gb := gb, gf := gf, cfg := true }) rfl rfl rfl h0 hle
    refine ⟨apfSetup_fits hu hd h0 hle gb gf, ?_⟩
    rw [after, setupApf, State.apf_eq hu]
    exact ⟨k, readyApf_iff.2 ⟨_, hsec, rfl, hline⟩⟩
  | cmb u n gb =>
    obtain ⟨r, d, hu, hd⟩ := h.cmb_line (u := u) hc
    rw [Fits, State.cmb_eq hu, State.dl_eq hd] at hp
    obtain ⟨h0, hle⟩ := hp
    obtain ⟨k, hsec, hline⟩ := setupDl_putUnit_setUp h hu hd (State.ne_of_unit? hu hd (by simp))
      (r' := .cmb { r with gb := gb, cfg := true }) rfl rfl rfl h0 hle
    refine ⟨cmbSetup_fits hu hd h0 hle gb, ?_⟩
    rw [after, setupCmb, State.cmb_eq hu]
    exact ⟨k, readyCmb_iff.2 ⟨_, hsec, rfl, hline⟩⟩

/-- A setup that does not fit raises the fault of the line (R261, R265). -/
theorem part_refuses (hp : ¬ p.Fits s) : ∃ v, p.part s = .raised (s.recordFault .delayLen v) := by
  cases p with
  | apf u n gb gf =>
    obtain ⟨r, d, hu, hd⟩ := h.apf_line (u := u) hc
    rw [Fits, State.apf_eq hu, State.dl_eq hd] at hp
    exact ⟨r.dl, apfSetup_refuses hu hd (by omega) gb gf⟩
  | cmb u n gb =>
    obtain ⟨r, d, hu, hd⟩ := h.cmb_line (u := u) hc
    rw [Fits, State.cmb_eq hu, State.dl_eq hd] at hp
    exact ⟨r.dl, cmbSetup_refuses hu hd (by omega) gb⟩

/-- The setups of other sections do not change whether a setup fits. -/
theorem fits_of_setUp {t : State} (k : SetUp s t) (hp : p.Fits s) : p.Fits t := by
  cases p with
  | apf u n gb gf =>
    obtain ⟨r, d, hu, hd⟩ := h.apf_line (u := u) hc
    obtain ⟨r', hu', hdl, -⟩ := k.apf hu
    obtain ⟨d', hd', hcap, -⟩ := k.dl hd
    rw [Fits, State.apf_eq hu, State.dl_eq hd] at hp
    rwa [Fits, State.apf_eq hu', hdl, State.dl_eq hd', hcap]
  | cmb u n gb =>
    obtain ⟨r, d, hu, hd⟩ := h.cmb_line (u := u) hc
    obtain ⟨r', hu', hdl, -⟩ := k.cmb hu
    obtain ⟨d', hd', hcap, -⟩ := k.dl hd
    rw [Fits, State.cmb_eq hu, State.dl_eq hd] at hp
    rwa [Fits, State.cmb_eq hu', hdl, State.dl_eq hd', hcap]

end

theorem ready_of_setUp {s t : State} (k : SetUp s t) {p : SectionSetup} (hp : p.ready s = true) :
    p.ready t = true := by
  cases p with
  | apf => exact k.readyApf hp
  | cmb => exact k.readyCmb hp

end SectionSetup

/-! ## Setups in sequence -/

/-- Setups one after the other. -/
def setupAll : List SectionSetup → State → Res Unit
  | [], s => .ok () s
  | p :: ps, s => (p.part s).bind fun _ s => setupAll ps s

/-- The state they leave where every ring is long enough. -/
def afterAll (ps : List SectionSetup) (s : State) : State := ps.foldl (fun s p => p.after s) s

/-- The setups as commands: they complete together, or the first that faults ends both (R270). -/
theorem setupAll_cases (ps : List SectionSetup) : ∀ {s : State}, s.Inv → s.fault = false →
    (∀ p ∈ ps, s.classOf p.unit = some p.cls) →
    (∃ t, setupAll ps s = .ok () t ∧ SetUp s t ∧ runSteps s.respOut (ps.map SectionSetup.instr) s = .next t) ∨
    (∃ t, setupAll ps s = .raised t ∧ t.fault = true ∧
      runSteps s.respOut (ps.map SectionSetup.instr) s = .next t) := by
  induction ps with
  | nil => exact fun h _ _ => .inl ⟨_, rfl, SetUp.refl h, rfl⟩
  | cons p ps ih =>
    intro s h hf hcs
    rw [List.forall_mem_cons] at hcs
    obtain ⟨hc, hcs⟩ := hcs
    have hexec := SectionSetup.exec_instr hc hf
    by_cases hp : p.Fits s
    · obtain ⟨hpart, k, -⟩ := SectionSetup.part_fits hc h hp
      rw [hpart, conclude_silent_ok] at hexec
      rw [setupAll, hpart, Res.bind_ok, List.map_cons, runSteps_cons_clear hexec (k.fault.trans hf), ← k.respOut]
      obtain ⟨t, hall, kall, hrun⟩ | hraised := ih k.inv (k.fault.trans hf) fun q hq => k.isClass (hcs q hq)
      · exact .inl ⟨t, hall, k.trans kall, hrun⟩
      · exact .inr hraised
    · obtain ⟨v, hpart⟩ := SectionSetup.part_refuses hc h hp
      rw [hpart, silent_raised, conclude_raised] at hexec
      rw [setupAll, hpart, Res.bind_raised, List.map_cons, runSteps_cons_faulted hexec (State.recordFault_fault ..)]
      refine .inr ⟨_, rfl, State.recordFault_fault .., ?_⟩
      rw [← State.recordFault_respOut s .delayLen v]
      rfl

/-- Setups that all fit complete, and every section is then set up. -/
theorem setupAll_fits (ps : List SectionSetup) : ∀ {s : State}, s.Inv →
    (∀ p ∈ ps, s.classOf p.unit = some p.cls ∧ p.Fits s) →
    setupAll ps s = .ok () (afterAll ps s) ∧ SetUp s (afterAll ps s) ∧ ∀ p ∈ ps, p.ready (afterAll ps s) = true := by
  induction ps with
  | nil => exact fun h _ => ⟨rfl, SetUp.refl h, nofun⟩
  | cons p ps ih =>
    intro s h hps
    rw [List.forall_mem_cons] at hps
    obtain ⟨⟨hc, hp⟩, hps⟩ := hps
    obtain ⟨hpart, k, hr⟩ := SectionSetup.part_fits hc h hp
    obtain ⟨hall, kall, hrs⟩ := ih k.inv fun q hq =>
      ⟨k.isClass (hps q hq).1, SectionSetup.fits_of_setUp (hps q hq).1 h k (hps q hq).2⟩
    refine ⟨?_, k.trans kall, List.forall_mem_cons.2 ⟨SectionSetup.ready_of_setUp kall hr, hrs⟩⟩
    rw [setupAll, hpart, Res.bind_ok, hall]
    rfl

/-! ## The setup and the flush of a reverberator -/

theorem Res.bind_assoc {α β γ : Type} (r : Res α) (f : α → State → Res β) (g : β → State → Res γ) :
    (r.bind f).bind g = r.bind fun a s => (f a s).bind g := by
  cases r <;> rfl

/-- The seven setups of R270, in order. -/
def reverbSetups (r : Rv) : List SectionSetup :=
  [.apf r.apf0 347 c0p7 cm0p7, .apf r.apf1 113 c0p7 cm0p7, .apf r.apf2 37 c0p7 cm0p7, .cmb r.cmb0 1601 c0p802,
    .cmb r.cmb1 1867 c0p802, .cmb r.cmb2 2053 c0p802, .cmb r.cmb3 2251 c0p802]

/-- As commands. -/
theorem reverbSetups_instr (r : Rv) : (reverbSetups r).map SectionSetup.instr =
    [.apfSetup r.apf0 347 0x3F333333 0xBF333333, .apfSetup r.apf1 113 0x3F333333 0xBF333333,
      .apfSetup r.apf2 37 0x3F333333 0xBF333333, .cmbSetup r.cmb0 1601 0x3F4D4FDF, .cmbSetup r.cmb1 1867 0x3F4D4FDF,
      .cmbSetup r.cmb2 2053 0x3F4D4FDF, .cmbSetup r.cmb3 2251 0x3F4D4FDF] := rfl

section
variable {s t : State} {u : UnitId} {r : Rv} (hu : s.unit? u = some (.rv r))
include hu

theorem rvSetup_eq : rvSetup u s = (setupAll (reverbSetups r) s).bind fun _ s => rvSetCfg u s := by
  rw [rvSetup, getRv_eq hu, Res.bind_ok]
  simp only [reverbSetups, setupAll, Res.bind_assoc, Res.bind_ok]
  rfl

theorem rvSetCfg_of_setUp (k : SetUp s t) :
    rvSetCfg u t = .ok () (t.putUnit u (.rv { r with cfg := true })) := by
  obtain ⟨c, hc⟩ := k.rv hu
  rw [rvSetCfg, getRv_eq hc, Res.bind_ok, put_eq]

theorem reverbSetups_classOf (h : s.Inv) : ∀ p ∈ reverbSetups r, s.classOf p.unit = some p.cls := by
  obtain ⟨a0, a1, a2, b0, b1, b2, b3⟩ := h.rv_children hu
  simp only [reverbSetups, List.forall_mem_cons]
  exact ⟨a0, a1, a2, b0, b1, b2, b3, nofun⟩

/-- With the seven sections set up, `cfg` makes the reverberator ready. -/
theorem readyRv_of_setUp (k : SetUp s t) (hready : ∀ p ∈ reverbSetups r, p.ready t = true) :
    readyRv (t.putUnit u (.rv { r with cfg := true })) u = true := by
  obtain ⟨c, hc⟩ := k.rv hu
  have kcfg : SetUp t (t.putUnit u (.rv { r with cfg := true })) := SetUp.putUnit k.inv hc rfl rfl rfl
  simp only [reverbSetups, List.forall_mem_cons] at hready
  obtain ⟨a0, a1, a2, b0, b1, b2, b3, -⟩ := hready
  exact readyRv_iff.2 ⟨_, State.unit?_putUnit_same hc, rfl, kcfg.readyApf a0, kcfg.readyApf a1, kcfg.readyApf a2,
    kcfg.readyCmb b0, kcfg.readyCmb b1, kcfg.readyCmb b2, kcfg.readyCmb b3⟩

end

theorem dlFlush_later {s : State} (h : s.Inv) {u : UnitId} {d : Dl} (hd : s.unit? u = some (.dl d)) :
    Later s (flushDl u s) := by
  obtain ⟨-, hcursors⟩ := (Dl.wf_iff d).1 (h.unitWf hd)
  rw [flushDl_eq hd]
  exact Later.putUnit h hd rfl ((Dl.wf_iff _).2 ⟨rfl, hcursors⟩)

theorem apfFlush_later {s : State} (h : s.Inv) {u : UnitId} (hu : s.classOf u = some .apf) :
    apfFlush u s = .ok () (flushApf u s) ∧ Later s (flushApf u s) := by
  obtain ⟨r, d, hr, hd⟩ := h.apf_line hu
  refine ⟨apfFlush_eq hr hd, ?_⟩
  rw [flushApf, State.apf_eq hr]
  exact dlFlush_later h hd

theorem cmbFlush_later {s : State} (h : s.Inv) {u : UnitId} (hu : s.classOf u = some .cmb) :
    cmbFlush u s = .ok () (flushCmb u s) ∧ Later s (flushCmb u s) := by
  obtain ⟨r, d, hr, hd⟩ := h.cmb_line hu
  refine ⟨cmbFlush_eq hr hd, ?_⟩
  rw [flushCmb, State.cmb_eq hr]
  exact dlFlush_later h hd

/-- A reverberator is flushed section by section (R273). -/
theorem rvFlush_eq {s : State} (h : s.Inv) {u : UnitId} {r : Rv} (hu : s.unit? u = some (.rv r)) :
    rvFlush u s = .ok () (flushCmb r.cmb3 (flushCmb r.cmb2 (flushCmb r.cmb1 (flushCmb r.cmb0
      (flushApf r.apf2 (flushApf r.apf1 (flushApf r.apf0 s))))))) := by
  obtain ⟨a0, a1, a2, b0, b1, b2, b3⟩ := h.rv_children hu
  obtain ⟨e0, l0⟩ := apfFlush_later h a0
  obtain ⟨e1, l⟩ := apfFlush_later l0.inv ((l0.kin.classOf _).trans a1)
  have l1 := l0.trans l
  obtain ⟨e2, l⟩ := apfFlush_later l1.inv ((l1.kin.classOf _).trans a2)
  have l2 := l1.trans l
  obtain ⟨e3, l⟩ := cmbFlush_later l2.inv ((l2.kin.classOf _).trans b0)
  have l3 := l2.trans l
  obtain ⟨e4, l⟩ := cmbFlush_later l3.inv ((l3.kin.classOf _).trans b1)
  have l4 := l3.trans l
  obtain ⟨e5, l⟩ := cmbFlush_later l4.inv ((l4.kin.classOf _).trans b2)
  have l5 := l4.trans l
  obtain ⟨e6, -⟩ := cmbFlush_later l5.inv ((l5.kin.classOf _).trans b3)
  rw [rvFlush, getRv_eq hu, Res.bind_ok, e0, Res.bind_ok, e1, Res.bind_ok, e2, Res.bind_ok, e3, Res.bind_ok, e4,
    Res.bind_ok, e5, Res.bind_ok, e6]

/-- Settles O45: the setups by `setupAll`, which is both the seven commands and what `RV.SETUP` calls before its `cfg`. -/
theorem rvSetupAndFlush : Obligations.RvSetupAndFlush := by
  refine fun u => ⟨rfl, rfl, fun s r h hf hu => ⟨?commands, fun c0 c1 c2 c3 c4 c5 c6 => ?completes,
    command_silent_ok hf hu (rvFlush_eq h hu)⟩⟩
  case commands =>
    have hexec : exec (.rvSetup u) s = conclude (silent (rvSetup u s)) :=
      command_reaches hf (State.classOf_of_unit? hu) fun s => silent (rvSetup u s)
    rw [hexec, rvSetup_eq hu, ← reverbSetups_instr]
    obtain ⟨t, hall, k, hrun⟩ | ⟨t, hall, hfault, hrun⟩ :=
      setupAll_cases (reverbSetups r) h hf (reverbSetups_classOf hu h)
    · have hclear : t.fault = false := k.fault.trans hf
      rw [hall, Res.bind_ok, rvSetCfg_of_setUp hu k, conclude_silent_ok, hrun]
      simp only [hclear, Bool.false_eq_true, if_false]
    · rw [hall, Res.bind_raised, silent_raised, conclude_raised, hrun]
      simp only [hfault, if_true]
  case completes =>
    have hfits : ∀ p ∈ reverbSetups r, p.Fits s := by
      simp only [reverbSetups, List.forall_mem_cons]
      exact ⟨⟨by decide, c0⟩, ⟨by decide, c1⟩, ⟨by decide, c2⟩, ⟨by decide, c3⟩, ⟨by decide, c4⟩, ⟨by decide, c5⟩,
        ⟨by decide, c6⟩, nofun⟩
    obtain ⟨hall, k, hready⟩ := setupAll_fits (reverbSetups r) h fun p hp =>
      ⟨reverbSetups_classOf hu h p hp, hfits p hp⟩
    have hsetup : rvSetup u s = .ok () ((afterAll (reverbSetups r) s).putUnit u (.rv { r with cfg := true })) := by
      rw [rvSetup_eq hu, hall, Res.bind_ok, rvSetCfg_of_setUp hu k]
    have hexec := command_silent_ok hf hu hsetup
    refine ⟨hexec, fun t ht => ?_⟩
    obtain rfl := Host.Outcome.next.inj (hexec.symm.trans ht)
    exact readyRv_of_setUp hu k hready

end Sys2Proof.Machine
end

section
/-! PROOF of O46. The sample of a reverberator that is set up is `evalRv`. -/

namespace Sys2Proof.Machine

theorem rvStep_unset {s : State} {u : UnitId} {r : Rv} (hu : s.unit? u = some (.rv r)) (hc : r.cfg = false) (x : F32) :
    rvStep u x s = .raised (s.recordFault .notSetup u) := by
  rw [rvStep, getRv_eq hu, Res.bind_ok, hc, needCfg_false, Res.bind_raised]

end Sys2Proof.Machine

namespace Sys2Proof

open Machine in
/-- Settles O46: by whether the reverberator is set up. -/
theorem rvStep : Obligations.RvStep := by
  refine fun u x => ⟨rfl, fun s r h hf hu => ⟨fun hc => ?unset, fun hready => ?ready⟩⟩
  case unset => exact command_single_raised hf hu (rvStep_unset hu hc x)
  case ready =>
    obtain ⟨hstep, -⟩ := rvStep_sample h hready x
    rw [evalRv, State.rv_eq hu] at hstep
    exact command_single_ok hf hu hstep

end Sys2Proof
end

section
/-! PROOF of O53 and O54. The parameters of a drum machine pass their checks before anything is written; its sample is
`evalDm`, or ends at the lowpass that is not set up, once the sequencer and the voices have moved on. -/

namespace Sys2Proof.Machine

/-! ## The parameters of a drum machine -/

section
variable {s : State} {u : UnitId} {r : Dm} (hu : s.unit? u = some (.dm r))
include hu

theorem dmSetup_withoutFs (hunset : s.fsSet = false) : dmSetup u s = .raised (s.recordFault .notSetup 0) := by
  rw [dmSetup, getDm_eq hu, Res.bind_ok, needFs_unset hunset, Res.bind_raised]

theorem dmCfg_withoutFs (hunset : s.fsSet = false) (n : BitVec 16) (bpm : Word) :
    dmCfg u n bpm s = .raised (s.recordFault .notSetup 0) := by
  rw [dmCfg, getDm_eq hu, Res.bind_ok, needFs_unset hunset, Res.bind_raised]

/-- The pattern and the tempo are checked before the division length (R284). -/
theorem dmCfg_refused (hset : s.fsSet = true) {n : BitVec 16} {bpm : Word}
    (hbad : r.patterns.length ≤ n.toNat ∨ bpm = 0) : dmCfg u n bpm s = .raised (s.recordFault .dmParam u) := by
  have hcheck : (decide (n.toNat < r.patterns.length) && decide (bpm ≠ 0)) = false := by
    simpa only [Bool.and_eq_false_iff, decide_eq_false_iff_not, Nat.not_lt, not_not] using hbad
  rw [dmCfg, getDm_eq hu, Res.bind_ok, needFs_set hset, Res.bind_ok, hcheck, require_false, Res.bind_raised]

section
variable (hset : s.fsSet = true) {p : Pattern} (hp : r.patterns[r.pattern.toNat]? = some p)
include hset hp

/-- With `FS` written, the division length decides (R283). -/
theorem dmSetup_withFs : dmSetup u s =
    (require (spdOk (spdQuotient s.fs r.bpm p.dpb)) .dmParam u s).bind fun _ t =>
      (romRead u r.bank 0 t).bind fun c t => (bqLoad r.lp c t).bind fun _ =>
        put u (.dm { r with spd := spdTrunc (spdQuotient s.fs r.bpm p.dpb), cfg := true }) := by
  rw [dmSetup, getDm_eq hu, Res.bind_ok, needFs_set hset, Res.bind_ok, romRead_eq hp, Res.bind_ok]

theorem dmSetup_undefined (ht : spdOk (spdQuotient s.fs r.bpm p.dpb) = false) :
    dmSetup u s = .raised (s.recordFault .dmParam u) := by
  rw [dmSetup_withFs hu hset hp, ht, require_false, Res.bind_raised]

/-- A defined division length is written, and the lowpass is given the first bank entry (R283). -/
theorem dmSetup_defined (ht : spdOk (spdQuotient s.fs r.bpm p.dpb) = true) {c : BqCoef} (hc : r.bank[0]? = some c)
    {b : Bq} (hb : s.unit? r.lp = some (.bq b)) :
    dmSetup u s = .ok () ((s.putUnit r.lp (.bq { b with coef := c, cfg := true })).putUnit u
      (.dm { r with spd := spdTrunc (spdQuotient s.fs r.bpm p.dpb), cfg := true })) := by
  rw [dmSetup_withFs hu hset hp, ht, require_true, Res.bind_ok, romRead_eq hc, Res.bind_ok, bqLoad_eq hb, Res.bind_ok,
    put_eq]

end

section
variable (hset : s.fsSet = true) {n : BitVec 16} {bpm : Word} (hbpm : bpm ≠ 0) {p : Pattern}
  (hp : r.patterns[n.toNat]? = some p)
include hset hbpm hp

/-- With a pattern of the ROM and a tempo, the division length decides (R284). -/
theorem dmCfg_inRange : dmCfg u n bpm s =
    (require (spdOk (spdQuotient s.fs bpm p.dpb)) .dmParam u s).bind fun _ =>
      put u (.dm { r with bpm := bpm, pattern := n, spd := spdTrunc (spdQuotient s.fs bpm p.dpb), stepIdx := 0 }) := by
  obtain ⟨hn, -⟩ := List.getElem?_eq_some_iff.1 hp
  rw [dmCfg, getDm_eq hu, Res.bind_ok, needFs_set hset, Res.bind_ok, decide_eq_true hn, decide_eq_true hbpm,
    Bool.and_self, require_true, Res.bind_ok, romRead_eq hp, Res.bind_ok]

theorem dmCfg_undefined (ht : spdOk (spdQuotient s.fs bpm p.dpb) = false) :
    dmCfg u n bpm s = .raised (s.recordFault .dmParam u) := by
  rw [dmCfg_inRange hu hset hbpm hp, ht, require_false, Res.bind_raised]

theorem dmCfg_defined (ht : spdOk (spdQuotient s.fs bpm p.dpb) = true) :
    dmCfg u n bpm s = .ok () (s.putUnit u (.dm { r with
      bpm := bpm, pattern := n, spd := spdTrunc (spdQuotient s.fs bpm p.dpb), stepIdx := 0 })) := by
  rw [dmCfg_inRange hu hset hbpm hp, ht, require_true, Res.bind_ok, put_eq]

end

theorem exec_dmRdcfg (hf : s.fault = false) :
    exec (.dmRdcfg u) s = .next (s.respond [r.bpm, 0#16 ++ r.pattern]) := by
  refine (command_reaches hf (State.classOf_of_unit? hu) _).trans ?_
  rw [getDm_eq hu, Res.map_ok, conclude_ok, BitVec.setWidth_eq_append (show 16 ≤ 32 by decide)]
  rfl

end

/-- Settles O53: by the checks, in their order. -/
theorem dmControl : Obligations.DmControl := by
  refine fun u n bpm => ⟨rfl, mailable_mkCw 0xE4 u n, fun s r h hf hu => ?_⟩
  intro t defined
  refine ⟨?read, fun hunset => ⟨?setupWithoutFs, ?cfgWithoutFs⟩,
    fun hset p hp => ⟨fun ht => ?setupUndefined, fun ht c hc => ?setup⟩, fun hset hbad => ?cfgRefused,
    fun hset hbpm p hp => ⟨fun ht => ?cfgUndefined, fun ht => ?cfg⟩⟩
  case read => exact exec_dmRdcfg hu hf
  case setupWithoutFs => exact command_silent_raised hf hu (dmSetup_withoutFs hu hunset)
  case cfgWithoutFs => exact command_silent_raised hf hu (dmCfg_withoutFs hu hunset n bpm)
  case setupUndefined => exact command_silent_raised hf hu (dmSetup_undefined hu hset hp ht)
  case setup =>
    obtain ⟨b, hb⟩ := State.Inv.bq_of_class (h.dm_child hu)
    rw [State.bq_eq hb]
    exact command_silent_ok hf hu (dmSetup_defined hu hset hp ht hc hb)
  case cfgRefused => exact command_silent_raised hf hu (dmCfg_refused hu hset hbad)
  case cfgUndefined => exact command_silent_raised hf hu (dmCfg_undefined hu hset hbpm hp ht)
  case cfg => exact command_silent_ok hf hu (dmCfg_defined hu hset hbpm hp ht)

/-! ## A sample of a drum machine -/

theorem dmStep_unset {s : State} {u : UnitId} {r : Dm} (hu : s.unit? u = some (.dm r)) (hc : r.cfg = false) :
    dmStep u s = .raised (s.recordFault .notSetup u) := by
  rw [dmStep, getDm_eq hu, Res.bind_ok, hc, needCfg_false, Res.bind_raised]

/-- A boundary swaps the coefficients of the lowpass and does not set it up (R289). -/
theorem dmLp_cfg (r : Dm) (prng : BitVec 31) (b : Bq) : (dmLp r prng b).cfg = b.cfg := by
  unfold dmLp
  split <;> rfl

/-- A sub-step leaves the drum machine its lowpass. -/
theorem dmPlayRegs_lp (r : Dm) (p : Params) (prng : BitVec 31) :
    (dmPlayRegs p (if r.divCounter = 0 then dmBoundaryRegs r prng else r)).lp = r.lp := by
  split <;> rfl

/-- A sample ends at a lowpass that is not set up, whether or not it has a sub-step (R285, R363). -/
theorem dmStep_stops {s : State} (h : s.Inv) {u : UnitId} {r : Dm} (hu : s.unit? u = some (.dm r)) {b : Bq}
    (hb : s.unit? r.lp = some (.bq b)) (hc : r.cfg = true) (hbc : b.cfg = false) :
    StopsAt (.notSetup r.lp) s (dmStep u s) := by
  have hne : r.lp ≠ u := State.ne_of_unit? hb hu (by simp)
  rw [dmStep, getDm_eq hu, Res.bind_ok, hc, needCfg_true, Res.bind_ok]
  cases hph : r.phase with
  | true =>
    have hb1 : (s.putUnit u (.dm { r with phase := !r.phase })).unit? r.lp = some (.bq b) :=
      (State.unit?_putUnit_other hne ..).trans hb
    rw [if_pos rfl, Res.bind_ok, put_eq, Res.bind_ok, bqStep_unset hb1 hbc]
    exact ⟨_, rfl, rfl, rfl⟩
  | false =>
    have hb1 (prng : BitVec 31) (q : UnitRec) :
        (State.putUnit { s.putUnit r.lp (.bq (dmLp r s.prng b)) with prng := prng } u q).unit? r.lp =
          some (.bq (dmLp r s.prng b)) := by
      rw [State.unit?_putUnit_other hne, State.unit?_prng, State.unit?_putUnit_same hb]
    rw [if_neg Bool.false_ne_true, dmSubStep_eq h hu hb hph, Res.bind_ok, put_eq, Res.bind_ok, dmPlayRegs_lp,
      State.putUnit_putUnit_same, bqStep_unset (hb1 _ _) ((dmLp_cfg r s.prng b).trans hbc)]
    exact ⟨_, rfl, rfl, rfl⟩

/-- A drum machine is flushed with its lowpass (R292). -/
theorem dmFlush_eq {s : State} {u : UnitId} {r : Dm} (hu : s.unit? u = some (.dm r)) {b : Bq}
    (hb : s.unit? r.lp = some (.bq b)) :
    dmFlush u s = .ok () ((s.putUnit u (.dm { r with
      stepIdx := 0, divCounter := 0, drums := r.drums.map fun d => { d with cursor := 0 }, phase := false,
      hold := c0 })).putUnit r.lp (.bq { b with s0 := c0, s1 := c0 })) := by
  have hb1 (q : UnitRec) : (s.putUnit u q).unit? r.lp = some (.bq b) :=
    (State.unit?_putUnit_other (State.ne_of_unit? hb hu (by simp)) s q).trans hb
  rw [dmFlush, getDm_eq hu, Res.bind_ok, put_eq, Res.bind_ok, bqFlush_eq (hb1 _), flushBq, State.bq_eq (hb1 _)]

/-- Settles O54: by whether the drum machine and then its lowpass are set up. -/
theorem dmStepAndFlush : Obligations.DmStepAndFlush := by
  refine fun u => ⟨rfl, rfl, fun s r b h hf hu hb => ?_⟩
  intro r' lp
  refine ⟨fun hc => ?unset, fun hc hbc => ?lowpassUnset, fun hc hbc => ?ready, ?flush⟩
  case unset => exact command_single_raised hf hu (dmStep_unset hu hc)
  case lowpassUnset =>
    obtain ⟨t, ht, hfault, hcause, hunit, -⟩ := command_single_notSetup hf hu (dmStep_stops h hu hb hc hbc)
    exact ⟨t, ht, hfault, hcause, hunit⟩
  case ready =>
    have hready : readyDm s u = true := readyDm_iff.2 ⟨r, hu, hc, readyBq_iff.2 ⟨b, hb, hbc⟩⟩
    obtain ⟨hstep, -⟩ := dmStep_sample h hready
    rw [evalDm, State.dm_eq hu, State.bq_eq hb] at hstep
    exact command_single_ok hf hu hstep
  case flush => exact command_silent_ok hf hu (dmFlush_eq hu hb)

end Sys2Proof.Machine
end

section
/-! PROOF of O47 and O48. The control operations of a voice write its own registers or go to its line; its sample is
`evalKs`, or stops at the child that is not set up. -/

namespace Sys2Proof.Machine

/-! ## The rules of a voice -/

section
variable {s : State} {u : UnitId} {r : Ks} (hu : s.unit? u = some (.ks r))
include hu

theorem ksTrig_eq : ksTrig u s = .ok () (triggerKs u s) := by
  rw [ksTrig, getKs_eq hu, Res.bind_ok, put_eq, triggerKs, State.ks_eq hu]

theorem ksMute_eq : ksMute u s = .ok () (s.putUnit u (.ks { r with gain := s.params.ksMuteGain })) := by
  rw [ksMute, getKs_eq hu, Res.bind_ok, put_eq]

theorem ksTune_withoutFs (hunset : s.fsSet = false) (freq : F32) :
    ksTune u freq s = .raised (s.recordFault .notSetup 0) := by
  rw [ksTune, getKs_eq hu, Res.bind_ok, needFs_unset hunset, Res.bind_raised]

/-- With `FS` written, tuning a voice is the setup of its line (R311). -/
theorem ksTune_withFs (hset : s.fsSet = true) (freq : F32) :
    ksTune u freq s = fdSetup r.delay (tuneLength s freq) s := by
  rw [ksTune, getKs_eq hu, Res.bind_ok, needFs_set hset, Res.bind_ok, tuneLength]

end

/-! ## The flush of a voice -/

theorem fdFlush_later {s : State} (h : s.Inv) {u : UnitId} (hu : s.classOf u = some .fd) :
    fdFlush u s = .ok () (flushFd u s) ∧ Later s (flushFd u s) := by
  obtain ⟨d, hd⟩ := State.Inv.fd_of_class hu
  obtain ⟨-, hcursors⟩ := (Fd.wf_iff d).1 (h.unitWf hd)
  refine ⟨fdFlush_eq hd, ?_⟩
  rw [flushFd_eq hd]
  exact Later.putUnit h hd rfl ((Fd.wf_iff _).2 ⟨rfl, hcursors⟩)

/-- A voice is flushed with its children (R316). -/
theorem ksFlush_later {s : State} (h : s.Inv) {u : UnitId} (hu : s.classOf u = some .ks) :
    ksFlush u s = .ok () (flushKs u s) ∧ Later s (flushKs u s) := by
  obtain ⟨r, hr⟩ := State.Inv.ks_of_class hu
  obtain ⟨hdelay, hdamp⟩ := h.ks_children hr
  have own : Later s (s.putUnit u (.ks { r with excite := 0 })) := Later.putUnit h hr rfl rfl
  obtain ⟨eline, lline⟩ := fdFlush_later own.inv ((own.kin.classOf _).trans hdelay)
  have lline := own.trans lline
  obtain ⟨edamp, ldamp⟩ := foFlush_later lline.inv ((lline.kin.classOf _).trans hdamp)
  rw [flushKs, State.ks_eq hr]
  refine ⟨?_, lline.trans ldamp⟩
  rw [ksFlush, getKs_eq hr, Res.bind_ok, put_eq, Res.bind_ok, eline, Res.bind_ok, edamp]

/-- Settles O47: the tuning by `FS` and by whether the line accepts the length, the rest by the rule of each command. -/
theorem ksControl : Obligations.KsControl := by
  refine fun u freq => ⟨rfl, fun s r d h hf hu hd => ?_⟩
  intro n
  refine ⟨fun hunset => ?withoutFs, fun hset hbad => ?refused, fun hset hfits => ?fits, ?trig, ?mute, ?flush⟩
  case withoutFs => exact command_silent_raised hf hu (ksTune_withoutFs hu hunset freq)
  case refused =>
    exact command_silent_raised hf hu ((ksTune_withFs hu hset freq).trans (fdSetup_refuses hd hbad))
  case fits =>
    have hsetup : fdSetup r.delay n s = .ok () _ := fdSetup_fits hd hfits
    rw [setupFd_eq hd] at hsetup
    have htune := command_silent_ok hf hu ((ksTune_withFs hu hset freq).trans hsetup)
    exact ⟨htune, htune.trans (command_silent_ok hf hd hsetup).symm⟩
  case trig =>
    have hop := ksTrig_eq hu
    rw [triggerKs, State.ks_eq hu] at hop
    exact command_silent_ok hf hu hop
  case mute => exact command_silent_ok hf hu (ksMute_eq hu)
  case flush =>
    obtain ⟨hop, -⟩ := ksFlush_later h (State.classOf_of_unit? hu)
    rw [flushKs, State.ks_eq hu] at hop
    exact command_silent_ok hf hu hop

/-! ## A sample of a voice -/

/-- The excitation writes no unit but the voice (R314). -/
theorem evalExcite_unit?_other {u v : UnitId} (hne : v ≠ u) (s : State) :
    (evalExcite u s).2.unit? v = s.unit? v := by
  unfold evalExcite
  dsimp only
  split
  · rfl
  · exact State.unit?_putUnit_other hne s _

section
variable {s : State} {u : UnitId} {r : Ks} {d : Fd} {f : Fo} (hu : s.unit? u = some (.ks r))
  (hd : s.unit? r.delay = some (.fd d)) (hfo : s.unit? r.damp = some (.fo f))
include hu hd hfo

/-- The child that keeps a voice from sounding, through the records of the two (R314). -/
theorem ksObstacle_eq : ksObstacle u s =
    if d.cfg = false then some r.delay else if f.cfg = false then some r.damp else none := by
  rw [ksObstacle, State.ks_eq hu, State.fd_eq hd, State.fo_eq hfo]

/-- The closed form of a sample, through the records of the voice and its children: the excitation leaves both children
as they are, and the damping filter the line. -/
theorem evalKs_eq : evalKs u s =
    let e := evalExcite u s
    let y := fadd e.1 (fmul r.gain (foOut f (fdOut d)))
    (y, (e.2.putUnit r.damp (.fo (foNext f (fdOut d)))).putUnit r.delay (.fd (fdNext d y))) := by
  have hdamp : (evalExcite u s).2.fo r.damp = f :=
    State.fo_eq ((evalExcite_unit?_other (State.ne_of_unit? hfo hu (by simp)) s).trans hfo)
  have hline (q : UnitRec) : ((evalExcite u s).2.putUnit r.damp q).fd r.delay = d := by
    apply State.fd_eq
    rw [State.unit?_putUnit_other (State.ne_of_unit? hd hfo (by simp)),
      evalExcite_unit?_other (State.ne_of_unit? hd hu (by simp)), hd]
  simp only [evalKs, evalFo, evalFd, State.ks_eq hu, State.fd_eq hd, hdamp, hline]

end

end Sys2Proof.Machine

namespace Sys2Proof

open Machine in
/-- Settles O48: by the first child that is not set up, and then by whether the excitation has run out. -/
theorem ksStep : Obligations.KsStep := by
  refine fun u => ⟨rfl, fun s r d f h hf hu hd hfo => ?_⟩
  intro q e y
  have hclass : s.classOf u = some .ks := State.classOf_of_unit? hu
  have obstacle := ksObstacle_eq hu hd hfo
  have sample (hdc : d.cfg = true) (hfc : f.cfg = true) :=
    (ksStep_sample h (readyKs_iff.2 ⟨r, hu, readyFd_iff.2 ⟨d, hd, hdc⟩, readyFo_iff.2 ⟨f, hfo, hfc⟩⟩)).1
  refine ⟨fun hdc => ?line, fun hdc hfc => ?filter, fun hdc hfc hex => ?silence, fun hdc hfc hex => ?noise⟩
  case line => exact command_single_raised hf hu (ksStep_stops h hclass (by rw [obstacle, if_pos hdc]))
  case filter => exact command_single_raised hf hu (ksStep_stops h hclass (by simp [obstacle, hdc, hfc]))
  case silence =>
    have hstep := sample hdc hfc
    have hexcite : evalExcite u s = (c0, s) := by rw [evalExcite, State.ks_eq hu, if_pos hex]
    have he : e = c0 := if_pos hex
    rw [evalKs_eq hu hd hfo, hexcite, ← he] at hstep
    exact command_single_ok hf hu hstep
  case noise =>
    have hstep := sample hdc hfc
    have hexcite : evalExcite u s = (prngToFloat s.params q,
        { s.putUnit u (.ks { r with excite := r.excite - 1 }) with prng := q }) := by
      rw [evalExcite, State.ks_eq hu, if_neg hex]
      rfl
    have he : e = prngToFloat s.params q := if_neg hex
    rw [evalKs_eq hu hd hfo, hexcite, ← he] at hstep
    exact command_single_ok hf hu hstep

end Sys2Proof
end

section
/-! PROOF of O49. The comparison of two stamps by wrapped subtraction (R326) orders the voices by how long ago each was
stamped, as long as no stamp lies half the counter's range behind; and the candidates are compared in ascending order. -/

namespace Sys2Proof.Machine

/-! ## Wrapped subtraction -/

theorem sextW_congr {w : Nat} {a b : Int} (h : a ≡ b [ZMOD ((2 ^ w : Nat) : Int)]) : sextW w a = sextW w b := by
  unfold sextW
  rw [h]

theorem sextW_modEq (w : Nat) (v : Int) : sextW w v ≡ v [ZMOD ((2 ^ w : Nat) : Int)] := by
  unfold sextW
  dsimp only
  split
  · exact Int.mod_modEq v _
  · exact (Int.sub_emod_right ..).trans (Int.mod_modEq v _)

/-- A number in the range of `w` bits is its own low `w` bits. -/
theorem sextW_of_inAgeRange {w : Nat} (hw : 1 ≤ w) {v : Int} (h : inAgeRange w v = true) : sextW w v = v := by
  have hrange := sextW_range hw v
  have hdvd := (sextW_modEq w v).dvd
  rw [inAgeRange, Bool.and_eq_true, decide_eq_true_eq, decide_eq_true_eq] at h hrange
  have hdouble : 2 ^ w = 2 * 2 ^ (w - 1) := (mul_pow_sub_one (Nat.one_le_iff_ne_zero.1 hw) 2).symm
  rw [hdouble] at hdvd
  have hzero := Int.eq_zero_of_abs_lt_dvd hdvd (by rw [abs_lt]; push_cast at *; omega)
  omega

/-- How long ago voice `i` was stamped: `now` less its stamp, wrapped (R326). -/
def stampedAgo (w : Nat) (voices : List Voice) (now : Int) (i : Nat) : Int := sextW w (now - ageAt voices i)

theorem stampedAgo_eq {w : Nat} {voices : List Voice} {now : Int} {i : Nat} {v : Voice} (hv : voices[i]? = some v) :
    stampedAgo w voices now i = sextW w (now - v.age) := by
  rw [stampedAgo, ageAt, hv, Option.map_some, Option.getD_some]

/-- Of two voices stamped within half the counter's range, wrapped subtraction finds the one stamped longer ago. -/
theorem older_iff {w : Nat} (hw : 1 ≤ w) {voices : List Voice} {now : Int} {i j : Nat}
    (hi : 0 ≤ stampedAgo w voices now i) (hj : 0 ≤ stampedAgo w voices now j) :
    sextW w (ageAt voices i - ageAt voices j) < 0 ↔ stampedAgo w voices now j < stampedAgo w voices now i := by
  have hcongr : ageAt voices i - ageAt voices j ≡ stampedAgo w voices now j - stampedAgo w voices now i
      [ZMOD ((2 ^ w : Nat) : Int)] := by
    have h := ((sextW_modEq w (now - ageAt voices j)).sub (sextW_modEq w (now - ageAt voices i))).symm
    rwa [sub_sub_sub_cancel_left] at h
  have hri := sextW_range hw (now - ageAt voices i)
  have hrj := sextW_range hw (now - ageAt voices j)
  rw [← stampedAgo, inAgeRange, Bool.and_eq_true, decide_eq_true_eq, decide_eq_true_eq] at hri hrj
  have hrange : inAgeRange w (stampedAgo w voices now j - stampedAgo w voices now i) = true := by
    rw [inAgeRange, Bool.and_eq_true, decide_eq_true_eq, decide_eq_true_eq]
    omega
  rw [sextW_congr hcongr, sextW_of_inAgeRange hw hrange]
  omega

/-! ## The voices that pass a test -/

theorem mem_voiceIndices {test : Voice → Bool} {vs : List Voice} {i : Nat} :
    i ∈ voiceIndices test 0 vs ↔ ∃ v, vs[i]? = some v ∧ test v = true := by
  constructor
  · intro h
    obtain ⟨v, -, hv, ht⟩ := voiceIndices_range test vs 0 i h
    exact ⟨v, hv, ht⟩
  · rintro ⟨v, hv, ht⟩
    have from_any (k : Nat) : k + i ∈ voiceIndices test k vs := by
      induction vs generalizing i k with
      | nil => simp at hv
      | cons x xs ih =>
        unfold voiceIndices
        cases i with
        | zero =>
          obtain rfl : x = v := Option.some.inj hv
          rw [if_pos ht]
          exact List.mem_cons_self
        | succ i =>
          have htail := ih hv (k + 1)
          rw [show k + 1 + i = k + (i + 1) by omega] at htail
          split
          · exact List.mem_cons_of_mem _ htail
          · exact htail
    simpa using from_any 0

theorem voiceIndices_ascending (test : Voice → Bool) (vs : List Voice) (k : Nat) :
    (voiceIndices test k vs).Pairwise (· < ·) := by
  induction vs generalizing k with
  | nil => exact .nil
  | cons v vs ih =>
    unfold voiceIndices
    split
    · refine .cons (fun i hi => ?_) (ih (k + 1))
      obtain ⟨-, hle, -⟩ := voiceIndices_range test vs (k + 1) i hi
      exact hle
    · exact ih (k + 1)

/-- The candidates pass one test: to be unbound, where some voice is (R326). -/
theorem pickCandidates_eq (vs : List Voice) : ∃ test : Voice → Bool, pickCandidates vs = voiceIndices test 0 vs ∧
    ∀ v, test v = true ↔ ((∃ y ∈ vs, y.note = 0) → v.note = 0) := by
  unfold pickCandidates
  dsimp only
  split
  · rename_i hnone
    refine ⟨fun _ => true, rfl, fun v => iff_of_true rfl ?_⟩
    rintro ⟨y, hy, hfree⟩
    obtain ⟨j, hj⟩ := List.mem_iff_getElem?.1 hy
    have hmem : j ∈ voiceIndices (fun v => v.note == 0) 0 vs := mem_voiceIndices.2 ⟨y, hj, beq_iff_eq.2 hfree⟩
    rw [List.isEmpty_iff.1 hnone] at hmem
    exact absurd hmem List.not_mem_nil
  · rename_i hsome
    obtain ⟨j, hj⟩ := List.exists_mem_of_ne_nil _ (mt List.isEmpty_iff.2 hsome)
    obtain ⟨y, hy, hfree⟩ := mem_voiceIndices.1 hj
    have hexists : ∃ y ∈ vs, y.note = 0 := ⟨y, List.mem_of_getElem? hy, beq_iff_eq.1 hfree⟩
    exact ⟨fun v => v.note == 0, rfl, fun v => by rw [beq_iff_eq, imp_iff_right hexists]⟩

/-! ## The running comparison -/

/-- Voice `p` is to be picked before voice `j`: it was stamped longer ago, or as long ago and stands lower (R326). -/
def PickedBefore (w : Nat) (voices : List Voice) (now : Int) (p j : Nat) : Prop :=
  stampedAgo w voices now j < stampedAgo w voices now p ∨
    (stampedAgo w voices now j = stampedAgo w voices now p ∧ p ≤ j)

/-- Ascending candidates, none stamped half the counter's range ago: the comparison ends at the one to be picked. -/
theorem pickFrom_pickedBefore {w : Nat} (hw : 1 ≤ w) {voices : List Voice} {now : Int} (is : List Nat) :
    ∀ b, (b :: is).Pairwise (· < ·) → (∀ i ∈ b :: is, 0 ≤ stampedAgo w voices now i) →
      ∀ j ∈ b :: is, PickedBefore w voices now (pickFrom w voices b is) j := by
  induction is with
  | nil =>
    intro b _ _ j hj
    rw [List.mem_singleton.1 hj]
    exact .inr ⟨rfl, le_rfl⟩
  | cons i is ih =>
    intro b hasc hrecent j hj
    rw [List.pairwise_cons] at hasc
    obtain ⟨hbelow, hasc⟩ := hasc
    have hbi : b < i := hbelow i List.mem_cons_self
    have hb := hrecent b List.mem_cons_self
    have hi := hrecent i (by simp)
    unfold pickFrom
    split
    · rename_i hold
      rw [older_iff hw hi hb] at hold
      have htail := ih i hasc fun k hk => hrecent k (List.mem_cons_of_mem _ hk)
      obtain rfl | hj := List.mem_cons.1 hj
      · have hpick := htail i List.mem_cons_self
        unfold PickedBefore at *
        omega
      · exact htail j hj
    · rename_i hyoung
      rw [older_iff hw hi hb] at hyoung
      have htail := ih b (.cons (fun k hk => hbelow k (List.mem_cons_of_mem _ hk)) hasc.of_cons) fun k hk => by
        obtain rfl | hk := List.mem_cons.1 hk
        · exact hb
        · exact hrecent k (by simp [hk])
      have hpick := htail b List.mem_cons_self
      simp only [List.mem_cons] at hj
      obtain rfl | rfl | hj := hj
      · exact hpick
      · unfold PickedBefore at *
        omega
      · exact htail j (List.mem_cons_of_mem _ hj)

/-- Settles O49: the pick is the first of its candidates, by `pickFrom_pickedBefore`. -/
theorem oldestVoiceIsPicked : Obligations.OldestVoiceIsPicked := by
  intro w voices now hw hne hrecent
  obtain ⟨p, v, hp, hv⟩ := pickVoice_some w hne
  obtain ⟨test, hcands, htest⟩ := pickCandidates_eq voices
  have recent : ∀ i ∈ pickCandidates voices, 0 ≤ stampedAgo w voices now i := by
    intro i hi
    rw [hcands, mem_voiceIndices] at hi
    obtain ⟨x, hx, -⟩ := hi
    rw [stampedAgo_eq hx]
    exact hrecent x (List.mem_of_getElem? hx)
  have ascending : (pickCandidates voices).Pairwise (· < ·) := hcands ▸ voiceIndices_ascending test voices 0
  have picked : p ∈ pickCandidates voices ∧ ∀ j ∈ pickCandidates voices, PickedBefore w voices now p j := by
    unfold pickVoice at hp
    split at hp
    · cases hp
    · rename_i b is hcons
      obtain rfl := Option.some.inj hp
      rw [hcons] at recent ascending ⊢
      exact ⟨pickFrom_mem w voices is b, pickFrom_pickedBefore hw is b ascending recent⟩
  obtain ⟨hmem, hfirst⟩ := picked
  rw [hcands, mem_voiceIndices] at hmem
  obtain ⟨v', hv', hpass⟩ := hmem
  obtain rfl : v = v' := Option.some.inj (hv.symm.trans hv')
  refine ⟨p, v, hp, hv, (htest v).1 hpass, fun j x hx hfree => ?_⟩
  have hj : j ∈ pickCandidates voices := hcands ▸ mem_voiceIndices.2 ⟨x, hx, (htest x).2 hfree⟩
  rw [← stampedAgo_eq hx, ← stampedAgo_eq hv]
  exact hfirst j hj

end Sys2Proof.Machine
end

section
/-! PROOF of O50, O51 and O52. A note binds or releases one voice and then runs that voice's own operations; a sample and
a flush of the allocator are those of its voices in order. -/

namespace Sys2Proof.Machine

/-! ## Operations as commands in sequence -/

/-- A part of a command that is a command of its own, and what follows it: the two are commands in sequence, where what
follows is one (R131, R368). -/
theorem conclude_bind_eq_runSteps {i : Instr} {is : List Instr} {s : State} {part : Res Unit}
    {next : Unit → State → Res Unit} (hf : s.fault = false) (halike : Alike False s s.respOut part part)
    (hexec : exec i s = conclude (silent part))
    (hnext : ∀ t, part = .ok () t → t.fault = false → conclude (silent (next () t)) = runSteps t.respOut is t) :
    conclude (silent (part.bind next)) = runSteps s.respOut (i :: is) s := by
  have hends := halike.ends
  cases hpart : part with
  | ok a t =>
    rw [hpart] at hexec hends
    have hclear : t.fault = false := Eq.trans hends hf
    rw [Res.bind_ok, hnext t hpart hclear, halike.respOut_of_ok hpart,
      runSteps_cons_clear (hexec.trans (conclude_silent_ok a t)) hclear]
  | raised t =>
    rw [hpart] at hexec hends
    rw [Res.bind_raised, silent_raised, conclude_raised, runSteps_cons_faulted hexec hends,
      ← halike.respOut_of_raised hpart]
    rfl
  | stop e =>
    rw [hpart] at hexec
    rw [runSteps, hexec]
    rfl
  | refuse e =>
    rw [hpart] at hends
    exact hends.elim

/-! ## Binding a voice -/

theorem setVoice_eq_set {vs : List Voice} {i : Nat} {v : Voice} (hv : vs[i]? = some v) (note : BitVec 8) (age : Int) :
    setVoice vs i note age = vs.set i { v with note := note, age := age } := by
  rw [setVoice, List.modify_eq_set_getElem?, hv]
  rfl

section
variable {s : State} {u : UnitId} {r : Vb} (hu : s.unit? u = some (.vb r))
include hu

/-- Binding or unbinding a voice, stamped with the present clock, leaves all else as it is. -/
theorem setVoice_later (h : s.Inv) (i : Nat) (note : BitVec 8) :
    Later s (s.putUnit u (.vb { r with voices := setVoice r.voices i note r.now })) :=
  Later.putUnit h hu (by rw [UnitRec.gist, Vb.entry_setVoice]; rfl) (Vb.wf_setVoice (h.unitWf hu) i note)

/-- An allocator has a voice (R37). -/
theorem State.Inv.vb_voices_ne_nil (h : s.Inv) : r.voices ≠ [] := by
  have hlen : decide (1 ≤ (r.voices.map Voice.unit).length) = true := h.entryWf hu
  intro hnil
  simp [hnil] at hlen

variable {i : Nat} {v : Voice} (hv : r.voices[i]? = some v)
include hv

/-- A note is the binding of the picked voice and then that voice's tuning and trigger (R321). -/
theorem vbNoteOn_eq (hpick : pickVoice s.params.ageW r.voices = some i) (note : BitVec 7) : vbNoteOn u note s =
    (ksTune v.unit (noteFreq s.params note)
        (s.putUnit u (.vb { r with voices := setVoice r.voices i (note.setWidth 8) r.now }))).bind
      fun _ => ksTrig v.unit := by
  simp only [vbNoteOn, getVb_eq hu, Res.bind_ok, hpick, romRead_eq hv, put_eq, State.putUnit_params]

/-- A release is the unbinding of the lowest voice that holds the note and then that voice's muting (R322). -/
theorem vbNoteOff_eq {note : BitVec 7} (hnote : note ≠ 0) {is : List Nat}
    (hheld : voiceIndices (fun v => v.note == note.setWidth 8) 0 r.voices = i :: is) : vbNoteOff u note s =
      ksMute v.unit (s.putUnit u (.vb { r with voices := setVoice r.voices i 0 r.now })) := by
  simp only [vbNoteOff, getVb_eq hu, Res.bind_ok, if_neg hnote, hheld, romRead_eq hv, put_eq]

end

/-! ## Releasing a voice -/

/-- Note 0 releases nothing, and neither does a note no voice holds (R322). -/
theorem vbNoteOff_nothing {s : State} {u : UnitId} {r : Vb} (hu : s.unit? u = some (.vb r)) {note : BitVec 7}
    (hnone : note = 0 ∨ ∀ v ∈ r.voices, v.note ≠ note.setWidth 8) : vbNoteOff u note s = .ok () s := by
  rw [vbNoteOff, getVb_eq hu, Res.bind_ok]
  split
  · rfl
  · rename_i hnote
    have hempty : voiceIndices (fun v => v.note == note.setWidth 8) 0 r.voices = [] := by
      refine List.eq_nil_iff_forall_not_mem.2 fun i hi => ?_
      obtain ⟨v, hv, hheld⟩ := mem_voiceIndices.1 hi
      exact hnone.resolve_left hnote v (List.mem_of_getElem? hv) (beq_iff_eq.1 hheld)
    rw [hempty]

/-- The lowest voice that passes a test comes first. -/
theorem voiceIndices_lowest {test : Voice → Bool} {vs : List Voice} {i : Nat} {v : Voice} (hv : vs[i]? = some v)
    (ht : test v = true) (hlowest : ∀ j x, j < i → vs[j]? = some x → test x = false) :
    ∃ is, voiceIndices test 0 vs = i :: is := by
  have hmem : i ∈ voiceIndices test 0 vs := mem_voiceIndices.2 ⟨v, hv, ht⟩
  have hasc := voiceIndices_ascending test vs 0
  cases hall : voiceIndices test 0 vs with
  | nil =>
    rw [hall] at hmem
    exact absurd hmem List.not_mem_nil
  | cons j is =>
    rw [hall] at hmem hasc
    obtain ⟨x, hx, hxt⟩ := mem_voiceIndices.1 (hall ▸ List.mem_cons_self : j ∈ voiceIndices test 0 vs)
    obtain rfl | htail := List.mem_cons.1 hmem
    · exact ⟨is, rfl⟩
    · have hlow := hlowest j x ((List.pairwise_cons.1 hasc).1 i htail) hx
      rw [hxt] at hlow
      cases hlow

/-! ## A sample and a flush of an allocator -/

/-- A sample is that of the first voice, then the sum of the others and the tick of the clock (R323). -/
theorem vbStep_cons {s : State} {u : UnitId} {r : Vb} (hu : s.unit? u = some (.vb r)) {v : Voice} {vs : List Voice}
    (hvs : r.voices = v :: vs) : vbStep u s = (ksStep v.unit s).bind fun y t =>
      (vbSum vs y t).bind fun acc t => (vbTick u t).map fun _ => acc := by
  rw [vbStep, getVb_eq hu, Res.bind_ok, hvs]

/-- Samples of other voices leave what keeps a voice from sounding. -/
theorem Later.ksObstacle {s t : State} (l : Later s t) (h : s.Inv) {u : UnitId} (hu : s.classOf u = some .ks) :
    Machine.ksObstacle u t = Machine.ksObstacle u s := by
  obtain ⟨r, hr⟩ := State.Inv.ks_of_class hu
  obtain ⟨hline, hdamp⟩ := h.ks_children hr
  obtain ⟨d, hd⟩ := State.Inv.fd_of_class hline
  obtain ⟨f, hfo⟩ := State.Inv.fo_of_class hdamp
  exact l.kin.ksObstacle hr hd hfo

/-- Where the voices before one that cannot sound are ready, the sample ends there (R323). -/
theorem vbStep_stops {s : State} (h : s.Inv) {u : UnitId} {r : Vb} (hu : s.unit? u = some (.vb r))
    {before after : List Voice} {x : Voice} (hvs : r.voices = before ++ x :: after)
    (hready : ∀ y ∈ before, readyKs s y.unit = true) {w : UnitId} (ho : ksObstacle x.unit s = some w) :
    vbStep u s = .raised ((evalVoices before c0 s).2.recordFault .notSetup w) := by
  have hx : s.classOf x.unit = some .ks := h.vb_child hu (by simp [hvs])
  cases before with
  | nil => rw [vbStep_cons hu hvs, ksStep_stops h hx ho, Res.bind_raised, evalVoices]
  | cons v vs =>
    rw [List.cons_append] at hvs
    obtain ⟨hstep, l⟩ := ksStep_sample h (hready v List.mem_cons_self)
    have hrest := vbSum_stops l.inv vs after (fun y hy => l.kin.readyKs (hready y (List.mem_cons_of_mem _ hy)))
      ((l.kin.classOf _).trans hx) ((l.ksObstacle h hx).trans ho) (evalKs v.unit s).1
      (fadd c0 (evalKs v.unit s).1)
    rw [vbStep_cons hu hvs, hstep, Res.bind_ok, hrest, Res.bind_raised, evalVoices]

/-- Voices are flushed one after the other (R325). -/
theorem vbFlushVoices_eq (vs : List Voice) : ∀ {s : State}, s.Inv → (∀ v ∈ vs, s.classOf v.unit = some .ks) →
    vbFlushVoices vs s = .ok () (vs.foldl (fun t v => flushKs v.unit t) s) := by
  induction vs with
  | nil => exact fun _ _ => rfl
  | cons v vs ih =>
    intro s h hvs
    rw [List.forall_mem_cons] at hvs
    obtain ⟨hv, hvs⟩ := hvs
    obtain ⟨hflush, l⟩ := ksFlush_later h hv
    rw [vbFlushVoices, hflush, Res.bind_ok, ih l.inv fun x hx => (l.kin.classOf _).trans (hvs x hx), List.foldl_cons]

/-- An allocator is flushed with its voices (R325). -/
theorem vbFlush_eq {s : State} (h : s.Inv) {u : UnitId} {r : Vb} (hu : s.unit? u = some (.vb r)) :
    vbFlush u s = .ok () (flushVb u s) := by
  have own : Later s (s.putUnit u (.vb
      { voices := r.voices.map fun v => { v with note := 0, age := 0 }, now := 0 })) := by
    refine Later.putUnit h hu (by simp [UnitRec.gist, UnitRec.entry, UnitRec.cfgBit, Function.comp_def])
      ((Vb.wf_iff _ _).2 ⟨inAgeRange_zero _, ?_⟩)
    simp [inAgeRange_zero]
  rw [vbFlush, getVb_eq hu, Res.bind_ok, put_eq, Res.bind_ok, flushVb, State.vb_eq hu]
  exact vbFlushVoices_eq r.voices own.inv fun v hv => (own.kin.classOf _).trans (h.vb_child hu hv)

end Sys2Proof.Machine

namespace Sys2Proof

open Machine

/-- Settles O50: the picked voice is bound, and then its two operations are its two commands. -/
theorem vbNoteOn : Obligations.VbNoteOn := by
  refine fun u note velocity => ⟨rfl, mailable_mkCw 0xD4 u (noteImm note velocity), fun s r h hf hu => ?_⟩
  obtain ⟨i, v, hpick, hv⟩ := pickVoice_some s.params.ageW (h.vb_voices_ne_nil hu)
  refine ⟨i, v, hpick, hv, ?_⟩
  rw [← setVoice_eq_set hv]
  intro s1 freq
  have l : Later s s1 := setVoice_later hu h i _
  have hclear : s1.fault = false := hf
  obtain ⟨k, hk⟩ := State.Inv.ks_of_class (h.vb_child hu (List.mem_of_getElem? hv))
  obtain ⟨d, hd⟩ := State.Inv.fd_of_class (h.ks_children hk).1
  have hk1 : s1.unit? v.unit = some (.ks k) :=
    (State.unit?_putUnit_other (State.ne_of_unit? hk hu (by simp)) s _).trans hk
  have hd1 : s1.unit? k.delay = some (.fd d) :=
    (State.unit?_putUnit_other (State.ne_of_unit? hd hu (by simp)) s _).trans hd
  have hexec : exec (.vbNoteon u note velocity) s =
      conclude (silent ((ksTune v.unit freq s1).bind fun _ => ksTrig v.unit)) := by
    rw [← vbNoteOn_eq hu hv hpick]
    exact command_reaches hf (State.classOf_of_unit? hu) fun s => silent (Machine.vbNoteOn u note s)
  refine ⟨?commands, fun hset hfits => ?completes⟩
  case commands =>
    have hclass := State.classOf_of_unit? hk1
    rw [hexec]
    refine conclude_bind_eq_runSteps hclear (ksTune_alike v.unit freq)
      (command_reaches hclear hclass fun s => silent (ksTune v.unit freq s)) fun t ht htf => ?_
    have hkept : Sound s1 (ksTune v.unit freq s1) := ksTune_sound l.inv hclass freq
    rw [ht] at hkept
    obtain ⟨k2, hk2⟩ := State.Inv.ks_of_class (Kept.isClass hkept hclass)
    have htrig : exec (.ksTrig v.unit) t = .next (triggerKs v.unit t) := command_silent_ok htf hk2 (ksTrig_eq hk2)
    rw [ksTrig_eq hk2, conclude_silent_ok, runSteps_cons_clear htrig htf]
    rfl
  case completes =>
    rw [State.ks_eq hk, State.fd_eq hd] at hfits
    have htune : ksTune v.unit freq s1 = .ok () (setupFd k.delay (tuneLength s freq) s1) :=
      (ksTune_withFs hk1 hset freq).trans (fdSetup_fits hd1 hfits)
    have hk2 : (setupFd k.delay (tuneLength s freq) s1).unit? v.unit = some (.ks k) :=
      (State.unit?_putUnit_other (State.ne_of_unit? hk1 hd1 (by simp)) s1 _).trans hk1
    rw [hexec, htune, Res.bind_ok, ksTrig_eq hk2, conclude_silent_ok, State.ks_eq hk]

/-- Settles O51: by whether a voice holds the note, and then for the lowest that does. -/
theorem vbNoteOff : Obligations.VbNoteOff := by
  refine fun u note velocity => ⟨rfl, mailable_mkCw 0xD5 u (noteImm note velocity), fun s r h hf hu =>
    ⟨fun hnone => ?nothing, fun i v hnote hv hheld hlowest => ?released⟩⟩
  case nothing => exact command_silent_ok hf hu (vbNoteOff_nothing hu hnone)
  case released =>
    obtain ⟨k, hk⟩ := State.Inv.ks_of_class (h.vb_child hu (List.mem_of_getElem? hv))
    obtain ⟨is, his⟩ := voiceIndices_lowest (test := fun v => v.note == note.setWidth 8) hv (beq_iff_eq.2 hheld)
      fun j x hj hx => beq_eq_false_iff_ne.2 (hlowest j x hj hx)
    rw [← setVoice_eq_set hv, State.ks_eq hk]
    refine command_silent_ok hf hu ((vbNoteOff_eq hu hv hnote his).trans (ksMute_eq ?_))
    rw [State.unit?_putUnit_other (State.ne_of_unit? hk hu (by simp)), hk]

/-- Settles O52: the sample by whether every voice is ready, the flush by `vbFlush_eq`. -/
theorem vbStepAndFlush : Obligations.VbStepAndFlush := by
  refine fun u => ⟨rfl, rfl, fun s r v vs h hf hu hvs => ?_⟩
  intro a b
  refine ⟨fun hready => ?ready, fun before after x w hsplit hready ho => ?obstacle, ?flush⟩
  case ready =>
    obtain ⟨hstep, -⟩ := vbStep_sample h hready
    simp only [evalVb, State.vb_eq hu, hvs] at hstep
    rw [← hvs] at hstep
    exact command_single_ok hf hu hstep
  case obstacle =>
    obtain ⟨-, l⟩ := vbSum_sample h before hready c0
    have hexec : exec (.vbStep u) s = conclude (single (vbStep u s)) :=
      command_reaches hf (State.classOf_of_unit? hu) fun s => single (vbStep u s)
    rw [hexec, vbStep_stops h hu hsplit hready ho, single_raised, conclude_raised_first (l.fault.trans hf), causeCode]
  case flush =>
    have hflush := vbFlush_eq h hu
    rw [flushVb, State.vb_eq hu] at hflush
    exact command_silent_ok hf hu hflush

end Sys2Proof
end

section
/-! SUPPORT. The parts of a command that are no sample, and whole commands, run alike whatever was responded before; so
every command ends as a part that leaves the response stream to the end of the command (R105, R368). -/

namespace Sys2Proof.Machine

section
variable {nan : Prop} {s : State} {out : List Word}

/-! ## Flushes -/

theorem bqFlush_alike (u : UnitId) : Alike nan s out (bqFlush u s) (bqFlush u (s.withResp out)) :=
  (getBq_alike u).bind fun _ _ => put_alike u _

theorem foFlush_alike (u : UnitId) : Alike nan s out (foFlush u s) (foFlush u (s.withResp out)) :=
  (getFo_alike u).bind fun _ _ => put_alike u _

theorem firFlush_alike (u : UnitId) : Alike nan s out (firFlush u s) (firFlush u (s.withResp out)) :=
  (getFir_alike u).bind fun _ _ => put_alike u _

theorem dlFlush_alike (u : UnitId) : Alike nan s out (dlFlush u s) (dlFlush u (s.withResp out)) :=
  (getDl_alike u).bind fun _ _ => put_alike u _

theorem fdFlush_alike (u : UnitId) : Alike nan s out (fdFlush u s) (fdFlush u (s.withResp out)) :=
  (getFd_alike u).bind fun _ _ => put_alike u _

theorem wsFlush_alike (u : UnitId) : Alike nan s out (wsFlush u s) (wsFlush u (s.withResp out)) :=
  (getWs_alike u).map _

theorem tsFlush_alike (u : UnitId) : Alike nan s out (tsFlush u s) (tsFlush u (s.withResp out)) :=
  (getTs_alike u).bind fun r _ =>
  (tsSetBias_alike u c0).bind fun _ _ =>
  (bqFlush_alike r.inp).bind fun _ _ =>
  (wsFlush_alike r.curve).bind fun _ _ =>
  (foFlush_alike r.fb).bind fun _ _ => foFlush_alike r.dc

theorem paFlush_alike (u : UnitId) : Alike nan s out (paFlush u s) (paFlush u (s.withResp out)) :=
  (getPa_alike u).bind fun r _ =>
  (tsFlush_alike r.stage0).bind fun _ _ =>
  (tsFlush_alike r.stage1).bind fun _ _ => tsFlush_alike r.stage2

theorem apfFlush_alike (u : UnitId) : Alike nan s out (apfFlush u s) (apfFlush u (s.withResp out)) :=
  (getApf_alike u).bind fun r _ => dlFlush_alike r.dl

theorem cmbFlush_alike (u : UnitId) : Alike nan s out (cmbFlush u s) (cmbFlush u (s.withResp out)) :=
  (getCmb_alike u).bind fun r _ => dlFlush_alike r.dl

theorem rvFlush_alike (u : UnitId) : Alike nan s out (rvFlush u s) (rvFlush u (s.withResp out)) :=
  (getRv_alike u).bind fun r _ =>
  (apfFlush_alike r.apf0).bind fun _ _ =>
  (apfFlush_alike r.apf1).bind fun _ _ =>
  (apfFlush_alike r.apf2).bind fun _ _ =>
  (cmbFlush_alike r.cmb0).bind fun _ _ =>
  (cmbFlush_alike r.cmb1).bind fun _ _ =>
  (cmbFlush_alike r.cmb2).bind fun _ _ => cmbFlush_alike r.cmb3

theorem ksFlush_alike (u : UnitId) : Alike nan s out (ksFlush u s) (ksFlush u (s.withResp out)) :=
  (getKs_alike u).bind fun r _ =>
  (put_alike u _).bind fun _ _ =>
  (fdFlush_alike r.delay).bind fun _ _ => foFlush_alike r.damp

theorem vbFlushVoices_alike (vs : List Voice) : ∀ {s : State},
    Alike nan s out (vbFlushVoices vs s) (vbFlushVoices vs (s.withResp out)) := by
  induction vs with
  | nil => exact .ok ()
  | cons v vs ih => exact (ksFlush_alike v.unit).bind fun _ _ => ih

theorem vbFlush_alike (u : UnitId) : Alike nan s out (vbFlush u s) (vbFlush u (s.withResp out)) :=
  (getVb_alike u).bind fun r _ => (put_alike u _).bind fun _ _ => vbFlushVoices_alike r.voices

theorem dmFlush_alike (u : UnitId) : Alike nan s out (dmFlush u s) (dmFlush u (s.withResp out)) :=
  (getDm_alike u).bind fun r _ => (put_alike u _).bind fun _ _ => bqFlush_alike r.lp

/-! ## Setups and loads -/

theorem firLoad_alike (u : UnitId) (cs : List F32) :
    Alike nan s out (firLoad u cs s) (firLoad u cs (s.withResp out)) := by
  refine (getFir_alike u).bind fun r _ => ?_
  split
  · exact put_alike u _
  · exact .stop _

theorem dlSetup_alike (u : UnitId) (n : Nat) : Alike nan s out (dlSetup u n s) (dlSetup u n (s.withResp out)) :=
  (getDl_alike u).bind fun _ _ => (require_alike _ .delayLen u).bind fun _ _ => put_alike u _

theorem wsSetup_alike (u : UnitId) (min max : F32) (tab : List F32) :
    Alike nan s out (wsSetup u min max tab s) (wsSetup u min max tab (s.withResp out)) :=
  (getWs_alike u).bind fun _ _ =>
  (require_alike _ .wsTable u).bind fun _ _ =>
  (require_alike _ .wsDomain u).bind fun _ _ => put_alike u _

theorem tsSetup_alike (u : UnitId) (gain supply rk rp : F32) :
    Alike nan s out (tsSetup u gain supply rk rp s) (tsSetup u gain supply rk rp (s.withResp out)) :=
  (getTs_alike u).bind fun _ _ => put_alike u _

theorem apfSetup_alike (u : UnitId) (n : Nat) (gb gf : F32) :
    Alike nan s out (apfSetup u n gb gf s) (apfSetup u n gb gf (s.withResp out)) :=
  (getApf_alike u).bind fun r _ => (dlSetup_alike r.dl n).bind fun _ _ => put_alike u _

theorem cmbSetup_alike (u : UnitId) (n : Nat) (gb : F32) :
    Alike nan s out (cmbSetup u n gb s) (cmbSetup u n gb (s.withResp out)) :=
  (getCmb_alike u).bind fun r _ => (dlSetup_alike r.dl n).bind fun _ _ => put_alike u _

theorem rvSetCfg_alike (u : UnitId) : Alike nan s out (rvSetCfg u s) (rvSetCfg u (s.withResp out)) :=
  (getRv_alike u).bind fun _ _ => put_alike u _

theorem rvSetup_alike (u : UnitId) : Alike nan s out (rvSetup u s) (rvSetup u (s.withResp out)) :=
  (getRv_alike u).bind fun r _ =>
  (apfSetup_alike r.apf0 347 c0p7 cm0p7).bind fun _ _ =>
  (apfSetup_alike r.apf1 113 c0p7 cm0p7).bind fun _ _ =>
  (apfSetup_alike r.apf2 37 c0p7 cm0p7).bind fun _ _ =>
  (cmbSetup_alike r.cmb0 1601 c0p802).bind fun _ _ =>
  (cmbSetup_alike r.cmb1 1867 c0p802).bind fun _ _ =>
  (cmbSetup_alike r.cmb2 2053 c0p802).bind fun _ _ =>
  (cmbSetup_alike r.cmb3 2251 c0p802).bind fun _ _ => rvSetCfg_alike u

theorem dmSetup_alike (u : UnitId) : Alike nan s out (dmSetup u s) (dmSetup u (s.withResp out)) :=
  (getDm_alike u).bind fun r _ =>
  needFs_alike.bind fun _ _ =>
  (romRead_alike u r.patterns _).bind fun _ _ =>
  (require_alike _ .dmParam u).bind fun _ _ =>
  (romRead_alike u r.bank 0).bind fun c _ =>
  (bqLoad_alike r.lp c).bind fun _ _ => put_alike u _

/-! ## Class SYS -/

theorem sysSetfs_alike (fs : Word) : Alike nan s out (sysSetfs fs s) (sysSetfs fs (s.withResp out)) :=
  (require_alike _ .fsBad 0).bind fun _ _ => ⟨rfl, rfl⟩

theorem sysSeed_alike (seed : Word) : Alike nan s out (sysSeed seed s) (sysSeed seed (s.withResp out)) :=
  (require_alike _ .seedBad 0).bind fun _ _ => ⟨rfl, rfl⟩

theorem applyMessage_alike (m : Message) : Alike nan s out (applyMessage m s) (applyMessage m (s.withResp out)) := by
  unfold applyMessage
  split
  · split
    · exact applyMailable_alike _
    · exact raise_alike .illegalCmd _
  · exact .stop _

theorem drainLoop_alike (ms : List Message) : ∀ {s : State},
    Alike nan s out (drainLoop ms s) (drainLoop ms (s.withResp out)) := by
  induction ms with
  | nil => exact .ok ()
  | cons m ms ih =>
    intro s
    obtain ⟨hsame, hends⟩ := applyMessage_alike (nan := nan) (s := { s with mbox := ms }) (out := out) m
    exact Alike.bind ⟨hsame, hends⟩ fun _ _ => ih

end

/-! ## `PROC` -/

theorem procLoop_alike {nan : Prop} {out : List Word} {step : F32 → State → Res F32}
    (hstep : ∀ {s : State} (x : F32), Alike nan s out (step x s) (step x (s.withResp out))) (xs : List F32) :
    ∀ {s : State}, Alike nan s out (procLoop step xs s) (procLoop step xs (s.withResp out)) := by
  induction xs with
  | nil => exact .ok []
  | cons x xs ih => exact (hstep x).bind fun _ _ => ih.map _

theorem genLoop_alike {nan : Prop} {out : List Word} {step : State → Res F32}
    (hstep : ∀ {s : State}, Alike nan s out (step s) (step (s.withResp out))) (n : Nat) {s : State} :
    Alike nan s out (genLoop step n s) (genLoop step n (s.withResp out)) := by
  rw [genLoop_eq_procLoop]
  exact procLoop_alike (fun _ => hstep) _

/-! ## Every command -/

/-- Without a fault before it a command is the end of one part, which leaves the response stream as it is. -/
def Concludes (s : State) (o : Host.Outcome State Fault Refusal) : Prop :=
  ∃ r, o = conclude r ∧ Alike True s s.respOut r r

section
variable {s : State} (hf : s.fault = false)
include hf

theorem command_concludes (u : UnitId) (c : UnitClass) {body : State → Res (List Word)}
    (hbody : Alike True s s.respOut (body s) (body (s.withResp s.respOut))) : Concludes s (command u c body s) :=
  ⟨checked u c body s, if_neg (Bool.eq_false_iff.1 hf), checked_alike u c hbody⟩

theorem sysCommand_concludes {body : State → Res (List Word)}
    (hbody : Alike True s s.respOut (body s) (body (s.withResp s.respOut))) : Concludes s (sysCommand body s) :=
  ⟨body s, sysCommand_reaches hf body, hbody⟩

/-- A mailable command by its message's rule, another by its own. -/
theorem exec_concludes (i : Instr) : Concludes s (exec i s) := by
  by_cases hi : i.mailable = true
  · exact ⟨_, exec_mailable hi hf, (applyMailable_alike i).map _⟩
  cases i with
  | sysNop => exact sysCommand_concludes hf (body := fun s => .ok [] s) (.ok [])
  | sysSetfs fs => exact sysCommand_concludes hf (body := fun s => silent (sysSetfs fs s)) ((sysSetfs_alike fs).map _)
  | sysRdfs => exact sysCommand_concludes hf (body := fun s => single (needFs s)) (needFs_alike.map _)
  | sysDrain =>
    exact sysCommand_concludes hf (body := fun s => silent (drainLoop s.mbox s)) ((drainLoop_alike s.mbox).map _)
  | sysRdstat => exact ⟨_, rfl, .ok [statusWord s]⟩
  | sysSeed seed => exact sysCommand_concludes hf (body := fun s => silent (sysSeed seed s)) ((sysSeed_alike seed).map _)
  | sysRand =>
    exact sysCommand_concludes hf (body := fun s => single ((draw s).map fun d => d.setWidth 32))
      ((draw_alike.map _).map _)
  | sysRandf =>
    exact sysCommand_concludes hf (body := fun s => single ((draw s).map fun d => prngToFloat s.params d))
      ((draw_alike.map _).map _)
  | bqStep u x => exact command_concludes hf u .bq ((bqStep_alike u x).map _)
  | bqProc u xs => exact command_concludes hf u .bq (procLoop_alike (bqStep_alike u) xs)
  | bqFlush u => exact command_concludes hf u .bq ((bqFlush_alike u).map _)
  | bqRdc u => exact command_concludes hf u .bq ((getBq_alike u).bind fun r _ => (needCfg_alike r.cfg u).map _)
  | foStep u x => exact command_concludes hf u .fo ((foStep_alike u x).map _)
  | foProc u xs => exact command_concludes hf u .fo (procLoop_alike (foStep_alike u) xs)
  | foFlush u => exact command_concludes hf u .fo ((foFlush_alike u).map _)
  | foRdc u => exact command_concludes hf u .fo ((getFo_alike u).bind fun r _ => (needCfg_alike r.cfg u).map _)
  | firStep u x => exact command_concludes hf u .fir ((firStep_alike u x).map _)
  | firProc u xs => exact command_concludes hf u .fir (procLoop_alike (firStep_alike u) xs)
  | firFlush u => exact command_concludes hf u .fir ((firFlush_alike u).map _)
  | firLdc u cs => exact command_concludes hf u .fir ((firLoad_alike u cs).map _)
  | dlStep u x => exact command_concludes hf u .dl ((dlStep_alike u x).map _)
  | dlProc u xs => exact command_concludes hf u .dl (procLoop_alike (dlStep_alike u) xs)
  | dlFlush u => exact command_concludes hf u .dl ((dlFlush_alike u).map _)
  | dlSetup u n => exact command_concludes hf u .dl ((dlSetup_alike u n.toNat).map _)
  | dlPeek u => exact command_concludes hf u .dl ((dlPeek_alike u).map _)
  | fdStep u x => exact command_concludes hf u .fd ((fdStep_alike u x).map _)
  | fdProc u xs => exact command_concludes hf u .fd (procLoop_alike (fdStep_alike u) xs)
  | fdFlush u => exact command_concludes hf u .fd ((fdFlush_alike u).map _)
  | fdSetup u n => exact command_concludes hf u .fd ((fdSetup_alike u n).map _)
  | fdPeek u => exact command_concludes hf u .fd ((fdPeek_alike u).map _)
  | wsStep u x => exact command_concludes hf u .ws ((wsStep_alike u x).map _)
  | wsProc u xs => exact command_concludes hf u .ws (procLoop_alike (wsStep_alike u) xs)
  | wsFlush u => exact command_concludes hf u .ws ((wsFlush_alike u).map _)
  | wsSetup u min max tab => exact command_concludes hf u .ws ((wsSetup_alike u min max tab).map _)
  | tsStep u x => exact command_concludes hf u .ts ((tsStep_alike u x).map _)
  | tsProc u xs => exact command_concludes hf u .ts (procLoop_alike (tsStep_alike u) xs)
  | tsFlush u => exact command_concludes hf u .ts ((tsFlush_alike u).map _)
  | tsSetup u gain supply rk rp => exact command_concludes hf u .ts ((tsSetup_alike u gain supply rk rp).map _)
  | tsRdgain u => exact command_concludes hf u .ts ((getTs_alike u).bind fun r _ => (needCfg_alike r.cfg u).map _)
  | paStep u x => exact command_concludes hf u .pa ((paStep_alike u x).map _)
  | paProc u xs => exact command_concludes hf u .pa (procLoop_alike (paStep_alike u) xs)
  | paFlush u => exact command_concludes hf u .pa ((paFlush_alike u).map _)
  | apfStep u x => exact command_concludes hf u .apf ((apfStep_alike u x).map _)
  | apfProc u xs => exact command_concludes hf u .apf (procLoop_alike (apfStep_alike u) xs)
  | apfFlush u => exact command_concludes hf u .apf ((apfFlush_alike u).map _)
  | apfSetup u n gb gf => exact command_concludes hf u .apf ((apfSetup_alike u n.toNat gb gf).map _)
  | cmbStep u x => exact command_concludes hf u .cmb ((cmbStep_alike u x).map _)
  | cmbProc u xs => exact command_concludes hf u .cmb (procLoop_alike (cmbStep_alike u) xs)
  | cmbFlush u => exact command_concludes hf u .cmb ((cmbFlush_alike u).map _)
  | cmbSetup u n gb => exact command_concludes hf u .cmb ((cmbSetup_alike u n.toNat gb).map _)
  | rvStep u x => exact command_concludes hf u .rv ((rvStep_alike u x).map _)
  | rvProc u xs => exact command_concludes hf u .rv (procLoop_alike (rvStep_alike u) xs)
  | rvFlush u => exact command_concludes hf u .rv ((rvFlush_alike u).map _)
  | rvSetup u => exact command_concludes hf u .rv ((rvSetup_alike u).map _)
  | ksStep u => exact command_concludes hf u .ks ((ksStep_alike u).map _)
  | ksProc u n => exact command_concludes hf u .ks (genLoop_alike (ksStep_alike u) n.toNat)
  | ksFlush u => exact command_concludes hf u .ks ((ksFlush_alike u).map _)
  | ksTune u freq => exact command_concludes hf u .ks ((ksTune_alike u freq).map _)
  | ksTrig u => exact command_concludes hf u .ks ((ksTrig_alike u).map _)
  | ksMute u => exact command_concludes hf u .ks ((ksMute_alike u).map _)
  | vbStep u => exact command_concludes hf u .vb ((vbStep_alike u).map _)
  | vbProc u n => exact command_concludes hf u .vb (genLoop_alike (vbStep_alike u) n.toNat)
  | vbFlush u => exact command_concludes hf u .vb ((vbFlush_alike u).map _)
  | dmStep u => exact command_concludes hf u .dm ((dmStep_alike u).map _)
  | dmProc u n => exact command_concludes hf u .dm (genLoop_alike (dmStep_alike u) n.toNat)
  | dmFlush u => exact command_concludes hf u .dm ((dmFlush_alike u).map _)
  | dmSetup u => exact command_concludes hf u .dm ((dmSetup_alike u).map _)
  | dmRdcfg u => exact command_concludes hf u .dm ((getDm_alike u).map _)
  | _ => exact absurd rfl hi

/-- A command that faults gives no response (R368). -/
theorem exec_faulting_respOut {i : Instr} {t : State} (h : exec i s = .next t) (ht : t.fault = true) :
    t.respOut = s.respOut := by
  obtain ⟨r, hexec, halike⟩ := exec_concludes hf i
  have hends := halike.ends
  rw [hexec] at h
  cases r with
  | ok ws t' =>
    obtain rfl := Host.Outcome.next.inj h
    have hclear : t'.fault = false := Eq.trans hends hf
    exact absurd (hclear.symm.trans ht) Bool.false_ne_true
  | raised t' =>
    obtain rfl := Host.Outcome.next.inj h
    exact halike.respOut_of_raised rfl
  | stop e => cases h
  | refuse e => cases h

end

end Sys2Proof.Machine
end

section
/-! PROOF of O17 and O18. The producer waits or posts one message; a post is dropped, faults or is appended. -/

namespace Sys2Proof.Machine

/-! ## A post -/

section
variable {s : State} {m : Message}

theorem State.post_faulted (hf : s.fault = true) : s.post m = s.answer .dropped := if_pos hf

section
variable (hf : s.fault = false)
include hf

theorem State.post_notMailable (hm : mailable m.cw = false) :
    s.post m = (s.withFault 1 (unitField m.cw)).answer .dropped := by
  rw [State.post, if_neg (Bool.eq_false_iff.1 hf), if_pos hm, State.recordFault_first hf, causeCode]

variable (hm : mailable m.cw = true)
include hm

theorem State.post_full (hfull : s.params.mboxDepth ≤ s.mbox.length) : s.post m = s.answer .dropped := by
  rw [State.post, if_neg (Bool.eq_false_iff.1 hf), if_neg (by simp [hm]), if_pos hfull]

theorem State.post_room (hroom : s.mbox.length < s.params.mboxDepth) :
    s.post m = ({ s with mbox := s.mbox ++ [m] }).answer .accepted := by
  rw [State.post, if_neg (Bool.eq_false_iff.1 hf), if_neg (by simp [hm]), if_neg (Nat.not_le.2 hroom)]

end

/-- What a post can do (R372). -/
theorem State.post_cases (s : State) (m : Message) : s.post m = s.answer .dropped ∨
    s.post m = (s.withFault 1 (unitField m.cw)).answer .dropped ∨
    s.post m = ({ s with mbox := s.mbox ++ [m] }).answer .accepted := by
  obtain hf | hf := Bool.eq_false_or_eq_true s.fault
  · exact .inl (State.post_faulted hf)
  obtain hm | hm := Bool.eq_false_or_eq_true (mailable m.cw)
  · obtain hfull | hroom := le_or_gt s.params.mboxDepth s.mbox.length
    · exact .inl (State.post_full hf hm hfull)
    · exact .inr (.inr (State.post_room hf hm hroom))
  · exact .inr (.inl (State.post_notMailable hf hm))

end

/-! ## The producer's step -/

theorem step_of_producerTurn {s : State} {ts : List Turn} (h : s.turns = .producer :: ts) :
    step s = .next (producerStep { s with turns := ts }) := by
  rw [step, h]

/-- A whole command on the control port is posted. -/
theorem producerStep_whole {s : State} {cw : Word} {rest : List Word} (hin : s.ctlIn = cw :: rest)
    (hlen : operandCount s.firOrder cw ≤ rest.length) : producerStep s =
      ({ s with ctlIn := rest.drop (operandCount s.firOrder cw) }).post
        ⟨cw, rest.take (operandCount s.firOrder cw)⟩ := by
  rw [producerStep, hin]
  exact if_neg (Nat.not_lt.2 hlen)

/-- What the producer can do: wait or post. -/
theorem producerStep_cases (s : State) :
    producerStep s = s ∨ ∃ rest m, producerStep s = ({ s with ctlIn := rest }).post m := by
  cases hin : s.ctlIn with
  | nil => exact .inl (by rw [producerStep, hin])
  | cons cw rest =>
    by_cases hshort : rest.length < operandCount s.firOrder cw
    · refine .inl ?_
      rw [producerStep, hin]
      exact if_pos hshort
    · exact .inr ⟨_, _, producerStep_whole hin (Nat.not_lt.1 hshort)⟩

/-- Settles O17: the command is whole, so it is posted; the rest is the rule of a post. -/
theorem postRule : Obligations.PostRule := by
  intro s ts cw rest hturn hin hlen
  have hstep : step s = .next _ :=
    (step_of_producerTurn hturn).trans
      (congrArg Host.Outcome.next (producerStep_whole (s := { s with turns := ts }) hin hlen))
  rw [hstep]
  exact ⟨fun hf => congrArg Host.Outcome.next (State.post_faulted hf),
    fun hf hm => congrArg Host.Outcome.next (State.post_notMailable hf hm),
    fun hf hm hfull => congrArg Host.Outcome.next (State.post_full hf hm hfull),
    fun hf hm hroom => congrArg Host.Outcome.next (State.post_room hf hm hroom)⟩

/-- Settles O18: by what the producer and then a post can do. -/
theorem producerIsolated : Obligations.ProducerIsolated := by
  intro s ts hturn
  refine ⟨_, step_of_producerTurn hturn, ?_⟩
  obtain hwait | ⟨rest, m, hpost⟩ := producerStep_cases { s with turns := ts }
  · rw [hwait]
    exact ⟨rfl, rfl, rfl, rfl, rfl, rfl, rfl, rfl, .inl rfl⟩
  · rw [hpost]
    obtain hp | hp | hp := State.post_cases { s with turns := ts, ctlIn := rest } m
    · rw [hp]
      exact ⟨rfl, rfl, rfl, rfl, rfl, rfl, rfl, rfl, .inl rfl⟩
    · rw [hp]
      exact ⟨rfl, rfl, rfl, rfl, rfl, rfl, rfl, rfl, .inl rfl⟩
    · rw [hp]
      exact ⟨rfl, rfl, rfl, rfl, rfl, rfl, rfl, rfl, .inr ⟨m, rfl⟩⟩

end Sys2Proof.Machine
end

section
/-! PROOF of O9 and O10. The reset event makes every unit anew from its entry in the table of units. -/

namespace Sys2Proof.Machine

theorem UnitRec.fresh_isReset (p : Params) (e : InstEntry) : (UnitRec.fresh p e).isReset p := by
  cases e with
  | bq => exact ⟨rfl, rfl, rfl⟩
  | fo => exact ⟨rfl, rfl⟩
  | fir o l => exact ⟨fun _ => rfl, rfl, rfl⟩
  | dl l | fd l => exact ⟨fun _ => rfl, rfl, rfl, rfl⟩
  | ws tmax => exact (rfl : false = false)
  | ts inp curve fb dc => exact ⟨rfl, rfl⟩
  | pa s0 s1 s2 => trivial
  | apf d | cmb d => exact (rfl : false = false)
  | rv a0 a1 a2 b0 b1 b2 b3 => exact (rfl : false = false)
  | ks delay damp => exact ⟨rfl, rfl⟩
  | vb voices =>
    refine ⟨fun v hv => ?_, rfl⟩
    obtain ⟨u, -, rfl⟩ := List.mem_map.1 hv
    exact ⟨rfl, rfl⟩
  | dm rom lp =>
    refine ⟨rfl, rfl, rfl, rfl, fun d hd => ?_, rfl, rfl, rfl⟩
    obtain ⟨t, -, rfl⟩ := List.mem_map.1 hd
    rfl

theorem State.init_isReset (p : Params) (t : InstTable) : (State.init p t).isReset := by
  refine ⟨rfl, rfl, rfl, rfl, rfl, rfl, fun u r hu => ?_⟩
  obtain ⟨e, -, he⟩ := List.mem_map.1 (mem_of_lookup hu)
  obtain ⟨-, rfl⟩ := Prod.mk.inj he
  exact UnitRec.fresh_isReset p e.2

theorem State.isReset.fault {s : State} (h : s.isReset) : s.fault = false := by
  obtain ⟨-, hfault, -⟩ := h
  exact hfault

/-- The reset event leaves the block as it is after power-up with the same configuration (R390, R391). -/
theorem State.resetBlock_isReset (s : State) : s.resetBlock.isReset := State.init_isReset s.params s.inst

theorem step_of_resetTurn {s : State} {ts : List Turn} (h : s.turns = .reset :: ts) :
    step s = .next (State.resetBlock { s with turns := ts }) := by
  rw [step, h]

/-- Settles O9: by `State.init_isReset`, whatever the configuration. -/
theorem resetValues : Obligations.ResetValues := by
  refine ⟨State.init_isReset Params.reference InstTable.reference, fun s ts hturn => ?_⟩
  obtain ⟨hparams, hinst⟩ := State.resetBlock_config { s with turns := ts }
  exact ⟨_, step_of_resetTurn hturn, State.resetBlock_isReset _, hparams, hinst⟩

/-- Settles O10: the reference configuration is legal. -/
theorem resetMeetsInvariant : Obligations.ResetMeetsInvariant :=
  State.init_inv (by decide) (by decide +kernel) (by decide)

end Sys2Proof.Machine
end

section
/-! PROOF of O7 and O8. After a fault an agent that is not the reset event only moves words on its ports. -/

namespace Sys2Proof.Machine

/-! ## The engine -/

theorem exec_eq_sysCommand {i : Instr} (htarget : i.target = none) (hi : i ≠ .sysRdstat) :
    ∃ body, exec i = sysCommand body := by
  cases i
  case sysRdstat => exact absurd rfl hi
  case sysNop | sysSetfs | sysRdfs | sysDrain | sysRaw | sysSeed | sysRand | sysRandf => exact ⟨_, rfl⟩
  all_goals cases htarget

theorem ne_incomplete_of_decodeCommand {orders : UnitId → Nat} {cw : Word} {xs : List Word} {e : DecodeError}
    (hlen : xs.length = operandCount orders cw) (h : decodeCommand cw xs = .error e) : e ≠ .incomplete := by
  have hback := decodeCommand_decodesBack hlen
  rw [h] at hback
  generalize encodingFault cw = fault at hback
  cases hback with
  | error he => exact he

/-- A whole command that fails a check of R109 in decoding is consumed and rejected. -/
theorem engineStep_of_error {s : State} {cw : Word} {rest : List Word} {e : DecodeError} (hin : s.cmdIn = cw :: rest)
    (he : e ≠ .incomplete) (h : decode s.firOrder (cw :: rest) = .error e) :
    engineStep s = .next (rejectCommand cw { s with cmdIn := rest.drop (operandCount s.firOrder cw) }) := by
  unfold engineStep
  rw [hin]
  dsimp only
  rw [h]
  cases e with
  | incomplete => exact absurd rfl he
  | reservedOpcode | unitNotZero | immNotZero | noteBitsNotZero => rfl

section
variable {s : State} (hf : s.fault = true)
include hf

/-- After a fault every command but `SYS.RDSTAT` is ignored (R368). -/
theorem exec_faulted {i : Instr} (hi : i ≠ .sysRdstat) : exec i s = .next s := by
  cases htarget : i.target with
  | some uc =>
    obtain ⟨body, hexec⟩ := exec_eq_command htarget
    rw [hexec, command_faulted hf]
  | none =>
    obtain ⟨body, hexec⟩ := exec_eq_sysCommand htarget hi
    rw [hexec, sysCommand_faulted hf]

/-- After a fault a whole command whose word is not that of `SYS.RDSTAT` is consumed, legal or not (R104, R368). -/
theorem engineStep_consumes {cw : Word} {rest : List Word} (hin : s.cmdIn = cw :: rest)
    (hlen : operandCount s.firOrder cw ≤ rest.length) (hcw : cw ≠ 0x05000000) :
    engineStep s = .next { s with cmdIn := rest.drop (operandCount s.firOrder cw) } := by
  have hops := List.length_take_of_le hlen
  cases hd : decodeCommand cw (rest.take (operandCount s.firOrder cw)) with
  | ok i =>
    have hi : i ≠ .sysRdstat := by
      rintro rfl
      obtain ⟨-, hws⟩ := encode_of_decodeCommand hops hd
      exact hcw (List.cons.inj hws).1.symm
    rw [engineStep_of_decode (hin ▸ decode_whole_ok hlen hd)]
    exact exec_faulted (s := { s with cmdIn := rest.drop _ }) hf hi
  | error e =>
    rw [engineStep_of_error hin (ne_incomplete_of_decodeCommand hops hd) (decode_whole_error hlen hd)]
    exact congrArg Host.Outcome.next (if_pos hf)

end

/-! ## A step after a fault -/

/-- Nothing differs but the ports and the schedule. -/
def SameBlock (s t : State) : Prop := t = { s with
  cmdIn := t.cmdIn, respOut := t.respOut, ctlIn := t.ctlIn, ctlOut := t.ctlOut, turns := t.turns }

section
variable {s : State} (hf : s.fault = true)
include hf

/-- The engine waits, responds to `SYS.RDSTAT` or consumes a command. -/
theorem engineStep_faulted : ∃ t, engineStep s = .next t ∧ SameBlock s t := by
  cases hin : s.cmdIn with
  | nil => exact ⟨s, engineStep_waits (.inl hin), rfl⟩
  | cons cw rest =>
    obtain hlen | hshort := le_or_gt (operandCount s.firOrder cw) rest.length
    · by_cases hcw : cw = 0x05000000
      · subst hcw
        have hd : decode s.firOrder s.cmdIn = .ok (.sysRdstat, rest) :=
          hin ▸ decode_encode (i := .sysRdstat) rfl rest
        exact ⟨_, engineStep_of_decode hd, rfl⟩
      · exact ⟨_, engineStep_consumes hf hin hlen hcw, rfl⟩
    · exact ⟨s, engineStep_waits (.inr ⟨cw, rest, hin, hshort⟩), rfl⟩

/-- The producer waits or has its message dropped. -/
theorem producerStep_faulted : SameBlock s (producerStep s) := by
  obtain hwait | ⟨rest, m, hpost⟩ := producerStep_cases s
  · rw [hwait]
    rfl
  · rw [hpost, State.post_faulted (s := { s with ctlIn := rest }) hf]
    rfl

/-- A step that is not the reset event leaves the block as it is (R368, R369). -/
theorem step_faulted {t : State} (hturn : ∀ ts, s.turns ≠ .reset :: ts) (h : step s = .next t) : SameBlock s t := by
  have engine {ts : List Turn} (hs : s.engineTurn ts) : SameBlock s t := by
    obtain ⟨t', he, hsame⟩ := engineStep_faulted (s := { s with turns := ts }) hf
    rw [step_of_engineTurn hs, he] at h
    obtain rfl := Host.Outcome.next.inj h
    exact hsame
  cases hs : s.turns with
  | nil => exact engine (.inl ⟨hs, rfl⟩)
  | cons turn ts =>
    cases turn with
    | engine => exact engine (.inr hs)
    | producer =>
      rw [step_of_producerTurn hs] at h
      obtain rfl := Host.Outcome.next.inj h
      exact producerStep_faulted (s := { s with turns := ts }) hf
    | reset => exact absurd hs (hturn ts)

end

/-! ## The obligations -/

/-- Settles O7: a faulting command by `exec_concludes`, the engine by `engineStep_consumes`, a post by O17. -/
theorem faultStopsTheBlock : Obligations.FaultStopsTheBlock := by
  refine ⟨fun i s t hf h ht => exec_faulting_respOut hf h ht, fun i s hf hi => exec_faulted hf hi, fun s _ => rfl,
    fun s ts cw rest hturn hf hin hlen hcw => ?engine, fun s ts cw rest hturn hf hin hlen => ?post⟩
  case engine =>
    rw [step_of_engineTurn hturn]
    exact engineStep_consumes (s := { s with turns := ts }) hf hin hlen hcw
  case post =>
    obtain ⟨hdropped, -⟩ := postRule s ts cw rest hturn hin hlen
    exact hdropped hf

/-- Settles O8: by `step_faulted`, and for the reset event by O9. -/
theorem onlyResetClearsFault : Obligations.OnlyResetClearsFault := by
  refine ⟨fun s t hf hturn h => ?kept, fun s ts _ hturn => ?reset⟩
  case kept =>
    have hsame : t = _ := step_faulted hf hturn h
    rw [hsame]
    exact ⟨hf, rfl, rfl, rfl, rfl, rfl, rfl, rfl⟩
  case reset =>
    obtain ⟨-, hevent⟩ := resetValues
    obtain ⟨t, hstep, hreset, -⟩ := hevent s ts hturn
    exact ⟨t, hstep, hreset.fault, hreset⟩

end Sys2Proof.Machine
end
